-- ==== Sys2Proof/Word.lean ====
section
/-! DEFINITION. The word types of the COFFEE core (00_scope.md R7, R9). -/

namespace Sys2Proof

/-- A 32-bit word: a general register, a data word, an address (00_scope.md R7, R14). -/
abbrev Word := BitVec 32

/-- A byte of memory (00_scope.md R14). -/
abbrev Byte := BitVec 8

/-- The number of values of a 32-bit word. -/
abbrev wordCount : Nat := 4294967296

/-- The unsigned value of a word as an integer: `uint` of 00_scope.md R10. -/
abbrev uint (w : Word) : Int := (w.toNat : Int)

/-- The two's-complement value of a word: `sint` of 00_scope.md R10. -/
abbrev sint (w : Word) : Int := w.toInt

end Sys2Proof
end

