-- ==== Sys2Proof/Syntax.lean ====
section
/-! DEFINITION. The instruction terms (00_scope.md R6, 30_encoding.md R141, R160). One constructor for each
mnemonic of spec/opcode_table.json; the table's rows of one mnemonic (32-bit unconditional, 32-bit conditional,
16-bit) are the forms of that constructor's operands. -/

namespace Sys2Proof

/-- The two encodings, selected by PSR.IL (30_encoding.md R142): 16-bit and 32-bit instruction words. -/
inductive Mode where
  | m16 | m32
deriving DecidableEq, Repr, Inhabited

/-- The eight condition mnemonics (10_state.md R27, Table 2-3). -/
inductive Cond where
  | c | egt | elt | eq | gt | lt | ne | nc
deriving DecidableEq, Repr, Inhabited

/-- The prefix `(cond, creg)` of a conditionally executed 32-bit instruction (30_encoding.md R146). -/
structure Guard where
  cond : Cond
  cr : Fin 8
deriving DecidableEq, Repr, Inhabited

/-- Register-register operands: `op dreg, sreg1, sreg2` and the 16-bit `op dr, sr` (30_encoding.md R160). A
16-bit register field value n names index 24 + n (10_state.md R38). -/
inductive OpsRR where
  | w32 (g : Option Guard) (dr sr1 sr2 : Fin 32)
  | w16 (dr sr : Fin 8)
deriving DecidableEq, Repr, Inhabited

/-- Register-immediate operands: `op dreg, sreg1, imm` and the 16-bit `op dr, imm`. -/
inductive OpsRI where
  | w32 (g : Option Guard) (dr sr : Fin 32) (imm : Int)
  | w16 (dr : Fin 8) (imm : Int)
deriving DecidableEq, Repr, Inhabited

/-- Two registers and an immediate in both modes: `exb`, `exh` (dr, sr, imm), `ld` (dr, base, simm),
`st` (data, base, simm), in source order. -/
inductive OpsRRI where
  | w32 (g : Option Guard) (ra rb : Fin 32) (imm : Int)
  | w16 (ra rb : Fin 8) (imm : Int)
deriving DecidableEq, Repr, Inhabited

/-- Destination and one source, in both modes: `not`, `mov`. -/
inductive OpsR2 where
  | w32 (g : Option Guard) (dr sr : Fin 32)
  | w16 (dr sr : Fin 8)
deriving DecidableEq, Repr, Inhabited

/-- One register with an optional condition: `mulhi` (destination), `jalr`, `jmpr` (source). -/
inductive OpsR1 where
  | w32 (g : Option Guard) (r : Fin 32)
  | w16 (r : Fin 8)
deriving DecidableEq, Repr, Inhabited

/-- One register, never conditional: `rcon` (source), `scon` (destination). -/
inductive OpsR1u where
  | w32 (r : Fin 32)
  | w16 (r : Fin 8)
deriving DecidableEq, Repr, Inhabited

/-- A branch: condition register and offset; the 16-bit form always uses C0 (43_branch.md R390). -/
inductive OpsBr where
  | w32 (cr : Fin 8) (imm : Int)
  | w16 (imm : Int)
deriving DecidableEq, Repr, Inhabited

/-- A PC-relative jump: the offset in halfwords (44_jump.md R410). -/
inductive OpsJ where
  | w32 (imm : Int)
  | w16 (imm : Int)
deriving DecidableEq, Repr, Inhabited

/-- `cmp`: the 16-bit form always writes C0 and keeps its operand order (45_compare.md R431). -/
inductive OpsCmp where
  | w32 (cr : Fin 8) (sr1 sr2 : Fin 32)
  | w16 (sr1 sr2 : Fin 8)
deriving DecidableEq, Repr, Inhabited

/-- `cmpi`: the 16-bit form always writes C0 (45_compare.md R432). -/
inductive OpsCmpi where
  | w32 (cr : Fin 8) (sr : Fin 32) (imm : Int)
  | w16 (sr : Fin 8) (imm : Int)
deriving DecidableEq, Repr, Inhabited

/-- `movfc n, r, cpr` and `movtc n, cpr, r`: coprocessor number, coprocessor register, core register
(48_coprocessor.md R481, R482). -/
inductive OpsCp where
  | w32 (g : Option Guard) (n : Fin 4) (cpr : Fin 32) (r : Fin 32)
  | w16 (n : Fin 4) (cpr : Fin 32) (r : Fin 8)
deriving DecidableEq, Repr, Inhabited

/-- No operand, an optional condition in 32-bit mode: `scall`. -/
inductive OpsG where
  | w32 (g : Option Guard)
  | w16
deriving DecidableEq, Repr, Inhabited

/-- The fields of a coprocessor word that names a Milk operation (30_encoding.md R148): coprocessor number, destination,
first and second source, and bits 23..21. An operation with one operand reads `sr1` and ignores `sr2`, `fnop` ignores
all three register fields, and no operation reads bits 23..21; the term keeps these bits because the word, with them, is
what the coprocessor receives (10_state.md R89, 48_coprocessor.md R483; log 3). -/
structure OpsF where
  n : Fin 4
  dr : Fin 32
  sr1 : Fin 32
  sr2 : Fin 32
  top : BitVec 3
deriving DecidableEq, Repr, Inhabited

/-- The instruction terms of the COFFEE core, version 1.0. -/
inductive Instr where
  -- integer arithmetic (40_integer_arithmetic.md)
  | add (o : OpsRR)
  | addi (o : OpsRI)
  | addiu (o : OpsRI)
  | addu (o : OpsRR)
  | mulhi (o : OpsR1)
  | muli (o : OpsRI)
  | muls (o : OpsRR)
  | muls16 (o : OpsRR)
  | mulu (o : OpsRR)
  | mulu16 (o : OpsRR)
  | mulus (o : OpsRR)
  | mulus16 (o : OpsRR)
  | sub (o : OpsRR)
  | subu (o : OpsRR)
  -- byte and bit field (41_byte_bitfield.md)
  | conb (o : OpsRR)
  | conh (o : OpsRR)
  | exb (o : OpsRRI)
  | exbf (o : OpsRR)
  | exbfi (dr sr : Fin 32) (len pos : Nat)
  | exh (o : OpsRRI)
  | lli (dr : Fin 32) (imm : Nat)
  | lui (dr : Fin 32) (imm : Nat)
  | sext (o : OpsRR)
  | sexti (o : OpsRI)
  -- boolean (42_boolean.md)
  | and (o : OpsRR)
  | andi (o : OpsRI)
  | not (o : OpsR2)
  | or (o : OpsRR)
  | ori (o : OpsRI)
  | xor (o : OpsRR)
  -- branch (43_branch.md)
  | bc (o : OpsBr)
  | begt (o : OpsBr)
  | belt (o : OpsBr)
  | beq (o : OpsBr)
  | bgt (o : OpsBr)
  | blt (o : OpsBr)
  | bne (o : OpsBr)
  | bnc (o : OpsBr)
  -- jump (44_jump.md)
  | jal (o : OpsJ)
  | jmp (o : OpsJ)
  | jalr (o : OpsR1)
  | jmpr (o : OpsR1)
  -- compare (45_compare.md)
  | cmp (o : OpsCmp)
  | cmpi (o : OpsCmpi)
  -- shift (46_shift.md)
  | sll (o : OpsRR)
  | slli (o : OpsRI)
  | sra (o : OpsRR)
  | srai (o : OpsRI)
  | srl (o : OpsRR)
  | srli (o : OpsRI)
  -- load, store, move (47_load_store_move.md)
  | ld (o : OpsRRI)
  | mov (o : OpsR2)
  | st (o : OpsRRI)
  -- coprocessor moves (48_coprocessor.md)
  | movfc (o : OpsCp)
  | movtc (o : OpsCp)
  -- miscellaneous (49_miscellaneous.md)
  | chrs (m : Mode) (imm : Nat)
  | di (m : Mode)
  | ei (m : Mode)
  | nop (m : Mode)
  | rcon (o : OpsR1u)
  | reti (m : Mode)
  | retu (m : Mode)
  | scall (o : OpsG)
  | scon (o : OpsR1u)
  | swm (m : Mode) (target : Mode)
  | trap (imm : Nat)
  -- coprocessor instruction words (48_coprocessor.md): the generic word, then Milk
  | cop (n : Fin 4) (payload : BitVec 24)
  | fadd (o : OpsF)
  | fsub (o : OpsF)
  | fmul (o : OpsF)
  | fdiv (o : OpsF)
  | fsqrt (o : OpsF)
  | fabs (o : OpsF)
  | fmov (o : OpsF)
  | fneg (o : OpsF)
  | fnop (o : OpsF)
  | fcvts (o : OpsF)
  | fcvtw (o : OpsF)
  | fcc (code : BitVec 6) (o : OpsF)
deriving DecidableEq, Repr, Inhabited

end Sys2Proof
end

