-- ==== Sys2Proof/Config.lean ====
section
/-! DEFINITION. What an implementation or a platform fixes, and the free values the spec leaves open
(93_implementation_defined.md). The opaque constants have no body: no proof can see their values. -/

namespace Sys2Proof

/-! ### The parameter DECODE: its types (30_encoding.md R141, log 1) -/

/-- The core mnemonics that have an operation code of their own (30_encoding.md R160), and `cop` (R156). -/
inductive Op where
  | add | addi | addiu | addu | mulhi | muli | muls | muls16 | mulu | mulu16 | mulus | mulus16 | sub | subu
  | conb | conh | exb | exbf | exbfi | exh | lli | lui | sext | sexti
  | and | andi | not | or | ori | xor
  | bc | begt | belt | beq | bgt | blt | bne | bnc
  | jal | jmp | jalr | jmpr
  | cmp | cmpi
  | sll | slli | sra | srai | srl | srli
  | ld | mov | st | movfc | movtc
  | chrs | di | ei | nop | rcon | reti | retu | scall | scon | swm | trap | cop
deriving DecidableEq, Repr, Inhabited

/-- The formats of a row of spec/opcode_table.json: 32-bit unconditional, 32-bit conditional, 16-bit; and the
16-bit word whose operation code selects a 32-bit-only instruction (30_encoding.md R157 (b), R161 (2)). -/
inductive Fmt where
  | u32 | c32 | w16 | x16
deriving DecidableEq, Repr, Inhabited

/-- A row: a mnemonic in a format. -/
structure Row where
  op : Op
  fmt : Fmt
deriving DecidableEq, Repr, Inhabited

/-- What one bit of an instruction word is: a bit the row fixes, a bit the decoder ignores (with the value the
assembler writes), or bit `bit` of operand number `operand`. -/
inductive PBit where
  | lit (b : Bool)
  | spare (b : Bool)
  | arg (operand bit : Nat)
deriving DecidableEq, Repr, Inhabited

/-- The Milk operations named by the manual, the compare family apart (48_coprocessor.md R490 to R500). -/
inductive MilkOp where
  | fadd | fsub | fmul | fdiv | fsqrt | fabs | fmov | fneg | fnop | fcvts | fcvtw
deriving DecidableEq, Repr, Inhabited

/-- What a 6-bit Milk operation code stands for: a named operation, a comparison (R501), or nothing the manual
describes. -/
inductive MilkKind where
  | op (o : MilkOp)
  | compare
  | undescribed
deriving DecidableEq, Repr, Inhabited

/-- A value of the parameter DECODE: for every row its operation code (30_encoding.md R143, R145) and, the most
significant first, what each bit after it is, apart from the bits the spec gives the places of (R149, R155; `Row.tail`);
the operation code of the core's `cop`; Milk's operation codes (R141, R148, R156); and which codes are comparisons, by
their five low bits: comparisons come in pairs that differ in the top bit (48_coprocessor.md R501). -/
structure EncTable where
  opcode : Row → BitVec 6
  body : Row → List PBit
  copOpcode : BitVec 6
  milkCode : MilkOp → BitVec 6
  compares : BitVec 5 → Bool

/-- The Milk operations named by the manual. -/
def milkOps : List MilkOp := [.fadd, .fsub, .fmul, .fdiv, .fsqrt, .fabs, .fmov, .fneg, .fnop, .fcvts, .fcvtw]

/-- What a Milk operation code stands for (48_coprocessor.md R486, R490 to R501). -/
def EncTable.milkKind (T : EncTable) (code : BitVec 6) : MilkKind :=
  match milkOps.find? (fun m => T.milkCode m = code) with
  | some m => .op m
  | none => if T.compares (code.extractLsb' 0 5) then .compare else .undescribed

/-- What a coprocessor slot of the platform holds (48_coprocessor.md R480): nothing, a Milk, or a device the manual does
not describe. -/
inductive CopKind where
  | absent | milk | other
deriving DecidableEq, Repr, Inhabited

/-- How two operands compare for a Milk comparison (48_coprocessor.md R501). -/
inductive FpRel where
  | less | equal | greater | unordered
deriving DecidableEq, Repr, Inhabited

namespace Config

/-! ### The parameter DECODE (30_encoding.md R141, 92 D1; log 1) -/

opaque rowOpcode : Row → BitVec 6
opaque rowBody : Row → List PBit
opaque copOpcode : BitVec 6
opaque milkCode : MilkOp → BitVec 6
opaque milkCompares : BitVec 5 → Bool

/-- The machine's own, unknown, value of DECODE. -/
def enc : EncTable :=
  { opcode := rowOpcode, body := rowBody, copOpcode := copOpcode, milkCode := milkCode, compares := milkCompares }

/-! ### Parameters of the platform (93_implementation_defined.md section 2) -/

/-- BOOT_ADDR (70_reset_and_hazards.md R701). DESIGN CHOICE, unsafe: the spec's default value (log 6). -/
def bootAddr : Word := 0#32

/-- HWS_DEPTH less one (10_state.md R93; log 31). -/
opaque hwsDepthLessOne : Nat

/-- HWS_DEPTH (00_scope.md R8, 10_state.md R93, 60_exceptions.md R644): a positive number that no proof can see; the
spec's default, twelve, is not used (log 31). -/
def hwsDepth : Nat := hwsDepthLessOne + 1

/-- COP_PRESENT (48_coprocessor.md R480). DESIGN CHOICE, unsafe: the platform of `State.reset` has a Milk in slot 0 and
nothing in the others (log 34). -/
def copPresent : Vector CopKind 4 := #v[.milk, .absent, .absent, .absent]

/-- SUB_CARRY: `true` when C after a subtraction or compare is a borrow, `false` when it is the adder's carry
out (40_integer_arithmetic.md R302, U18; log 11). -/
opaque subCarryIsBorrow : Bool

/-- DMEM_GRANULE: `true` for WORD, `false` for BYTE (20_memory.md R103, 47_load_store_move.md R465; log 9). -/
opaque dmemWordGranule : Bool

/-- EXT_INT_CTRL: whether an external interrupt controller is present (60_exceptions.md R634; log 30). -/
opaque extIntCtrl : Bool

/-- Whether `st` can write EXCEPTION_PSR (10_state.md R64, U14; log 23). -/
opaque exceptionPsrWritable : Bool

/-- Whether a branch that is not taken has its target checked (43_branch.md R391, U23; log 17). -/
opaque notTakenChecked : Bool

/-- FSUB_ORDER: `true` for SR2_MINUS_SR1 (48_coprocessor.md R491; log 40). -/
opaque fsubSr2MinusSr1 : Bool

/-- FDIV_ORDER: `true` for SR2_OVER_SR1 (48_coprocessor.md R493; log 40). -/
opaque fdivSr2OverSr1 : Bool

/-- Whether a NaN with this fraction is signalling (48_coprocessor.md R490 names SNaN and does not say which
NaNs are signalling; log 37). -/
opaque isSignalling : BitVec 23 → Bool

/-- The word a Milk comparison writes, by the five low bits of its operation code and the relation found: the
conditions and the values for true and false are in a missing document, and the two codes of a pair, which differ in
the top bit, name one condition (48_coprocessor.md R501, N45; log 42). -/
opaque compareResult : BitVec 5 → FpRel → Word

/-! ### Free values, indexed by the counter State.freeCtr (log 10)

One function for each use, so that two open values of one instruction are independent. -/

/-- An undefined 32-bit result written to a register. -/
opaque freeWord : Nat → Word
/-- The link address past FFFFFFFFH (44_jump.md R415, U10). -/
opaque freeLink : Nat → Word
/-- The pc after sequential execution past FFFFFFFFH (10_state.md R23, U10). -/
opaque freePc : Nat → Word
/-- How the condition `lt` of a prefix evaluates on Z = N = 1 (10_state.md R28, U6). -/
opaque freeCond : Nat → Bool
/-- The carry of a left shift by 0 (46_shift.md R441, U5). -/
opaque freeCarry : Nat → Bool
/-- SPSR[31:8] after `scall` (10_state.md R33, U11). -/
opaque freeSpsr : Nat → BitVec 24
/-- What RETI_ADDR, RETI_PSR and RETI_CR0 show of an empty hardware stack (10_state.md R94, U16). -/
opaque freeHws : Nat → BitVec 43
/-- The OFFSET an external interrupt controller supplies (60_exceptions.md R634). -/
opaque freeOffset : Nat → BitVec 8
/-- Which of the two neighbouring representable values an inexact Milk result is (48_coprocessor.md R486). -/
opaque freeRound : Nat → Bool
/-- The sign of a Milk result that is zero (48_coprocessor.md R486; log 38). -/
opaque freeZeroSign : Nat → Bool
/-- An open choice whether a Milk flag is raised (log 39, 41). -/
opaque freeFlag : Nat → Bool
/-- The seven flags of a Milk instruction where none is determined (log 40, 41, 42); `openFlags` keeps of them what
48_coprocessor.md R486 allows a described instruction. -/
opaque freeFlags : Nat → BitVec 7
/-- The registers of a Milk after a write to a register whose index the manual does not give
(48_coprocessor.md R482, N30; log 35). -/
opaque freeMilk : Nat → Nat → Word

end Config
end Sys2Proof
end

