-- ==== Sys2Proof/WellFormed.lean ====
section
/-! DEFINITION. Well-formed terms: every immediate in the range of Table 3-14 for its mode and its conditional or
unconditional form (30_encoding.md R150, R153), coprocessor terms with a code of their own (R161), and the forms that
exist in a mode (R158, R160). -/

namespace Sys2Proof

/-- The n-bit signed range -2^(n-1) .. 2^(n-1)-1. -/
def fitsS (n : Nat) (i : Int) : Bool := decide (-(2 ^ (n - 1) : Int) ≤ i) && decide (i < (2 ^ (n - 1) : Int))

/-- The range 0 .. hi. -/
def fitsU (hi : Int) (i : Int) : Bool := decide (0 ≤ i) && decide (i ≤ hi)

/-- Range of the signed immediates of `addi`, `muli` (R150): 7, 9 or 15 bits. -/
def OpsRI.wfSigned : OpsRI → Bool
  | .w32 none _ _ i => fitsS 15 i
  | .w32 (some _) _ _ i => fitsS 9 i
  | .w16 _ i => fitsS 7 i

/-- Range of the unsigned immediates of `addiu`, `andi`, `ori` (R150): 7, 9 or 15 bits. -/
def OpsRI.wfUnsigned : OpsRI → Bool
  | .w32 none _ _ i => fitsU 32767 i
  | .w32 (some _) _ _ i => fitsU 511 i
  | .w16 _ i => fitsU 127 i

/-- One upper bound in every form: the shift amounts 0..32, `sexti` 0..31 (R150). -/
def OpsRI.wfUpto (hi : Int) : OpsRI → Bool
  | .w32 _ _ _ i => fitsU hi i
  | .w16 _ i => fitsU hi i

/-- `exb` 0..3, `exh` 0 or 1 (R150). -/
def OpsRRI.wfUpto (hi : Int) : OpsRRI → Bool
  | .w32 _ _ _ i => fitsU hi i
  | .w16 _ _ i => fitsU hi i

/-- The offsets of `ld` and `st`: 4, 9 or 15 bits signed (R150). -/
def OpsRRI.wfOffset : OpsRRI → Bool
  | .w32 none _ _ i => fitsS 15 i
  | .w32 (some _) _ _ i => fitsS 9 i
  | .w16 _ _ i => fitsS 4 i

/-- The branch offsets: 10 or 22 bits signed (R150). -/
def OpsBr.wf : OpsBr → Bool
  | .w32 _ i => fitsS 22 i
  | .w16 i => fitsS 10 i

/-- The offsets of `jal` and `jmp`: 10 or 25 bits signed (R150). -/
def OpsJ.wf : OpsJ → Bool
  | .w32 i => fitsS 25 i
  | .w16 i => fitsS 10 i

/-- The immediates of `cmpi`: 7 or 17 bits signed (R150). -/
def OpsCmpi.wf : OpsCmpi → Bool
  | .w32 _ _ i => fitsS 17 i
  | .w16 _ i => fitsS 7 i

/-- The immediates of a term are in the range of Table 3-14 (30_encoding.md R150, R153). -/
def Instr.inRange : Instr → Bool
  | .addi o | .muli o => o.wfSigned
  | .addiu o | .andi o | .ori o => o.wfUnsigned
  | .slli o | .srai o | .srli o => o.wfUpto 32
  | .sexti o => o.wfUpto 31
  | .exb o => o.wfUpto 3
  | .exh o => o.wfUpto 1
  | .exbfi _ _ len pos => decide (len ≤ 32) && decide (pos ≤ 31)
  | .lli _ i | .lui _ i => decide (i < 65536)
  | .bc o | .begt o | .belt o | .beq o | .bgt o | .blt o | .bne o | .bnc o => o.wf
  | .jal o | .jmp o => o.wf
  | .cmpi o => o.wf
  | .ld o | .st o => o.wfOffset
  | .chrs _ i => decide (i ≤ 3)
  | .trap i => decide (i ≤ 31)
  | .add _ | .addu _ | .mulhi _ | .muls _ | .muls16 _ | .mulu _ | .mulu16 _ | .mulus _ | .mulus16 _ | .sub _
  | .subu _ | .conb _ | .conh _ | .exbf _ | .sext _ | .and _ | .not _ | .or _ | .xor _ | .jalr _ | .jmpr _
  | .cmp _ | .sll _ | .sra _ | .srl _ | .mov _ | .movfc _ | .movtc _ | .di _ | .ei _ | .nop _ | .rcon _
  | .reti _ | .retu _ | .scall _ | .scon _ | .swm _ _ | .fadd _ | .fsub _ | .fmul _ | .fdiv _ | .fsqrt _
  | .fabs _ | .fmov _ | .fneg _ | .fnop _ | .fcvts _ | .fcvtw _ | .fcc _ _ | .cop _ _ => true

/-- A coprocessor term whose operation code stands for what the term says, so that two terms never have one word
(30_encoding.md R161 (4), (6)): a `cop` term has a code that names nothing the manual describes. -/
def Instr.coded (T : EncTable) : Instr → Bool
  | .cop _ p => decide (T.milkKind (p.extractLsb' 0 6) = .undescribed)
  | .fcc code _ => decide (T.milkKind code = .compare)
  | _ => true

/-- A term is well formed under a value of DECODE (30_encoding.md R153, R161). -/
def Instr.wfIn (T : EncTable) (i : Instr) : Bool := i.inRange && i.coded T

/-- A well-formed term of the machine. -/
def Instr.wf (i : Instr) : Bool := i.wfIn Config.enc

def OpsRR.mode : OpsRR → Mode | .w32 .. => .m32 | .w16 .. => .m16
def OpsRI.mode : OpsRI → Mode | .w32 .. => .m32 | .w16 .. => .m16
def OpsRRI.mode : OpsRRI → Mode | .w32 .. => .m32 | .w16 .. => .m16
def OpsR2.mode : OpsR2 → Mode | .w32 .. => .m32 | .w16 .. => .m16
def OpsR1.mode : OpsR1 → Mode | .w32 .. => .m32 | .w16 .. => .m16
def OpsR1u.mode : OpsR1u → Mode | .w32 .. => .m32 | .w16 .. => .m16
def OpsBr.mode : OpsBr → Mode | .w32 .. => .m32 | .w16 .. => .m16
def OpsJ.mode : OpsJ → Mode | .w32 .. => .m32 | .w16 .. => .m16
def OpsCmp.mode : OpsCmp → Mode | .w32 .. => .m32 | .w16 .. => .m16
def OpsCmpi.mode : OpsCmpi → Mode | .w32 .. => .m32 | .w16 .. => .m16
def OpsCp.mode : OpsCp → Mode | .w32 .. => .m32 | .w16 .. => .m16
def OpsG.mode : OpsG → Mode | .w32 .. => .m32 | .w16 => .m16

/-- The encoding a term is an instruction of (30_encoding.md R158, R160). -/
def Instr.mode : Instr → Mode
  | .add o | .addu o | .muls o | .muls16 o | .mulu o | .mulu16 o | .mulus o | .mulus16 o | .sub o | .subu o
  | .conb o | .conh o | .exbf o | .sext o | .and o | .or o | .xor o | .sll o | .sra o | .srl o => o.mode
  | .addi o | .addiu o | .muli o | .sexti o | .andi o | .ori o | .slli o | .srai o | .srli o => o.mode
  | .exb o | .exh o | .ld o | .st o => o.mode
  | .not o | .mov o => o.mode
  | .mulhi o | .jalr o | .jmpr o => o.mode
  | .rcon o | .scon o => o.mode
  | .bc o | .begt o | .belt o | .beq o | .bgt o | .blt o | .bne o | .bnc o => o.mode
  | .jal o | .jmp o => o.mode
  | .cmp o => o.mode
  | .cmpi o => o.mode
  | .movfc o | .movtc o => o.mode
  | .scall o => o.mode
  | .chrs m _ | .di m | .ei m | .nop m | .reti m | .retu m | .swm m _ => m
  | .exbfi .. | .lli .. | .lui .. | .trap _ | .cop .. | .fadd _ | .fsub _ | .fmul _ | .fdiv _ | .fsqrt _
  | .fabs _ | .fmov _ | .fneg _ | .fnop _ | .fcvts _ | .fcvtw _ | .fcc .. => .m32

/-- The mnemonics that exist in 32-bit mode only and raise exception 2 when met in 16-bit mode (30_encoding.md
R157 (b), R158; 60_exceptions.md R604). -/
def Instr.only32 : Instr → Bool
  | .exbfi .. | .lli .. | .lui .. | .trap _ | .cop .. | .fadd _ | .fsub _ | .fmul _ | .fdiv _ | .fsqrt _
  | .fabs _ | .fmov _ | .fneg _ | .fnop _ | .fcvts _ | .fcvtw _ | .fcc .. => true
  | .add _ | .addi _ | .addiu _ | .addu _ | .mulhi _ | .muli _ | .muls _ | .muls16 _ | .mulu _ | .mulu16 _
  | .mulus _ | .mulus16 _ | .sub _ | .subu _ | .conb _ | .conh _ | .exb _ | .exbf _ | .exh _ | .sext _
  | .sexti _ | .and _ | .andi _ | .not _ | .or _ | .ori _ | .xor _ | .bc _ | .begt _ | .belt _ | .beq _
  | .bgt _ | .blt _ | .bne _ | .bnc _ | .jal _ | .jmp _ | .jalr _ | .jmpr _ | .cmp _ | .cmpi _ | .sll _
  | .slli _ | .sra _ | .srai _ | .srl _ | .srli _ | .ld _ | .mov _ | .st _ | .movfc _ | .movtc _ | .chrs ..
  | .di _ | .ei _ | .nop _ | .rcon _ | .reti _ | .retu _ | .scall _ | .scon _ | .swm .. => false

/-- The terms a fetch in mode `m` may present: those of the mode's own encoding, and in 16-bit mode a 32-bit-only
instruction, which then raises exception 2 (20_memory.md R115, 30_encoding.md R161 (2)). -/
def Instr.fits (m : Mode) (i : Instr) : Bool := decide (i.mode = m) || (decide (m = .m16) && i.only32)

end Sys2Proof
end

