-- ==== Sys2Proof/Machine/Operands.lean ====
section
/-! DEFINITION. The operands of the instruction forms, with their roles (40_integer_arithmetic.md R304, R306,
46_shift.md R442). -/

namespace Sys2Proof

/-- The register a 3-bit field names: index 24 + n (10_state.md R38). -/
def hiReg (r : Fin 8) : Fin 32 := ⟨24 + r.val, by omega⟩

/-- A signed or unsigned immediate as a word (40_integer_arithmetic.md R310, R312). -/
def immWord (i : Int) : Word := BitVec.ofInt 32 i

/-! Register-register: the 16-bit `op dr, sr` is `op dr, sr, dr` (R306). -/

def OpsRR.guard : OpsRR → Option Guard | .w32 g .. => g | .w16 .. => none
def OpsRR.dest : OpsRR → Fin 32 | .w32 _ d _ _ => d | .w16 d _ => hiReg d
def OpsRR.first : OpsRR → Fin 32 | .w32 _ _ a _ => a | .w16 _ s => hiReg s
def OpsRR.second : OpsRR → Fin 32 | .w32 _ _ _ b => b | .w16 d _ => hiReg d

/-! `conh` takes them in the other order in its 16-bit form (41_byte_bitfield.md R341). -/

def OpsRR.conhFirst : OpsRR → Fin 32 | .w32 _ _ a _ => a | .w16 d _ => hiReg d
def OpsRR.conhSecond : OpsRR → Fin 32 | .w32 _ _ _ b => b | .w16 _ s => hiReg s

/-! Register-immediate: the 16-bit `op dr, imm` is `op dr, dr, imm` (R306). -/

def OpsRI.guard : OpsRI → Option Guard | .w32 g .. => g | .w16 .. => none
def OpsRI.dest : OpsRI → Fin 32 | .w32 _ d _ _ => d | .w16 d _ => hiReg d
def OpsRI.src : OpsRI → Fin 32 | .w32 _ _ s _ => s | .w16 d _ => hiReg d
def OpsRI.imm : OpsRI → Int | .w32 _ _ _ i => i | .w16 _ i => i

/-! Two registers and an immediate: the same operands in both modes (41_byte_bitfield.md R343, R344,
47_load_store_move.md R461, R463). -/

def OpsRRI.guard : OpsRRI → Option Guard | .w32 g .. => g | .w16 .. => none
def OpsRRI.regA : OpsRRI → Fin 32 | .w32 _ a _ _ => a | .w16 a _ _ => hiReg a
def OpsRRI.regB : OpsRRI → Fin 32 | .w32 _ _ b _ => b | .w16 _ b _ => hiReg b
def OpsRRI.imm : OpsRRI → Int | .w32 _ _ _ i => i | .w16 _ _ i => i

def OpsR2.guard : OpsR2 → Option Guard | .w32 g .. => g | .w16 .. => none
def OpsR2.dest : OpsR2 → Fin 32 | .w32 _ d _ => d | .w16 d _ => hiReg d
def OpsR2.src : OpsR2 → Fin 32 | .w32 _ _ s => s | .w16 _ s => hiReg s

def OpsR1.guard : OpsR1 → Option Guard | .w32 g _ => g | .w16 _ => none
def OpsR1.reg : OpsR1 → Fin 32 | .w32 _ r => r | .w16 r => hiReg r

def OpsR1u.reg : OpsR1u → Fin 32 | .w32 r => r | .w16 r => hiReg r

/-! Branches, compares: the condition register of a 16-bit form is C0 (43_branch.md R390, 45_compare.md R431). -/

def OpsBr.cr : OpsBr → Fin 8 | .w32 c _ => c | .w16 _ => 0
def OpsBr.imm : OpsBr → Int | .w32 _ i => i | .w16 i => i

def OpsJ.imm : OpsJ → Int | .w32 i => i | .w16 i => i

def OpsCmp.cr : OpsCmp → Fin 8 | .w32 c _ _ => c | .w16 .. => 0
def OpsCmp.first : OpsCmp → Fin 32 | .w32 _ a _ => a | .w16 a _ => hiReg a
def OpsCmp.second : OpsCmp → Fin 32 | .w32 _ _ b => b | .w16 _ b => hiReg b

def OpsCmpi.cr : OpsCmpi → Fin 8 | .w32 c _ _ => c | .w16 .. => 0
def OpsCmpi.src : OpsCmpi → Fin 32 | .w32 _ s _ => s | .w16 s _ => hiReg s
def OpsCmpi.imm : OpsCmpi → Int | .w32 _ _ i => i | .w16 _ i => i

/-! `movfc`, `movtc` (48_coprocessor.md R481, R482). -/

def OpsCp.guard : OpsCp → Option Guard | .w32 g .. => g | .w16 .. => none
def OpsCp.cop : OpsCp → Fin 4 | .w32 _ n _ _ => n | .w16 n _ _ => n
def OpsCp.cpr : OpsCp → Fin 32 | .w32 _ _ p _ => p | .w16 _ p _ => p
def OpsCp.reg : OpsCp → Fin 32 | .w32 _ _ _ r => r | .w16 _ _ r => hiReg r

def OpsG.guard : OpsG → Option Guard | .w32 g => g | .w16 => none

end Sys2Proof
end

