-- ==== Sys2Proof/Machine/State.lean ====
section
/-! DEFINITION. The architectural state of the COFFEE core (10_state.md R20 to R98), its stops, and the state after
reset (70_reset_and_hazards.md R700 to R703). -/

namespace Sys2Proof.Machine

/-- The flags of a condition register (10_state.md R25): Z, N, C. -/
structure Flags where
  z : Bool
  n : Bool
  c : Bool
deriving DecidableEq, Repr, Inhabited

/-- The five implemented flags of the PSR (10_state.md R30). -/
structure Psr where
  ie : Bool
  il : Bool
  rswr : Bool
  rsrd : Bool
  um : Bool
deriving DecidableEq, Repr, Inhabited

/-- An entry of the hardware stack (10_state.md R93): address, PSR byte, C0, and the hidden source number. -/
structure HwsEntry where
  addr : Word
  psr : BitVec 8
  cr0 : Flags
  source : Fin 12
deriving DecidableEq, Repr, Inhabited

/-- What RETI_ADDR, RETI_PSR, RETI_CR0 show while the hardware stack is empty (10_state.md R79 to R81, R94). -/
structure HwsTop where
  addr : Word
  psr : BitVec 8
  cr0 : Flags
deriving DecidableEq, Repr, Inhabited

/-- The registers of the core configuration block (10_state.md R40 to R83), each with its implemented bits.
RETI_ADDR, RETI_PSR and RETI_CR0 are the top of the hardware stack (R94) and stand in `State`. `intVec` holds
COP0_INT_VEC .. COP3_INT_VEC, EXT_INT0_VEC .. EXT_INT7_VEC by interrupt source number. -/
structure Ccb where
  ccbBase : Word
  regspcEnd : Word
  intVec : Vector Word 12
  intModeIl : BitVec 12
  intModeUm : BitVec 12
  intMask : BitVec 12
  intServ : BitVec 12
  intPend : BitVec 12
  extIntPri : Word
  copIntPri : BitVec 16
  exceptionCs : BitVec 8
  exceptionPc : Word
  exceptionPsr : BitVec 8
  dmemBoundLo : Word
  dmemBoundHi : Word
  imemBoundLo : Word
  imemBoundHi : Word
  memConf : BitVec 2
  systemAddr : Word
  excepAddr : Word
  busConf : BitVec 12
  copConf : BitVec 28
  tmr0Cnt : Word
  tmr0MaxCnt : Word
  tmr1Cnt : Word
  tmr1MaxCnt : Word
  tmrConf : Word
deriving DecidableEq, Repr, Inhabited

/-- The registers of a Milk (48_coprocessor.md R484): F0 .. F7, status register, control register. -/
structure Milk where
  f : Vector Word 8
  fsr : Word
  fcr : Word
deriving DecidableEq, Repr, Inhabited

/-- What a coprocessor slot holds (48_coprocessor.md R480). `other` is a device the manual does not describe. -/
inductive CopSlot where
  | absent
  | milk (m : Milk)
  | other
deriving DecidableEq, Repr, Inhabited

/-- An instruction of the instruction memory (20_memory.md R101): its address, the encoding it was assembled in,
its term. -/
structure IWord where
  addr : Nat
  mode : Mode
  instr : Instr
deriving DecidableEq, Repr, Inhabited

/-- The outputs a platform may observe (10_state.md R98). -/
inductive OutEvent where
  | intAck
  | intDone
  | copRgi (index : BitVec 5)
  | dataAddress (addr : Word)
deriving DecidableEq, Repr, Inhabited

/-- The state of the machine (10_state.md R20; INVENTORY.md lists every field with its rule). -/
structure State where
  /-- SET1: R0 .. R31 (R21). -/
  set1 : Vector Word 32
  /-- SET2, indexes 0 .. 28: PR0 .. PR28 (R22). -/
  pr : Vector Word 29
  /-- SET2, index 31: PR31 (R22, R34). -/
  pr31 : Word
  /-- SET2, index 30: the SPSR (R33). -/
  spsr : Word
  /-- The PSR (R30); SET2, index 29 is its read-only view (R36, R37). -/
  psr : Psr
  /-- C0 .. C7 (R25). -/
  cr : Vector Flags 8
  /-- The program counter, a byte address (R23). -/
  pc : Word
  /-- The pending target of a taken control transfer (R24). -/
  ptarget : Option Word
  /-- The product of the previous 32-bit multiplication (R86). -/
  m64 : Option (BitVec 64)
  /-- The hardware stack, its top first (R93). -/
  hws : List HwsEntry
  /-- What the top of the hardware stack shows while it is empty (R94). -/
  hwsIdle : HwsTop
  /-- The core configuration block (R40). -/
  ccb : Ccb
  /-- The data memory, as bytes (20_memory.md R102, R103, R120; log 8, 9). -/
  mem : List Host.Cell
  /-- The instruction memory (20_memory.md R101; log 5). -/
  imem : List IWord
  /-- The four coprocessor slots (48_coprocessor.md R480). -/
  cops : Vector CopSlot 4
  /-- The base the CCB had, while the instruction after a store to CCB_BASE has not run (70_reset_and_hazards.md
  R714). A field of the model (log 26). -/
  ccbMoved : Option Word
  /-- The requests the environment raises at the coming step boundaries (60_exceptions.md R631). A field of the
  model (log 29). -/
  requests : List (BitVec 12)
  /-- The outputs of the latest step, the first first (10_state.md R98). A field of the model (log 44). -/
  out : List OutEvent
  /-- The index of the free values of the next step. A field of the model (log 10). -/
  freeCtr : Nat
deriving DecidableEq, Repr

/-- Why the machine stops with nothing to go on. -/
inductive Fault where
  /-- The fetch finds no instruction at the pc (20_memory.md R115, R117, U1). Safe. -/
  | noInstruction
  /-- The fetch finds an instruction assembled for the other encoding (20_memory.md R117, U1). Safe. -/
  | wrongMode
  /-- `reti` on an empty hardware stack (70_reset_and_hazards.md R716, U8). Safe. -/
  | hwsEmpty
  /-- Interrupt entry on a full hardware stack (70_reset_and_hazards.md R716, U8). Safe. -/
  | hwsFull
deriving DecidableEq, Repr

/-- Why the model gives a step no meaning: the spec says `refuse` and names no effect. -/
inductive Refusal where
  /-- An instruction the model has no meaning for yet. No arm uses it. Safe. -/
  | notModelled (mnemonic : String)
  /-- A control-transfer instruction in the slot of a taken one (70_reset_and_hazards.md R712 (a), U7). Safe. -/
  | controlInSlot
  /-- An exception of the instruction in a slot, at fetch or in execution (R712 (b), 60_exceptions.md R616, U7).
  Safe. -/
  | exceptionInSlot
  /-- Something else than a fetchable `nop` where one is mandatory (49_miscellaneous.md R533, U17). Safe. -/
  | nopMissing
  /-- `mulhi` that does not directly follow a 32-bit multiplication (40_integer_arithmetic.md R308, U2, D11; log 15).
  Safe. -/
  | noProduct
  /-- A store to CCB_BASE of a value whose bits 7..0 are not zero (10_state.md R41, U13). Safe. -/
  | ccbBaseMisaligned
  /-- A load or store in data memory at an address that is no multiple of 4, under DMEM_GRANULE = BYTE (20_memory.md R103, D3).
  Safe. -/
  | dmemMisaligned
  /-- A load or store in the old or the new CCB range by the instruction after a remap (70_reset_and_hazards.md R714).
  Safe. -/
  | ccbRemapAccess
  /-- A step in user mode with RSRD or RSWR set (10_state.md R32, U12). Safe. -/
  | userForeignSet
deriving DecidableEq, Repr

/-- The value a byte of data memory has while nothing has been stored in it. DESIGN CHOICE, unsafe (log 8). -/
def Memory.unlisted : Byte := 0#8

/-- The CCB after reset (10_state.md R83). -/
def Ccb.reset : Ccb :=
  { ccbBase := 0x00010000#32, regspcEnd := 0x000100FF#32
    intVec := Vector.replicate 12 1#32
    intModeIl := 0xFFF#12, intModeUm := 0xFFF#12, intMask := 0#12, intServ := 0#12, intPend := 0#12
    extIntPri := 0#32, copIntPri := 0#16
    exceptionCs := 0#8, exceptionPc := 0#32, exceptionPsr := 0#8
    dmemBoundLo := 0#32, dmemBoundHi := 0xFFFFFFFF#32, imemBoundLo := 0#32, imemBoundHi := 0xFFFFFFFF#32
    memConf := 3#2, systemAddr := 1#32, excepAddr := 1#32, busConf := 0xFFF#12, copConf := 0#28
    tmr0Cnt := 0#32, tmr0MaxCnt := 0#32, tmr1Cnt := 0#32, tmr1MaxCnt := 0#32, tmrConf := 0#32 }

/-- A Milk after reset: the accumulated flags are 0 (10_state.md R88). DESIGN CHOICE, unsafe: every other bit is 0
(log 7). -/
def Milk.reset : Milk := { f := Vector.replicate 8 0#32, fsr := 0#32, fcr := 0#32 }

/-- A slot of the platform after reset (48_coprocessor.md R480). -/
def CopSlot.reset : CopKind → CopSlot
  | .absent => .absent
  | .milk => .milk Milk.reset
  | .other => .other

/-- The machine right after reset on a platform with the boot address `boot` and the coprocessors `present`
(70_reset_and_hazards.md R700 to R703, 00_scope.md R8). DESIGN CHOICE, unsafe: what the spec gives no value for is 0
(log 7). -/
def State.resetAt (boot : Word) (present : Vector CopKind 4) : State :=
  { set1 := Vector.replicate 32 0#32
    pr := Vector.replicate 29 0#32
    pr31 := 0#32
    spsr := 0#32
    psr := { ie := false, il := true, rswr := true, rsrd := true, um := false }
    cr := Vector.replicate 8 { z := false, n := false, c := false }
    pc := boot
    ptarget := none
    m64 := none
    hws := []
    hwsIdle := { addr := 0xFFFFFFFF#32, psr := 0x0E#8, cr0 := { z := false, n := false, c := false } }
    ccb := Ccb.reset
    mem := []
    imem := []
    cops := #v[CopSlot.reset present[0], CopSlot.reset present[1], CopSlot.reset present[2], CopSlot.reset present[3]]
    ccbMoved := none
    requests := []
    out := []
    freeCtr := 0 }

/-- The machine right after reset, on the platform of log 6 and log 34. -/
def State.reset : State := State.resetAt Config.bootAddr Config.copPresent

end Sys2Proof.Machine
end

