-- ==== Sys2Proof/Machine/Flags.lean ====
section
/-! DEFINITION. Flags: their packing, the conditions, and the flags of additions, subtractions, comparisons and left
shifts. -/

namespace Sys2Proof.Machine

/-- A condition register as three bits, `Z # N # C` (10_state.md R25). -/
def Flags.toBits (f : Flags) : BitVec 3 := BitVec.ofBool f.z ++ BitVec.ofBool f.n ++ BitVec.ofBool f.c

/-- The flags in three bits: bit 2 is Z, bit 1 is N, bit 0 is C (10_state.md R25). -/
def Flags.ofBits (b : BitVec 3) : Flags := { z := b.getLsbD 2, n := b.getLsbD 1, c := b.getLsbD 0 }

/-- The PSR as a byte, bits 7..5 zero (10_state.md R30). -/
def Psr.toBits (p : Psr) : BitVec 8 :=
  0#3 ++ BitVec.ofBool p.ie ++ BitVec.ofBool p.il ++ BitVec.ofBool p.rswr ++ BitVec.ofBool p.rsrd ++
    BitVec.ofBool p.um

/-- The five implemented flags of a PSR byte (10_state.md R30). -/
def Psr.ofBits (b : BitVec 8) : Psr :=
  { ie := b.getLsbD 4, il := b.getLsbD 3, rswr := b.getLsbD 2, rsrd := b.getLsbD 1, um := b.getLsbD 0 }

/-- The PSR on entry to an exception or system-call handler, 0EH (60_exceptions.md R611, 49_miscellaneous.md
R526). -/
def Psr.handler : Psr := { ie := false, il := true, rswr := true, rsrd := true, um := false }

/-- `cond_true` (10_state.md R28), with the branches' reading of `lt`. -/
def condHolds (k : Cond) (f : Flags) : Bool :=
  match k with
  | .c => f.c
  | .nc => !f.c
  | .eq => f.z
  | .ne => !f.z
  | .egt => f.z || !f.n
  | .elt => f.z || f.n
  | .gt => !f.z && !f.n
  | .lt => f.n

/-- The condition of a prefix: `lt` on Z = N = 1 is open and takes the value `free` (10_state.md R28, U6; log 14). -/
def prefixHolds (free : Bool) (k : Cond) (f : Flags) : Bool :=
  if k = .lt && f.z && f.n then free else condHolds k f

/-- The flags of `a + b` (40_integer_arithmetic.md R301; N under ignored overflow: log 50). -/
def addFlags (a b : Word) : Flags :=
  { z := decide (a + b = 0#32), n := (a + b).getLsbD 31, c := decide (wordCount ≤ a.toNat + b.toNat) }

/-- `ovf` of an addition (40_integer_arithmetic.md R301, R303). -/
def addOverflows (a b : Word) : Bool :=
  decide (sint a + sint b < -2147483648) || decide (2147483647 < sint a + sint b)

/-- SUB_CARRY (40_integer_arithmetic.md R302, U18; log 11). -/
def subCarry (a b : Word) : Bool :=
  if Config.subCarryIsBorrow then decide (a.toNat < b.toNat) else decide (b.toNat ≤ a.toNat)

/-- The flags of `a - b` (40_integer_arithmetic.md R302; N under ignored overflow: log 50). -/
def subFlags (a b : Word) : Flags :=
  { z := decide (a - b = 0#32), n := (a - b).getLsbD 31, c := subCarry a b }

/-- `ovf` of a subtraction (40_integer_arithmetic.md R302, R303). -/
def subOverflows (a b : Word) : Bool :=
  decide (sint a - sint b < -2147483648) || decide (2147483647 < sint a - sint b)

/-- `cmpflags` (45_compare.md R433): N is the signed relation itself. -/
def cmpFlags (a b : Word) : Flags :=
  { z := decide (a = b), n := decide (sint a < sint b), c := subCarry a b }

/-- `sllflags` (46_shift.md R441) of `a` shifted left by `p`, 0 to 32: C is bit 32 of the shifted value; by 0 it is
open and takes the value `free` (U5; log 12). -/
def sllFlags (free : Bool) (a : Word) (p : Nat) : Flags :=
  { z := decide (a <<< p = 0#32), n := (a <<< p).getLsbD 31
    c := if p = 0 then free else (a.toNat * 2 ^ p).testBit 32 }

end Sys2Proof.Machine
end

