-- ==== Sys2Proof/Machine/Ops.lean ====
section
/-! DEFINITION. The named operations: registers, memories, the CCB, the step template, taking an exception, the
target checks, the units of mandatory nops. -/

namespace Sys2Proof.Machine

/-! ### Data memory as bytes: addresses strictly rising, no byte equal to the unlisted one -/

/-- The byte at a key. -/
def Memory.get : List Host.Cell → Nat → Byte
  | [], _ => Memory.unlisted
  | (k', v) :: m, k => if k' = k then v else Memory.get m k

/-- A byte put at the head of a memory, unless it is what an unlisted byte reads as. -/
def Memory.cons (k : Nat) (v : Byte) (m : List Host.Cell) : List Host.Cell :=
  if v = Memory.unlisted then m else (k, v) :: m

/-- The memory with the byte at a key replaced. -/
def Memory.set : List Host.Cell → Nat → Byte → List Host.Cell
  | [], k, v => Memory.cons k v []
  | (k', v') :: m, k, v =>
    if k < k' then Memory.cons k v ((k', v') :: m)
    else if k = k' then Memory.cons k v m
    else (k', v') :: Memory.set m k v

/-- The canonical form. -/
abbrev Memory.wf (m : List Host.Cell) : Prop :=
  m.Pairwise (fun a b => a.1 < b.1) ∧ ∀ c ∈ m, c.2 ≠ Memory.unlisted

/-- The word whose most significant byte is at a key (20_memory.md R120). -/
def Memory.getWord (m : List Host.Cell) (k : Nat) : Word :=
  Memory.get m k ++ Memory.get m (k + 1) ++ Memory.get m (k + 2) ++ Memory.get m (k + 3)

/-- The memory with a word stored, most significant byte first (20_memory.md R105, R120). -/
def Memory.setWord (m : List Host.Cell) (k : Nat) (w : Word) : List Host.Cell :=
  Memory.set (Memory.set (Memory.set (Memory.set m k (w.extractLsb' 24 8)) (k + 1) (w.extractLsb' 16 8))
    (k + 2) (w.extractLsb' 8 8)) (k + 3) (w.extractLsb' 0 8)

/-- The key of the cell a data address names (20_memory.md R103; log 9): the address, if it is a multiple of 4; another
address, which names a cell of its own under DMEM_GRANULE = WORD, has a key past the byte addresses. -/
def cellKey (a : Word) : Nat := if a.toNat % 4 = 0 then a.toNat else wordCount + 4 * a.toNat

/-! ### Instruction memory (20_memory.md R101): one entry for an address, addresses strictly rising -/

/-- The entry at an address. -/
def Imem.lookup : List IWord → Nat → Option IWord
  | [], _ => none
  | w :: l, a => if w.addr = a then some w else Imem.lookup l a

/-- The memory without the entry at an address. -/
def Imem.erase (l : List IWord) (a : Nat) : List IWord := l.filter (fun w => w.addr ≠ a)

/-- The memory with an entry placed, replacing the one at its address. -/
def Imem.place : List IWord → IWord → List IWord
  | [], w => [w]
  | v :: l, w =>
    if w.addr < v.addr then w :: v :: l
    else if w.addr = v.addr then w :: l
    else v :: Imem.place l w

/-- The form of an instruction memory. -/
abbrev Imem.wf (l : List IWord) : Prop := l.Pairwise (fun a b => a.addr < b.addr)

/-! ### Registers -/

/-- `RD(i)` (10_state.md R36). -/
def State.rd (s : State) (i : Fin 32) : Word :=
  if s.psr.rsrd then
    if h : i.val < 29 then s.pr[i.val]
    else if i.val = 29 then s.psr.toBits.setWidth 32
    else if i.val = 30 then s.spsr
    else s.pr31
  else s.set1[i.val]

/-- `WR(i, v)` (10_state.md R37): a write to the PSR view is ignored. -/
def State.wr (s : State) (i : Fin 32) (v : Word) : State :=
  if s.psr.rswr then
    if h : i.val < 29 then { s with pr := s.pr.set i.val v }
    else if i.val = 29 then s
    else if i.val = 30 then { s with spsr := v }
    else { s with pr31 := v }
  else { s with set1 := s.set1.set i.val v }

/-- The flags of a condition register (10_state.md R25). -/
def State.getCr (s : State) (k : Fin 8) : Flags := s.cr[k.val]

/-- A condition register written. -/
def State.setCr (s : State) (k : Fin 8) (f : Flags) : State := { s with cr := s.cr.set k.val f }

/-- The mode PSR.IL selects (30_encoding.md R142). -/
def State.mode (s : State) : Mode := if s.psr.il then .m32 else .m16

/-- The length of an instruction: 4 or 2 bytes (30_encoding.md R142). -/
def State.len (s : State) : Nat := if s.psr.il then 4 else 2

/-- The address `n` instructions after the pc, if it is in the memory. -/
def State.ahead (s : State) (n : Nat) : Nat := s.pc.toNat + n * s.len

/-! ### Protection and alignment -/

/-- `dallowed` (20_memory.md R125). -/
def State.dallowed (s : State) (a : Nat) : Bool :=
  let inside := decide (s.ccb.dmemBoundLo.toNat ≤ a) && decide (a ≤ s.ccb.dmemBoundHi.toNat)
  if s.ccb.memConf.getLsbD 1 then !inside else inside

/-- `iallowed` (20_memory.md R126). -/
def State.iallowed (s : State) (a : Nat) : Bool :=
  let inside := decide (s.ccb.imemBoundLo.toNat ≤ a) && decide (a ≤ s.ccb.imemBoundHi.toNat)
  if s.ccb.memConf.getLsbD 0 then !inside else inside

/-! ### The hardware stack and the CCB -/

/-- What the top of the hardware stack shows (10_state.md R94). -/
def State.hwsTop (s : State) : HwsTop :=
  match s.hws with
  | [] => s.hwsIdle
  | e :: _ => { addr := e.addr, psr := e.psr, cr0 := e.cr0 }

/-- The open contents of an empty hardware stack (10_state.md R94, U16; log 25). -/
def HwsTop.ofBits (b : BitVec 43) : HwsTop :=
  { addr := b.extractLsb' 0 32, psr := b.extractLsb' 32 8, cr0 := Flags.ofBits (b.extractLsb' 40 3) }

/-- The registers of the CCB (10_state.md R41 to R81). -/
inductive CcbReg where
  | ccbBase | regspcEnd | intVec (s : Fin 12) | intModeIl | intModeUm | intMask | intServ | intPend | extIntPri
  | copIntPri | exceptionCs | exceptionPc | exceptionPsr | dmemBoundLo | dmemBoundHi | imemBoundLo | imemBoundHi
  | memConf | systemAddr | excepAddr | busConf | copConf | tmr0Cnt | tmr0MaxCnt | tmr1Cnt | tmr1MaxCnt | tmrConf
  | retiAddr | retiPsr | retiCr0
deriving DecidableEq, Repr

/-- The registers in the order of their offsets 00H to 28H (10_state.md R83). -/
def ccbMap : List CcbReg :=
  [.ccbBase, .regspcEnd, .intVec 0, .intVec 1, .intVec 2, .intVec 3, .intVec 4, .intVec 5, .intVec 6, .intVec 7,
   .intVec 8, .intVec 9, .intVec 10, .intVec 11, .intModeIl, .intModeUm, .intMask, .intServ, .intPend, .extIntPri,
   .copIntPri, .exceptionCs, .exceptionPc, .exceptionPsr, .dmemBoundLo, .dmemBoundHi, .imemBoundLo, .imemBoundHi,
   .memConf, .systemAddr, .excepAddr, .busConf, .copConf, .tmr0Cnt, .tmr0MaxCnt, .tmr1Cnt, .tmr1MaxCnt, .tmrConf,
   .retiAddr, .retiPsr, .retiCr0]

/-- The register at an offset; offsets 29H to FFH hold none (10_state.md R82). -/
def ccbRegAt (offset : Nat) : Option CcbReg := ccbMap[offset]?

/-- The value a load returns from a register, zero extended (10_state.md R40, 20_memory.md R111). What a timer
counter returns is open (60_exceptions.md R672, U21; log 28). -/
def State.ccbGet (s : State) : CcbReg → Word
  | .ccbBase => s.ccb.ccbBase
  | .regspcEnd => s.ccb.regspcEnd
  | .intVec k => s.ccb.intVec[k.val]
  | .intModeIl => s.ccb.intModeIl.setWidth 32
  | .intModeUm => s.ccb.intModeUm.setWidth 32
  | .intMask => s.ccb.intMask.setWidth 32
  | .intServ => s.ccb.intServ.setWidth 32
  | .intPend => s.ccb.intPend.setWidth 32
  | .extIntPri => s.ccb.extIntPri
  | .copIntPri => s.ccb.copIntPri.setWidth 32
  | .exceptionCs => s.ccb.exceptionCs.setWidth 32
  | .exceptionPc => s.ccb.exceptionPc
  | .exceptionPsr => s.ccb.exceptionPsr.setWidth 32
  | .dmemBoundLo => s.ccb.dmemBoundLo
  | .dmemBoundHi => s.ccb.dmemBoundHi
  | .imemBoundLo => s.ccb.imemBoundLo
  | .imemBoundHi => s.ccb.imemBoundHi
  | .memConf => s.ccb.memConf.setWidth 32
  | .systemAddr => s.ccb.systemAddr
  | .excepAddr => s.ccb.excepAddr
  | .busConf => s.ccb.busConf.setWidth 32
  | .copConf => s.ccb.copConf.setWidth 32
  | .tmr0Cnt => Config.freeWord s.freeCtr
  | .tmr0MaxCnt => s.ccb.tmr0MaxCnt
  | .tmr1Cnt => Config.freeWord s.freeCtr
  | .tmr1MaxCnt => s.ccb.tmr1MaxCnt
  | .tmrConf => s.ccb.tmrConf
  | .retiAddr => s.hwsTop.addr
  | .retiPsr => s.hwsTop.psr.setWidth 32
  | .retiCr0 => s.hwsTop.cr0.toBits.setWidth 32

/-- A store to a register: its implemented bits are replaced (20_memory.md R111). Read-only registers ignore it
(10_state.md R84); EXCEPTION_PSR takes it or not (R64; log 23); a store to the top of an empty hardware stack leaves
an open value there (log 25). CCB_BASE: `State.store`. -/
def State.ccbPut (s : State) (r : CcbReg) (v : Word) : State :=
  match r with
  | .ccbBase => { s with ccb := { s.ccb with ccbBase := v }, ccbMoved := some s.ccb.ccbBase }
  | .regspcEnd => { s with ccb := { s.ccb with regspcEnd := v } }
  | .intVec k => { s with ccb := { s.ccb with intVec := s.ccb.intVec.set k.val v } }
  | .intModeIl => { s with ccb := { s.ccb with intModeIl := v.setWidth 12 } }
  | .intModeUm => { s with ccb := { s.ccb with intModeUm := v.setWidth 12 } }
  | .intMask => { s with ccb := { s.ccb with intMask := v.setWidth 12 } }
  | .intServ => s
  | .intPend => s
  | .extIntPri => { s with ccb := { s.ccb with extIntPri := v } }
  | .copIntPri => { s with ccb := { s.ccb with copIntPri := v.setWidth 16 } }
  | .exceptionCs => s
  | .exceptionPc => s
  | .exceptionPsr =>
    if Config.exceptionPsrWritable then { s with ccb := { s.ccb with exceptionPsr := v.setWidth 8 } } else s
  | .dmemBoundLo => { s with ccb := { s.ccb with dmemBoundLo := v } }
  | .dmemBoundHi => { s with ccb := { s.ccb with dmemBoundHi := v } }
  | .imemBoundLo => { s with ccb := { s.ccb with imemBoundLo := v } }
  | .imemBoundHi => { s with ccb := { s.ccb with imemBoundHi := v } }
  | .memConf => { s with ccb := { s.ccb with memConf := v.setWidth 2 } }
  | .systemAddr => { s with ccb := { s.ccb with systemAddr := v } }
  | .excepAddr => { s with ccb := { s.ccb with excepAddr := v } }
  | .busConf => { s with ccb := { s.ccb with busConf := v.setWidth 12 } }
  | .copConf => { s with ccb := { s.ccb with copConf := v.setWidth 28 } }
  | .tmr0Cnt => { s with ccb := { s.ccb with tmr0Cnt := v } }
  | .tmr0MaxCnt => { s with ccb := { s.ccb with tmr0MaxCnt := v } }
  | .tmr1Cnt => { s with ccb := { s.ccb with tmr1Cnt := v } }
  | .tmr1MaxCnt => { s with ccb := { s.ccb with tmr1MaxCnt := v } }
  | .tmrConf => { s with ccb := { s.ccb with tmrConf := v } }
  | .retiAddr =>
    match s.hws with
    | [] => { s with hwsIdle := { s.hwsIdle with addr := (HwsTop.ofBits (Config.freeHws s.freeCtr)).addr } }
    | e :: l => { s with hws := { e with addr := v } :: l }
  | .retiPsr =>
    match s.hws with
    | [] => { s with hwsIdle := { s.hwsIdle with psr := (HwsTop.ofBits (Config.freeHws s.freeCtr)).psr } }
    | e :: l => { s with hws := { e with psr := v.setWidth 8 } :: l }
  | .retiCr0 =>
    match s.hws with
    | [] => { s with hwsIdle := { s.hwsIdle with cr0 := (HwsTop.ofBits (Config.freeHws s.freeCtr)).cr0 } }
    | e :: l => { s with hws := { e with cr0 := Flags.ofBits (v.setWidth 3) } :: l }

/-! ### The data space (20_memory.md R104, R105, R110) -/

/-- What a data address selects: a CCB offset, the external register block, a cell of data memory, or none of these: an
address in data memory that is no multiple of 4, under DMEM_GRANULE = BYTE (20_memory.md R103). -/
inductive Region where
  | ccb (offset : Nat)
  | ext
  | cell (key : Nat)
  | noCell
deriving DecidableEq, Repr

/-- Whether an address is one of the 256 of a CCB at `base` (20_memory.md R104). -/
def inCcb (base a : Word) : Bool := decide (base.toNat ≤ a.toNat) && decide (a.toNat ≤ base.toNat + 255)

/-- The decode of a data address (20_memory.md R104, R110). -/
def State.region (s : State) (a : Word) : Region :=
  if inCcb s.ccb.ccbBase a then .ccb (a.toNat - s.ccb.ccbBase.toNat)
  else if s.ccb.ccbBase.toNat + 256 ≤ a.toNat ∧ a.toNat ≤ s.ccb.regspcEnd.toNat then .ext
  else if a.toNat % 4 = 0 ∨ Config.dmemWordGranule = true then .cell (cellKey a)
  else .noCell

/-- Whether an access meets the remap hazard (70_reset_and_hazards.md R714; log 26): the CCB was moved from the base
`moved` by the instruction before, and the address is in its old or its new range. -/
def State.remapHazard (s : State) (moved : Option Word) (a : Word) : Bool :=
  match moved with
  | none => false
  | some old => inCcb old a || inCcb s.ccb.ccbBase a

/-- `MemRead(a, 4)` (20_memory.md R104): the word, or why the access is given no meaning: the remap hazard (R113; log 26),
an address that selects nothing (R103; log 9). Open values: a reserved CCB offset (log 24), the external register block
(log 27). -/
def State.load (s : State) (moved : Option Word) (a : Word) : Except Refusal Word :=
  if s.remapHazard moved a then .error .ccbRemapAccess
  else
    match s.region a with
    | .ccb k =>
      match ccbRegAt k with
      | some r => .ok (s.ccbGet r)
      | none => .ok (Config.freeWord s.freeCtr)
    | .ext => .ok (Config.freeWord s.freeCtr)
    | .cell k => .ok (Memory.getWord s.mem k)
    | .noCell => .error .dmemMisaligned

/-! ### The step template (40_integer_arithmetic.md R304, 10_state.md R24) -/

/-- What the body of an instruction does: an effect after which the pc advances, an effect that has set the pc, an
exception, a stop. -/
inductive Res where
  | ok (s : State)
  | goto (s : State)
  | exc (code : BitVec 8)
  | fault (f : Fault)
  | refuse (r : Refusal)

/-- `MemWrite(a, 4, v)` (20_memory.md R105, R111); the accesses that `State.load` gives no meaning are refused here
too. -/
def State.store (s : State) (moved : Option Word) (a v : Word) : Res :=
  if s.remapHazard moved a then .refuse .ccbRemapAccess
  else
    match s.region a with
    | .ccb k =>
      match ccbRegAt k with
      | some r => if r = .ccbBase ∧ v.extractLsb' 0 8 ≠ 0#8 then .refuse .ccbBaseMisaligned else .ok (s.ccbPut r v)
      | none => .ok s
    | .ext => .ok s
    | .cell k => .ok { s with mem := Memory.setWord s.mem k v }
    | .noCell => .refuse .dmemMisaligned

/-- An output event (10_state.md R98). -/
def State.emit (s : State) (e : OutEvent) : State := { s with out := s.out ++ [e] }

/-- The state an instruction works on: the product register is empty (10_state.md R86), the remap of an earlier
instruction is over, no output yet, the next free values. -/
def State.begin (s : State) : State :=
  { s with m64 := none, ccbMoved := none, out := [], freeCtr := s.freeCtr + 1 }

/-- The address `n` instructions after the pc; past FFFFFFFFH it is open (10_state.md R23, U10; log 19). -/
def State.pcAhead (s : State) (n : Nat) : Word :=
  if s.ahead n < wordCount then BitVec.ofNat 32 (s.ahead n) else Config.freePc s.freeCtr

/-- The link address `pc + 2 * len`; past FFFFFFFFH it is open (44_jump.md R415, U10; log 19). -/
def State.link (s : State) : Word :=
  if s.ahead 2 < wordCount then BitVec.ofNat 32 (s.ahead 2) else Config.freeLink s.freeCtr

/-- The pc update of 10_state.md R24 after an instruction that was executed in state `s` and left state `t`. -/
def State.retire (s t : State) : State :=
  match s.ptarget with
  | some a => { t with pc := a, ptarget := none }
  | none => { t with pc := s.pcAhead 1 }

/-- `raise Exc(code, pc)` (60_exceptions.md R610 to R613): EXCEPTION_CS, EXCEPTION_PC and EXCEPTION_PSR are
written, the PSR becomes 0EH, the pc EXCEP_ADDR. -/
def State.raiseExc (s : State) (code : BitVec 8) : State :=
  { s.begin with
    ccb := { s.ccb with exceptionCs := code, exceptionPc := s.pc, exceptionPsr := s.psr.toBits }
    psr := Psr.handler
    pc := s.ccb.excepAddr
    ptarget := none }

/-- An instruction raises an exception; in the slot of a taken control transfer this is refused (60_exceptions.md
R616). -/
def takeException (s : State) (code : BitVec 8) : Host.Outcome State Fault Refusal :=
  match s.ptarget with
  | some _ => .refused .exceptionInSlot
  | none => .next (s.raiseExc code)

/-- The end of a step that executed an instruction in state `s`. -/
def finish (s : State) : Res → Host.Outcome State Fault Refusal
  | .ok t => .next (s.retire t)
  | .goto t => .next t
  | .exc code => takeException s code
  | .fault f => .fault f
  | .refuse r => .refused r

/-- What the decode of an instruction asks for: it is a control transfer, reserved to super-user mode, of 32-bit mode
only. -/
structure Need where
  control : Bool := false
  su : Bool := false
  only32 : Bool := false

/-- Whether the condition of a prefix holds (10_state.md R28). -/
def State.guardHolds (s : State) : Option Guard → Bool
  | none => true
  | some g => prefixHolds (Config.freeCond s.freeCtr) g.cond (s.getCr g.cr)

/-- Exception 2 at decode (60_exceptions.md R604, 30_encoding.md R157, R158; log 51). -/
def State.illegal (s : State) (n : Need) (g : Option Guard) : Bool :=
  (!s.psr.il && (n.only32 || g.isSome)) || (s.psr.um && n.su)

/-- The step template (40_integer_arithmetic.md R304, 60_exceptions.md R615): a control transfer in a slot is refused
(70_reset_and_hazards.md R712; log 16); the decode checks; a false condition leaves everything but the pc (log 46);
else the body. -/
def run (n : Need) (g : Option Guard) (s : State) (body : State → Res) : Host.Outcome State Fault Refusal :=
  if n.control && s.ptarget.isSome then .refused .controlInSlot
  else if s.illegal n g then takeException s 2#8
  else if s.guardHolds g then finish s (body s.begin)
  else .next (s.retire s.begin)

/-! ### Control-transfer targets (43_branch.md R391) -/

/-- The base of PC-relative targets: the address of the slot, `pc + len`. -/
def State.slot (s : State) : Int := (s.ahead 1 : Int)

/-- The exception the target `t` of a taken transfer raises, in the order 4, 3, 9 (43_branch.md R391). -/
def State.targetFault (s : State) (pcrel : Bool) (t : Int) : Option (BitVec 8) :=
  if pcrel && (decide (t < 0) || decide (4294967295 < t)) then some 4#8
  else if t % (s.len : Int) ≠ 0 then some 3#8
  else if s.psr.um && !s.iallowed t.toNat then some 9#8
  else none

/-- `take` (43_branch.md R391): the target is checked and becomes pending; then `k`. -/
def State.take (s : State) (pcrel : Bool) (t : Int) (k : State → State) : Res :=
  match s.targetFault pcrel t with
  | some code => .exc code
  | none => .ok (k { s with ptarget := some (BitVec.ofInt 32 t) })

/-! ### Units with mandatory nops (49_miscellaneous.md R533) -/

/-- Whether a fetchable `nop` stands `j` instructions after the pc. -/
def State.nopAt (s : State) (j : Nat) : Bool :=
  decide (s.ahead j < wordCount) && (!s.psr.um || s.iallowed (s.ahead j)) &&
    (match Imem.lookup s.imem (s.ahead j) with
     | some w => decide (w.mode = s.mode) && decide (w.instr = .nop s.mode)
     | none => false)

/-- `unit(I, k)`: the next `k` instructions must be `nop`s (49_miscellaneous.md R533, U17; log 18). -/
def State.withNops (s : State) (k : Nat) (r : Res) : Res :=
  if (List.range k).all (fun j => s.nopAt (j + 1)) then r else .refuse .nopMissing

end Sys2Proof.Machine
end

