-- ==== Sys2Proof/Machine/Arithmetic.lean ====
section
/-! DEFINITION. Integer arithmetic (40_integer_arithmetic.md R300 to R323). -/

namespace Sys2Proof.Machine

/-- A register-register operation that writes one register and no flag. -/
def regOp (o : OpsRR) (s : State) (f : Word → Word → Word) : Host.Outcome State Fault Refusal :=
  run {} o.guard s fun t => .ok (t.wr o.dest (f (t.rd o.first) (t.rd o.second)))

/-- A register-immediate operation that writes one register and no flag. -/
def immOp (o : OpsRI) (s : State) (f : Word → Word) : Host.Outcome State Fault Refusal :=
  run {} o.guard s fun t => .ok (t.wr o.dest (f (t.rd o.src)))

/-- `a + b` to `d`, the flags to C0; with `trapping`, exception 6 on signed overflow (R301, R303). -/
def addTo (trapping : Bool) (d : Fin 32) (a b : Word) (t : State) : Res :=
  if trapping && addOverflows a b then .exc 6#8 else .ok ((t.wr d (a + b)).setCr 0 (addFlags a b))

/-- `a - b` to `d`, the flags to C0; with `trapping`, exception 6 on signed overflow (R302, R303). -/
def subTo (trapping : Bool) (d : Fin 32) (a b : Word) (t : State) : Res :=
  if trapping && subOverflows a b then .exc 6#8 else .ok ((t.wr d (a - b)).setCr 0 (subFlags a b))

/-- The low word of the product `p` to `d`, the product to M64 (R305). -/
def mulTo (d : Fin 32) (p : Int) (t : State) : Res :=
  .ok ({ t with m64 := some (BitVec.ofInt 64 p) }.wr d (BitVec.ofInt 32 p))

/-- The low halfword as an unsigned and as a signed number. -/
def loU (w : Word) : Int := ((w.extractLsb' 0 16).toNat : Int)
def loS (w : Word) : Int := (w.extractLsb' 0 16).toInt

/-- `add` (R309). -/
def execAdd (o : OpsRR) (s : State) : Host.Outcome State Fault Refusal :=
  run {} o.guard s fun t => addTo true o.dest (t.rd o.first) (t.rd o.second) t

/-- `addi` (R310). -/
def execAddi (o : OpsRI) (s : State) : Host.Outcome State Fault Refusal :=
  run {} o.guard s fun t => addTo true o.dest (t.rd o.src) (immWord o.imm) t

/-- `addiu` (R312). -/
def execAddiu (o : OpsRI) (s : State) : Host.Outcome State Fault Refusal :=
  run {} o.guard s fun t => addTo false o.dest (t.rd o.src) (immWord o.imm) t

/-- `addu` (R311). -/
def execAddu (o : OpsRR) (s : State) : Host.Outcome State Fault Refusal :=
  run {} o.guard s fun t => addTo false o.dest (t.rd o.first) (t.rd o.second) t

/-- `mulhi` (R308): the upper word of the product of the previous instruction; without one it is refused (U2,
D11; log 15). -/
def execMulhi (o : OpsR1) (s : State) : Host.Outcome State Fault Refusal :=
  run {} o.guard s fun t =>
    match s.m64 with
    | some p => .ok (t.wr o.reg (p.extractLsb' 32 32))
    | none => .refuse .noProduct

/-- `muli` (R314). -/
def execMuli (o : OpsRI) (s : State) : Host.Outcome State Fault Refusal :=
  run {} o.guard s fun t => mulTo o.dest (sint (t.rd o.src) * o.imm) t

/-- `muls` (R315). -/
def execMuls (o : OpsRR) (s : State) : Host.Outcome State Fault Refusal :=
  run {} o.guard s fun t => mulTo o.dest (sint (t.rd o.first) * sint (t.rd o.second)) t

/-- `muls_16` (R316). -/
def execMuls16 (o : OpsRR) (s : State) : Host.Outcome State Fault Refusal :=
  regOp o s fun a b => BitVec.ofInt 32 (loS a * loS b)

/-- `mulu` (R317). -/
def execMulu (o : OpsRR) (s : State) : Host.Outcome State Fault Refusal :=
  run {} o.guard s fun t => mulTo o.dest (uint (t.rd o.first) * uint (t.rd o.second)) t

/-- `mulu_16` (R318). -/
def execMulu16 (o : OpsRR) (s : State) : Host.Outcome State Fault Refusal :=
  regOp o s fun a b => BitVec.ofInt 32 (loU a * loU b)

/-- `mulus` (R313): the first operand unsigned, the second signed. -/
def execMulus (o : OpsRR) (s : State) : Host.Outcome State Fault Refusal :=
  run {} o.guard s fun t => mulTo o.dest (uint (t.rd o.first) * sint (t.rd o.second)) t

/-- `mulus_16` (R319): the first operand unsigned, the second signed. -/
def execMulus16 (o : OpsRR) (s : State) : Host.Outcome State Fault Refusal :=
  regOp o s fun a b => BitVec.ofInt 32 (loU a * loS b)

/-- `sub` (R320). -/
def execSub (o : OpsRR) (s : State) : Host.Outcome State Fault Refusal :=
  run {} o.guard s fun t => subTo true o.dest (t.rd o.first) (t.rd o.second) t

/-- `subu` (R321). -/
def execSubu (o : OpsRR) (s : State) : Host.Outcome State Fault Refusal :=
  run {} o.guard s fun t => subTo false o.dest (t.rd o.first) (t.rd o.second) t

end Sys2Proof.Machine
end

