-- ==== Sys2Proof/Machine/Boolean.lean ====
section
/-! DEFINITION. Boolean bitwise operations (42_boolean.md R370 to R376). -/

namespace Sys2Proof.Machine

/-- `and` (R371). -/
def execAnd (o : OpsRR) (s : State) : Host.Outcome State Fault Refusal := regOp o s fun a b => a &&& b

/-- `andi` (R372). -/
def execAndi (o : OpsRI) (s : State) : Host.Outcome State Fault Refusal := immOp o s fun a => a &&& immWord o.imm

/-- `not` (R373). -/
def execNot (o : OpsR2) (s : State) : Host.Outcome State Fault Refusal :=
  run {} o.guard s fun t => .ok (t.wr o.dest (~~~ (t.rd o.src)))

/-- `or` (R374). -/
def execOr (o : OpsRR) (s : State) : Host.Outcome State Fault Refusal := regOp o s fun a b => a ||| b

/-- `ori` (R375). -/
def execOri (o : OpsRI) (s : State) : Host.Outcome State Fault Refusal := immOp o s fun a => a ||| immWord o.imm

/-- `xor` (R376). -/
def execXor (o : OpsRR) (s : State) : Host.Outcome State Fault Refusal := regOp o s fun a b => a ^^^ b

end Sys2Proof.Machine
end

