-- ==== Sys2Proof/Machine/Branch.lean ====
section
/-! DEFINITION. Branches (43_branch.md R390 to R401). -/

namespace Sys2Proof.Machine

/-- The common semantics of the branches (R391): a taken branch checks its target and makes it pending. Whether a
branch that is not taken has its target checked is open (U23; log 17). -/
def branchOn (k : Cond) (o : OpsBr) (s : State) : Host.Outcome State Fault Refusal :=
  run { control := true } none s fun t =>
    if condHolds k (t.getCr o.cr) then t.take true (t.slot + 2 * o.imm) id
    else if Config.notTakenChecked then
      match t.targetFault true (t.slot + 2 * o.imm) with
      | some code => .exc code
      | none => .ok t
    else .ok t

/-- `bc` (R392). -/
def execBc (o : OpsBr) (s : State) : Host.Outcome State Fault Refusal := branchOn .c o s
/-- `begt` (R393). -/
def execBegt (o : OpsBr) (s : State) : Host.Outcome State Fault Refusal := branchOn .egt o s
/-- `belt` (R394). -/
def execBelt (o : OpsBr) (s : State) : Host.Outcome State Fault Refusal := branchOn .elt o s
/-- `beq` (R395). -/
def execBeq (o : OpsBr) (s : State) : Host.Outcome State Fault Refusal := branchOn .eq o s
/-- `bgt` (R396). -/
def execBgt (o : OpsBr) (s : State) : Host.Outcome State Fault Refusal := branchOn .gt o s
/-- `blt` (R397). -/
def execBlt (o : OpsBr) (s : State) : Host.Outcome State Fault Refusal := branchOn .lt o s
/-- `bne` (R398). -/
def execBne (o : OpsBr) (s : State) : Host.Outcome State Fault Refusal := branchOn .ne o s
/-- `bnc` (R399). -/
def execBnc (o : OpsBr) (s : State) : Host.Outcome State Fault Refusal := branchOn .nc o s

end Sys2Proof.Machine
end

