-- ==== Sys2Proof/Machine/ByteField.lean ====
section
/-! DEFINITION. Byte and bit field manipulation (41_byte_bitfield.md R340 to R353). -/

namespace Sys2Proof.Machine

/-- `field(v, L, P)` (R351): an empty field is 0; a field past bit 31 is open and takes the value `free` (U4; log
13). -/
def field (free : Word) (v : Word) (len pos : Nat) : Word :=
  if len = 0 then 0#32
  else if pos + len ≤ 32 then BitVec.ofNat 32 (v.toNat / 2 ^ pos % 2 ^ len)
  else free

/-- `signext(v, P)` (R352): the bits up to the sign bit at position `pos`, the sign above it. -/
def signext (v : Word) (pos : Nat) : Word := (v <<< (31 - pos)).sshiftRight (31 - pos)

/-- `conb` (R340). -/
def execConb (o : OpsRR) (s : State) : Host.Outcome State Fault Refusal :=
  regOp o s fun a b => 0#16 ++ a.extractLsb' 0 8 ++ b.extractLsb' 0 8

/-- `conh` (R341): the first source operand gives the upper halfword. -/
def execConh (o : OpsRR) (s : State) : Host.Outcome State Fault Refusal :=
  run {} o.guard s fun t =>
    .ok (t.wr o.dest ((t.rd o.conhFirst).extractLsb' 0 16 ++ (t.rd o.conhSecond).extractLsb' 0 16))

/-- `exb` (R343): byte `imm`, counted from the least significant end. -/
def execExb (o : OpsRRI) (s : State) : Host.Outcome State Fault Refusal :=
  run {} o.guard s fun t =>
    .ok (t.wr o.regA (((t.rd o.regB).extractLsb' (8 * o.imm.toNat) 8).setWidth 32))

/-- `exbf` (R345): length in bits 10..5 and position in bits 4..0 of the second operand. -/
def execExbf (o : OpsRR) (s : State) : Host.Outcome State Fault Refusal :=
  run {} o.guard s fun t =>
    let d := t.rd o.second
    .ok (t.wr o.dest (field (Config.freeWord t.freeCtr) (t.rd o.first) (d.extractLsb' 5 6).toNat
      (d.extractLsb' 0 5).toNat))

/-- `exbfi` (R346). -/
def execExbfi (dr sr : Fin 32) (len pos : Nat) (s : State) : Host.Outcome State Fault Refusal :=
  run { only32 := true } none s fun t =>
    .ok (t.wr dr (field (Config.freeWord t.freeCtr) (t.rd sr) len pos))

/-- `exh` (R344). -/
def execExh (o : OpsRRI) (s : State) : Host.Outcome State Fault Refusal :=
  run {} o.guard s fun t =>
    let v := t.rd o.regB
    .ok (t.wr o.regA ((if o.imm = 0 then v.extractLsb' 0 16 else v.extractLsb' 16 16).setWidth 32))

/-- `lli` (R347). -/
def execLli (dr : Fin 32) (imm : Nat) (s : State) : Host.Outcome State Fault Refusal :=
  run { only32 := true } none s fun t => .ok (t.wr dr (0#16 ++ BitVec.ofNat 16 imm))

/-- `lui` (R348): the lower halfword of the destination is read and kept. -/
def execLui (dr : Fin 32) (imm : Nat) (s : State) : Host.Outcome State Fault Refusal :=
  run { only32 := true } none s fun t => .ok (t.wr dr (BitVec.ofNat 16 imm ++ (t.rd dr).extractLsb' 0 16))

/-- `sext` (R349): the position is the five low bits of the second operand (D30; log 50). -/
def execSext (o : OpsRR) (s : State) : Host.Outcome State Fault Refusal :=
  regOp o s fun a b => signext a (b.extractLsb' 0 5).toNat

/-- `sexti` (R350). -/
def execSexti (o : OpsRI) (s : State) : Host.Outcome State Fault Refusal :=
  immOp o s fun a => signext a o.imm.toNat

end Sys2Proof.Machine
end

