-- ==== Sys2Proof/Machine/Compare.lean ====
section
/-! DEFINITION. Compares (45_compare.md R430 to R434). -/

namespace Sys2Proof.Machine

/-- `cmp` (R431): the 16-bit form keeps its operand order. -/
def execCmp (o : OpsCmp) (s : State) : Host.Outcome State Fault Refusal :=
  run {} none s fun t => .ok (t.setCr o.cr (cmpFlags (t.rd o.first) (t.rd o.second)))

/-- `cmpi` (R432). -/
def execCmpi (o : OpsCmpi) (s : State) : Host.Outcome State Fault Refusal :=
  run {} none s fun t => .ok (t.setCr o.cr (cmpFlags (t.rd o.src) (immWord o.imm)))

end Sys2Proof.Machine
end

