-- ==== Sys2Proof/Machine/Jump.lean ====
section
/-! DEFINITION. Jumps (44_jump.md R410 to R416). -/

namespace Sys2Proof.Machine

/-- `jal` (R411): the link is written only if the target passes its checks. -/
def execJal (o : OpsJ) (s : State) : Host.Outcome State Fault Refusal :=
  run { control := true } none s fun t => t.take true (t.slot + 2 * o.imm) (fun u => u.wr 31 t.link)

/-- `jmp` (R413). -/
def execJmp (o : OpsJ) (s : State) : Host.Outcome State Fault Refusal :=
  run { control := true } none s fun t => t.take true (t.slot + 2 * o.imm) id

/-- `jalr` (R412): the target is read before register 31 is written. -/
def execJalr (o : OpsR1) (s : State) : Host.Outcome State Fault Refusal :=
  run { control := true } o.guard s fun t => t.take false (uint (t.rd o.reg)) (fun u => u.wr 31 t.link)

/-- `jmpr` (R414). -/
def execJmpr (o : OpsR1) (s : State) : Host.Outcome State Fault Refusal :=
  run { control := true } o.guard s fun t => t.take false (uint (t.rd o.reg)) id

end Sys2Proof.Machine
end

