-- ==== Sys2Proof/Machine/LoadStore.lean ====
section
/-! DEFINITION. Load, store, move (47_load_store_move.md R460 to R466). -/

namespace Sys2Proof.Machine

/-- The integer `uint(R[base]) + sint(simm)` (R464). -/
def State.dataAddr (s : State) (base : Fin 32) (imm : Int) : Int := uint (s.rd base) + imm

/-- The checks of `ea` (R464): 8, then 7. -/
def State.dataFault (s : State) (a : Int) : Option (BitVec 8) :=
  if a < 0 ∨ 4294967295 < a then some 8#8
  else if s.psr.um && !s.dallowed a.toNat then some 7#8
  else none

/-- `ea` (R464), then the access `k` with the address on the bus (10_state.md R98). -/
def State.access (s : State) (base : Fin 32) (imm : Int) (k : State → Word → Res) : Res :=
  match s.dataFault (s.dataAddr base imm) with
  | some code => .exc code
  | none =>
    let a := BitVec.ofInt 32 (s.dataAddr base imm)
    k (s.emit (.dataAddress a)) a

/-- A load into register `d`, or its refusal. -/
def State.loadTo (s : State) (moved : Option Word) (a : Word) (d : Fin 32) : Res :=
  match s.load moved a with
  | .ok v => .ok (s.wr d v)
  | .error r => .refuse r

/-- `ld` (R461). -/
def execLd (o : OpsRRI) (s : State) : Host.Outcome State Fault Refusal :=
  run {} o.guard s fun t =>
    t.access o.regB o.imm fun u a => u.loadTo s.ccbMoved a o.regA

/-- `mov` (R462). -/
def execMov (o : OpsR2) (s : State) : Host.Outcome State Fault Refusal :=
  run {} o.guard s fun t => .ok (t.wr o.dest (t.rd o.src))

/-- `st` (R463): the first operand is stored, the second is the base. -/
def execSt (o : OpsRRI) (s : State) : Host.Outcome State Fault Refusal :=
  run {} o.guard s fun t =>
    t.access o.regB o.imm fun u a => u.store s.ccbMoved a (u.rd o.regA)

end Sys2Proof.Machine
end

