-- ==== Sys2Proof/Decode.lean ====
section
/-! DEFINITION. The decoder, a function of the parameter DECODE, and after it the encoder (30_encoding.md R141 to
R165; log 1 to 4). A row of spec/opcode_table.json is a list saying what each bit of the word is: the operation code
leads, the bits of R149 and R155 are the spec's, the others the parameter's. -/

namespace Sys2Proof

/-- Why a word is no instruction: too few bytes, no row of the mode matches, or a field holds a value Table 3-14
does not permit (30_encoding.md R150, R157). -/
inductive DecodeError where
  | truncated | noRow | badField
deriving DecidableEq, Repr

/-! ### Words as bits, the most significant first; bytes in memory order (20_memory.md R122) -/

/-- The low `n` bits of `w`. -/
def bitsOf (n w : Nat) : List Bool := (List.range n).map fun k => w.testBit (n - 1 - k)

/-- The number whose bits are `bs`. -/
def natOfBits (bs : List Bool) : Nat := bs.foldl (fun n b => 2 * n + b.toNat) 0

/-- The number of `n` bytes, most significant first. -/
def natOfBytes (bs : List Byte) : Nat := bs.foldl (fun n b => 256 * n + b.toNat) 0

/-- A machine word as bytes, most significant byte first (20_memory.md R122). -/
def wordBytes : Mode → Nat → List Byte
  | .m16, w => [BitVec.ofNat 8 (w / 256), BitVec.ofNat 8 w]
  | .m32, w => [BitVec.ofNat 8 (w / 16777216), BitVec.ofNat 8 (w / 65536), BitVec.ofNat 8 (w / 256), BitVec.ofNat 8 w]

/-- The length of an instruction in bytes (30_encoding.md R142). -/
def Mode.len : Mode → Nat
  | .m16 => 2
  | .m32 => 4

/-- The value of the `n`-bit two's-complement field `v`. -/
def signedField (n v : Nat) : Int := if v < 2 ^ (n - 1) then (v : Int) else (v : Int) - 2 ^ n

/-- The `n`-bit field that holds `i`. -/
def fieldOf (n : Nat) (i : Int) : Nat := (i % 2 ^ n).toNat

/-- The condition code of Table 2-3 (10_state.md R27). -/
def Cond.code : Cond → Nat
  | .c => 0 | .egt => 1 | .elt => 2 | .eq => 3 | .gt => 4 | .lt => 5 | .ne => 6 | .nc => 7

/-- The condition a 3-bit code names (10_state.md R27). -/
def Cond.ofCode : Nat → Cond
  | 0 => .c | 1 => .egt | 2 => .elt | 3 => .eq | 4 => .gt | 5 => .lt | 6 => .ne | _ => .nc

/-! ### Patterns -/

/-- Whether the fixed bits of a pattern are those of the word. -/
def patMatches : List PBit → List Bool → Bool
  | [], [] => true
  | .lit b :: p, c :: w => (b == c) && patMatches p w
  | _ :: p, _ :: w => patMatches p w
  | _, _ => false

/-- Bit `j` of operand `k` in a word. -/
def argBit : List PBit → List Bool → Nat → Nat → Bool
  | .arg k' j' :: p, c :: w, k, j => if k' = k ∧ j' = j then c else argBit p w k j
  | _ :: p, _ :: w, k, j => argBit p w k j
  | _, _, _, _ => false

/-- The operand values of a word, given the operands' widths. -/
def patArgs (p : List PBit) (w : List Bool) (widths : List Nat) : List Nat :=
  widths.zipIdx.map fun (n, k) => natOfBits ((List.range n).map fun j => argBit p w k (n - 1 - j))

/-- The word of a pattern with the given operand values. -/
def patWord (p : List PBit) (args : List Nat) : List Bool :=
  p.map fun
    | .lit b => b
    | .spare b => b
    | .arg k j => (args.getD k 0).testBit j

/-- Two patterns that no word matches both of. -/
def patClash : List PBit → List PBit → Bool
  | .lit a :: p, .lit b :: q => (a != b) || patClash p q
  | _ :: p, _ :: q => patClash p q
  | _, _ => false

/-! ### Rows -/

/-- The operand shape of an operation. -/
inductive Shape where
  | rr | riS | riU | riShift | ri5 | rri (bits : Nat) | rriOff | r2 | r1 | r1u | br | j | cmp | cmpi
  | cpFrom | cpTo | g | exbfi | ri16 | sel (bits : Nat) | none
deriving DecidableEq, Repr

/-- The operand forms of 30_encoding.md R160. -/
def Op.shape : Op → Shape
  | .add | .addu | .muls | .muls16 | .mulu | .mulu16 | .mulus | .mulus16 | .sub | .subu | .conb | .conh | .exbf
  | .sext | .and | .or | .xor | .sll | .sra | .srl => .rr
  | .addi | .muli => .riS
  | .addiu | .andi | .ori => .riU
  | .slli | .srai | .srli => .riShift
  | .sexti => .ri5
  | .exb => .rri 2
  | .exh => .rri 1
  | .ld | .st => .rriOff
  | .not | .mov => .r2
  | .mulhi | .jalr | .jmpr => .r1
  | .rcon | .scon => .r1u
  | .bc | .begt | .belt | .beq | .bgt | .blt | .bne | .bnc => .br
  | .jal | .jmp => .j
  | .cmp => .cmp
  | .cmpi => .cmpi
  | .movfc => .cpFrom
  | .movtc => .cpTo
  | .scall => .g
  | .exbfi => .exbfi
  | .lli | .lui => .ri16
  | .chrs => .sel 2
  | .swm => .sel 1
  | .trap => .sel 5
  | .di | .ei | .nop | .reti | .retu | .cop => .none

/-- The widths of the operands of a row, in source order, `cond` and `creg` last (30_encoding.md R147, R150,
spec/opcode_table.json). -/
def Row.widths (r : Row) : List Nat :=
  match r.op.shape, r.fmt with
  | .rr, .u32 => [5, 5, 5]
  | .rr, .c32 => [5, 5, 5, 3, 3]
  | .rr, .w16 => [3, 3]
  | .riS, .u32 | .riU, .u32 => [5, 5, 15]
  | .riS, .c32 | .riU, .c32 => [5, 5, 9, 3, 3]
  | .riS, .w16 | .riU, .w16 => [3, 7]
  | .riShift, .u32 => [5, 5, 6]
  | .riShift, .c32 => [5, 5, 6, 3, 3]
  | .riShift, .w16 => [3, 6]
  | .ri5, .u32 => [5, 5, 5]
  | .ri5, .c32 => [5, 5, 5, 3, 3]
  | .ri5, .w16 => [3, 5]
  | .rri n, .u32 => [5, 5, n]
  | .rri n, .c32 => [5, 5, n, 3, 3]
  | .rri n, .w16 => [3, 3, n]
  | .rriOff, .u32 => [5, 5, 15]
  | .rriOff, .c32 => [5, 5, 9, 3, 3]
  | .rriOff, .w16 => [3, 3, 4]
  | .r2, .u32 => [5, 5]
  | .r2, .c32 => [5, 5, 3, 3]
  | .r2, .w16 => [3, 3]
  | .r1, .u32 => [5]
  | .r1, .c32 => [5, 3, 3]
  | .r1, .w16 => [3]
  | .r1u, .u32 => [5]
  | .r1u, .w16 => [3]
  | .br, .u32 => [3, 22]
  | .br, .w16 => [10]
  | .j, .u32 => [25]
  | .j, .w16 => [10]
  | .cmp, .u32 => [3, 5, 5]
  | .cmp, .w16 => [3, 3]
  | .cmpi, .u32 => [3, 5, 17]
  | .cmpi, .w16 => [3, 7]
  | .cpFrom, .u32 | .cpTo, .u32 => [2, 5, 5]
  | .cpFrom, .c32 | .cpTo, .c32 => [2, 5, 5, 3, 3]
  | .cpFrom, .w16 => [2, 3, 5]
  | .cpTo, .w16 => [2, 5, 3]
  | .g, .c32 => [3, 3]
  | .exbfi, .u32 => [5, 5, 6, 5]
  | .ri16, .u32 => [5, 16]
  | .sel n, .u32 | .sel n, .w16 => [n]
  | _, _ => []

/-- The `n` bits of operand `k`, the highest first. -/
def argBits (k n : Nat) : List PBit := (List.range n).map fun j => .arg k (n - 1 - j)

/-- The operation codes the spec gives (30_encoding.md R155). -/
def Row.opcode? (r : Row) : Option (BitVec 6) :=
  match r.op, r.fmt with
  | .ori, .w16 => some 0b101010#6
  | .slli, .w16 => some 0b001101#6
  | .xor, .w16 => some 0b010010#6
  | _, _ => none

/-- The low bits of a row that the spec gives the places of (30_encoding.md R149, R155; DEDUCED for the place of the two
registers of `xor`, log 2): the immediates of the branches and of `jal` and `jmp`, and all of `ori`, `slli`, `xor` in 16-bit
mode. -/
def Row.tail (r : Row) : List PBit :=
  match r.op, r.fmt with
  | .ori, .w16 => argBits 1 7 ++ argBits 0 3
  | .slli, .w16 => argBits 1 6 ++ [.lit false] ++ argBits 0 3
  | .xor, .w16 => argBits 1 3 ++ List.replicate 4 (.lit false) ++ argBits 0 3
  | op, fmt =>
    match op.shape, fmt with
    | .br, .u32 => argBits 1 22
    | .br, .w16 => argBits 0 10
    | .j, .u32 => argBits 0 25
    | .j, .w16 => argBits 0 10
    | _, _ => []

/-- The encoding a row belongs to. -/
def Fmt.mode : Fmt → Mode
  | .u32 | .c32 => .m32
  | .w16 | .x16 => .m16

/-- The number of bits after the operation code (30_encoding.md R143, R145). -/
def Mode.bodyBits : Mode → Nat
  | .m16 => 10
  | .m32 => 26

/-- The operation code of a row: the spec's where it gives it, the parameter elsewhere. -/
def EncTable.opcodeOf (T : EncTable) (r : Row) : BitVec 6 := r.opcode?.getD (T.opcode r)

/-- A bit of the parameter in a row whose low bits are `given`: an operand bit that stands among those stands nowhere else
(30_encoding.md R149), so here it is an ignored bit. -/
def PBit.beside (given : List PBit) (b : PBit) : PBit := if b ∈ given then .spare false else b

/-- What each bit of a row's word is: the operation code in the six most significant bits (30_encoding.md R143, R145), then
the bits of the parameter, then those the spec gives. -/
def EncTable.pat (T : EncTable) (r : Row) : List PBit :=
  (bitsOf 6 (T.opcodeOf r).toNat).map .lit ++
    (if r.tail.length = r.fmt.mode.bodyBits then r.tail else (T.body r).map (PBit.beside r.tail) ++ r.tail)

/-- The core operations that have a 32-bit conditional form (30_encoding.md R159). -/
def condOps : List Op :=
  [.add, .addi, .addiu, .addu, .mulhi, .muli, .muls, .muls16, .mulu, .mulu16, .mulus, .mulus16, .sub, .subu,
   .conb, .conh, .exb, .exbf, .exh, .sext, .sexti, .and, .andi, .not, .or, .ori, .xor, .jalr, .jmpr,
   .sll, .slli, .sra, .srai, .srl, .srli, .ld, .mov, .st, .movfc, .movtc, .scall]

/-- The core operations without a conditional form that exist in both modes (30_encoding.md R159, R160). -/
def plainOps : List Op :=
  [.bc, .begt, .belt, .beq, .bgt, .blt, .bne, .bnc, .jal, .jmp, .cmp, .cmpi, .chrs, .di, .ei, .nop, .rcon,
   .reti, .retu, .scon, .swm]

/-- The core operations of 32-bit mode only, `cop` apart (30_encoding.md R158). -/
def only32Ops : List Op := [.exbfi, .lli, .lui, .trap]

/-- The rows of the 32-bit mode, coprocessor words apart. -/
def rows32 : List Row :=
  (condOps ++ plainOps ++ only32Ops).map (fun o => ⟨o, .u32⟩) ++ condOps.map (fun o => ⟨o, .c32⟩)

/-- The rows of the 16-bit mode: those the spec gives first, then the others, then the words that select a
32-bit-only operation (30_encoding.md R157, R161 (2)). -/
def rows16 : List Row :=
  [⟨.ori, .w16⟩, ⟨.slli, .w16⟩, ⟨.xor, .w16⟩] ++
  ((condOps ++ plainOps).filter (fun o => o ≠ .ori && o ≠ .slli && o ≠ .xor)).map (fun o => ⟨o, .w16⟩) ++
  (only32Ops ++ [Op.cop]).map (fun o => ⟨o, .x16⟩)

/-! ### From a row and its operand values to a term -/

/-- A register number of 5 bits. -/
def reg5 (v : Nat) : Fin 32 := Fin.ofNat 32 v
/-- A register field of 3 bits. -/
def reg3 (v : Nat) : Fin 8 := Fin.ofNat 8 v
/-- A coprocessor number. -/
def cop2 (v : Nat) : Fin 4 := Fin.ofNat 4 v
/-- The prefix of a conditional form. -/
def guardOf (c r : Nat) : Option Guard := some ⟨Cond.ofCode c, reg3 r⟩

/-- A shift field of 33 to 63 means a shift of 32 (30_encoding.md R153, 46_shift.md R440; DEDUCED, log 45). -/
def shiftField (v : Nat) : Int := if v ≤ 32 then (v : Int) else 32

/-- The target of `swm`, as the row's one operand bit gives it (log 1). -/
def swmTarget (v : Nat) : Mode := if v = 0 then .m16 else .m32

def readRR : List Nat → Option OpsRR
  | [d, s, t] => some (.w32 none (reg5 d) (reg5 s) (reg5 t))
  | [d, s, t, c, r] => some (.w32 (guardOf c r) (reg5 d) (reg5 s) (reg5 t))
  | [d, s] => some (.w16 (reg3 d) (reg3 s))
  | _ => none

/-- `f32`, `f9`, `f16`: how the immediate field of the unconditional, conditional and 16-bit form is read. -/
def readRI (fu fc fw : Nat → Int) : List Nat → Option OpsRI
  | [d, s, i] => some (.w32 none (reg5 d) (reg5 s) (fu i))
  | [d, s, i, c, r] => some (.w32 (guardOf c r) (reg5 d) (reg5 s) (fc i))
  | [d, i] => some (.w16 (reg3 d) (fw i))
  | _ => none

def readRRI (fu fc fw : Nat → Int) : Fmt → List Nat → Option OpsRRI
  | .u32, [a, b, i] => some (.w32 none (reg5 a) (reg5 b) (fu i))
  | .c32, [a, b, i, c, r] => some (.w32 (guardOf c r) (reg5 a) (reg5 b) (fc i))
  | .w16, [a, b, i] => some (.w16 (reg3 a) (reg3 b) (fw i))
  | _, _ => none

def readR2 : Fmt → List Nat → Option OpsR2
  | .u32, [d, s] => some (.w32 none (reg5 d) (reg5 s))
  | .c32, [d, s, c, r] => some (.w32 (guardOf c r) (reg5 d) (reg5 s))
  | .w16, [d, s] => some (.w16 (reg3 d) (reg3 s))
  | _, _ => none

def readR1 : Fmt → List Nat → Option OpsR1
  | .u32, [d] => some (.w32 none (reg5 d))
  | .c32, [d, c, r] => some (.w32 (guardOf c r) (reg5 d))
  | .w16, [d] => some (.w16 (reg3 d))
  | _, _ => none

def readR1u : Fmt → List Nat → Option OpsR1u
  | .u32, [d] => some (.w32 (reg5 d))
  | .w16, [d] => some (.w16 (reg3 d))
  | _, _ => none

def readBr : List Nat → Option OpsBr
  | [r, i] => some (.w32 (reg3 r) (signedField 22 i))
  | [i] => some (.w16 (signedField 10 i))
  | _ => none

def readJ : Fmt → List Nat → Option OpsJ
  | .u32, [i] => some (.w32 (signedField 25 i))
  | .w16, [i] => some (.w16 (signedField 10 i))
  | _, _ => none

def readCmp : List Nat → Option OpsCmp
  | [r, s, t] => some (.w32 (reg3 r) (reg5 s) (reg5 t))
  | [s, t] => some (.w16 (reg3 s) (reg3 t))
  | _ => none

def readCmpi : List Nat → Option OpsCmpi
  | [r, s, i] => some (.w32 (reg3 r) (reg5 s) (signedField 17 i))
  | [s, i] => some (.w16 (reg3 s) (signedField 7 i))
  | _ => none

/-- `movfc n, r, cpr`. -/
def readCpFrom : Fmt → List Nat → Option OpsCp
  | .u32, [n, r, p] => some (.w32 none (cop2 n) (reg5 p) (reg5 r))
  | .c32, [n, r, p, c, k] => some (.w32 (guardOf c k) (cop2 n) (reg5 p) (reg5 r))
  | .w16, [n, r, p] => some (.w16 (cop2 n) (reg5 p) (reg3 r))
  | _, _ => none

/-- `movtc n, cpr, r`. -/
def readCpTo : Fmt → List Nat → Option OpsCp
  | .u32, [n, p, r] => some (.w32 none (cop2 n) (reg5 p) (reg5 r))
  | .c32, [n, p, r, c, k] => some (.w32 (guardOf c k) (cop2 n) (reg5 p) (reg5 r))
  | .w16, [n, p, r] => some (.w16 (cop2 n) (reg5 p) (reg3 r))
  | _, _ => none

def readG : Fmt → List Nat → Option OpsG
  | .u32, [] => some (.w32 none)
  | .c32, [c, r] => some (.w32 (guardOf c r))
  | .w16, [] => some .w16
  | _, _ => none

def readRISigned : List Nat → Option OpsRI := readRI (signedField 15) (signedField 9) (signedField 7)
def readRIUnsigned : List Nat → Option OpsRI := readRI Int.ofNat Int.ofNat Int.ofNat
def readRIShift : List Nat → Option OpsRI := readRI shiftField shiftField shiftField
def readRRISel : Fmt → List Nat → Option OpsRRI := readRRI Int.ofNat Int.ofNat Int.ofNat
def readRRIOff : Fmt → List Nat → Option OpsRRI := readRRI (signedField 15) (signedField 9) (signedField 4)

/-- `exbfi`, in 16-bit mode with all operands 0 (log 4). -/
def readExbfi : Fmt → List Nat → Option Instr
  | .u32, [d, s, l, p] => some (.exbfi (reg5 d) (reg5 s) l p)
  | .x16, _ => some (.exbfi 0 0 0 0)
  | _, _ => none

/-- `lli`, `lui`, in 16-bit mode with all operands 0 (log 4). -/
def readLoadImm (mk : Fin 32 → Nat → Instr) : Fmt → List Nat → Option Instr
  | .u32, [d, i] => some (mk (reg5 d) i)
  | .x16, _ => some (mk 0 0)
  | _, _ => none

/-- The term of a row with operand values `a`. A word of 16-bit mode that selects a 32-bit-only operation decodes to
that operation's term with all operands 0, one that selects `cop` to the coprocessor term `fadd`, which is well formed
under every DECODE: the term only raises exception 2 (log 4). -/
def Row.build (r : Row) (a : List Nat) : Option Instr :=
  let f := r.fmt
  match r.op with
  | .add => (readRR a).map .add
  | .addi => (readRISigned a).map .addi
  | .addiu => (readRIUnsigned a).map .addiu
  | .addu => (readRR a).map .addu
  | .mulhi => (readR1 f a).map .mulhi
  | .muli => (readRISigned a).map .muli
  | .muls => (readRR a).map .muls
  | .muls16 => (readRR a).map .muls16
  | .mulu => (readRR a).map .mulu
  | .mulu16 => (readRR a).map .mulu16
  | .mulus => (readRR a).map .mulus
  | .mulus16 => (readRR a).map .mulus16
  | .sub => (readRR a).map .sub
  | .subu => (readRR a).map .subu
  | .conb => (readRR a).map .conb
  | .conh => (readRR a).map .conh
  | .exb => (readRRISel f a).map .exb
  | .exbf => (readRR a).map .exbf
  | .exbfi => readExbfi f a
  | .exh => (readRRISel f a).map .exh
  | .lli => readLoadImm .lli f a
  | .lui => readLoadImm .lui f a
  | .sext => (readRR a).map .sext
  | .sexti => (readRIUnsigned a).map .sexti
  | .and => (readRR a).map .and
  | .andi => (readRIUnsigned a).map .andi
  | .not => (readR2 f a).map .not
  | .or => (readRR a).map .or
  | .ori => (readRIUnsigned a).map .ori
  | .xor => (readRR a).map .xor
  | .bc => (readBr a).map .bc
  | .begt => (readBr a).map .begt
  | .belt => (readBr a).map .belt
  | .beq => (readBr a).map .beq
  | .bgt => (readBr a).map .bgt
  | .blt => (readBr a).map .blt
  | .bne => (readBr a).map .bne
  | .bnc => (readBr a).map .bnc
  | .jal => (readJ f a).map .jal
  | .jmp => (readJ f a).map .jmp
  | .jalr => (readR1 f a).map .jalr
  | .jmpr => (readR1 f a).map .jmpr
  | .cmp => (readCmp a).map .cmp
  | .cmpi => (readCmpi a).map .cmpi
  | .sll => (readRR a).map .sll
  | .slli => (readRIShift a).map .slli
  | .sra => (readRR a).map .sra
  | .srai => (readRIShift a).map .srai
  | .srl => (readRR a).map .srl
  | .srli => (readRIShift a).map .srli
  | .ld => (readRRIOff f a).map .ld
  | .mov => (readR2 f a).map .mov
  | .st => (readRRIOff f a).map .st
  | .movfc => (readCpFrom f a).map .movfc
  | .movtc => (readCpTo f a).map .movtc
  | .chrs => (a[0]?).map (.chrs f.mode)
  | .di => some (.di f.mode)
  | .ei => some (.ei f.mode)
  | .nop => some (.nop f.mode)
  | .rcon => (readR1u f a).map .rcon
  | .reti => some (.reti f.mode)
  | .retu => some (.retu f.mode)
  | .scall => (readG f a).map .scall
  | .scon => (readR1u f a).map .scon
  | .swm => (a[0]?).map fun v => .swm f.mode (swmTarget v)
  | .trap => if f = .x16 then some (.trap 0) else (a[0]?).map .trap
  | .cop => if f = .x16 then some (.fadd ⟨0, 0, 0, 0, 0⟩) else none

/-- The term a Milk operation names, with the fields of the word (48_coprocessor.md R490 to R500). -/
def MilkOp.term (m : MilkOp) (o : OpsF) : Instr :=
  match m with
  | .fadd => .fadd o
  | .fsub => .fsub o
  | .fmul => .fmul o
  | .fdiv => .fdiv o
  | .fsqrt => .fsqrt o
  | .fabs => .fabs o
  | .fmov => .fmov o
  | .fneg => .fneg o
  | .fnop => .fnop o
  | .fcvts => .fcvts o
  | .fcvtw => .fcvtw o

/-- The fields of a coprocessor word (30_encoding.md R148). -/
def copFields (w : BitVec 32) : OpsF :=
  { n := cop2 (w.extractLsb' 24 2).toNat
    dr := reg5 (w.extractLsb' 6 5).toNat
    sr1 := reg5 (w.extractLsb' 11 5).toNat
    sr2 := reg5 (w.extractLsb' 16 5).toNat
    top := w.extractLsb' 21 3 }

/-- A coprocessor word (30_encoding.md R148): every word with the operation code of `cop` is one (R161 (6)). No bit of it is
dropped, and bits 23..21, which the spec calls unused and always 0, do not choose the term (DESIGN CHOICE, log 3). A code
the manual does not describe leaves the word a `cop` term. -/
def decodeCop (T : EncTable) (w : BitVec 32) : Instr :=
  match T.milkKind (w.extractLsb' 0 6) with
  | .op m => m.term (copFields w)
  | .compare => .fcc (w.extractLsb' 0 6) (copFields w)
  | .undescribed => .cop (copFields w).n (w.extractLsb' 0 24)

/-- The first row of the list that matches a word gives the term. -/
def decodeRows (T : EncTable) (bits : List Bool) : List Row → Except DecodeError Instr
  | [] => .error .noRow
  | r :: rs =>
    if patMatches (T.pat r) bits then
      match r.build (patArgs (T.pat r) bits r.widths) with
      | some i => .ok i
      | none => .error .badField
    else decodeRows T bits rs

/-- The term of a machine word, before the check of its fields. -/
def decodeRaw (T : EncTable) : Mode → Nat → Except DecodeError Instr
  | .m16, w => decodeRows T (bitsOf 16 w) rows16
  | .m32, w =>
    if (BitVec.ofNat 32 w).extractLsb' 26 6 = T.copOpcode then .ok (decodeCop T (BitVec.ofNat 32 w))
    else decodeRows T (bitsOf 32 w) rows32

/-- DECODE (30_encoding.md R141) for a value `T` of the parameter: the term of the machine word `w` of a mode; a
field Table 3-14 does not permit is refused (R161 (5)). -/
def decodeWith (T : EncTable) (m : Mode) (w : Nat) : Except DecodeError Instr :=
  match decodeRaw T m w with
  | .ok i => if i.wfIn T then .ok i else .error .badField
  | .error e => .error e

/-- The term at the head of a list of bytes, most significant byte first, and the bytes after it. -/
def decodeBytesWith (T : EncTable) (m : Mode) (bs : List Byte) : Except DecodeError (Instr × List Byte) :=
  if bs.length < m.len then .error .truncated
  else
    match decodeWith T m (natOfBytes (bs.take m.len)) with
    | .ok i => .ok (i, bs.drop m.len)
    | .error e => .error e

/-- The machine's decoder. -/
def decodeBytes (m : Mode) (bs : List Byte) : Except DecodeError (Instr × List Byte) :=
  decodeBytesWith Config.enc m bs

/-- The instruction of the bits `w` of a row of spec/opcode_table.json; `nbits` is 16 or 32, and says the mode. -/
def decodeTableWord (nbits w : Nat) : Option Instr :=
  let m : Option Mode := if nbits = 16 then some .m16 else if nbits = 32 then some .m32 else none
  match m with
  | none => none
  | some m =>
    match decodeBytes m (wordBytes m w) with
    | .ok (i, _) => some i
    | .error _ => none

/-! ### The encoder -/

def guardArgs : Option Guard → List Nat
  | none => []
  | some g => [g.cond.code, g.cr.val]

/-- The 32-bit row of an operation, conditional or not. -/
def row32 (op : Op) : Option Guard → Row
  | none => ⟨op, .u32⟩
  | some _ => ⟨op, .c32⟩

def writeRR (op : Op) : OpsRR → Row × List Nat
  | .w32 g d s t => (row32 op g, [d.val, s.val, t.val] ++ guardArgs g)
  | .w16 d s => (⟨op, .w16⟩, [d.val, s.val])

/-- `nu`, `nc`, `nw`: the widths of the immediate field of the unconditional, conditional and 16-bit form. -/
def writeRI (nu nc nw : Nat) (op : Op) : OpsRI → Row × List Nat
  | .w32 none d s i => (⟨op, .u32⟩, [d.val, s.val, fieldOf nu i])
  | .w32 (some g) d s i => (⟨op, .c32⟩, [d.val, s.val, fieldOf nc i] ++ guardArgs (some g))
  | .w16 d i => (⟨op, .w16⟩, [d.val, fieldOf nw i])

def writeRRI (nu nc nw : Nat) (op : Op) : OpsRRI → Row × List Nat
  | .w32 none a b i => (⟨op, .u32⟩, [a.val, b.val, fieldOf nu i])
  | .w32 (some g) a b i => (⟨op, .c32⟩, [a.val, b.val, fieldOf nc i] ++ guardArgs (some g))
  | .w16 a b i => (⟨op, .w16⟩, [a.val, b.val, fieldOf nw i])

def writeR2 (op : Op) : OpsR2 → Row × List Nat
  | .w32 g d s => (row32 op g, [d.val, s.val] ++ guardArgs g)
  | .w16 d s => (⟨op, .w16⟩, [d.val, s.val])

def writeR1 (op : Op) : OpsR1 → Row × List Nat
  | .w32 g d => (row32 op g, [d.val] ++ guardArgs g)
  | .w16 d => (⟨op, .w16⟩, [d.val])

def writeR1u (op : Op) : OpsR1u → Row × List Nat
  | .w32 d => (⟨op, .u32⟩, [d.val])
  | .w16 d => (⟨op, .w16⟩, [d.val])

def writeBr (op : Op) : OpsBr → Row × List Nat
  | .w32 r i => (⟨op, .u32⟩, [r.val, fieldOf 22 i])
  | .w16 i => (⟨op, .w16⟩, [fieldOf 10 i])

def writeJ (op : Op) : OpsJ → Row × List Nat
  | .w32 i => (⟨op, .u32⟩, [fieldOf 25 i])
  | .w16 i => (⟨op, .w16⟩, [fieldOf 10 i])

def writeCmp : OpsCmp → Row × List Nat
  | .w32 r s t => (⟨.cmp, .u32⟩, [r.val, s.val, t.val])
  | .w16 s t => (⟨.cmp, .w16⟩, [s.val, t.val])

def writeCmpi : OpsCmpi → Row × List Nat
  | .w32 r s i => (⟨.cmpi, .u32⟩, [r.val, s.val, fieldOf 17 i])
  | .w16 s i => (⟨.cmpi, .w16⟩, [s.val, fieldOf 7 i])

def writeCpFrom : OpsCp → Row × List Nat
  | .w32 g n p r => (row32 .movfc g, [n.val, r.val, p.val] ++ guardArgs g)
  | .w16 n p r => (⟨.movfc, .w16⟩, [n.val, r.val, p.val])

def writeCpTo : OpsCp → Row × List Nat
  | .w32 g n p r => (row32 .movtc g, [n.val, p.val, r.val] ++ guardArgs g)
  | .w16 n p r => (⟨.movtc, .w16⟩, [n.val, p.val, r.val])

def writeG (op : Op) : OpsG → Row × List Nat
  | .w32 g => (row32 op g, guardArgs g)
  | .w16 => (⟨op, .w16⟩, [])

/-- The row of an operation in a mode, for the operations without a conditional form. -/
def modeRow (op : Op) : Mode → Row
  | .m16 => ⟨op, .w16⟩
  | .m32 => ⟨op, .u32⟩

/-- A coprocessor word (30_encoding.md R148), with all the fields the term holds; nothing is written in place of a field
that the operation ignores (log 3). -/
def copWord (T : EncTable) (o : OpsF) (code : BitVec 6) : BitVec 32 :=
  T.copOpcode ++ BitVec.ofNat 2 o.n.val ++ o.top ++ BitVec.ofNat 5 o.sr2.val ++ BitVec.ofNat 5 o.sr1.val ++
    BitVec.ofNat 5 o.dr.val ++ code

/-- The word of a coprocessor term, none for a term of the core's own operations. -/
def encodeCop (T : EncTable) : Instr → Option (BitVec 32)
  | .cop n p => some (T.copOpcode ++ BitVec.ofNat 2 n.val ++ p)
  | .fadd o => some (copWord T o (T.milkCode .fadd))
  | .fsub o => some (copWord T o (T.milkCode .fsub))
  | .fmul o => some (copWord T o (T.milkCode .fmul))
  | .fdiv o => some (copWord T o (T.milkCode .fdiv))
  | .fsqrt o => some (copWord T o (T.milkCode .fsqrt))
  | .fabs o => some (copWord T o (T.milkCode .fabs))
  | .fmov o => some (copWord T o (T.milkCode .fmov))
  | .fneg o => some (copWord T o (T.milkCode .fneg))
  | .fnop o => some (copWord T o (T.milkCode .fnop))
  | .fcvts o => some (copWord T o (T.milkCode .fcvts))
  | .fcvtw o => some (copWord T o (T.milkCode .fcvtw))
  | .fcc code o => some (copWord T o code)
  | _ => none

/-- The row and the operand values of a term of the core's own operations; coprocessor terms have no row (their
entry here is not used). -/
def Instr.rowArgs : Instr → Row × List Nat
  | .add o => writeRR .add o
  | .addi o => writeRI 15 9 7 .addi o
  | .addiu o => writeRI 15 9 7 .addiu o
  | .addu o => writeRR .addu o
  | .mulhi o => writeR1 .mulhi o
  | .muli o => writeRI 15 9 7 .muli o
  | .muls o => writeRR .muls o
  | .muls16 o => writeRR .muls16 o
  | .mulu o => writeRR .mulu o
  | .mulu16 o => writeRR .mulu16 o
  | .mulus o => writeRR .mulus o
  | .mulus16 o => writeRR .mulus16 o
  | .sub o => writeRR .sub o
  | .subu o => writeRR .subu o
  | .conb o => writeRR .conb o
  | .conh o => writeRR .conh o
  | .exb o => writeRRI 2 2 2 .exb o
  | .exbf o => writeRR .exbf o
  | .exbfi d s l p => (⟨.exbfi, .u32⟩, [d.val, s.val, l, p])
  | .exh o => writeRRI 1 1 1 .exh o
  | .lli d i => (⟨.lli, .u32⟩, [d.val, i])
  | .lui d i => (⟨.lui, .u32⟩, [d.val, i])
  | .sext o => writeRR .sext o
  | .sexti o => writeRI 5 5 5 .sexti o
  | .and o => writeRR .and o
  | .andi o => writeRI 15 9 7 .andi o
  | .not o => writeR2 .not o
  | .or o => writeRR .or o
  | .ori o => writeRI 15 9 7 .ori o
  | .xor o => writeRR .xor o
  | .bc o => writeBr .bc o
  | .begt o => writeBr .begt o
  | .belt o => writeBr .belt o
  | .beq o => writeBr .beq o
  | .bgt o => writeBr .bgt o
  | .blt o => writeBr .blt o
  | .bne o => writeBr .bne o
  | .bnc o => writeBr .bnc o
  | .jal o => writeJ .jal o
  | .jmp o => writeJ .jmp o
  | .jalr o => writeR1 .jalr o
  | .jmpr o => writeR1 .jmpr o
  | .cmp o => writeCmp o
  | .cmpi o => writeCmpi o
  | .sll o => writeRR .sll o
  | .slli o => writeRI 6 6 6 .slli o
  | .sra o => writeRR .sra o
  | .srai o => writeRI 6 6 6 .srai o
  | .srl o => writeRR .srl o
  | .srli o => writeRI 6 6 6 .srli o
  | .ld o => writeRRI 15 9 4 .ld o
  | .mov o => writeR2 .mov o
  | .st o => writeRRI 15 9 4 .st o
  | .movfc o => writeCpFrom o
  | .movtc o => writeCpTo o
  | .chrs m i => (modeRow .chrs m, [i])
  | .di m => (modeRow .di m, [])
  | .ei m => (modeRow .ei m, [])
  | .nop m => (modeRow .nop m, [])
  | .rcon o => writeR1u .rcon o
  | .reti m => (modeRow .reti m, [])
  | .retu m => (modeRow .retu m, [])
  | .scall o => writeG .scall o
  | .scon o => writeR1u .scon o
  | .swm m t => (modeRow .swm m, [if t = .m16 then 0 else 1])
  | .trap i => (⟨.trap, .u32⟩, [i])
  | .cop .. | .fadd _ | .fsub _ | .fmul _ | .fdiv _ | .fsqrt _ | .fabs _ | .fmov _ | .fneg _ | .fnop _
  | .fcvts _ | .fcvtw _ | .fcc .. => (⟨.cop, .u32⟩, [])

/-- The machine word of a term (30_encoding.md R141, R148), for a value `T` of the parameter. -/
def encodeWord (T : EncTable) (i : Instr) : Nat :=
  match encodeCop T i with
  | some w => w.toNat
  | none => natOfBits (patWord (T.pat i.rowArgs.1) i.rowArgs.2)

/-- The bytes of a term as they stand in instruction memory (20_memory.md R122). -/
def encodeWith (T : EncTable) (i : Instr) : List Byte := wordBytes i.mode (encodeWord T i)

/-- The machine's encoder. -/
def encode (i : Instr) : List Byte := encodeWith Config.enc i

/-! ### The constraints on DECODE (30_encoding.md R161) -/

/-- Every bit of every operand stands in one place of the pattern, and in no other. -/
def patCovers (p : List PBit) (widths : List Nat) : Bool :=
  widths.zipIdx.all fun (n, k) => (List.range n).all fun j => decide (p.count (.arg k j) = 1)

/-- The patterns of a list of rows have the word's length, hold every operand bit once, and no two of them match one
word. -/
def EncTable.rowsOk (T : EncTable) (len : Nat) : List Row → Bool
  | [] => true
  | r :: rs => decide ((T.pat r).length = len) && patCovers (T.pat r) r.widths &&
      rs.all (fun r' => patClash (T.pat r) (T.pat r')) && T.rowsOk len rs

/-- The pattern of a coprocessor word's operation code (30_encoding.md R148). -/
def EncTable.copPat (T : EncTable) : List PBit :=
  (bitsOf 6 T.copOpcode.toNat).map .lit ++ List.replicate 26 (.spare false)

/-- Bit `j` of a 32-bit pattern. -/
def patBit (p : List PBit) (j : Nat) : Option PBit := p[31 - j]?

/-- The immediate of `lli` and `lui` (30_encoding.md R149): bits 14..0 stand together, the lowest at bit 2 of some byte;
bit 15 stands at bit 1 of some byte, apart from them. -/
def immSplit (p : List PBit) : Bool :=
  (List.range 4).any fun k => (List.range 4).any fun m =>
    (List.range 15).all (fun j => decide (patBit p (8 * k + 2 + j) = some (.arg 1 j))) &&
      decide (patBit p (8 * m + 1) = some (.arg 1 15)) && decide (8 * m + 1 ≠ 8 * k + 17)

/-- Every operation code of a mode is some row's (30_encoding.md R156, R161 (1)), the code of `cop` in 32-bit mode apart. -/
def EncTable.codesUsed (T : EncTable) (rows : List Row) (extra : List (BitVec 6)) : Bool :=
  (List.range 64).all fun v =>
    rows.any (fun r => decide ((T.opcodeOf r).toNat = v)) || extra.any (fun c => decide (c.toNat = v))

/-- A value of the parameter that satisfies the rules on it (30_encoding.md R161): different terms have different words (4),
(6); every operand bit has one place; no operation code of a mode is unused (1); the immediates of `lli` and `lui` are split
as R149 says; Milk's operations have codes of their own, and no comparison shares one with them. That the operation code
leads, and that the branches, the jumps and the three rows of R155 have their bits where the spec says and nowhere else,
holds of every value (`EncTable.pat`). -/
def EncTable.admissible (T : EncTable) : Bool :=
  T.rowsOk 16 rows16 && T.rowsOk 32 rows32 && rows32.all (fun r => patClash (T.pat r) T.copPat) &&
  T.codesUsed rows16 [] && T.codesUsed rows32 [T.copOpcode] &&
  immSplit (T.pat ⟨.lli, .u32⟩) && immSplit (T.pat ⟨.lui, .u32⟩) &&
  milkOps.all (fun m => decide (T.milkKind (T.milkCode m) = .op m) && !T.compares ((T.milkCode m).extractLsb' 0 5))

end Sys2Proof
end

