-- ==== Sys2Proof/Machine/Float.lean ====
section
/-! DEFINITION. The arithmetic of Milk on single-precision words (48_coprocessor.md R484 to R501): exact values, the
rounding that R486 allows, and for each operation its result and flags. The layout of a word is that of IEEE 754
(R484; PRESUMED, log 37). `n` is the index of the free values (log 10). -/

namespace Sys2Proof.Machine

/-- What a word stands for: a NaN, an infinity, or the number (-1)^neg * m * 2^e. -/
inductive FpVal where
  | nan (signalling : Bool)
  | inf (neg : Bool)
  | num (neg : Bool) (m : Nat) (e : Int)
deriving DecidableEq, Repr

/-- A result and the flags it raises (R486). -/
structure FpOut where
  value : Word
  flags : BitVec 7
deriving DecidableEq, Repr

/-! The flags, in the bit order UI, DZ, NV, NX, UF, OF, DW (R486). -/

def flagOF : BitVec 7 := 0x02#7
def flagUF : BitVec 7 := 0x04#7
def flagNX : BitVec 7 := 0x08#7
def flagNV : BitVec 7 := 0x10#7
def flagDZ : BitVec 7 := 0x20#7

/-- The value of a word (R484; log 37). -/
def fpVal (w : Word) : FpVal :=
  let neg := w.getLsbD 31
  let exp := (w.extractLsb' 23 8).toNat
  let frac := w.extractLsb' 0 23
  if exp = 255 then (if frac = 0#23 then .inf neg else .nan (Config.isSignalling frac))
  else if exp = 0 then .num neg frac.toNat (-149)
  else .num neg (frac.toNat + 8388608) ((exp : Int) - 150)

/-- A word from its sign and its 31 low bits. -/
def fpWord (neg : Bool) (bits : Nat) : Word := BitVec.ofBool neg ++ BitVec.ofNat 31 bits

def fpInf (neg : Bool) : FpOut := { value := fpWord neg (255 * 8388608), flags := 0#7 }

/-- A result that is zero: its sign is open (log 38). -/
def fpZero (n : Nat) : FpOut := { value := fpWord (Config.freeZeroSign n) 0, flags := 0#7 }

/-- Flags are raised and the value is not stated (R486). -/
def fpOpen (n : Nat) (flags : BitVec 7) : FpOut := { value := Config.freeWord n, flags := flags }

/-- Flags of a described instruction of which the text determines none: whatever `b` says, but UI and DW stay clear, and NX
is set when OF or UF is (R486). -/
def openFlags (b : BitVec 7) : BitVec 7 :=
  let f := b &&& 0x3E#7
  if f &&& (flagOF ||| flagUF) = 0#7 then f else f ||| flagNX

/-- An infinite result of which the text can be read as an overflow or as exact: either (log 39). -/
def fpInfOpen (n : Nat) (neg : Bool) : FpOut :=
  if Config.freeFlag n then fpOpen n (flagOF ||| flagNX) else fpInf neg

/-- The rounded word of a magnitude, its 31 low bits being `bits`: past the largest finite number it is an overflow;
zero has an open sign. -/
def fpPlace (n : Nat) (neg : Bool) (bits : Nat) (inexact : Bool) : FpOut :=
  if 255 * 8388608 ≤ bits then fpOpen n (flagOF ||| flagNX)
  else
    { value := fpWord (if bits = 0 then Config.freeZeroSign n else neg) bits
      flags := if inexact then flagNX else 0#7 }

/-- The result for the exact magnitude `r` with `q * 2^x ≤ r < (q + 1) * 2^x`, equal to the lower bound unless
`sticky` (R486): exact if representable, else one of the two neighbours and NX; exponent above 127: OF and NX,
exponent below -150: UF and NX. With `sticky`, `q` has at least 25 bits. -/
def fpRound (n : Nat) (neg : Bool) (q : Nat) (x : Int) (sticky : Bool) : FpOut :=
  if q = 0 then fpZero n
  else
    let top : Int := (Nat.log2 q : Int) + x
    if 127 < top then fpOpen n (flagOF ||| flagNX)
    else if top < -150 then fpOpen n (flagUF ||| flagNX)
    else
      let u : Int := max (top - 23) (-149)
      let m : Nat := if u ≤ x then q * 2 ^ (x - u).toNat else q / 2 ^ (u - x).toNat
      let inexact : Bool := sticky || (decide (x < u) && decide (q % 2 ^ (u - x).toNat ≠ 0))
      let bits : Nat := (u + 149).toNat * 8388608 + m
      fpPlace n neg (if inexact && Config.freeRound n then bits + 1 else bits) inexact

/-- The sign and magnitude of an integer times `2^x`, rounded. -/
def fpOfInt (n : Nat) (i : Int) (x : Int) : FpOut := fpRound n (decide (i < 0)) i.natAbs x false

/-- A number as an integer multiple of `2^x`, `x` at most its exponent. -/
def fpScaled (neg : Bool) (m : Nat) (e x : Int) : Int :=
  let v : Int := (m : Int) * 2 ^ (e - x).toNat
  if neg then -v else v

def FpVal.isNaN : FpVal → Bool
  | .nan _ => true
  | _ => false

def FpVal.isSNaN : FpVal → Bool
  | .nan s => s
  | _ => false

/-- `x + y` (R490). An operand that is a quiet NaN gives an open value and no flag, here and in `fpSub`, `fpMul`, `fpDiv` and
`fpSqrt` (DESIGN CHOICE: the rules say nothing of it, log 53). -/
def fpAdd (n : Nat) (a b : Word) : FpOut :=
  let x := fpVal a
  let y := fpVal b
  if x.isSNaN || y.isSNaN then fpOpen n flagNV
  else
    match x, y with
    | .nan _, _ => fpOpen n 0#7
    | _, .nan _ => fpOpen n 0#7
    | .inf p, .inf q => if p = q then fpInfOpen n p else fpOpen n flagNV
    | .inf p, .num .. => fpInfOpen n p
    | .num .., .inf q => fpInfOpen n q
    | .num p m e, .num q k f => fpOfInt n (fpScaled p m e (min e f) + fpScaled q k f (min e f)) (min e f)

/-- `x - y` (R491): infinities of opposite signs are invalid as printed; of the same sign nothing is stated (log
40). -/
def fpSub (n : Nat) (a b : Word) : FpOut :=
  let x := fpVal a
  let y := fpVal b
  if x.isSNaN || y.isSNaN then fpOpen n flagNV
  else
    match x, y with
    | .nan _, _ => fpOpen n 0#7
    | _, .nan _ => fpOpen n 0#7
    | .inf p, .inf q => if p = q then fpOpen n (openFlags (Config.freeFlags n)) else fpOpen n flagNV
    | .inf p, .num .. => fpInfOpen n p
    | .num .., .inf q => fpInfOpen n (!q)
    | .num p m e, .num q k f => fpOfInt n (fpScaled p m e (min e f) - fpScaled q k f (min e f)) (min e f)

/-- `fsub` with its two operands in the order FSUB_ORDER says (R491; log 40). -/
def fpFsub (n : Nat) (sr1 sr2 : Word) : FpOut :=
  if Config.fsubSr2MinusSr1 then fpSub n sr2 sr1 else fpSub n sr1 sr2

/-- `x * y` (R492): infinity times a finite number other than 0 is an overflow. -/
def fpMul (n : Nat) (a b : Word) : FpOut :=
  let x := fpVal a
  let y := fpVal b
  if x.isSNaN || y.isSNaN then fpOpen n flagNV
  else
    match x, y with
    | .nan _, _ => fpOpen n 0#7
    | _, .nan _ => fpOpen n 0#7
    | .inf p, .inf q => fpInfOpen n (p != q)
    | .inf _, .num _ m _ => fpOpen n (if m = 0 then flagNV else flagOF ||| flagNX)
    | .num _ m _, .inf _ => fpOpen n (if m = 0 then flagNV else flagOF ||| flagNX)
    | .num p m e, .num q k f => fpRound n (p != q) (m * k) (e + f) false

/-- `x / y` (R493). -/
def fpDiv (n : Nat) (a b : Word) : FpOut :=
  let x := fpVal a
  let y := fpVal b
  if x.isSNaN || y.isSNaN then fpOpen n flagNV
  else
    match x, y with
    | .nan _, _ => fpOpen n 0#7
    | _, .nan _ => fpOpen n 0#7
    | .inf _, .inf _ => fpOpen n flagNV
    | .inf p, .num q k _ => if k = 0 then fpOpen n (flagOF ||| flagNX) else fpInfOpen n (p != q)
    | .num .., .inf _ => fpZero n
    | .num p m e, .num q k f =>
      if k = 0 then fpOpen n (if m = 0 then flagNV else flagDZ)
      else fpRound n (p != q) (m * 2 ^ 60 / k) (e - f - 60) (decide (m * 2 ^ 60 % k ≠ 0))

/-- `fdiv` with dividend and divisor in the order FDIV_ORDER says (R493; log 40). -/
def fpFdiv (n : Nat) (sr1 sr2 : Word) : FpOut :=
  if Config.fdivSr2OverSr1 then fpDiv n sr2 sr1 else fpDiv n sr1 sr2

/-- The integer square root of `a`, found bit by bit below bit `k`, above the part `r` found already. -/
def isqrtFrom : Nat → Nat → Nat → Nat
  | 0, _, r => r
  | k + 1, a, r => if (r + 2 ^ k) * (r + 2 ^ k) ≤ a then isqrtFrom k a (r + 2 ^ k) else isqrtFrom k a r

/-- The square root of `m * 2^e` (R494): the exponent is made even, the mantissa widened by 60 bits. -/
def fpRoot (n : Nat) (m : Nat) (e : Int) : FpOut :=
  let m' := if e % 2 = 0 then m else 2 * m
  let e' := if e % 2 = 0 then e else e - 1
  let q := isqrtFrom 44 (m' * 2 ^ 60) 0
  fpRound n false q (e' / 2 - 30) (decide (q * q ≠ m' * 2 ^ 60))

/-- `fsqrt` (R494): whether -0 counts as negative is open (log 41). Of +infinity the rule says nothing: the exact infinity
or an overflow, as for the other operations on infinities (DESIGN CHOICE, log 39). -/
def fpSqrt (n : Nat) (a : Word) : FpOut :=
  match fpVal a with
  | .nan s => fpOpen n (if s then flagNV else 0#7)
  | .inf neg => if neg then fpOpen n flagNV else fpInfOpen n false
  | .num neg m e =>
    if m = 0 then (if neg && Config.freeFlag n then fpOpen n flagNV else fpZero n)
    else if neg then fpOpen n flagNV
    else fpRoot n m e

/-- `fabs` (R495). -/
def fpAbs (n : Nat) (a : Word) : FpOut :=
  if (fpVal a).isNaN then fpOpen n flagNV else { value := 0#1 ++ a.extractLsb' 0 31, flags := 0#7 }

/-- `fneg` (R497). -/
def fpNeg (n : Nat) (a : Word) : FpOut :=
  if (fpVal a).isNaN then fpOpen n flagNV
  else { value := BitVec.ofBool (!a.getLsbD 31) ++ a.extractLsb' 0 31, flags := 0#7 }

/-- `fmov` (R496). -/
def fpMov (a : Word) : FpOut := { value := a, flags := 0#7 }

/-- `fcvt.s` (R499): the operand is a signed integer. -/
def fpFromInt (n : Nat) (a : Word) : FpOut := fpOfInt n (sint a) 0

/-- The result of `fcvt.w` for a number that is not an integer: one of its two integer neighbours, NX or not (R500,
N47; log 41). -/
def fpToIntFrac (n : Nat) (floor : Int) : FpOut :=
  { value := BitVec.ofInt 32 (if Config.freeRound n then floor + 1 else floor)
    flags := if Config.freeFlag n then flagNX else 0#7 }

/-- The exception of `fcvt.w` on an argument too large in magnitude, of either sign: invalid operation or overflow, the name
is lost (R500, N47; log 41). -/
def fpToIntOut (n : Nat) : FpOut := fpOpen n (if Config.freeFlag n then flagNV else flagOF ||| flagNX)

/-- `fcvt.w` (R500). DESIGN CHOICE: the exact upper limit is lost, the largest signed integer is taken (log 41). -/
def fpToInt (n : Nat) (a : Word) : FpOut :=
  match fpVal a with
  | .nan _ => fpOpen n (openFlags (Config.freeFlags n))
  | .inf _ => fpToIntOut n
  | .num neg m e =>
    if m ≠ 0 ∧ m < 8388608 then { value := 0#32, flags := flagNX }
    else if 0 ≤ e then
      let v := fpScaled neg m e 0
      if v ≤ -2147483649 ∨ 2147483647 < v then fpToIntOut n
      else { value := BitVec.ofInt 32 v, flags := 0#7 }
    else
      let v : Int := if neg then -(m : Int) else (m : Int)
      if v % 2 ^ (-e).toNat = 0 then { value := BitVec.ofInt 32 (v / 2 ^ (-e).toNat), flags := 0#7 }
      else fpToIntFrac n (v / 2 ^ (-e).toNat)

/-- How two integers compare. -/
def intRel (x y : Int) : FpRel := if x < y then .less else if x = y then .equal else .greater

/-- How two operands compare (R501): a NaN is unordered with everything, +0 equals -0. -/
def fpRel (a b : Word) : FpRel :=
  match fpVal a, fpVal b with
  | .nan _, _ => .unordered
  | _, .nan _ => .unordered
  | .inf p, .inf q => if p = q then .equal else if p then .less else .greater
  | .inf p, .num .. => if p then .less else .greater
  | .num .., .inf q => if q then .greater else .less
  | .num p m e, .num q k f => intRel (fpScaled p m e (min e f)) (fpScaled q k f (min e f))

/-- A comparison (R501): unordered operands and the top bit of the operation code raise NV; what is written for a
condition is open (log 42), and the same for the two codes of a pair, which differ in the top bit only. -/
def fpCompare (n : Nat) (code : BitVec 6) (a b : Word) : FpOut :=
  if fpRel a b = .unordered && code.getLsbD 5 then fpOpen n flagNV
  else { value := Config.compareResult (code.extractLsb' 0 5) (fpRel a b), flags := 0#7 }

end Sys2Proof.Machine
end

