-- ==== Sys2Proof/Machine/Milk.lean ====
section
/-! DEFINITION. Coprocessor moves, the forwarded coprocessor word, and the Milk instructions (48_coprocessor.md R480
to R501). -/

namespace Sys2Proof.Machine

/-- The Milk register a 5-bit field selects: its value modulo 8 (R484). -/
def milkReg (r : Fin 32) : Fin 8 := ⟨r.val % 8, by omega⟩

/-- The value of a Milk register. -/
def Milk.reg (m : Milk) (r : Fin 32) : Word := m.f[(milkReg r).val]

/-- The status register after an instruction that raised `flags` (R486, 10_state.md R88). -/
def Milk.fsrAfter (m : Milk) (flags : BitVec 7) : Word := 0#18 ++ (m.fsr.extractLsb' 7 7 ||| flags) ++ flags

/-- `milk_exec` for an operation with the destination field `dr` and the result `o` (R486). -/
def Milk.complete (m : Milk) (word : Word) (dr : Fin 32) (o : FpOut) : Milk :=
  { f := m.f.set (milkReg dr).val o.value, fsr := m.fsrAfter o.flags, fcr := word }

/-- `milk_exec` for `fnop` (R498). -/
def Milk.idle (m : Milk) (word : Word) : Milk := { m with fsr := m.fsrAfter 0#7, fcr := word }

/-- `cop_write` of a forwarded word to the register COP_CONF.Cn_IR names (R482, R483; log 36). -/
def Milk.putInstr (m : Milk) (index : BitVec 5) (word : Word) : Milk :=
  if h : index.toNat < 8 then { m with f := m.f.set index.toNat word } else m

/-- A Milk after a write to a register whose index the manual does not give: anything it may hold (R482, N30; log
35). -/
def Milk.havoc (n : Nat) : Milk :=
  { f := Vector.ofFn fun k => Config.freeMilk n k.val
    fsr := 0#18 ++ (Config.freeMilk n 8).extractLsb' 0 14
    fcr := Config.freeMilk n 9 }

/-- COP_CONF.Cn_IR (10_state.md R73, R483). -/
def State.copIr (s : State) (n : Fin 4) : BitVec 5 := s.ccb.copConf.extractLsb' (5 * n.val) 5

/-- `cop_read` (R481). -/
def State.copRead (s : State) (n : Fin 4) (i : Fin 32) : Word :=
  match s.cops[n.val] with
  | .milk m => if h : i.val < 8 then m.f[i.val] else Config.freeWord s.freeCtr
  | .other => Config.freeWord s.freeCtr
  | .absent => Config.freeWord s.freeCtr

/-- `cop_write` of `movtc` (R482). -/
def State.copWrite (s : State) (n : Fin 4) (i : Fin 32) (v : Word) : State :=
  match s.cops[n.val] with
  | .milk m =>
    if h : i.val < 8 then { s with cops := s.cops.set n.val (.milk { m with f := m.f.set i.val v }) }
    else { s with cops := s.cops.set n.val (.milk (Milk.havoc s.freeCtr)) }
  | .other => s
  | .absent => s

/-- The forwarding of a word (R483): `cop_rgi` is driven, the word is written, and a Milk performs `act`. -/
def State.forward (s : State) (n : Fin 4) (word : Word) (act : Milk → Milk) : State :=
  match s.cops[n.val] with
  | .milk m =>
    { s with cops := s.cops.set n.val (.milk (act (m.putInstr (s.copIr n) word))) }.emit (.copRgi (s.copIr n))
  | .other => s.emit (.copRgi (s.copIr n))
  | .absent => s.emit (.copRgi (s.copIr n))

/-- The machine word of a coprocessor term (30_encoding.md R148): the word it was decoded from, every bit of it. -/
def wordOf (i : Instr) : Word := BitVec.ofNat 32 (encodeWord Config.enc i)

/-- A Milk instruction with two operands; `f` gets the index of the free values and the operands `sr1`, `sr2`. -/
def milkOp3 (i : Instr) (o : OpsF) (s : State) (f : Nat → Word → Word → FpOut) :
    Host.Outcome State Fault Refusal :=
  run { only32 := true } none s fun t =>
    .ok (t.forward o.n (wordOf i) fun m => m.complete (wordOf i) o.dr (f t.freeCtr (m.reg o.sr1) (m.reg o.sr2)))

/-- A Milk instruction with one operand: the second source field is ignored (10_state.md R89). -/
def milkOp2 (i : Instr) (o : OpsF) (s : State) (f : Nat → Word → FpOut) : Host.Outcome State Fault Refusal :=
  run { only32 := true } none s fun t =>
    .ok (t.forward o.n (wordOf i) fun m => m.complete (wordOf i) o.dr (f t.freeCtr (m.reg o.sr1)))

/-- What a Milk does with a word by the operation its code names (R486); a code the manual does not describe writes
an open value and open flags (log 42). -/
def Milk.perform (n : Nat) (word : Word) (m : Milk) : Milk :=
  let dr := reg5 (word.extractLsb' 6 5).toNat
  let x := m.reg (reg5 (word.extractLsb' 11 5).toNat)
  let y := m.reg (reg5 (word.extractLsb' 16 5).toNat)
  match Config.enc.milkKind (word.extractLsb' 0 6) with
  | .op .fadd => m.complete word dr (fpAdd n x y)
  | .op .fsub => m.complete word dr (fpFsub n x y)
  | .op .fmul => m.complete word dr (fpMul n x y)
  | .op .fdiv => m.complete word dr (fpFdiv n x y)
  | .op .fsqrt => m.complete word dr (fpSqrt n x)
  | .op .fabs => m.complete word dr (fpAbs n x)
  | .op .fmov => m.complete word dr (fpMov x)
  | .op .fneg => m.complete word dr (fpNeg n x)
  | .op .fnop => m.idle word
  | .op .fcvts => m.complete word dr (fpFromInt n x)
  | .op .fcvtw => m.complete word dr (fpToInt n x)
  | .compare => m.complete word dr (fpCompare n (word.extractLsb' 0 6) x y)
  | .undescribed => m.complete word dr (fpOpen n (Config.freeFlags n))

/-- `movfc` (R481). -/
def execMovfc (o : OpsCp) (s : State) : Host.Outcome State Fault Refusal :=
  run {} o.guard s fun t => .ok (t.wr o.reg (t.copRead o.cop o.cpr))

/-- `movtc` (R482). -/
def execMovtc (o : OpsCp) (s : State) : Host.Outcome State Fault Refusal :=
  run {} o.guard s fun t => .ok (t.copWrite o.cop o.cpr (t.rd o.reg))

/-- `cop`: a forwarded word (R483). -/
def execCop (n : Fin 4) (payload : BitVec 24) (s : State) : Host.Outcome State Fault Refusal :=
  run { only32 := true } none s fun t =>
    .ok (t.forward n (wordOf (.cop n payload)) (Milk.perform t.freeCtr (wordOf (.cop n payload))))

/-- `fadd` (R490). -/
def execFadd (o : OpsF) (s : State) : Host.Outcome State Fault Refusal := milkOp3 (.fadd o) o s fpAdd
/-- `fsub` (R491). -/
def execFsub (o : OpsF) (s : State) : Host.Outcome State Fault Refusal := milkOp3 (.fsub o) o s fpFsub
/-- `fmul` (R492). -/
def execFmul (o : OpsF) (s : State) : Host.Outcome State Fault Refusal := milkOp3 (.fmul o) o s fpMul
/-- `fdiv` (R493). -/
def execFdiv (o : OpsF) (s : State) : Host.Outcome State Fault Refusal := milkOp3 (.fdiv o) o s fpFdiv
/-- `fsqrt` (R494). -/
def execFsqrt (o : OpsF) (s : State) : Host.Outcome State Fault Refusal := milkOp2 (.fsqrt o) o s fpSqrt
/-- `fabs` (R495). -/
def execFabs (o : OpsF) (s : State) : Host.Outcome State Fault Refusal := milkOp2 (.fabs o) o s fpAbs
/-- `fmov` (R496). -/
def execFmov (o : OpsF) (s : State) : Host.Outcome State Fault Refusal := milkOp2 (.fmov o) o s fun _ => fpMov
/-- `fneg` (R497). -/
def execFneg (o : OpsF) (s : State) : Host.Outcome State Fault Refusal := milkOp2 (.fneg o) o s fpNeg
/-- `fnop` (R498). -/
def execFnop (o : OpsF) (s : State) : Host.Outcome State Fault Refusal :=
  run { only32 := true } none s fun t =>
    .ok (t.forward o.n (wordOf (.fnop o)) fun m => m.idle (wordOf (.fnop o)))
/-- `fcvt.s` (R499). -/
def execFcvts (o : OpsF) (s : State) : Host.Outcome State Fault Refusal := milkOp2 (.fcvts o) o s fpFromInt
/-- `fcvt.w` (R500). -/
def execFcvtw (o : OpsF) (s : State) : Host.Outcome State Fault Refusal := milkOp2 (.fcvtw o) o s fpToInt
/-- `fcCONDITION` (R501). -/
def execFcc (code : BitVec 6) (o : OpsF) (s : State) : Host.Outcome State Fault Refusal :=
  milkOp3 (.fcc code o) o s fun n => fpCompare n code

end Sys2Proof.Machine
end

