-- ==== Sys2Proof/Machine/Shift.lean ====
section
/-! DEFINITION. Shifts (46_shift.md R440 to R449). -/

namespace Sys2Proof.Machine

/-- The amount of a register form (R440): the six low bits, at most 32. -/
def amount (v : Word) : Nat := min (v.extractLsb' 0 6).toNat 32

/-- The amount of an immediate form: above 32 it is 32, as for a register (30_encoding.md R153). -/
def immAmount (i : Int) : Nat := min i.toNat 32

/-- `a` shifted left by `p` to `d`, the flags to C0 (R441). -/
def sllTo (d : Fin 32) (a : Word) (p : Nat) (t : State) : Res :=
  .ok ((t.wr d (a <<< p)).setCr 0 (sllFlags (Config.freeCarry t.freeCtr) a p))

/-- `sll` (R444). -/
def execSll (o : OpsRR) (s : State) : Host.Outcome State Fault Refusal :=
  run {} o.guard s fun t => sllTo o.dest (t.rd o.first) (amount (t.rd o.second)) t

/-- `slli` (R445). -/
def execSlli (o : OpsRI) (s : State) : Host.Outcome State Fault Refusal :=
  run {} o.guard s fun t => sllTo o.dest (t.rd o.src) (immAmount o.imm) t

/-- `sra` (R446). -/
def execSra (o : OpsRR) (s : State) : Host.Outcome State Fault Refusal :=
  regOp o s fun a b => a.sshiftRight (amount b)

/-- `srai` (R447). -/
def execSrai (o : OpsRI) (s : State) : Host.Outcome State Fault Refusal :=
  immOp o s fun a => a.sshiftRight (immAmount o.imm)

/-- `srl` (R448). -/
def execSrl (o : OpsRR) (s : State) : Host.Outcome State Fault Refusal :=
  regOp o s fun a b => a >>> amount b

/-- `srli` (R449). -/
def execSrli (o : OpsRI) (s : State) : Host.Outcome State Fault Refusal :=
  immOp o s fun a => a >>> immAmount o.imm

end Sys2Proof.Machine
end

