-- ==== Sys2Proof/Machine/System.lean ====
section
/-! DEFINITION. The system instructions (49_miscellaneous.md R520 to R534). -/

namespace Sys2Proof.Machine

/-- The flags of all condition registers in 24 bits, C0 lowest (R530). -/
def crBits (v : Vector Flags 8) : BitVec 24 :=
  v[7].toBits ++ v[6].toBits ++ v[5].toBits ++ v[4].toBits ++ v[3].toBits ++ v[2].toBits ++ v[1].toBits ++
    v[0].toBits

/-- The condition registers from the 24 low bits of a word (R529). -/
def crOfWord (w : Word) : Vector Flags 8 := Vector.ofFn fun k => Flags.ofBits (w.extractLsb' (3 * k.val) 3)

/-- `chrs` (R521): bit 0 selects the set for reading, bit 1 the set for writing. -/
def execChrs (_m : Mode) (imm : Nat) (s : State) : Host.Outcome State Fault Refusal :=
  run { su := true } none s fun t =>
    .ok { t with psr := { t.psr with rsrd := imm.testBit 0, rswr := imm.testBit 1 } }

/-- `di` (R522). -/
def execDi (_m : Mode) (s : State) : Host.Outcome State Fault Refusal :=
  run { su := true } none s fun t => .ok { t with psr := { t.psr with ie := false } }

/-- `ei` (R523). -/
def execEi (_m : Mode) (s : State) : Host.Outcome State Fault Refusal :=
  run { su := true } none s fun t => .ok { t with psr := { t.psr with ie := true } }

/-- `nop` (R528). -/
def execNop (_m : Mode) (s : State) : Host.Outcome State Fault Refusal :=
  run {} none s fun t => .ok t

/-- `rcon` (R529). -/
def execRcon (o : OpsR1u) (s : State) : Host.Outcome State Fault Refusal :=
  run {} none s fun t => .ok { t with cr := crOfWord (t.rd o.reg) }

/-- `scon` (R530). -/
def execScon (o : OpsR1u) (s : State) : Host.Outcome State Fault Refusal :=
  run {} none s fun t => .ok (t.wr o.reg (0#8 ++ crBits t.cr))

/-- The effect of `reti` (R524, 60_exceptions.md R650): the top of the hardware stack is popped and restored, its
source is no longer in service, INT_DONE is pulsed. What the emptied stack shows is open (log 25). -/
def State.returnFromInterrupt (t : State) (e : HwsEntry) (rest : List HwsEntry) : State :=
  { t with
    hws := rest
    hwsIdle := if rest.isEmpty then HwsTop.ofBits (Config.freeHws t.freeCtr) else t.hwsIdle
    psr := Psr.ofBits e.psr
    cr := t.cr.set 0 e.cr0
    ccb := { t.ccb with intServ := t.ccb.intServ &&& ~~~ (BitVec.twoPow 12 e.source.val) }
    pc := e.addr
    out := t.out ++ [.intDone] }

/-- `reti` (R524): with an empty hardware stack the machine has nothing to restore (U8; log 31). -/
def execReti (_m : Mode) (s : State) : Host.Outcome State Fault Refusal :=
  run { control := true } none s fun t =>
    t.withNops 2
      (match t.hws with
       | [] => .fault .hwsEmpty
       | e :: rest => .goto (t.returnFromInterrupt e rest))

/-- The effect of `retu` (R525): IE and IL from the SPSR, user mode on register set 1, the pc from PR31 (log 43). -/
def State.returnToUser (t : State) : State :=
  { t with
    psr := { ie := t.spsr.getLsbD 4, il := t.spsr.getLsbD 3, rswr := false, rsrd := false, um := true }
    pc := t.pr31 }

/-- `retu` (R525). -/
def execRetu (_m : Mode) (s : State) : Host.Outcome State Fault Refusal :=
  run { control := true, su := true } none s fun t => t.withNops 1 (.goto t.returnToUser)

/-- The effect of `scall` (R526): the PSR to SPSR[7:0] (the other bits open, log 20), the link to PR31, the PSR
becomes 0EH, the pc SYSTEM_ADDR. -/
def State.systemCall (t : State) : State :=
  { t with
    spsr := Config.freeSpsr t.freeCtr ++ t.psr.toBits
    pr31 := t.link
    psr := Psr.handler
    pc := t.ccb.systemAddr }

/-- `scall` (R526). -/
def execScall (o : OpsG) (s : State) : Host.Outcome State Fault Refusal :=
  run { control := true } o.guard s fun t => t.withNops 1 (.goto t.systemCall)

/-- The effect of `swm` (R527). -/
def State.switchMode (t : State) (m : Mode) : State :=
  { t with psr := { t.psr with il := decide (m = .m32) }, pc := t.pcAhead 3 }

/-- `swm` (R527). -/
def execSwm (_m : Mode) (target : Mode) (s : State) : Host.Outcome State Fault Refusal :=
  run { control := true } none s fun t => t.withNops 2 (.goto (t.switchMode target))

/-- `trap` (R531): exception 224 + imm. -/
def execTrap (imm : Nat) (s : State) : Host.Outcome State Fault Refusal :=
  run { control := true, only32 := true } none s fun _ => .exc (7#3 ++ BitVec.ofNat 5 imm)

end Sys2Proof.Machine
end

