-- ==== Sys2Proof/Machine/Dispatch.lean ====
section
/-! DEFINITION. The meaning of every instruction: one direct call for each constructor. -/

namespace Sys2Proof.Machine

def exec (i : Instr) (s : State) : Host.Outcome State Fault Refusal :=
  match i with
  | .add o => Sys2Proof.Machine.execAdd o s
  | .addi o => Sys2Proof.Machine.execAddi o s
  | .addiu o => Sys2Proof.Machine.execAddiu o s
  | .addu o => Sys2Proof.Machine.execAddu o s
  | .mulhi o => Sys2Proof.Machine.execMulhi o s
  | .muli o => Sys2Proof.Machine.execMuli o s
  | .muls o => Sys2Proof.Machine.execMuls o s
  | .muls16 o => Sys2Proof.Machine.execMuls16 o s
  | .mulu o => Sys2Proof.Machine.execMulu o s
  | .mulu16 o => Sys2Proof.Machine.execMulu16 o s
  | .mulus o => Sys2Proof.Machine.execMulus o s
  | .mulus16 o => Sys2Proof.Machine.execMulus16 o s
  | .sub o => Sys2Proof.Machine.execSub o s
  | .subu o => Sys2Proof.Machine.execSubu o s
  | .conb o => Sys2Proof.Machine.execConb o s
  | .conh o => Sys2Proof.Machine.execConh o s
  | .exb o => Sys2Proof.Machine.execExb o s
  | .exbf o => Sys2Proof.Machine.execExbf o s
  | .exbfi dr sr len pos => Sys2Proof.Machine.execExbfi dr sr len pos s
  | .exh o => Sys2Proof.Machine.execExh o s
  | .lli dr imm => Sys2Proof.Machine.execLli dr imm s
  | .lui dr imm => Sys2Proof.Machine.execLui dr imm s
  | .sext o => Sys2Proof.Machine.execSext o s
  | .sexti o => Sys2Proof.Machine.execSexti o s
  | .and o => Sys2Proof.Machine.execAnd o s
  | .andi o => Sys2Proof.Machine.execAndi o s
  | .not o => Sys2Proof.Machine.execNot o s
  | .or o => Sys2Proof.Machine.execOr o s
  | .ori o => Sys2Proof.Machine.execOri o s
  | .xor o => Sys2Proof.Machine.execXor o s
  | .bc o => Sys2Proof.Machine.execBc o s
  | .begt o => Sys2Proof.Machine.execBegt o s
  | .belt o => Sys2Proof.Machine.execBelt o s
  | .beq o => Sys2Proof.Machine.execBeq o s
  | .bgt o => Sys2Proof.Machine.execBgt o s
  | .blt o => Sys2Proof.Machine.execBlt o s
  | .bne o => Sys2Proof.Machine.execBne o s
  | .bnc o => Sys2Proof.Machine.execBnc o s
  | .jal o => Sys2Proof.Machine.execJal o s
  | .jmp o => Sys2Proof.Machine.execJmp o s
  | .jalr o => Sys2Proof.Machine.execJalr o s
  | .jmpr o => Sys2Proof.Machine.execJmpr o s
  | .cmp o => Sys2Proof.Machine.execCmp o s
  | .cmpi o => Sys2Proof.Machine.execCmpi o s
  | .sll o => Sys2Proof.Machine.execSll o s
  | .slli o => Sys2Proof.Machine.execSlli o s
  | .sra o => Sys2Proof.Machine.execSra o s
  | .srai o => Sys2Proof.Machine.execSrai o s
  | .srl o => Sys2Proof.Machine.execSrl o s
  | .srli o => Sys2Proof.Machine.execSrli o s
  | .ld o => Sys2Proof.Machine.execLd o s
  | .mov o => Sys2Proof.Machine.execMov o s
  | .st o => Sys2Proof.Machine.execSt o s
  | .movfc o => Sys2Proof.Machine.execMovfc o s
  | .movtc o => Sys2Proof.Machine.execMovtc o s
  | .chrs m imm => Sys2Proof.Machine.execChrs m imm s
  | .di m => Sys2Proof.Machine.execDi m s
  | .ei m => Sys2Proof.Machine.execEi m s
  | .nop m => Sys2Proof.Machine.execNop m s
  | .rcon o => Sys2Proof.Machine.execRcon o s
  | .reti m => Sys2Proof.Machine.execReti m s
  | .retu m => Sys2Proof.Machine.execRetu m s
  | .scall o => Sys2Proof.Machine.execScall o s
  | .scon o => Sys2Proof.Machine.execScon o s
  | .swm m target => Sys2Proof.Machine.execSwm m target s
  | .trap imm => Sys2Proof.Machine.execTrap imm s
  | .cop n payload => Sys2Proof.Machine.execCop n payload s
  | .fadd o => Sys2Proof.Machine.execFadd o s
  | .fsub o => Sys2Proof.Machine.execFsub o s
  | .fmul o => Sys2Proof.Machine.execFmul o s
  | .fdiv o => Sys2Proof.Machine.execFdiv o s
  | .fsqrt o => Sys2Proof.Machine.execFsqrt o s
  | .fabs o => Sys2Proof.Machine.execFabs o s
  | .fmov o => Sys2Proof.Machine.execFmov o s
  | .fneg o => Sys2Proof.Machine.execFneg o s
  | .fnop o => Sys2Proof.Machine.execFnop o s
  | .fcvts o => Sys2Proof.Machine.execFcvts o s
  | .fcvtw o => Sys2Proof.Machine.execFcvtw o s
  | .fcc code o => Sys2Proof.Machine.execFcc code o s

end Sys2Proof.Machine
end

