-- ==== Sys2Proof/Machine/Fetch.lean ====
section
/-! DEFINITION. Instruction fetch (20_memory.md R115, R117) and the placing of instructions in the instruction
memory (log 5). -/

namespace Sys2Proof.Machine

/-- What a fetch gives: an instruction, an exception, or nothing to go on. -/
inductive Fetched where
  | instr (i : Instr)
  | exc (code : BitVec 8)
  | stop (f : Fault)
deriving DecidableEq, Repr

/-- The fetch at the pc (R115): 5, then 0, then the instruction memory. -/
def State.fetch (s : State) : Fetched :=
  if s.pc.toNat % s.len ≠ 0 then .exc 5#8
  else if s.psr.um && !s.iallowed s.pc.toNat then .exc 0#8
  else
    match Imem.lookup s.imem s.pc.toNat with
    | none => .stop .noInstruction
    | some w => if w.mode = s.mode ∧ w.instr.fits s.mode then .instr w.instr else .stop .wrongMode

/-- User mode with RSRD or RSWR set (10_state.md R32). -/
def State.foreignSet (s : State) : Bool := s.psr.um && (s.psr.rsrd || s.psr.rswr)

/-- An exception of a fetch (60_exceptions.md R602, R606): no instruction has run, so a remap of the CCB is still the
instruction before (log 52). -/
def fetchException (s : State) (code : BitVec 8) : Host.Outcome State Fault Refusal :=
  match s.ptarget with
  | some _ => .refused .exceptionInSlot
  | none => .next { s.raiseExc code with ccbMoved := s.ccbMoved }

/-- The number of nops a unit asks for after its instruction (49_miscellaneous.md R533). -/
def nopsAfter : Instr → Nat
  | .reti _ => 2
  | .swm _ _ => 2
  | .retu _ => 1
  | .scall _ => 1
  | _ => 0

/-- `n` nops of a mode placed at consecutive addresses from `a` on. -/
def Imem.placeNops (m : Mode) : Nat → Nat → List IWord → List IWord
  | 0, _, l => l
  | n + 1, a, l => Imem.placeNops m n (a + m.len) (Imem.place l { addr := a, mode := m, instr := .nop m })

/-- An instruction placed at an address, with the nops its unit asks for. -/
def Imem.placeInstr (m : Mode) (a : Nat) (i : Instr) (l : List IWord) : List IWord :=
  Imem.placeNops m (nopsAfter i) (a + m.len) (Imem.place l { addr := a, mode := m, instr := i })

end Sys2Proof.Machine
end

