-- ==== Sys2Proof/Machine/Interrupt.lean ====
section
/-! DEFINITION. Interrupts: requests, acceptance, entry (60_exceptions.md R630 to R644). -/

namespace Sys2Proof.Machine

/-- The environment's requests of a step boundary enter INT_PEND, masked or not (R631; log 29). -/
def State.sampleRequests (s : State) : State :=
  match s.requests with
  | [] => s
  | r :: rest => { s with ccb := { s.ccb with intPend := s.ccb.intPend ||| r }, requests := rest }

/-- The priority number of a source (R632): 15 for an external source under an external controller (log 30). -/
def State.pri (s : State) (k : Fin 12) : Nat :=
  if k.val < 4 then (s.ccb.copIntPri.extractLsb' (4 * k.val) 4).toNat
  else if Config.extIntCtrl then 15
  else (s.ccb.extIntPri.extractLsb' (4 * (k.val - 4)) 4).toNat

/-- `before(t, s)` (R632): `t` is served in preference to `k`. -/
def State.before (s : State) (t k : Fin 12) : Bool :=
  decide (s.pri t < s.pri k) || (decide (s.pri t = s.pri k) && decide (t.val < k.val))

/-- A request that is pending and not masked (R635). -/
def State.waiting (s : State) (k : Fin 12) : Bool := s.ccb.intPend.getLsbD k.val && s.ccb.intMask.getLsbD k.val

/-- The twelve sources. -/
def allSources : List (Fin 12) := [0, 1, 2, 3, 4, 5, 6, 7, 8, 9, 10, 11]

/-- `passes(s)` (R635; log 32). -/
def State.passes (s : State) (k : Fin 12) : Bool :=
  s.psr.ie && s.waiting k &&
    allSources.all (fun t => !(decide (t ≠ k) && s.waiting t && s.before t k)) &&
    allSources.all (fun t => !(s.ccb.intServ.getLsbD t.val && (decide (t = k) || s.before t k)))

/-- The source whose request is taken at this boundary: never with a target pending (R636). -/
def State.accepted (s : State) : Option (Fin 12) :=
  if s.ptarget.isSome then none else allSources.find? s.passes

/-- The entry address of a source (R633, R634; log 30). -/
def State.entry (s : State) (k : Fin 12) : Word :=
  let vec := s.ccb.intVec[k.val]
  if Config.extIntCtrl ∧ 4 ≤ k.val then
    (vec &&& 0xFFFFF000#32) + 16#32 * (Config.freeOffset s.freeCtr).setWidth 32
  else vec

/-- `interrupt_entry(s)` (R641), on a hardware stack that is not full. -/
def State.enterInterrupt (s : State) (k : Fin 12) : State :=
  let um := s.ccb.intModeUm.getLsbD k.val
  { s with
    hws := { addr := s.pc, psr := s.psr.toBits, cr0 := s.cr[0], source := k } :: s.hws
    ccb := { s.ccb with
      intServ := s.ccb.intServ ||| BitVec.twoPow 12 k.val
      intPend := s.ccb.intPend &&& ~~~ (BitVec.twoPow 12 k.val) }
    psr := { ie := false, il := s.ccb.intModeIl.getLsbD k.val, rswr := !um, rsrd := !um, um := um }
    pc := s.entry k
    m64 := none
    out := [.intAck]
    freeCtr := s.freeCtr + 1 }

/-- Interrupt entry; a full hardware stack stops the machine (R644, U8; log 31). -/
def takeInterrupt (k : Fin 12) (s : State) : Host.Outcome State Fault Refusal :=
  if s.hws.length < Config.hwsDepth then .next (s.enterInterrupt k) else .fault .hwsFull

end Sys2Proof.Machine
end

