-- ==== Sys2Proof/Machine/Step.lean ====
section
/-! DEFINITION. One step of the machine: the requests of the boundary, then an interrupt entry, or a fetch and the
execution of one instruction (10_state.md R24, 60_exceptions.md R636). -/

namespace Sys2Proof.Machine

/-- One step. A PSR with UM = 1 and RSRD or RSWR = 1 is refused (10_state.md R32, U12; log 21). -/
def step (s : State) : Host.Outcome State Fault Refusal :=
  let t := s.sampleRequests
  if t.foreignSet then .refused .userForeignSet
  else
    match t.accepted with
    | some k => takeInterrupt k t
    | none =>
      match t.fetch with
      | .instr i => exec i t
      | .exc code => fetchException t code
      | .stop f => .fault f

/-- The state with the instruction of the word `w` of `nbits` bits placed at the pc, in the mode of its length, with
the nops its unit asks for (log 5). -/
def State.withFetchWord (s : State) (nbits w : Nat) : State :=
  let m : Mode := if nbits = 32 then .m32 else .m16
  { s with
    psr := { s.psr with il := decide (nbits = 32) }
    imem :=
      match decodeTableWord nbits w with
      | some i => Imem.placeInstr m s.pc.toNat i s.imem
      | none => Imem.erase s.imem s.pc.toNat }

end Sys2Proof.Machine
end

