-- ==== Sys2Proof/Laws/Memory.lean ====
section
/-! SUPPORT. The memories: reads after writes, and every operation keeps the canonical form. -/

namespace Sys2Proof.Machine

theorem Memory.get_cons_self (k : Nat) (v : Byte) (m : List Host.Cell) (h : Memory.get m k = Memory.unlisted) :
    Memory.get (Memory.cons k v m) k = v := by
  unfold Memory.cons
  split
  · rw [h]; exact (‹v = _›).symm
  · simp [Memory.get]

theorem Memory.get_cons_other (k k' : Nat) (v : Byte) (m : List Host.Cell) (h : k' ≠ k) :
    Memory.get (Memory.cons k v m) k' = Memory.get m k' := by
  unfold Memory.cons
  split
  · rfl
  · simp [Memory.get, Ne.symm h]

/-- Below the first address of a sorted memory every byte is unlisted. -/
theorem Memory.get_of_lt (m : List Host.Cell) (k : Nat) (h : ∀ c ∈ m, k < c.1) :
    Memory.get m k = Memory.unlisted := by
  induction m with
  | nil => rfl
  | cons c m ih =>
    have h1 := h c (by simp)
    simp only [Memory.get]
    rw [if_neg (by omega)]
    exact ih fun d hd => h d (by simp [hd])

theorem Memory.get_set_other (m : List Host.Cell) (k k' : Nat) (v : Byte) (h : k' ≠ k) :
    Memory.get (Memory.set m k v) k' = Memory.get m k' := by
  induction m with
  | nil => simpa [Memory.set] using Memory.get_cons_other k k' v [] h
  | cons c m ih =>
    obtain ⟨a, b⟩ := c
    simp only [Memory.set]
    split
    · exact Memory.get_cons_other k k' v _ h
    · split
      · subst a; rw [Memory.get_cons_other k k' v _ h]; simp [Memory.get, Ne.symm h]
      · simp [Memory.get, ih]

theorem Memory.get_set_self (m : List Host.Cell) (k : Nat) (v : Byte) (hm : Memory.wf m) :
    Memory.get (Memory.set m k v) k = v := by
  induction m with
  | nil => exact Memory.get_cons_self k v [] rfl
  | cons c m ih =>
    obtain ⟨a, b⟩ := c
    obtain ⟨hs, hv⟩ := hm
    rw [List.pairwise_cons] at hs
    have hb : Memory.wf m := ⟨hs.2, fun c hc => hv c (by simp [hc])⟩
    simp only [Memory.set]
    split
    · apply Memory.get_cons_self
      apply Memory.get_of_lt
      rintro ⟨x, y⟩ hc
      rcases List.mem_cons.1 hc with h | h
      · cases h; assumption
      · exact Nat.lt_trans ‹_› (hs.1 _ h)
    · split
      · subst a
        exact Memory.get_cons_self _ _ _ (Memory.get_of_lt _ _ fun c hc => hs.1 _ hc)
      · simp only [Memory.get]
        rw [if_neg (by omega)]
        exact ih hb

theorem Memory.mem_cons {k : Nat} {v : Byte} {m : List Host.Cell} {c : Host.Cell}
    (h : c ∈ Memory.cons k v m) : (c = (k, v) ∧ v ≠ Memory.unlisted) ∨ c ∈ m := by
  unfold Memory.cons at h
  split at h
  · exact .inr h
  · rcases List.mem_cons.1 h with h | h
    · exact .inl ⟨h, ‹_›⟩
    · exact .inr h

theorem Memory.mem_set {m : List Host.Cell} {k : Nat} {v : Byte} {c : Host.Cell}
    (h : c ∈ Memory.set m k v) : (c = (k, v) ∧ v ≠ Memory.unlisted) ∨ c ∈ m := by
  induction m with
  | nil => exact Memory.mem_cons h
  | cons d m ih =>
    obtain ⟨a, b⟩ := d
    simp only [Memory.set] at h
    split at h
    · exact Memory.mem_cons h
    · split at h
      · rcases Memory.mem_cons h with h | h
        · exact .inl h
        · exact .inr (by simp [h])
      · rcases List.mem_cons.1 h with h | h
        · exact .inr (by simp [h])
        · rcases ih h with h | h
          · exact .inl h
          · exact .inr (by simp [h])

theorem Memory.cons_pairwise {k : Nat} {v : Byte} {m : List Host.Cell} (hm : m.Pairwise (fun a b => a.1 < b.1))
    (h : ∀ c ∈ m, k < c.1) : (Memory.cons k v m).Pairwise (fun a b => a.1 < b.1) := by
  unfold Memory.cons
  split
  · exact hm
  · exact List.pairwise_cons.2 ⟨h, hm⟩

theorem Memory.set_pairwise {m : List Host.Cell} (k : Nat) (v : Byte) (hm : m.Pairwise (fun a b => a.1 < b.1)) :
    (Memory.set m k v).Pairwise (fun a b => a.1 < b.1) := by
  induction m with
  | nil => exact Memory.cons_pairwise List.Pairwise.nil (by simp)
  | cons c m ih =>
    obtain ⟨a, b⟩ := c
    have hm' := List.pairwise_cons.1 hm
    simp only [Memory.set]
    split
    · refine Memory.cons_pairwise hm fun c hc => ?_
      rcases List.mem_cons.1 hc with h | h
      · cases h; assumption
      · exact Nat.lt_trans ‹_› (hm'.1 _ h)
    · split
      · subst a; exact Memory.cons_pairwise hm'.2 hm'.1
      · refine List.pairwise_cons.2 ⟨fun c hc => ?_, ih hm'.2⟩
        rcases Memory.mem_set hc with h | h
        · rw [h.1]; simp only; omega
        · exact hm'.1 _ h

/-- Writing a byte keeps the canonical form. -/
theorem Memory.set_wf {m : List Host.Cell} (k : Nat) (v : Byte) (h : Memory.wf m) : Memory.wf (Memory.set m k v) := by
  refine ⟨Memory.set_pairwise k v h.1, fun c hc => ?_⟩
  rcases Memory.mem_set hc with h1 | h1
  · rw [h1.1]; exact h1.2
  · exact h.2 c h1

/-- Storing a word keeps the canonical form. -/
theorem Memory.setWord_wf {m : List Host.Cell} (k : Nat) (w : Word) (h : Memory.wf m) :
    Memory.wf (Memory.setWord m k w) := by
  unfold Memory.setWord
  exact Memory.set_wf _ _ (Memory.set_wf _ _ (Memory.set_wf _ _ (Memory.set_wf _ _ h)))

/-- A byte outside a stored word reads as before. -/
theorem Memory.get_setWord_other (m : List Host.Cell) (k j : Nat) (w : Word) (h : j < k ∨ k + 4 ≤ j) :
    Memory.get (Memory.setWord m k w) j = Memory.get m j := by
  unfold Memory.setWord
  rw [Memory.get_set_other _ _ _ _ (by omega), Memory.get_set_other _ _ _ _ (by omega),
    Memory.get_set_other _ _ _ _ (by omega), Memory.get_set_other _ _ _ _ (by omega)]

/-- The empty memory is canonical. -/
theorem Memory.wf_nil : Memory.wf [] := ⟨List.Pairwise.nil, by simp⟩

theorem Imem.mem_place {l : List IWord} {w v : IWord} (h : v ∈ Imem.place l w) : v = w ∨ v ∈ l := by
  induction l with
  | nil => simpa [Imem.place] using h
  | cons u l ih =>
    simp only [Imem.place] at h
    split at h
    · simpa using h
    · split at h
      · rcases List.mem_cons.1 h with h | h
        · exact .inl h
        · exact .inr (by simp [h])
      · rcases List.mem_cons.1 h with h | h
        · exact .inr (by simp [h])
        · rcases ih h with h | h
          · exact .inl h
          · exact .inr (by simp [h])

/-- Placing an instruction keeps the form of the instruction memory. -/
theorem Imem.place_wf {l : List IWord} (w : IWord) (h : Imem.wf l) : Imem.wf (Imem.place l w) := by
  induction l with
  | nil => simp [Imem.place, Imem.wf]
  | cons u l ih =>
    have h' := List.pairwise_cons.1 h
    simp only [Imem.place]
    split
    · refine List.pairwise_cons.2 ⟨fun c hc => ?_, h⟩
      rcases List.mem_cons.1 hc with e | e
      · rw [e]; assumption
      · exact Nat.lt_trans ‹_› (h'.1 _ e)
    · split
      · exact List.pairwise_cons.2 ⟨fun c hc => ‹w.addr = u.addr› ▸ h'.1 c hc, h'.2⟩
      · refine List.pairwise_cons.2 ⟨fun c hc => ?_, ih h'.2⟩
        rcases Imem.mem_place hc with e | e
        · rw [e]; omega
        · exact h'.1 c e

/-- Erasing an instruction keeps the form. -/
theorem Imem.erase_wf {l : List IWord} (a : Nat) (h : Imem.wf l) : Imem.wf (Imem.erase l a) :=
  List.Pairwise.filter _ h

/-- A placed instruction is found at its address. -/
theorem Imem.lookup_place_self (l : List IWord) (w : IWord) : Imem.lookup (Imem.place l w) w.addr = some w := by
  induction l with
  | nil => simp [Imem.place, Imem.lookup]
  | cons u l ih =>
    simp only [Imem.place]
    split
    · simp [Imem.lookup]
    · split
      · simp [Imem.lookup]
      · simp only [Imem.lookup]
        rw [if_neg (by omega)]
        exact ih

end Sys2Proof.Machine
end

