-- ==== Sys2Proof/Safety.lean ====
section
/-! DEFINITION. The terms claims are stated in: what a completed instruction leaves, what it leaves unchanged, and
the invariant of the machine. -/

namespace Sys2Proof.Machine

/-- A step goes on, to a state with the property `P`. -/
def Completes (r : Host.Outcome State Fault Refusal) (P : State → Prop) : Prop := ∃ t, r = .next t ∧ P t

/-- An instruction with the prefix `g` runs its body in `s`: a prefix only in 32-bit mode, and its condition holds
(10_state.md R28, 30_encoding.md R166). -/
def State.CanRun (s : State) (g : Option Guard) : Prop := (g.isSome → s.psr.il = true) ∧ s.guardHolds g = true

/-- The registers of `t` are those of `s` with `v` written to index `i` of the set PSR.RSWR selects; index 29 of SET 2
takes nothing (10_state.md R37). -/
def State.Wrote (s t : State) (i : Fin 32) (v : Word) : Prop :=
  (∀ (k : Nat) (h : k < 32), t.set1[k] = if s.psr.rswr = false ∧ i.val = k then v else s.set1[k]) ∧
  (∀ (k : Nat) (h : k < 29), t.pr[k] = if s.psr.rswr = true ∧ i.val = k then v else s.pr[k]) ∧
  t.spsr = (if s.psr.rswr = true ∧ i.val = 30 then v else s.spsr) ∧
  t.pr31 = (if s.psr.rswr = true ∧ i.val = 31 then v else s.pr31)

/-- No general register, link register or SPSR changes. -/
def State.SameRegs (s t : State) : Prop :=
  t.set1 = s.set1 ∧ t.pr = s.pr ∧ t.pr31 = s.pr31 ∧ t.spsr = s.spsr

/-- No register of the CCB, no entry of the hardware stack, no coprocessor register and no instruction changes. -/
def State.SameUnits (s t : State) : Prop :=
  t.ccb = s.ccb ∧ t.hws = s.hws ∧ t.hwsIdle = s.hwsIdle ∧ t.cops = s.cops ∧ t.imem = s.imem ∧
    t.requests = s.requests

/-- Every byte of data memory reads as before. -/
def State.SameMem (s t : State) : Prop := ∀ k : Nat, Memory.get t.mem k = Memory.get s.mem k

/-- The pc update of 10_state.md R24 with no transfer made pending: to the pending target if there is one, else past
the instruction. -/
def State.Advanced (s t : State) : Prop := t.pc = s.ptarget.getD (s.pcAhead 1) ∧ t.ptarget = none

/-- The effect of an instruction that writes `v` to register `i` and nothing else. -/
def State.RegResult (s : State) (i : Fin 32) (v : Word) (t : State) : Prop :=
  s.Wrote t i v ∧ t.cr = s.cr ∧ t.psr = s.psr ∧ t.m64 = none ∧ s.SameUnits t ∧ s.SameMem t ∧ s.Advanced t

/-- The effect of an instruction that writes `v` to register `i`, `f` to C0 and nothing else. -/
def State.FlagResult (s : State) (i : Fin 32) (v : Word) (f : Flags) (t : State) : Prop :=
  s.Wrote t i v ∧ t.cr[0] = f ∧ (∀ (k : Nat) (h : k < 8), k ≠ 0 → t.cr[k] = s.cr[k]) ∧ t.psr = s.psr ∧
    t.m64 = none ∧ s.SameUnits t ∧ s.SameMem t ∧ s.Advanced t

/-- The effect of a 32-bit multiplication with the exact product `p` (40_integer_arithmetic.md R305). -/
def State.MulResult (s : State) (i : Fin 32) (p : Int) (t : State) : Prop :=
  s.Wrote t i (BitVec.ofInt 32 p) ∧ t.m64 = some (BitVec.ofInt 64 p) ∧ t.cr = s.cr ∧ t.psr = s.psr ∧
    s.SameUnits t ∧ s.SameMem t ∧ s.Advanced t

/-- Everything but the pc and the pending target is as before. -/
def State.SameBut (s t : State) : Prop :=
  s.SameRegs t ∧ t.cr = s.cr ∧ t.psr = s.psr ∧ t.m64 = none ∧ s.SameUnits t ∧ s.SameMem t

/-- The state after exception `code` raised at the pc of `s` (60_exceptions.md R610, R611): the three exception
registers, the PSR, the pc; nothing else but the product register and the pending target. -/
def State.Raised (s : State) (code : BitVec 8) (t : State) : Prop :=
  t.ccb = { s.ccb with exceptionCs := code, exceptionPc := s.pc, exceptionPsr := s.psr.toBits } ∧
    t.psr = { ie := false, il := true, rswr := true, rsrd := true, um := false } ∧ t.pc = s.ccb.excepAddr ∧
    t.ptarget = none ∧ t.m64 = none ∧ s.SameRegs t ∧ t.cr = s.cr ∧ t.hws = s.hws ∧ t.hwsIdle = s.hwsIdle ∧
    t.cops = s.cops ∧ t.imem = s.imem ∧ t.requests = s.requests ∧ s.SameMem t

/-- A Milk's status register has its unused bits zero (10_state.md R88). -/
def CopSlot.ok : CopSlot → Prop
  | .milk m => m.fsr.extractLsb' 14 18 = 0#18
  | .absent => True
  | .other => True

/-- The invariant of the machine: the memories are in their canonical forms, the CCB is aligned (10_state.md R41), so
is the base it had before a remap; every instruction in the instruction memory is well formed (30_encoding.md R153, R161);
the hardware stack holds at most HWS_DEPTH entries (R93); a pending target is
aligned for the mode (43_branch.md R391); the unused bits of a Milk's status register are zero (R88). -/
structure State.Inv (s : State) : Prop where
  mem : Memory.wf s.mem
  imem : Imem.wf s.imem
  terms : ∀ w ∈ s.imem, w.instr.wf = true
  base : s.ccb.ccbBase.extractLsb' 0 8 = 0#8
  moved : ∀ b, s.ccbMoved = some b → b.extractLsb' 0 8 = 0#8
  hws : s.hws.length ≤ Config.hwsDepth
  target : ∀ a, s.ptarget = some a → a.toNat % s.len = 0
  cops : ∀ (k : Nat) (h : k < 4), s.cops[k].ok

/-- The branch of a condition (43_branch.md R392 to R399): `bc`, `begt`, `belt`, `beq`, `bgt`, `blt`, `bne`, `bnc`. -/
def branchOf : Cond → OpsBr → Instr
  | .c, o => .bc o
  | .egt, o => .begt o
  | .elt, o => .belt o
  | .eq, o => .beq o
  | .gt, o => .bgt o
  | .lt, o => .blt o
  | .ne, o => .bne o
  | .nc, o => .bnc o

/-- The effect of a taken control transfer: the target is pending, the pc goes to the slot (10_state.md R24). -/
def State.Pending (s : State) (target : Int) (t : State) : Prop :=
  t.ptarget = some (BitVec.ofInt 32 target) ∧ t.pc = s.pcAhead 1 ∧ t.cr = s.cr ∧ t.psr = s.psr ∧ t.m64 = none ∧
    s.SameUnits t ∧ s.SameMem t

/-- A target that passes the checks of 43_branch.md R391: in the memory (for a PC-relative transfer), aligned for the
mode, in user mode not in the protected area. -/
def State.GoodTarget (s : State) (target : Int) : Prop :=
  0 ≤ target ∧ target ≤ 4294967295 ∧ target % (s.len : Int) = 0 ∧
    (s.psr.um = true → s.iallowed target.toNat = true)

/-- A data address that passes the checks of 47_load_store_move.md R464. -/
def State.GoodData (s : State) (a : Int) : Prop :=
  0 ≤ a ∧ a ≤ 4294967295 ∧ (s.psr.um = true → s.dallowed a.toNat = true)

/-- A data address at which an access has a meaning: not in the old or the new range of a CCB that the instruction before
moved (20_memory.md R113, 70_reset_and_hazards.md R714), and one that selects a register of the CCB, the external register
block or a cell of data memory, which under DMEM_GRANULE = BYTE asks for a multiple of 4 (20_memory.md R103). -/
def State.AccessDefined (s : State) (a : Int) : Prop :=
  (∀ b, s.ccbMoved = some b → (a < b.toNat ∨ b.toNat + 255 < a) ∧
    (a < s.ccb.ccbBase.toNat ∨ s.ccb.ccbBase.toNat + 255 < a)) ∧
  (a % 4 = 0 ∨ Config.dmemWordGranule = true ∨ (s.ccb.ccbBase.toNat ≤ a ∧ a ≤ s.ccb.ccbBase.toNat + 255) ∨
    (s.ccb.ccbBase.toNat + 256 ≤ a ∧ a ≤ s.ccb.regspcEnd.toNat))

/-- The conditional prefix of an instruction, if it carries one (30_encoding.md R159). -/
def prefixOf : Instr → Option Guard
  | .add o | .addu o | .muls o | .muls16 o | .mulu o | .mulu16 o | .mulus o | .mulus16 o | .sub o | .subu o
  | .conb o | .conh o | .exbf o | .sext o | .and o | .or o | .xor o | .sll o | .sra o | .srl o => o.guard
  | .addi o | .addiu o | .muli o | .sexti o | .andi o | .ori o | .slli o | .srai o | .srli o => o.guard
  | .exb o | .exh o | .ld o | .st o => o.guard
  | .not o | .mov o => o.guard
  | .mulhi o | .jalr o | .jmpr o => o.guard
  | .movfc o | .movtc o => o.guard
  | .scall o => o.guard
  | .exbfi .. | .lli .. | .lui .. | .bc _ | .begt _ | .belt _ | .beq _ | .bgt _ | .blt _ | .bne _ | .bnc _
  | .jal _ | .jmp _ | .cmp _ | .cmpi _ | .chrs .. | .di _ | .ei _ | .nop _ | .rcon _ | .reti _ | .retu _
  | .scon _ | .swm .. | .trap _ | .cop .. | .fadd _ | .fsub _ | .fmul _ | .fdiv _ | .fsqrt _ | .fabs _ | .fmov _
  | .fneg _ | .fnop _ | .fcvts _ | .fcvtw _ | .fcc .. => none

/-- The instructions that may not stand in the slot of a taken control transfer (70_reset_and_hazards.md R712). -/
def isControl : Instr → Bool
  | .bc _ | .begt _ | .belt _ | .beq _ | .bgt _ | .blt _ | .bne _ | .bnc _ | .jal _ | .jmp _ | .jalr _ | .jmpr _
  | .scall _ | .retu _ | .reti _ | .trap _ | .swm .. => true
  | _ => false

/-- What a Milk instruction leaves (48_coprocessor.md R483, R486): in slot `n`, if it holds a Milk, the word stands in
the control register, the destination holds the value of `out`, the status register its flags; `out` is applied to
the Milk after the word was written to the register COP_CONF.Cn_IR. A slot without a Milk is unchanged. Nothing else
changes but the pc. -/
def State.MilkResult (s : State) (n : Fin 4) (word : Word) (dr : Fin 32) (out : Milk → FpOut) (t : State) : Prop :=
  (∀ m, s.cops[n.val] = .milk m →
    ∃ m', t.cops[n.val] = .milk m' ∧ m'.fcr = word ∧
      (∀ (k : Nat) (h : k < 8), m'.f[k] =
        if k = dr.val % 8 then (out (m.putInstr (s.copIr n) word)).value else (m.putInstr (s.copIr n) word).f[k]) ∧
      m'.fsr.extractLsb' 0 7 = (out (m.putInstr (s.copIr n) word)).flags ∧
      m'.fsr.extractLsb' 7 7 = m.fsr.extractLsb' 7 7 ||| (out (m.putInstr (s.copIr n) word)).flags ∧
      m'.fsr.extractLsb' 14 18 = 0#18) ∧
  ((∀ m, s.cops[n.val] ≠ .milk m) → t.cops[n.val] = s.cops[n.val]) ∧
  (∀ (k : Nat) (h : k < 4), k ≠ n.val → t.cops[k] = s.cops[k]) ∧
  t.out = [.copRgi (s.copIr n)] ∧ s.SameRegs t ∧ t.cr = s.cr ∧ t.psr = s.psr ∧ t.m64 = none ∧ t.ccb = s.ccb ∧
  t.hws = s.hws ∧ t.hwsIdle = s.hwsIdle ∧ t.imem = s.imem ∧ t.requests = s.requests ∧ s.SameMem t ∧ s.Advanced t

/-- The number a word stands for, if it is finite (48_coprocessor.md R484; log 37). -/
def fpNumber (w : Word) : Option ℚ :=
  match fpVal w with
  | .num neg m e => some ((if neg then -1 else 1) * (m : ℚ) * (2 : ℚ) ^ e)
  | .inf _ => none
  | .nan _ => none

/-- `o` is the rounding that 48_coprocessor.md R486 and R490 allow of the exact value `r`: an exponent above 127 raises OF
and NX, one below -150 UF and NX; any other result is the value itself, with no flag, or a neighbour of it with NX: no
other finite number lies from it to `r`. Above the largest finite number the upper neighbour is an overflow (log 38). -/
def FpOut.Rounds (o : FpOut) (r : ℝ) : Prop :=
  ((2 : ℝ) ^ 128 ≤ |r| → o.flags = 0x0A#7) ∧
  (r ≠ 0 → |r| < (2 : ℝ) ^ (-150 : ℤ) → o.flags = 0x0C#7) ∧
  (|r| < (2 : ℝ) ^ 128 → (r = 0 ∨ (2 : ℝ) ^ (-150 : ℤ) ≤ |r|) →
    (o.flags = 0x0A#7 ∧ (2 ^ 24 - 1) * (2 : ℝ) ^ 104 < |r|) ∨
    ∃ v : ℚ, fpNumber o.value = some v ∧
      (((v : ℝ) = r ∧ o.flags = 0#7) ∨
       ((v : ℝ) ≠ r ∧ o.flags = 0x08#7 ∧ ∀ (w : Word) (x : ℚ), fpNumber w = some x → x ≠ v →
         ¬ ((v : ℝ) ≤ x ∧ (x : ℝ) ≤ r) ∧ ¬ (r ≤ x ∧ (x : ℝ) ≤ v))))

/-- The flags a described Milk instruction may raise (48_coprocessor.md R486): neither UI nor DW, OF and UF only with
NX. -/
def FpOut.Described (o : FpOut) : Prop :=
  o.flags.getLsbD 6 = false ∧ o.flags.getLsbD 0 = false ∧
    (o.flags.getLsbD 1 = true ∨ o.flags.getLsbD 2 = true → o.flags.getLsbD 3 = true)

/-- A state with other contents of the registers only super-user mode can reach: PR0 .. PR28, PR31, SPSR (10_state.md
R39). -/
def State.withSet2 (s : State) (pr : Vector Word 29) (pr31 spsr : Word) : State :=
  { s with pr := pr, pr31 := pr31, spsr := spsr }

/-- An outcome with its next state changed by `f`. -/
def mapNext (f : State → State) : Host.Outcome State Fault Refusal → Host.Outcome State Fault Refusal
  | .next t => .next (f t)
  | .fault r => .fault r
  | .refused r => .refused r

end Sys2Proof.Machine
end

