-- ==== Sys2Proof/Laws/State.lean ====
section
/-! SUPPORT. What each update of the state leaves in each field. -/

namespace Sys2Proof.Machine

/-! ### State.begin -/

@[simp] theorem State.begin_set1 (s : State) : s.begin.set1 = s.set1 := rfl
@[simp] theorem State.begin_pr (s : State) : s.begin.pr = s.pr := rfl
@[simp] theorem State.begin_pr31 (s : State) : s.begin.pr31 = s.pr31 := rfl
@[simp] theorem State.begin_spsr (s : State) : s.begin.spsr = s.spsr := rfl
@[simp] theorem State.begin_psr (s : State) : s.begin.psr = s.psr := rfl
@[simp] theorem State.begin_cr (s : State) : s.begin.cr = s.cr := rfl
@[simp] theorem State.begin_pc (s : State) : s.begin.pc = s.pc := rfl
@[simp] theorem State.begin_ptarget (s : State) : s.begin.ptarget = s.ptarget := rfl
@[simp] theorem State.begin_m64 (s : State) : s.begin.m64 = none := rfl
@[simp] theorem State.begin_hws (s : State) : s.begin.hws = s.hws := rfl
@[simp] theorem State.begin_hwsIdle (s : State) : s.begin.hwsIdle = s.hwsIdle := rfl
@[simp] theorem State.begin_ccb (s : State) : s.begin.ccb = s.ccb := rfl
@[simp] theorem State.begin_mem (s : State) : s.begin.mem = s.mem := rfl
@[simp] theorem State.begin_imem (s : State) : s.begin.imem = s.imem := rfl
@[simp] theorem State.begin_cops (s : State) : s.begin.cops = s.cops := rfl
@[simp] theorem State.begin_ccbMoved (s : State) : s.begin.ccbMoved = none := rfl
@[simp] theorem State.begin_requests (s : State) : s.begin.requests = s.requests := rfl
@[simp] theorem State.begin_out (s : State) : s.begin.out = [] := rfl
@[simp] theorem State.begin_freeCtr (s : State) : s.begin.freeCtr = s.freeCtr + 1 := rfl
@[simp] theorem State.begin_rd (s : State) (i : Fin 32) : s.begin.rd i = s.rd i := rfl
@[simp] theorem State.begin_getCr (s : State) (k : Fin 8) : s.begin.getCr k = s.getCr k := rfl
@[simp] theorem State.begin_ahead (s : State) (n : Nat) : s.begin.ahead n = s.ahead n := rfl
@[simp] theorem State.begin_iallowed (s : State) (a : Nat) : s.begin.iallowed a = s.iallowed a := rfl
@[simp] theorem State.begin_dallowed (s : State) (a : Nat) : s.begin.dallowed a = s.dallowed a := rfl
@[simp] theorem State.begin_copIr (s : State) (n : Fin 4) : s.begin.copIr n = s.copIr n := rfl
@[simp] theorem State.begin_nopAt (s : State) (j : Nat) : s.begin.nopAt j = s.nopAt j := rfl
@[simp] theorem State.begin_dataFault (s : State) (a : Int) : s.begin.dataFault a = s.dataFault a := rfl
@[simp] theorem State.begin_region (s : State) (a : Word) : s.begin.region a = s.region a := rfl
@[simp] theorem State.begin_len (s : State) : s.begin.len = s.len := rfl
@[simp] theorem State.begin_mode (s : State) : s.begin.mode = s.mode := rfl
@[simp] theorem State.begin_slot (s : State) : s.begin.slot = s.slot := rfl
@[simp] theorem State.begin_hwsTop (s : State) : s.begin.hwsTop = s.hwsTop := rfl
@[simp] theorem State.begin_foreignSet (s : State) : s.begin.foreignSet = s.foreignSet := rfl
@[simp] theorem State.begin_targetFault (s : State) (p : Bool) (a : Int) :
    s.begin.targetFault p a = s.targetFault p a := rfl
@[simp] theorem State.begin_dataAddr (s : State) (b : Fin 32) (i : Int) : s.begin.dataAddr b i = s.dataAddr b i := rfl

/-! ### State.setCr -/

@[simp] theorem State.setCr_set1 (s : State) (k : Fin 8) (f : Flags) : (s.setCr k f).set1 = s.set1 := rfl
@[simp] theorem State.setCr_pr (s : State) (k : Fin 8) (f : Flags) : (s.setCr k f).pr = s.pr := rfl
@[simp] theorem State.setCr_pr31 (s : State) (k : Fin 8) (f : Flags) : (s.setCr k f).pr31 = s.pr31 := rfl
@[simp] theorem State.setCr_spsr (s : State) (k : Fin 8) (f : Flags) : (s.setCr k f).spsr = s.spsr := rfl
@[simp] theorem State.setCr_psr (s : State) (k : Fin 8) (f : Flags) : (s.setCr k f).psr = s.psr := rfl
@[simp] theorem State.setCr_cr (s : State) (k : Fin 8) (f : Flags) : (s.setCr k f).cr = s.cr.set k.val f := rfl
@[simp] theorem State.setCr_pc (s : State) (k : Fin 8) (f : Flags) : (s.setCr k f).pc = s.pc := rfl
@[simp] theorem State.setCr_ptarget (s : State) (k : Fin 8) (f : Flags) : (s.setCr k f).ptarget = s.ptarget := rfl
@[simp] theorem State.setCr_m64 (s : State) (k : Fin 8) (f : Flags) : (s.setCr k f).m64 = s.m64 := rfl
@[simp] theorem State.setCr_hws (s : State) (k : Fin 8) (f : Flags) : (s.setCr k f).hws = s.hws := rfl
@[simp] theorem State.setCr_hwsIdle (s : State) (k : Fin 8) (f : Flags) : (s.setCr k f).hwsIdle = s.hwsIdle := rfl
@[simp] theorem State.setCr_ccb (s : State) (k : Fin 8) (f : Flags) : (s.setCr k f).ccb = s.ccb := rfl
@[simp] theorem State.setCr_mem (s : State) (k : Fin 8) (f : Flags) : (s.setCr k f).mem = s.mem := rfl
@[simp] theorem State.setCr_imem (s : State) (k : Fin 8) (f : Flags) : (s.setCr k f).imem = s.imem := rfl
@[simp] theorem State.setCr_cops (s : State) (k : Fin 8) (f : Flags) : (s.setCr k f).cops = s.cops := rfl
@[simp] theorem State.setCr_ccbMoved (s : State) (k : Fin 8) (f : Flags) : (s.setCr k f).ccbMoved = s.ccbMoved := rfl
@[simp] theorem State.setCr_requests (s : State) (k : Fin 8) (f : Flags) : (s.setCr k f).requests = s.requests := rfl
@[simp] theorem State.setCr_out (s : State) (k : Fin 8) (f : Flags) : (s.setCr k f).out = s.out := rfl
@[simp] theorem State.setCr_freeCtr (s : State) (k : Fin 8) (f : Flags) : (s.setCr k f).freeCtr = s.freeCtr := rfl

/-! ### State.emit -/

@[simp] theorem State.emit_set1 (s : State) (e : OutEvent) : (s.emit e).set1 = s.set1 := rfl
@[simp] theorem State.emit_pr (s : State) (e : OutEvent) : (s.emit e).pr = s.pr := rfl
@[simp] theorem State.emit_pr31 (s : State) (e : OutEvent) : (s.emit e).pr31 = s.pr31 := rfl
@[simp] theorem State.emit_spsr (s : State) (e : OutEvent) : (s.emit e).spsr = s.spsr := rfl
@[simp] theorem State.emit_psr (s : State) (e : OutEvent) : (s.emit e).psr = s.psr := rfl
@[simp] theorem State.emit_cr (s : State) (e : OutEvent) : (s.emit e).cr = s.cr := rfl
@[simp] theorem State.emit_pc (s : State) (e : OutEvent) : (s.emit e).pc = s.pc := rfl
@[simp] theorem State.emit_ptarget (s : State) (e : OutEvent) : (s.emit e).ptarget = s.ptarget := rfl
@[simp] theorem State.emit_m64 (s : State) (e : OutEvent) : (s.emit e).m64 = s.m64 := rfl
@[simp] theorem State.emit_hws (s : State) (e : OutEvent) : (s.emit e).hws = s.hws := rfl
@[simp] theorem State.emit_hwsIdle (s : State) (e : OutEvent) : (s.emit e).hwsIdle = s.hwsIdle := rfl
@[simp] theorem State.emit_ccb (s : State) (e : OutEvent) : (s.emit e).ccb = s.ccb := rfl
@[simp] theorem State.emit_mem (s : State) (e : OutEvent) : (s.emit e).mem = s.mem := rfl
@[simp] theorem State.emit_imem (s : State) (e : OutEvent) : (s.emit e).imem = s.imem := rfl
@[simp] theorem State.emit_cops (s : State) (e : OutEvent) : (s.emit e).cops = s.cops := rfl
@[simp] theorem State.emit_ccbMoved (s : State) (e : OutEvent) : (s.emit e).ccbMoved = s.ccbMoved := rfl
@[simp] theorem State.emit_requests (s : State) (e : OutEvent) : (s.emit e).requests = s.requests := rfl
@[simp] theorem State.emit_out (s : State) (e : OutEvent) : (s.emit e).out = s.out ++ [e] := rfl
@[simp] theorem State.emit_freeCtr (s : State) (e : OutEvent) : (s.emit e).freeCtr = s.freeCtr := rfl
@[simp] theorem State.emit_rd (s : State) (e : OutEvent) (i : Fin 32) : (s.emit e).rd i = s.rd i := rfl

/-! ### State.raiseExc -/

@[simp] theorem State.raiseExc_set1 (s : State) (c : BitVec 8) :
    (s.raiseExc c).set1 = s.set1 := rfl
@[simp] theorem State.raiseExc_pr (s : State) (c : BitVec 8) :
    (s.raiseExc c).pr = s.pr := rfl
@[simp] theorem State.raiseExc_pr31 (s : State) (c : BitVec 8) :
    (s.raiseExc c).pr31 = s.pr31 := rfl
@[simp] theorem State.raiseExc_spsr (s : State) (c : BitVec 8) :
    (s.raiseExc c).spsr = s.spsr := rfl
@[simp] theorem State.raiseExc_psr (s : State) (c : BitVec 8) :
    (s.raiseExc c).psr = Psr.handler := rfl
@[simp] theorem State.raiseExc_cr (s : State) (c : BitVec 8) :
    (s.raiseExc c).cr = s.cr := rfl
@[simp] theorem State.raiseExc_pc (s : State) (c : BitVec 8) :
    (s.raiseExc c).pc = s.ccb.excepAddr := rfl
@[simp] theorem State.raiseExc_ptarget (s : State) (c : BitVec 8) :
    (s.raiseExc c).ptarget = none := rfl
@[simp] theorem State.raiseExc_m64 (s : State) (c : BitVec 8) :
    (s.raiseExc c).m64 = none := rfl
@[simp] theorem State.raiseExc_hws (s : State) (c : BitVec 8) :
    (s.raiseExc c).hws = s.hws := rfl
@[simp] theorem State.raiseExc_hwsIdle (s : State) (c : BitVec 8) :
    (s.raiseExc c).hwsIdle = s.hwsIdle := rfl
@[simp] theorem State.raiseExc_ccb (s : State) (c : BitVec 8) :
    (s.raiseExc c).ccb = { s.ccb with exceptionCs := c, exceptionPc := s.pc, exceptionPsr := s.psr.toBits } := rfl
@[simp] theorem State.raiseExc_mem (s : State) (c : BitVec 8) :
    (s.raiseExc c).mem = s.mem := rfl
@[simp] theorem State.raiseExc_imem (s : State) (c : BitVec 8) :
    (s.raiseExc c).imem = s.imem := rfl
@[simp] theorem State.raiseExc_cops (s : State) (c : BitVec 8) :
    (s.raiseExc c).cops = s.cops := rfl
@[simp] theorem State.raiseExc_ccbMoved (s : State) (c : BitVec 8) :
    (s.raiseExc c).ccbMoved = none := rfl
@[simp] theorem State.raiseExc_requests (s : State) (c : BitVec 8) :
    (s.raiseExc c).requests = s.requests := rfl
@[simp] theorem State.raiseExc_out (s : State) (c : BitVec 8) :
    (s.raiseExc c).out = [] := rfl
@[simp] theorem State.raiseExc_freeCtr (s : State) (c : BitVec 8) :
    (s.raiseExc c).freeCtr = s.freeCtr + 1 := rfl

/-! ### State.wr -/

@[simp] theorem State.wr_psr (s : State) (i : Fin 32) (v : Word) : (s.wr i v).psr = s.psr := by
  unfold State.wr; repeat' split
  all_goals rfl
@[simp] theorem State.wr_cr (s : State) (i : Fin 32) (v : Word) : (s.wr i v).cr = s.cr := by
  unfold State.wr; repeat' split
  all_goals rfl
@[simp] theorem State.wr_pc (s : State) (i : Fin 32) (v : Word) : (s.wr i v).pc = s.pc := by
  unfold State.wr; repeat' split
  all_goals rfl
@[simp] theorem State.wr_ptarget (s : State) (i : Fin 32) (v : Word) : (s.wr i v).ptarget = s.ptarget := by
  unfold State.wr; repeat' split
  all_goals rfl
@[simp] theorem State.wr_m64 (s : State) (i : Fin 32) (v : Word) : (s.wr i v).m64 = s.m64 := by
  unfold State.wr; repeat' split
  all_goals rfl
@[simp] theorem State.wr_hws (s : State) (i : Fin 32) (v : Word) : (s.wr i v).hws = s.hws := by
  unfold State.wr; repeat' split
  all_goals rfl
@[simp] theorem State.wr_hwsIdle (s : State) (i : Fin 32) (v : Word) : (s.wr i v).hwsIdle = s.hwsIdle := by
  unfold State.wr; repeat' split
  all_goals rfl
@[simp] theorem State.wr_ccb (s : State) (i : Fin 32) (v : Word) : (s.wr i v).ccb = s.ccb := by
  unfold State.wr; repeat' split
  all_goals rfl
@[simp] theorem State.wr_mem (s : State) (i : Fin 32) (v : Word) : (s.wr i v).mem = s.mem := by
  unfold State.wr; repeat' split
  all_goals rfl
@[simp] theorem State.wr_imem (s : State) (i : Fin 32) (v : Word) : (s.wr i v).imem = s.imem := by
  unfold State.wr; repeat' split
  all_goals rfl
@[simp] theorem State.wr_cops (s : State) (i : Fin 32) (v : Word) : (s.wr i v).cops = s.cops := by
  unfold State.wr; repeat' split
  all_goals rfl
@[simp] theorem State.wr_ccbMoved (s : State) (i : Fin 32) (v : Word) : (s.wr i v).ccbMoved = s.ccbMoved := by
  unfold State.wr; repeat' split
  all_goals rfl
@[simp] theorem State.wr_requests (s : State) (i : Fin 32) (v : Word) : (s.wr i v).requests = s.requests := by
  unfold State.wr; repeat' split
  all_goals rfl
@[simp] theorem State.wr_out (s : State) (i : Fin 32) (v : Word) : (s.wr i v).out = s.out := by
  unfold State.wr; repeat' split
  all_goals rfl
@[simp] theorem State.wr_freeCtr (s : State) (i : Fin 32) (v : Word) : (s.wr i v).freeCtr = s.freeCtr := by
  unfold State.wr; repeat' split
  all_goals rfl

/-! ### State.retire -/

@[simp] theorem State.retire_set1 (s t : State) : (s.retire t).set1 = t.set1 := by
  unfold State.retire; split <;> rfl
@[simp] theorem State.retire_pr (s t : State) : (s.retire t).pr = t.pr := by
  unfold State.retire; split <;> rfl
@[simp] theorem State.retire_pr31 (s t : State) : (s.retire t).pr31 = t.pr31 := by
  unfold State.retire; split <;> rfl
@[simp] theorem State.retire_spsr (s t : State) : (s.retire t).spsr = t.spsr := by
  unfold State.retire; split <;> rfl
@[simp] theorem State.retire_psr (s t : State) : (s.retire t).psr = t.psr := by
  unfold State.retire; split <;> rfl
@[simp] theorem State.retire_cr (s t : State) : (s.retire t).cr = t.cr := by
  unfold State.retire; split <;> rfl
@[simp] theorem State.retire_m64 (s t : State) : (s.retire t).m64 = t.m64 := by
  unfold State.retire; split <;> rfl
@[simp] theorem State.retire_hws (s t : State) : (s.retire t).hws = t.hws := by
  unfold State.retire; split <;> rfl
@[simp] theorem State.retire_hwsIdle (s t : State) : (s.retire t).hwsIdle = t.hwsIdle := by
  unfold State.retire; split <;> rfl
@[simp] theorem State.retire_ccb (s t : State) : (s.retire t).ccb = t.ccb := by
  unfold State.retire; split <;> rfl
@[simp] theorem State.retire_mem (s t : State) : (s.retire t).mem = t.mem := by
  unfold State.retire; split <;> rfl
@[simp] theorem State.retire_imem (s t : State) : (s.retire t).imem = t.imem := by
  unfold State.retire; split <;> rfl
@[simp] theorem State.retire_cops (s t : State) : (s.retire t).cops = t.cops := by
  unfold State.retire; split <;> rfl
@[simp] theorem State.retire_ccbMoved (s t : State) : (s.retire t).ccbMoved = t.ccbMoved := by
  unfold State.retire; split <;> rfl
@[simp] theorem State.retire_requests (s t : State) : (s.retire t).requests = t.requests := by
  unfold State.retire; split <;> rfl
@[simp] theorem State.retire_out (s t : State) : (s.retire t).out = t.out := by
  unfold State.retire; split <;> rfl
@[simp] theorem State.retire_freeCtr (s t : State) : (s.retire t).freeCtr = t.freeCtr := by
  unfold State.retire; split <;> rfl

theorem State.retire_pc (s t : State) : (s.retire t).pc = s.ptarget.getD (s.pcAhead 1) := by
  unfold State.retire; split <;> rename_i h <;> simp [h]

theorem State.retire_ptarget_slot {s : State} {a : Word} (h : s.ptarget = some a) (t : State) :
    (s.retire t).ptarget = none := by
  unfold State.retire; simp [h]

theorem State.retire_ptarget_plain {s : State} (h : s.ptarget = none) (t : State) :
    (s.retire t).ptarget = t.ptarget := by
  unfold State.retire; simp [h]

/-! ### State.sampleRequests -/

@[simp] theorem State.sampleRequests_set1 (s : State) : s.sampleRequests.set1 = s.set1 := by
  unfold State.sampleRequests; split <;> rfl
@[simp] theorem State.sampleRequests_pr (s : State) : s.sampleRequests.pr = s.pr := by
  unfold State.sampleRequests; split <;> rfl
@[simp] theorem State.sampleRequests_pr31 (s : State) : s.sampleRequests.pr31 = s.pr31 := by
  unfold State.sampleRequests; split <;> rfl
@[simp] theorem State.sampleRequests_spsr (s : State) : s.sampleRequests.spsr = s.spsr := by
  unfold State.sampleRequests; split <;> rfl
@[simp] theorem State.sampleRequests_psr (s : State) : s.sampleRequests.psr = s.psr := by
  unfold State.sampleRequests; split <;> rfl
@[simp] theorem State.sampleRequests_cr (s : State) : s.sampleRequests.cr = s.cr := by
  unfold State.sampleRequests; split <;> rfl
@[simp] theorem State.sampleRequests_pc (s : State) : s.sampleRequests.pc = s.pc := by
  unfold State.sampleRequests; split <;> rfl
@[simp] theorem State.sampleRequests_ptarget (s : State) : s.sampleRequests.ptarget = s.ptarget := by
  unfold State.sampleRequests; split <;> rfl
@[simp] theorem State.sampleRequests_m64 (s : State) : s.sampleRequests.m64 = s.m64 := by
  unfold State.sampleRequests; split <;> rfl
@[simp] theorem State.sampleRequests_hws (s : State) : s.sampleRequests.hws = s.hws := by
  unfold State.sampleRequests; split <;> rfl
@[simp] theorem State.sampleRequests_hwsIdle (s : State) : s.sampleRequests.hwsIdle = s.hwsIdle := by
  unfold State.sampleRequests; split <;> rfl
@[simp] theorem State.sampleRequests_mem (s : State) : s.sampleRequests.mem = s.mem := by
  unfold State.sampleRequests; split <;> rfl
@[simp] theorem State.sampleRequests_imem (s : State) : s.sampleRequests.imem = s.imem := by
  unfold State.sampleRequests; split <;> rfl
@[simp] theorem State.sampleRequests_cops (s : State) : s.sampleRequests.cops = s.cops := by
  unfold State.sampleRequests; split <;> rfl
@[simp] theorem State.sampleRequests_ccbMoved (s : State) : s.sampleRequests.ccbMoved = s.ccbMoved := by
  unfold State.sampleRequests; split <;> rfl
@[simp] theorem State.sampleRequests_out (s : State) : s.sampleRequests.out = s.out := by
  unfold State.sampleRequests; split <;> rfl
@[simp] theorem State.sampleRequests_freeCtr (s : State) : s.sampleRequests.freeCtr = s.freeCtr := by
  unfold State.sampleRequests; split <;> rfl

theorem State.sampleRequests_nil {s : State} (h : s.requests = []) : s.sampleRequests = s := by
  unfold State.sampleRequests; simp [h]

end Sys2Proof.Machine
end

