-- ==== Sys2Proof/Laws/Ops.lean ====
section
/-! SUPPORT. What each shared operation can do. -/

namespace Sys2Proof.Machine

theorem takeException_next {s t : State} {c : BitVec 8} (h : takeException s c = .next t) :
    s.ptarget = none ∧ t = s.raiseExc c := by
  unfold takeException at h
  split at h
  · cases h
  · cases h; exact ⟨‹_›, rfl⟩

theorem takeException_plain {s : State} (h : s.ptarget = none) (c : BitVec 8) :
    takeException s c = .next (s.raiseExc c) := by
  unfold takeException; simp [h]

theorem finish_next {s t : State} {r : Res} (h : finish s r = .next t) :
    (∃ u, r = .ok u ∧ t = s.retire u) ∨ r = .goto t ∨ ∃ c, r = .exc c ∧ s.ptarget = none ∧ t = s.raiseExc c := by
  cases r with
  | ok u => cases h; exact .inl ⟨u, rfl, rfl⟩
  | goto u => cases h; exact .inr (.inl rfl)
  | exc c => exact .inr (.inr ⟨c, rfl, takeException_next h⟩)
  | fault f => cases h
  | refuse f => cases h

/-- A step of the template that goes on: exception 2, a false condition, or the body. -/
theorem run_next {n : Need} {g : Option Guard} {s t : State} {body : State → Res}
    (h : run n g s body = .next t) :
    (s.illegal n g = true ∧ s.ptarget = none ∧ t = s.raiseExc 2#8) ∨
    (s.illegal n g = false ∧ s.guardHolds g = false ∧ t = s.retire s.begin) ∨
    (s.illegal n g = false ∧ s.guardHolds g = true ∧ (n.control = true → s.ptarget = none) ∧
      finish s (body s.begin) = .next t) := by
  unfold run at h
  split at h
  · cases h
  · rename_i hc
    split at h
    · obtain ⟨h1, h2⟩ := takeException_next h
      exact .inl ⟨‹_›, h1, h2⟩
    · rename_i hi
      have hi' : s.illegal n g = false := by simpa using hi
      split at h
      · refine .inr (.inr ⟨hi', ‹_›, fun hn => ?_, h⟩)
        cases hp : s.ptarget with
        | none => rfl
        | some a => simp [hn, hp] at hc
      · cases h
        exact .inr (.inl ⟨hi', Bool.eq_false_iff.2 ‹_›, rfl⟩)

/-- When the checks pass, the body runs. -/
theorem run_body {n : Need} {g : Option Guard} {s : State} {body : State → Res}
    (hc : n.control = true → s.ptarget = none) (hi : s.illegal n g = false) (hg : s.guardHolds g = true) :
    run n g s body = finish s (body s.begin) := by
  unfold run
  rw [if_neg (by cases h : n.control <;> simp [h] at hc ⊢; simp [hc]), if_neg (by simp [hi]), if_pos hg]

/-- An instruction that is no control transfer and asks for nothing runs its body when `CanRun`. -/
theorem run_plain {g : Option Guard} {s : State} {body : State → Res} (h : s.CanRun g) :
    run {} g s body = finish s (body s.begin) := by
  refine run_body (by simp) ?_ h.2
  obtain ⟨h1, -⟩ := h
  cases g with
  | none => simp [State.illegal]
  | some g => simp [State.illegal, h1]

theorem State.take_cases (s : State) (p : Bool) (a : Int) (k : State → State) :
    (∃ c, s.targetFault p a = some c ∧ s.take p a k = .exc c) ∨
    (s.targetFault p a = none ∧ s.take p a k = .ok (k { s with ptarget := some (BitVec.ofInt 32 a) })) := by
  unfold State.take
  cases h : s.targetFault p a with
  | none => exact .inr ⟨rfl, rfl⟩
  | some c => exact .inl ⟨c, rfl, rfl⟩

theorem State.targetFault_aligned {s : State} {p : Bool} {a : Int} (h : s.targetFault p a = none) :
    a % (s.len : Int) = 0 := by
  unfold State.targetFault at h
  split at h
  · cases h
  · split at h
    · cases h
    · rename_i h2; simpa using h2

theorem State.access_cases (s : State) (b : Fin 32) (i : Int) (k : State → Word → Res) :
    (∃ c, s.dataFault (s.dataAddr b i) = some c ∧ s.access b i k = .exc c) ∨
    (s.dataFault (s.dataAddr b i) = none ∧
      s.access b i k = k (s.emit (.dataAddress (BitVec.ofInt 32 (s.dataAddr b i)))) (BitVec.ofInt 32 (s.dataAddr b i))) := by
  unfold State.access
  cases h : s.dataFault (s.dataAddr b i) with
  | none => exact .inr ⟨rfl, rfl⟩
  | some c => exact .inl ⟨c, rfl, rfl⟩

/-- An address selects nothing only in data memory, under DMEM_GRANULE = BYTE and where it is no multiple of 4. -/
theorem State.region_noCell {s : State} {a : Word} (h : s.region a = .noCell) :
    inCcb s.ccb.ccbBase a = false ∧
    ¬ (s.ccb.ccbBase.toNat + 256 ≤ a.toNat ∧ a.toNat ≤ s.ccb.regspcEnd.toNat) ∧
    a.toNat % 4 ≠ 0 ∧ Config.dmemWordGranule = false := by
  unfold State.region at h
  by_cases h1 : inCcb s.ccb.ccbBase a = true
  · rw [if_pos h1] at h; cases h
  · rw [if_neg h1] at h
    refine ⟨Bool.eq_false_iff.2 h1, ?_⟩
    split at h
    · cases h
    · split at h
      · cases h
      · rename_i h2 h3
        exact ⟨h2, by simpa using h3⟩

/-- A load that gives a word meets no remap hazard, and reads a register of the CCB, an open value, or a cell of data
memory. -/
theorem State.load_ok {s : State} {m : Option Word} {a v : Word} (h : s.load m a = .ok v) :
    s.remapHazard m a = false ∧
    ((∃ k r, s.region a = .ccb k ∧ ccbRegAt k = some r ∧ v = s.ccbGet r) ∨ v = Config.freeWord s.freeCtr ∨
     ∃ k, s.region a = .cell k ∧ v = Memory.getWord s.mem k) := by
  unfold State.load at h
  split at h
  · cases h
  · refine ⟨Bool.eq_false_iff.2 ‹_›, ?_⟩
    repeat' split at h
    all_goals cases h
    · exact .inl ⟨_, _, ‹_›, ‹_›, rfl⟩
    · exact .inr (.inl rfl)
    · exact .inr (.inl rfl)
    · exact .inr (.inr ⟨_, ‹_›, rfl⟩)

/-- The loads that the spec gives no meaning, and no others, are refused. -/
theorem State.load_error {s : State} {m : Option Word} {a : Word} {r : Refusal} (h : s.load m a = .error r) :
    s.remapHazard m a = true ∧ r = .ccbRemapAccess ∨
    s.remapHazard m a = false ∧ s.region a = .noCell ∧ r = .dmemMisaligned := by
  unfold State.load at h
  split at h
  · cases h; exact .inl ⟨‹_›, rfl⟩
  · refine .inr ⟨Bool.eq_false_iff.2 ‹_›, ?_⟩
    repeat' split at h
    all_goals cases h
    exact ⟨‹_›, rfl⟩

/-- A load that has a meaning writes its register; the others are refused. -/
theorem State.loadTo_cases (s : State) (m : Option Word) (a : Word) (d : Fin 32) :
    (∃ v, s.load m a = .ok v ∧ s.loadTo m a d = .ok (s.wr d v)) ∨
    (∃ r, s.load m a = .error r ∧ s.loadTo m a d = .refuse r) := by
  unfold State.loadTo
  cases h : s.load m a with
  | ok v => exact .inl ⟨v, rfl, rfl⟩
  | error r => exact .inr ⟨r, rfl, rfl⟩

/-- A store goes to a writable CCB register, to nothing, or to a cell of data memory. -/
theorem State.store_ok {s t : State} {m : Option Word} {a v : Word} (h : s.store m a v = .ok t) :
    s.remapHazard m a = false ∧
    ((∃ k r, s.region a = .ccb k ∧ ccbRegAt k = some r ∧ (r = .ccbBase → v.extractLsb' 0 8 = 0#8) ∧ t = s.ccbPut r v) ∨
     t = s ∨
     (∃ k, s.region a = .cell k ∧ t = { s with mem := Memory.setWord s.mem k v })) := by
  unfold State.store at h
  split at h
  · cases h
  · refine ⟨Bool.eq_false_iff.2 ‹_›, ?_⟩
    split at h
    · rename_i k hk
      split at h
      · rename_i r hr
        split at h
        · cases h
        · rename_i hn
          cases h
          refine .inl ⟨k, r, hk, hr, fun e => ?_, rfl⟩
          simpa [e] using hn
      · cases h; exact .inr (.inl rfl)
    · cases h; exact .inr (.inl rfl)
    · rename_i k hk
      cases h
      exact .inr (.inr ⟨k, hk, rfl⟩)
    · cases h

theorem State.store_not_goto {s t : State} {m : Option Word} {a v : Word} : s.store m a v ≠ .goto t := by
  unfold State.store; repeat' split
  all_goals simp

theorem State.store_not_exc {s : State} {m : Option Word} {a v : Word} {c : BitVec 8} : s.store m a v ≠ .exc c := by
  unfold State.store; repeat' split
  all_goals simp

theorem State.withNops_cases (s : State) (k : Nat) (r : Res) :
    s.withNops k r = r ∨ s.withNops k r = .refuse .nopMissing := by
  unfold State.withNops; split
  · exact .inl rfl
  · exact .inr rfl

theorem takeInterrupt_next {k : Fin 12} {s t : State} (h : takeInterrupt k s = .next t) :
    s.hws.length < Config.hwsDepth ∧ t = s.enterInterrupt k := by
  unfold takeInterrupt at h
  split at h
  · cases h; exact ⟨‹_›, rfl⟩
  · cases h

theorem fetchException_next {s t : State} {c : BitVec 8} (h : fetchException s c = .next t) :
    s.ptarget = none ∧ t = { s.raiseExc c with ccbMoved := s.ccbMoved } := by
  unfold fetchException at h
  split at h
  · cases h
  · cases h; exact ⟨‹_›, rfl⟩

/-- A step that goes on: an interrupt entry, a fetch exception, or the execution of an instruction. -/
theorem step_next {s t : State} (h : step s = .next t) :
    s.sampleRequests.foreignSet = false ∧
    ((∃ k, s.sampleRequests.accepted = some k ∧ takeInterrupt k s.sampleRequests = .next t) ∨
     (s.sampleRequests.accepted = none ∧ ∃ i, s.sampleRequests.fetch = .instr i ∧ exec i s.sampleRequests = .next t) ∨
     (s.sampleRequests.accepted = none ∧ ∃ c, s.sampleRequests.fetch = .exc c ∧
        fetchException s.sampleRequests c = .next t)) := by
  simp only [step] at h
  split at h
  · cases h
  · refine ⟨Bool.eq_false_iff.2 ‹_›, ?_⟩
    split at h
    · exact .inl ⟨_, ‹_›, h⟩
    · split at h
      · exact .inr (.inl ⟨‹_›, _, ‹_›, h⟩)
      · exact .inr (.inr ⟨‹_›, _, ‹_›, h⟩)
      · cases h

theorem State.accepted_plain {s : State} {k : Fin 12} (h : s.accepted = some k) :
    s.ptarget = none ∧ s.passes k = true := by
  unfold State.accepted at h
  split at h
  · cases h
  · rename_i hp; exact ⟨by simpa using hp, List.find?_some h⟩

/-- Reading a register after writing it, with one set selected for both (10_state.md R36, R37). -/
theorem State.wr_wrote (s : State) (i : Fin 32) (v : Word) : s.Wrote (s.wr i v) i v := by
  obtain ⟨i, hi⟩ := i
  unfold State.wr State.Wrote
  cases hr : s.psr.rswr with
  | false => simp [Vector.getElem_set]
  | true =>
    by_cases h1 : i < 29
    · simp [h1, Vector.getElem_set, show i ≠ 30 by omega, show i ≠ 31 by omega]
    · by_cases h2 : i = 29
      · subst h2; simp; omega
      · by_cases h3 : i = 30
        · subst h3; simp; omega
        · have : i = 31 := by omega
          subst this; simp; omega

end Sys2Proof.Machine
end

