-- ==== Sys2Proof/Laws/Encoding.lean ====
section
/-! SUPPORT. Fields read back what was written in them. -/

set_option Elab.async false
set_option linter.unusedSimpArgs false
set_option linter.unusedTactic false
set_option linter.unreachableTactic false

namespace Sys2Proof

/-- Every operand value fits its field. -/
def argsFit (widths args : List Nat) : Prop := List.Forall₂ (fun n a => a < 2 ^ n) widths args

@[simp] theorem reg5_val (r : Fin 32) : reg5 r.val = r := by simp [reg5]
@[simp] theorem reg3_val (r : Fin 8) : reg3 r.val = r := by simp [reg3]
@[simp] theorem cop2_val (r : Fin 4) : cop2 r.val = r := by simp [cop2]
@[simp] theorem Cond.ofCode_code (k : Cond) : Cond.ofCode k.code = k := by cases k <;> rfl
theorem Cond.code_lt (k : Cond) : k.code < 8 := by cases k <;> decide
@[simp] theorem guardOf_code (g : Guard) : guardOf g.cond.code g.cr.val = some g := by simp [guardOf]

theorem fieldOf_lt (n : Nat) (i : Int) : fieldOf n i < 2 ^ n := by
  unfold fieldOf
  have h : (0 : Int) < 2 ^ n := by positivity
  have h1 := Int.emod_lt_of_pos i h
  have h2 := Int.emod_nonneg i (ne_of_gt h)
  have : ((i % 2 ^ n).toNat : Int) < ((2 ^ n : Nat) : Int) := by
    rw [Int.toNat_of_nonneg h2]; push_cast; exact h1
  exact_mod_cast this

theorem fieldOf_nonneg {n : Nat} {i : Int} (h0 : 0 ≤ i) (h1 : i < 2 ^ n) : Int.ofNat (fieldOf n i) = i := by
  unfold fieldOf
  rw [Int.emod_eq_of_lt h0 h1]
  exact Int.toNat_of_nonneg h0

theorem fieldOf_nonneg' {n : Nat} {i : Int} (h0 : 0 ≤ i) (h1 : i < 2 ^ n) : ((fieldOf n i : Nat) : Int) = i :=
  fieldOf_nonneg h0 h1

theorem signedField_fieldOf {n : Nat} (hn : 0 < n) {i : Int} (h : fitsS n i = true) :
    signedField n (fieldOf n i) = i := by
  obtain ⟨k, rfl⟩ : ∃ k, n = k + 1 := ⟨n - 1, by omega⟩
  simp only [fitsS, Nat.add_sub_cancel, Bool.and_eq_true, decide_eq_true_eq] at h
  obtain ⟨h1, h2⟩ := h
  have hp : (0 : Int) < 2 ^ k := by positivity
  have h2k : (2 : Int) ^ (k + 1) = 2 * 2 ^ k := by rw [pow_succ]; ring
  unfold signedField fieldOf
  simp only [Nat.add_sub_cancel]
  rcases Int.lt_or_le i 0 with hi | hi
  · have e : i % 2 ^ (k + 1) = i + 2 ^ (k + 1) := by
      rw [← Int.add_emod_right, Int.emod_eq_of_lt] <;> omega
    have e2 : (((i % 2 ^ (k + 1)).toNat : Nat) : Int) = i + 2 ^ (k + 1) := by
      rw [e]; exact Int.toNat_of_nonneg (by omega)
    rw [if_neg, e2]
    · omega
    · intro hc
      have : (((i % 2 ^ (k + 1)).toNat : Nat) : Int) < ((2 ^ k : Nat) : Int) := by exact_mod_cast hc
      rw [e2] at this; push_cast at this; omega
  · have e : i % 2 ^ (k + 1) = i := Int.emod_eq_of_lt hi (by omega)
    have e2 : (((i % 2 ^ (k + 1)).toNat : Nat) : Int) = i := by rw [e]; exact Int.toNat_of_nonneg hi
    rw [if_pos, e2]
    have : (((i % 2 ^ (k + 1)).toNat : Nat) : Int) < ((2 ^ k : Nat) : Int) := by rw [e2]; push_cast; exact h2
    exact_mod_cast this

theorem fitsU_iff {hi i : Int} : fitsU hi i = true ↔ 0 ≤ i ∧ i ≤ hi := by simp [fitsU]

theorem shiftField_fieldOf {i : Int} (h : fitsU 32 i = true) : shiftField (fieldOf 6 i) = i := by
  rw [fitsU_iff] at h
  have e := fieldOf_nonneg' (n := 6) h.1 (by omega)
  unfold shiftField
  rw [if_pos (by omega), e]

/-! ### One lemma for each operand shape: the operands are read back, and they fit their fields -/

theorem readRR_write (op : Op) (o : OpsRR) : readRR (writeRR op o).2 = some o := by
  rcases o with ⟨_ | g, d, s, t⟩ | ⟨d, s⟩ <;> simp [readRR, writeRR, guardArgs]

theorem readRISigned_write (op : Op) (o : OpsRI) (h : o.wfSigned = true) :
    readRISigned (writeRI 15 9 7 op o).2 = some o := by
  rcases o with ⟨_ | g, d, s, i⟩ | ⟨d, i⟩ <;> simp only [OpsRI.wfSigned] at h <;>
    simp [readRISigned, readRI, writeRI, guardArgs, signedField_fieldOf, h]

theorem readRIUnsigned_write (op : Op) (o : OpsRI) (h : o.wfUnsigned = true) :
    readRIUnsigned (writeRI 15 9 7 op o).2 = some o := by
  rcases o with ⟨_ | g, d, s, i⟩ | ⟨d, i⟩ <;> simp only [OpsRI.wfUnsigned, fitsU_iff] at h <;>
    simp only [readRIUnsigned, readRI, writeRI, guardArgs, List.cons_append, List.nil_append, reg5_val, reg3_val,
      guardOf_code] <;>
    rw [fieldOf_nonneg h.1 (by omega)]

theorem readRIShift_write (op : Op) (o : OpsRI) (h : o.wfUpto 32 = true) :
    readRIShift (writeRI 6 6 6 op o).2 = some o := by
  rcases o with ⟨_ | g, d, s, i⟩ | ⟨d, i⟩ <;> simp only [OpsRI.wfUpto] at h <;>
    simp [readRIShift, readRI, writeRI, guardArgs, shiftField_fieldOf h]

theorem readRI5_write (op : Op) (o : OpsRI) (h : o.wfUpto 31 = true) :
    readRIUnsigned (writeRI 5 5 5 op o).2 = some o := by
  rcases o with ⟨_ | g, d, s, i⟩ | ⟨d, i⟩ <;> simp only [OpsRI.wfUpto, fitsU_iff] at h <;>
    simp only [readRIUnsigned, readRI, writeRI, guardArgs, List.cons_append, List.nil_append, reg5_val, reg3_val,
      guardOf_code] <;>
    rw [fieldOf_nonneg h.1 (by omega)]

theorem readRRISel_write (n : Nat) (hi : Int) (hn : hi < 2 ^ n) (op : Op) (o : OpsRRI) (h : o.wfUpto hi = true) :
    readRRISel (writeRRI n n n op o).1.fmt (writeRRI n n n op o).2 = some o := by
  rcases o with ⟨_ | g, d, s, i⟩ | ⟨d, s, i⟩ <;> simp only [OpsRRI.wfUpto, fitsU_iff] at h <;>
    simp only [readRRISel, readRRI, writeRRI, guardArgs, List.cons_append, List.nil_append, reg5_val, reg3_val,
      guardOf_code] <;>
    rw [fieldOf_nonneg h.1 (by omega)]

theorem readRRIOff_write (op : Op) (o : OpsRRI) (h : o.wfOffset = true) :
    readRRIOff (writeRRI 15 9 4 op o).1.fmt (writeRRI 15 9 4 op o).2 = some o := by
  rcases o with ⟨_ | g, d, s, i⟩ | ⟨d, s, i⟩ <;> simp only [OpsRRI.wfOffset] at h <;>
    simp [readRRIOff, readRRI, writeRRI, guardArgs, signedField_fieldOf, h]

theorem readR2_write (op : Op) (o : OpsR2) : readR2 (writeR2 op o).1.fmt (writeR2 op o).2 = some o := by
  rcases o with ⟨_ | g, d, s⟩ | ⟨d, s⟩ <;> simp [readR2, writeR2, row32, guardArgs]

theorem readR1_write (op : Op) (o : OpsR1) : readR1 (writeR1 op o).1.fmt (writeR1 op o).2 = some o := by
  rcases o with ⟨_ | g, d⟩ | ⟨d⟩ <;> simp [readR1, writeR1, row32, guardArgs]

theorem readR1u_write (op : Op) (o : OpsR1u) : readR1u (writeR1u op o).1.fmt (writeR1u op o).2 = some o := by
  rcases o with ⟨d⟩ | ⟨d⟩ <;> simp [readR1u, writeR1u]

theorem readBr_write (op : Op) (o : OpsBr) (h : o.wf = true) : readBr (writeBr op o).2 = some o := by
  rcases o with ⟨c, i⟩ | ⟨i⟩ <;> simp only [OpsBr.wf] at h <;> simp [readBr, writeBr, signedField_fieldOf, h]

theorem readJ_write (op : Op) (o : OpsJ) (h : o.wf = true) :
    readJ (writeJ op o).1.fmt (writeJ op o).2 = some o := by
  rcases o with ⟨i⟩ | ⟨i⟩ <;> simp only [OpsJ.wf] at h <;> simp [readJ, writeJ, signedField_fieldOf, h]

theorem readCmp_write (o : OpsCmp) : readCmp (writeCmp o).2 = some o := by
  rcases o with ⟨c, s, t⟩ | ⟨s, t⟩ <;> simp [readCmp, writeCmp]

theorem readCmpi_write (o : OpsCmpi) (h : o.wf = true) : readCmpi (writeCmpi o).2 = some o := by
  rcases o with ⟨c, s, i⟩ | ⟨s, i⟩ <;> simp only [OpsCmpi.wf] at h <;>
    simp [readCmpi, writeCmpi, signedField_fieldOf, h]

theorem readCpFrom_write (o : OpsCp) : readCpFrom (writeCpFrom o).1.fmt (writeCpFrom o).2 = some o := by
  rcases o with ⟨_ | g, n, p, r⟩ | ⟨n, p, r⟩ <;> simp [readCpFrom, writeCpFrom, row32, guardArgs]

theorem readCpTo_write (o : OpsCp) : readCpTo (writeCpTo o).1.fmt (writeCpTo o).2 = some o := by
  rcases o with ⟨_ | g, n, p, r⟩ | ⟨n, p, r⟩ <;> simp [readCpTo, writeCpTo, row32, guardArgs]

theorem readG_write (op : Op) (o : OpsG) : readG (writeG op o).1.fmt (writeG op o).2 = some o := by
  rcases o with ⟨_ | g⟩ | _ <;> simp [readG, writeG, row32, guardArgs]

/-! ### The operand values fit the fields of their row -/

theorem argsFit_nil : argsFit [] [] := List.Forall₂.nil
theorem argsFit_cons {n a : Nat} {l m : List Nat} (h : a < 2 ^ n) (t : argsFit l m) : argsFit (n :: l) (a :: m) :=
  List.Forall₂.cons h t

theorem argsFit_guard (g : Guard) : argsFit [3, 3] [g.cond.code, g.cr.val] :=
  argsFit_cons g.cond.code_lt (argsFit_cons g.cr.isLt argsFit_nil)

theorem fit_RR (op : Op) (h : op.shape = .rr) (o : OpsRR) :
    argsFit (writeRR op o).1.widths (writeRR op o).2 := by
  rcases o with ⟨_ | g, d, s, t⟩ | ⟨d, s⟩
  all_goals simp only [writeRR, row32, Row.widths, h, guardArgs, List.cons_append, List.nil_append, List.append_nil]
  all_goals
    repeat' first | exact argsFit_nil | exact argsFit_guard _ | apply argsFit_cons (Fin.isLt _) | apply argsFit_cons (fieldOf_lt _ _)

theorem fit_RISigned (op : Op) (h : op.shape = .riS) (o : OpsRI) :
    argsFit (writeRI 15 9 7 op o).1.widths (writeRI 15 9 7 op o).2 := by
  rcases o with ⟨_ | g, d, s, i⟩ | ⟨d, i⟩
  all_goals simp only [writeRI, row32, Row.widths, h, guardArgs, List.cons_append, List.nil_append, List.append_nil]
  all_goals
    repeat' first | exact argsFit_nil | exact argsFit_guard _ | apply argsFit_cons (Fin.isLt _) | apply argsFit_cons (fieldOf_lt _ _)

theorem fit_RIUnsigned (op : Op) (h : op.shape = .riU) (o : OpsRI) :
    argsFit (writeRI 15 9 7 op o).1.widths (writeRI 15 9 7 op o).2 := by
  rcases o with ⟨_ | g, d, s, i⟩ | ⟨d, i⟩
  all_goals simp only [writeRI, row32, Row.widths, h, guardArgs, List.cons_append, List.nil_append, List.append_nil]
  all_goals
    repeat' first | exact argsFit_nil | exact argsFit_guard _ | apply argsFit_cons (Fin.isLt _) | apply argsFit_cons (fieldOf_lt _ _)

theorem fit_RIShift (op : Op) (h : op.shape = .riShift) (o : OpsRI) :
    argsFit (writeRI 6 6 6 op o).1.widths (writeRI 6 6 6 op o).2 := by
  rcases o with ⟨_ | g, d, s, i⟩ | ⟨d, i⟩
  all_goals simp only [writeRI, row32, Row.widths, h, guardArgs, List.cons_append, List.nil_append, List.append_nil]
  all_goals
    repeat' first | exact argsFit_nil | exact argsFit_guard _ | apply argsFit_cons (Fin.isLt _) | apply argsFit_cons (fieldOf_lt _ _)

theorem fit_RI5 (op : Op) (h : op.shape = .ri5) (o : OpsRI) :
    argsFit (writeRI 5 5 5 op o).1.widths (writeRI 5 5 5 op o).2 := by
  rcases o with ⟨_ | g, d, s, i⟩ | ⟨d, i⟩
  all_goals simp only [writeRI, row32, Row.widths, h, guardArgs, List.cons_append, List.nil_append, List.append_nil]
  all_goals
    repeat' first | exact argsFit_nil | exact argsFit_guard _ | apply argsFit_cons (Fin.isLt _) | apply argsFit_cons (fieldOf_lt _ _)

theorem fit_RRIOff (op : Op) (h : op.shape = .rriOff) (o : OpsRRI) :
    argsFit (writeRRI 15 9 4 op o).1.widths (writeRRI 15 9 4 op o).2 := by
  rcases o with ⟨_ | g, a, b, i⟩ | ⟨a, b, i⟩
  all_goals simp only [writeRRI, row32, Row.widths, h, guardArgs, List.cons_append, List.nil_append, List.append_nil]
  all_goals
    repeat' first | exact argsFit_nil | exact argsFit_guard _ | apply argsFit_cons (Fin.isLt _) | apply argsFit_cons (fieldOf_lt _ _)

theorem fit_R2 (op : Op) (h : op.shape = .r2) (o : OpsR2) :
    argsFit (writeR2 op o).1.widths (writeR2 op o).2 := by
  rcases o with ⟨_ | g, d, s⟩ | ⟨d, s⟩
  all_goals simp only [writeR2, row32, Row.widths, h, guardArgs, List.cons_append, List.nil_append, List.append_nil]
  all_goals
    repeat' first | exact argsFit_nil | exact argsFit_guard _ | apply argsFit_cons (Fin.isLt _) | apply argsFit_cons (fieldOf_lt _ _)

theorem fit_R1 (op : Op) (h : op.shape = .r1) (o : OpsR1) :
    argsFit (writeR1 op o).1.widths (writeR1 op o).2 := by
  rcases o with ⟨_ | g, d⟩ | ⟨d⟩
  all_goals simp only [writeR1, row32, Row.widths, h, guardArgs, List.cons_append, List.nil_append, List.append_nil]
  all_goals
    repeat' first | exact argsFit_nil | exact argsFit_guard _ | apply argsFit_cons (Fin.isLt _) | apply argsFit_cons (fieldOf_lt _ _)

theorem fit_RRI (n : Nat) (op : Op) (h : op.shape = .rri n) (o : OpsRRI) :
    argsFit (writeRRI n n n op o).1.widths (writeRRI n n n op o).2 := by
  rcases o with ⟨_ | g, a, b, i⟩ | ⟨a, b, i⟩
  all_goals simp only [writeRRI, Row.widths, h, guardArgs, List.cons_append, List.nil_append]
  all_goals
    repeat' first | exact argsFit_nil | exact argsFit_guard _ | apply argsFit_cons (Fin.isLt _) | apply argsFit_cons (fieldOf_lt _ _)

theorem fit_R1u (op : Op) (h : op.shape = .r1u) (o : OpsR1u) :
    argsFit (writeR1u op o).1.widths (writeR1u op o).2 := by
  rcases o with ⟨d⟩ | ⟨d⟩
  all_goals simp only [writeR1u, row32, Row.widths, h, guardArgs, List.cons_append, List.nil_append, List.append_nil]
  all_goals
    repeat' first | exact argsFit_nil | exact argsFit_guard _ | apply argsFit_cons (Fin.isLt _) | apply argsFit_cons (fieldOf_lt _ _)

theorem fit_Br (op : Op) (h : op.shape = .br) (o : OpsBr) :
    argsFit (writeBr op o).1.widths (writeBr op o).2 := by
  rcases o with ⟨c, i⟩ | ⟨i⟩
  all_goals simp only [writeBr, row32, Row.widths, h, guardArgs, List.cons_append, List.nil_append, List.append_nil]
  all_goals
    repeat' first | exact argsFit_nil | exact argsFit_guard _ | apply argsFit_cons (Fin.isLt _) | apply argsFit_cons (fieldOf_lt _ _)

theorem fit_J (op : Op) (h : op.shape = .j) (o : OpsJ) :
    argsFit (writeJ op o).1.widths (writeJ op o).2 := by
  rcases o with ⟨i⟩ | ⟨i⟩
  all_goals simp only [writeJ, row32, Row.widths, h, guardArgs, List.cons_append, List.nil_append, List.append_nil]
  all_goals
    repeat' first | exact argsFit_nil | exact argsFit_guard _ | apply argsFit_cons (Fin.isLt _) | apply argsFit_cons (fieldOf_lt _ _)

theorem fit_G (op : Op) (h : op.shape = .g) (o : OpsG) :
    argsFit (writeG op o).1.widths (writeG op o).2 := by
  rcases o with ⟨_ | g⟩ | _
  all_goals simp only [writeG, row32, Row.widths, h, guardArgs, List.cons_append, List.nil_append, List.append_nil]
  all_goals
    repeat' first | exact argsFit_nil | exact argsFit_guard _ | apply argsFit_cons (Fin.isLt _) | apply argsFit_cons (fieldOf_lt _ _)

theorem fit_Cmp (o : OpsCmp) : argsFit (writeCmp o).1.widths (writeCmp o).2 := by
  rcases o with ⟨c, s, t⟩ | ⟨s, t⟩
  all_goals simp only [writeCmp, row32, Row.widths, Op.shape, guardArgs, List.cons_append, List.nil_append, List.append_nil]
  all_goals
    repeat' first | exact argsFit_nil | exact argsFit_guard _ | apply argsFit_cons (Fin.isLt _) | apply argsFit_cons (fieldOf_lt _ _)

theorem fit_Cmpi (o : OpsCmpi) : argsFit (writeCmpi o).1.widths (writeCmpi o).2 := by
  rcases o with ⟨c, s, i⟩ | ⟨s, i⟩
  all_goals simp only [writeCmpi, row32, Row.widths, Op.shape, guardArgs, List.cons_append, List.nil_append, List.append_nil]
  all_goals
    repeat' first | exact argsFit_nil | exact argsFit_guard _ | apply argsFit_cons (Fin.isLt _) | apply argsFit_cons (fieldOf_lt _ _)

theorem fit_CpFrom (o : OpsCp) : argsFit (writeCpFrom o).1.widths (writeCpFrom o).2 := by
  rcases o with ⟨_ | g, n, p, r⟩ | ⟨n, p, r⟩
  all_goals simp only [writeCpFrom, row32, Row.widths, Op.shape, guardArgs, List.cons_append, List.nil_append, List.append_nil]
  all_goals
    repeat' first | exact argsFit_nil | exact argsFit_guard _ | apply argsFit_cons (Fin.isLt _) | apply argsFit_cons (fieldOf_lt _ _)

theorem fit_CpTo (o : OpsCp) : argsFit (writeCpTo o).1.widths (writeCpTo o).2 := by
  rcases o with ⟨_ | g, n, p, r⟩ | ⟨n, p, r⟩
  all_goals simp only [writeCpTo, row32, Row.widths, Op.shape, guardArgs, List.cons_append, List.nil_append, List.append_nil]
  all_goals
    repeat' first | exact argsFit_nil | exact argsFit_guard _ | apply argsFit_cons (Fin.isLt _) | apply argsFit_cons (fieldOf_lt _ _)

/-! ### Coprocessor words -/

theorem ofNat_reg5 (x : BitVec 5) : BitVec.ofNat 5 (reg5 x.toNat).val = x := by
  apply BitVec.eq_of_toNat_eq
  simp [reg5, Fin.ofNat, Nat.mod_eq_of_lt x.isLt]

theorem ofNat_cop2 (x : BitVec 2) : BitVec.ofNat 2 (cop2 x.toNat).val = x := by
  apply BitVec.eq_of_toNat_eq
  simp [cop2, Fin.ofNat, Nat.mod_eq_of_lt x.isLt]

/-- The fields of a coprocessor word make the word. -/
theorem copWord_copFields {T : EncTable} {w : BitVec 32} (h : w.extractLsb' 26 6 = T.copOpcode) :
    copWord T (copFields w) (w.extractLsb' 0 6) = w := by
  simp only [copWord, copFields, ofNat_reg5, ofNat_cop2, ← h]
  refine BitVec.eq_of_getLsbD_eq fun i hi => ?_
  interval_cases i <;> simp only [BitVec.getLsbD_append, BitVec.getLsbD_extractLsb'] <;> simp

theorem copPayload_word {T : EncTable} {w : BitVec 32} (h : w.extractLsb' 26 6 = T.copOpcode) :
    T.copOpcode ++ BitVec.ofNat 2 (copFields w).n.val ++ w.extractLsb' 0 24 = w := by
  simp only [copFields, ofNat_cop2, ← h]
  refine BitVec.eq_of_getLsbD_eq fun i hi => ?_
  interval_cases i <;> simp only [BitVec.getLsbD_append, BitVec.getLsbD_extractLsb'] <;> simp

/-- A code that stands for a named operation is that operation's code. -/
theorem EncTable.milkCode_of_kind {T : EncTable} {c : BitVec 6} {m : MilkOp} (h : T.milkKind c = .op m) :
    T.milkCode m = c := by
  unfold EncTable.milkKind at h
  split at h
  · rename_i m' hf
    cases h
    simpa using List.find?_some hf
  · split at h <;> cases h

/-- An operand bit that has a place in the pattern stands in it. -/
theorem patCovers_mem {p : List PBit} {widths : List Nat} (h : patCovers p widths = true) {n k j : Nat}
    (hk : (n, k) ∈ widths.zipIdx) (hj : j < n) : PBit.arg k j ∈ p := by
  have := List.all_eq_true.mp (List.all_eq_true.mp h _ hk) _ (List.mem_range.mpr hj)
  exact List.count_pos_iff.mp (by rw [of_decide_eq_true this]; exact one_pos)

/-- A bit whose place the spec gives has no other among the bits of the parameter (30_encoding.md R149). -/
theorem not_mem_beside {given body : List PBit} {k j : Nat} (h : .arg k j ∈ given) :
    PBit.arg k j ∉ body.map (PBit.beside given) := by
  simp only [List.mem_map, not_exists, not_and, PBit.beside]
  intro b _ hb
  split at hb
  · cases hb
  · exact ‹b ∉ given› (hb ▸ h)

end Sys2Proof
end

