-- ==== Sys2Proof/Laws/PerInstr.lean ====
section
/-! SUPPORT. For every instruction of the core's own operations: its row is one of its mode, its operand values fit
the row's fields, and the row gives the instruction back from them. -/

set_option Elab.async false
set_option linter.unusedSimpArgs false

namespace Sys2Proof

/-- The rows of a mode. -/
def rowsOf : Mode → List Row
  | .m16 => rows16
  | .m32 => rows32

/-- The terms that are coprocessor words. -/
def Instr.isCop : Instr → Bool
  | .cop .. | .fadd _ | .fsub _ | .fmul _ | .fdiv _ | .fsqrt _ | .fabs _ | .fmov _ | .fneg _ | .fnop _ | .fcvts _
  | .fcvtw _ | .fcc .. => true
  | _ => false

theorem mem_row32 {op : Op} (h : op ∈ condOps) (g : Option Guard) : row32 op g ∈ rows32 := by
  cases g with
  | none =>
    refine List.mem_append_left _ (List.mem_map_of_mem (f := fun o => (⟨o, .u32⟩ : Row)) ?_)
    exact List.mem_append_left _ (List.mem_append_left _ h)
  | some g => exact List.mem_append_right _ (List.mem_map_of_mem (f := fun o => (⟨o, .c32⟩ : Row)) h)

theorem mem_u32 {op : Op} (h : op ∈ condOps ++ plainOps ++ only32Ops) : (⟨op, .u32⟩ : Row) ∈ rows32 :=
  List.mem_append_left _ (List.mem_map_of_mem (f := fun o => (⟨o, .u32⟩ : Row)) h)

theorem mem_w16 : ∀ op : Op, op ∈ condOps ++ plainOps → (⟨op, .w16⟩ : Row) ∈ rows16 := by
  intro op h
  cases op <;> revert h <;> decide

end Sys2Proof

namespace Sys2Proof.Laws.Encoded

/-- What is said of each instruction. -/
def Statement (i : Instr) : Prop :=
  i.inRange = true → i.isCop = false →
    i.rowArgs.1.build i.rowArgs.2 = some i ∧ argsFit i.rowArgs.1.widths i.rowArgs.2 ∧ i.rowArgs.1 ∈ rowsOf i.mode

theorem add (o : OpsRR) : Statement (.add o) := by
  intro h _
  refine ⟨?_, fit_RR .add rfl o, ?_⟩
  · have e := congrArg (Option.map Instr.add) (readRR_write .add o)
    rcases o with ⟨_ | g, _, _, _⟩ | ⟨_, _⟩ <;> exact e
  · rcases o with ⟨g, _, _, _⟩ | ⟨_, _⟩
    · exact mem_row32 (by decide) g
    · exact mem_w16 _ (by decide)
theorem addi (o : OpsRI) : Statement (.addi o) := by
  intro h _
  simp only [Instr.inRange] at h
  refine ⟨?_, fit_RISigned .addi rfl o, ?_⟩
  · have e := congrArg (Option.map Instr.addi) (readRISigned_write .addi o h)
    rcases o with ⟨_ | g, _, _, _⟩ | ⟨_, _⟩ <;> exact e
  · rcases o with ⟨_ | g, _, _, _⟩ | ⟨_, _⟩
    · exact mem_row32 (by decide) none
    · exact mem_row32 (by decide) (some g)
    · exact mem_w16 _ (by decide)
theorem addiu (o : OpsRI) : Statement (.addiu o) := by
  intro h _
  simp only [Instr.inRange] at h
  refine ⟨?_, fit_RIUnsigned .addiu rfl o, ?_⟩
  · have e := congrArg (Option.map Instr.addiu) (readRIUnsigned_write .addiu o h)
    rcases o with ⟨_ | g, _, _, _⟩ | ⟨_, _⟩ <;> exact e
  · rcases o with ⟨_ | g, _, _, _⟩ | ⟨_, _⟩
    · exact mem_row32 (by decide) none
    · exact mem_row32 (by decide) (some g)
    · exact mem_w16 _ (by decide)
theorem addu (o : OpsRR) : Statement (.addu o) := by
  intro h _
  refine ⟨?_, fit_RR .addu rfl o, ?_⟩
  · have e := congrArg (Option.map Instr.addu) (readRR_write .addu o)
    rcases o with ⟨_ | g, _, _, _⟩ | ⟨_, _⟩ <;> exact e
  · rcases o with ⟨g, _, _, _⟩ | ⟨_, _⟩
    · exact mem_row32 (by decide) g
    · exact mem_w16 _ (by decide)
theorem mulhi (o : OpsR1) : Statement (.mulhi o) := by
  intro h _
  refine ⟨?_, fit_R1 .mulhi rfl o, ?_⟩
  · have e := congrArg (Option.map Instr.mulhi) (readR1_write .mulhi o)
    rcases o with ⟨_ | g, _⟩ | ⟨_⟩ <;> exact e
  · rcases o with ⟨g, _⟩ | ⟨_⟩
    · exact mem_row32 (by decide) g
    · exact mem_w16 _ (by decide)
theorem muli (o : OpsRI) : Statement (.muli o) := by
  intro h _
  simp only [Instr.inRange] at h
  refine ⟨?_, fit_RISigned .muli rfl o, ?_⟩
  · have e := congrArg (Option.map Instr.muli) (readRISigned_write .muli o h)
    rcases o with ⟨_ | g, _, _, _⟩ | ⟨_, _⟩ <;> exact e
  · rcases o with ⟨_ | g, _, _, _⟩ | ⟨_, _⟩
    · exact mem_row32 (by decide) none
    · exact mem_row32 (by decide) (some g)
    · exact mem_w16 _ (by decide)
theorem muls (o : OpsRR) : Statement (.muls o) := by
  intro h _
  refine ⟨?_, fit_RR .muls rfl o, ?_⟩
  · have e := congrArg (Option.map Instr.muls) (readRR_write .muls o)
    rcases o with ⟨_ | g, _, _, _⟩ | ⟨_, _⟩ <;> exact e
  · rcases o with ⟨g, _, _, _⟩ | ⟨_, _⟩
    · exact mem_row32 (by decide) g
    · exact mem_w16 _ (by decide)
theorem muls16 (o : OpsRR) : Statement (.muls16 o) := by
  intro h _
  refine ⟨?_, fit_RR .muls16 rfl o, ?_⟩
  · have e := congrArg (Option.map Instr.muls16) (readRR_write .muls16 o)
    rcases o with ⟨_ | g, _, _, _⟩ | ⟨_, _⟩ <;> exact e
  · rcases o with ⟨g, _, _, _⟩ | ⟨_, _⟩
    · exact mem_row32 (by decide) g
    · exact mem_w16 _ (by decide)
theorem mulu (o : OpsRR) : Statement (.mulu o) := by
  intro h _
  refine ⟨?_, fit_RR .mulu rfl o, ?_⟩
  · have e := congrArg (Option.map Instr.mulu) (readRR_write .mulu o)
    rcases o with ⟨_ | g, _, _, _⟩ | ⟨_, _⟩ <;> exact e
  · rcases o with ⟨g, _, _, _⟩ | ⟨_, _⟩
    · exact mem_row32 (by decide) g
    · exact mem_w16 _ (by decide)
theorem mulu16 (o : OpsRR) : Statement (.mulu16 o) := by
  intro h _
  refine ⟨?_, fit_RR .mulu16 rfl o, ?_⟩
  · have e := congrArg (Option.map Instr.mulu16) (readRR_write .mulu16 o)
    rcases o with ⟨_ | g, _, _, _⟩ | ⟨_, _⟩ <;> exact e
  · rcases o with ⟨g, _, _, _⟩ | ⟨_, _⟩
    · exact mem_row32 (by decide) g
    · exact mem_w16 _ (by decide)
theorem mulus (o : OpsRR) : Statement (.mulus o) := by
  intro h _
  refine ⟨?_, fit_RR .mulus rfl o, ?_⟩
  · have e := congrArg (Option.map Instr.mulus) (readRR_write .mulus o)
    rcases o with ⟨_ | g, _, _, _⟩ | ⟨_, _⟩ <;> exact e
  · rcases o with ⟨g, _, _, _⟩ | ⟨_, _⟩
    · exact mem_row32 (by decide) g
    · exact mem_w16 _ (by decide)
theorem mulus16 (o : OpsRR) : Statement (.mulus16 o) := by
  intro h _
  refine ⟨?_, fit_RR .mulus16 rfl o, ?_⟩
  · have e := congrArg (Option.map Instr.mulus16) (readRR_write .mulus16 o)
    rcases o with ⟨_ | g, _, _, _⟩ | ⟨_, _⟩ <;> exact e
  · rcases o with ⟨g, _, _, _⟩ | ⟨_, _⟩
    · exact mem_row32 (by decide) g
    · exact mem_w16 _ (by decide)
theorem sub (o : OpsRR) : Statement (.sub o) := by
  intro h _
  refine ⟨?_, fit_RR .sub rfl o, ?_⟩
  · have e := congrArg (Option.map Instr.sub) (readRR_write .sub o)
    rcases o with ⟨_ | g, _, _, _⟩ | ⟨_, _⟩ <;> exact e
  · rcases o with ⟨g, _, _, _⟩ | ⟨_, _⟩
    · exact mem_row32 (by decide) g
    · exact mem_w16 _ (by decide)
theorem subu (o : OpsRR) : Statement (.subu o) := by
  intro h _
  refine ⟨?_, fit_RR .subu rfl o, ?_⟩
  · have e := congrArg (Option.map Instr.subu) (readRR_write .subu o)
    rcases o with ⟨_ | g, _, _, _⟩ | ⟨_, _⟩ <;> exact e
  · rcases o with ⟨g, _, _, _⟩ | ⟨_, _⟩
    · exact mem_row32 (by decide) g
    · exact mem_w16 _ (by decide)
theorem conb (o : OpsRR) : Statement (.conb o) := by
  intro h _
  refine ⟨?_, fit_RR .conb rfl o, ?_⟩
  · have e := congrArg (Option.map Instr.conb) (readRR_write .conb o)
    rcases o with ⟨_ | g, _, _, _⟩ | ⟨_, _⟩ <;> exact e
  · rcases o with ⟨g, _, _, _⟩ | ⟨_, _⟩
    · exact mem_row32 (by decide) g
    · exact mem_w16 _ (by decide)
theorem conh (o : OpsRR) : Statement (.conh o) := by
  intro h _
  refine ⟨?_, fit_RR .conh rfl o, ?_⟩
  · have e := congrArg (Option.map Instr.conh) (readRR_write .conh o)
    rcases o with ⟨_ | g, _, _, _⟩ | ⟨_, _⟩ <;> exact e
  · rcases o with ⟨g, _, _, _⟩ | ⟨_, _⟩
    · exact mem_row32 (by decide) g
    · exact mem_w16 _ (by decide)
theorem exb (o : OpsRRI) : Statement (.exb o) := by
  intro h _
  simp only [Instr.inRange] at h
  refine ⟨?_, fit_RRI 2 .exb rfl o, ?_⟩
  · have e := congrArg (Option.map Instr.exb) (readRRISel_write 2 3 (by decide) .exb o h)
    rcases o with ⟨_ | g, _, _, _⟩ | ⟨_, _, _⟩ <;> exact e
  · rcases o with ⟨_ | g, _, _, _⟩ | ⟨_, _, _⟩
    · exact mem_row32 (by decide) none
    · exact mem_row32 (by decide) (some g)
    · exact mem_w16 _ (by decide)
theorem exbf (o : OpsRR) : Statement (.exbf o) := by
  intro h _
  refine ⟨?_, fit_RR .exbf rfl o, ?_⟩
  · have e := congrArg (Option.map Instr.exbf) (readRR_write .exbf o)
    rcases o with ⟨_ | g, _, _, _⟩ | ⟨_, _⟩ <;> exact e
  · rcases o with ⟨g, _, _, _⟩ | ⟨_, _⟩
    · exact mem_row32 (by decide) g
    · exact mem_w16 _ (by decide)
theorem exbfi (dr sr : Fin 32) (len pos : Nat) : Statement (.exbfi dr sr len pos) := by
  intro h _
  simp only [Instr.inRange, Bool.and_eq_true, decide_eq_true_eq] at h
  refine ⟨?_, argsFit_cons dr.isLt (argsFit_cons sr.isLt (argsFit_cons (by omega) (argsFit_cons (by omega) argsFit_nil))), mem_u32 (by decide)⟩
  simp [Instr.rowArgs, Row.build, readExbfi, readLoadImm]
theorem exh (o : OpsRRI) : Statement (.exh o) := by
  intro h _
  simp only [Instr.inRange] at h
  refine ⟨?_, fit_RRI 1 .exh rfl o, ?_⟩
  · have e := congrArg (Option.map Instr.exh) (readRRISel_write 1 1 (by decide) .exh o h)
    rcases o with ⟨_ | g, _, _, _⟩ | ⟨_, _, _⟩ <;> exact e
  · rcases o with ⟨_ | g, _, _, _⟩ | ⟨_, _, _⟩
    · exact mem_row32 (by decide) none
    · exact mem_row32 (by decide) (some g)
    · exact mem_w16 _ (by decide)
theorem lli (dr : Fin 32) (imm : Nat) : Statement (.lli dr imm) := by
  intro h _
  simp only [Instr.inRange, decide_eq_true_eq] at h
  refine ⟨?_, argsFit_cons dr.isLt (argsFit_cons (by omega) argsFit_nil), mem_u32 (by decide)⟩
  simp [Instr.rowArgs, Row.build, readExbfi, readLoadImm]
theorem lui (dr : Fin 32) (imm : Nat) : Statement (.lui dr imm) := by
  intro h _
  simp only [Instr.inRange, decide_eq_true_eq] at h
  refine ⟨?_, argsFit_cons dr.isLt (argsFit_cons (by omega) argsFit_nil), mem_u32 (by decide)⟩
  simp [Instr.rowArgs, Row.build, readExbfi, readLoadImm]
theorem sext (o : OpsRR) : Statement (.sext o) := by
  intro h _
  refine ⟨?_, fit_RR .sext rfl o, ?_⟩
  · have e := congrArg (Option.map Instr.sext) (readRR_write .sext o)
    rcases o with ⟨_ | g, _, _, _⟩ | ⟨_, _⟩ <;> exact e
  · rcases o with ⟨g, _, _, _⟩ | ⟨_, _⟩
    · exact mem_row32 (by decide) g
    · exact mem_w16 _ (by decide)
theorem sexti (o : OpsRI) : Statement (.sexti o) := by
  intro h _
  simp only [Instr.inRange] at h
  refine ⟨?_, fit_RI5 .sexti rfl o, ?_⟩
  · have e := congrArg (Option.map Instr.sexti) (readRI5_write .sexti o h)
    rcases o with ⟨_ | g, _, _, _⟩ | ⟨_, _⟩ <;> exact e
  · rcases o with ⟨_ | g, _, _, _⟩ | ⟨_, _⟩
    · exact mem_row32 (by decide) none
    · exact mem_row32 (by decide) (some g)
    · exact mem_w16 _ (by decide)
theorem and (o : OpsRR) : Statement (.and o) := by
  intro h _
  refine ⟨?_, fit_RR .and rfl o, ?_⟩
  · have e := congrArg (Option.map Instr.and) (readRR_write .and o)
    rcases o with ⟨_ | g, _, _, _⟩ | ⟨_, _⟩ <;> exact e
  · rcases o with ⟨g, _, _, _⟩ | ⟨_, _⟩
    · exact mem_row32 (by decide) g
    · exact mem_w16 _ (by decide)
theorem andi (o : OpsRI) : Statement (.andi o) := by
  intro h _
  simp only [Instr.inRange] at h
  refine ⟨?_, fit_RIUnsigned .andi rfl o, ?_⟩
  · have e := congrArg (Option.map Instr.andi) (readRIUnsigned_write .andi o h)
    rcases o with ⟨_ | g, _, _, _⟩ | ⟨_, _⟩ <;> exact e
  · rcases o with ⟨_ | g, _, _, _⟩ | ⟨_, _⟩
    · exact mem_row32 (by decide) none
    · exact mem_row32 (by decide) (some g)
    · exact mem_w16 _ (by decide)
theorem not (o : OpsR2) : Statement (.not o) := by
  intro h _
  refine ⟨?_, fit_R2 .not rfl o, ?_⟩
  · have e := congrArg (Option.map Instr.not) (readR2_write .not o)
    rcases o with ⟨_ | g, _, _⟩ | ⟨_, _⟩ <;> exact e
  · rcases o with ⟨g, _, _⟩ | ⟨_, _⟩
    · exact mem_row32 (by decide) g
    · exact mem_w16 _ (by decide)
theorem or (o : OpsRR) : Statement (.or o) := by
  intro h _
  refine ⟨?_, fit_RR .or rfl o, ?_⟩
  · have e := congrArg (Option.map Instr.or) (readRR_write .or o)
    rcases o with ⟨_ | g, _, _, _⟩ | ⟨_, _⟩ <;> exact e
  · rcases o with ⟨g, _, _, _⟩ | ⟨_, _⟩
    · exact mem_row32 (by decide) g
    · exact mem_w16 _ (by decide)
theorem ori (o : OpsRI) : Statement (.ori o) := by
  intro h _
  simp only [Instr.inRange] at h
  refine ⟨?_, fit_RIUnsigned .ori rfl o, ?_⟩
  · have e := congrArg (Option.map Instr.ori) (readRIUnsigned_write .ori o h)
    rcases o with ⟨_ | g, _, _, _⟩ | ⟨_, _⟩ <;> exact e
  · rcases o with ⟨_ | g, _, _, _⟩ | ⟨_, _⟩
    · exact mem_row32 (by decide) none
    · exact mem_row32 (by decide) (some g)
    · exact mem_w16 _ (by decide)
theorem xor (o : OpsRR) : Statement (.xor o) := by
  intro h _
  refine ⟨?_, fit_RR .xor rfl o, ?_⟩
  · have e := congrArg (Option.map Instr.xor) (readRR_write .xor o)
    rcases o with ⟨_ | g, _, _, _⟩ | ⟨_, _⟩ <;> exact e
  · rcases o with ⟨g, _, _, _⟩ | ⟨_, _⟩
    · exact mem_row32 (by decide) g
    · exact mem_w16 _ (by decide)
theorem bc (o : OpsBr) : Statement (.bc o) := by
  intro h _
  simp only [Instr.inRange] at h
  refine ⟨?_, fit_Br .bc rfl o, ?_⟩
  · have e := congrArg (Option.map Instr.bc) (readBr_write .bc o h)
    rcases o with ⟨_, _⟩ | ⟨_⟩ <;> exact e
  · cases o
    · exact mem_u32 (by decide)
    · exact mem_w16 _ (by decide)
theorem begt (o : OpsBr) : Statement (.begt o) := by
  intro h _
  simp only [Instr.inRange] at h
  refine ⟨?_, fit_Br .begt rfl o, ?_⟩
  · have e := congrArg (Option.map Instr.begt) (readBr_write .begt o h)
    rcases o with ⟨_, _⟩ | ⟨_⟩ <;> exact e
  · cases o
    · exact mem_u32 (by decide)
    · exact mem_w16 _ (by decide)
theorem belt (o : OpsBr) : Statement (.belt o) := by
  intro h _
  simp only [Instr.inRange] at h
  refine ⟨?_, fit_Br .belt rfl o, ?_⟩
  · have e := congrArg (Option.map Instr.belt) (readBr_write .belt o h)
    rcases o with ⟨_, _⟩ | ⟨_⟩ <;> exact e
  · cases o
    · exact mem_u32 (by decide)
    · exact mem_w16 _ (by decide)
theorem beq (o : OpsBr) : Statement (.beq o) := by
  intro h _
  simp only [Instr.inRange] at h
  refine ⟨?_, fit_Br .beq rfl o, ?_⟩
  · have e := congrArg (Option.map Instr.beq) (readBr_write .beq o h)
    rcases o with ⟨_, _⟩ | ⟨_⟩ <;> exact e
  · cases o
    · exact mem_u32 (by decide)
    · exact mem_w16 _ (by decide)
theorem bgt (o : OpsBr) : Statement (.bgt o) := by
  intro h _
  simp only [Instr.inRange] at h
  refine ⟨?_, fit_Br .bgt rfl o, ?_⟩
  · have e := congrArg (Option.map Instr.bgt) (readBr_write .bgt o h)
    rcases o with ⟨_, _⟩ | ⟨_⟩ <;> exact e
  · cases o
    · exact mem_u32 (by decide)
    · exact mem_w16 _ (by decide)
theorem blt (o : OpsBr) : Statement (.blt o) := by
  intro h _
  simp only [Instr.inRange] at h
  refine ⟨?_, fit_Br .blt rfl o, ?_⟩
  · have e := congrArg (Option.map Instr.blt) (readBr_write .blt o h)
    rcases o with ⟨_, _⟩ | ⟨_⟩ <;> exact e
  · cases o
    · exact mem_u32 (by decide)
    · exact mem_w16 _ (by decide)
theorem bne (o : OpsBr) : Statement (.bne o) := by
  intro h _
  simp only [Instr.inRange] at h
  refine ⟨?_, fit_Br .bne rfl o, ?_⟩
  · have e := congrArg (Option.map Instr.bne) (readBr_write .bne o h)
    rcases o with ⟨_, _⟩ | ⟨_⟩ <;> exact e
  · cases o
    · exact mem_u32 (by decide)
    · exact mem_w16 _ (by decide)
theorem bnc (o : OpsBr) : Statement (.bnc o) := by
  intro h _
  simp only [Instr.inRange] at h
  refine ⟨?_, fit_Br .bnc rfl o, ?_⟩
  · have e := congrArg (Option.map Instr.bnc) (readBr_write .bnc o h)
    rcases o with ⟨_, _⟩ | ⟨_⟩ <;> exact e
  · cases o
    · exact mem_u32 (by decide)
    · exact mem_w16 _ (by decide)
theorem jal (o : OpsJ) : Statement (.jal o) := by
  intro h _
  simp only [Instr.inRange] at h
  refine ⟨?_, fit_J .jal rfl o, ?_⟩
  · have e := congrArg (Option.map Instr.jal) (readJ_write .jal o h)
    rcases o with ⟨_⟩ | ⟨_⟩ <;> exact e
  · cases o
    · exact mem_u32 (by decide)
    · exact mem_w16 _ (by decide)
theorem jmp (o : OpsJ) : Statement (.jmp o) := by
  intro h _
  simp only [Instr.inRange] at h
  refine ⟨?_, fit_J .jmp rfl o, ?_⟩
  · have e := congrArg (Option.map Instr.jmp) (readJ_write .jmp o h)
    rcases o with ⟨_⟩ | ⟨_⟩ <;> exact e
  · cases o
    · exact mem_u32 (by decide)
    · exact mem_w16 _ (by decide)
theorem jalr (o : OpsR1) : Statement (.jalr o) := by
  intro h _
  refine ⟨?_, fit_R1 .jalr rfl o, ?_⟩
  · have e := congrArg (Option.map Instr.jalr) (readR1_write .jalr o)
    rcases o with ⟨_ | g, _⟩ | ⟨_⟩ <;> exact e
  · rcases o with ⟨g, _⟩ | ⟨_⟩
    · exact mem_row32 (by decide) g
    · exact mem_w16 _ (by decide)
theorem jmpr (o : OpsR1) : Statement (.jmpr o) := by
  intro h _
  refine ⟨?_, fit_R1 .jmpr rfl o, ?_⟩
  · have e := congrArg (Option.map Instr.jmpr) (readR1_write .jmpr o)
    rcases o with ⟨_ | g, _⟩ | ⟨_⟩ <;> exact e
  · rcases o with ⟨g, _⟩ | ⟨_⟩
    · exact mem_row32 (by decide) g
    · exact mem_w16 _ (by decide)
theorem cmp (o : OpsCmp) : Statement (.cmp o) := by
  intro h _
  refine ⟨?_, fit_Cmp o, ?_⟩
  · have e := congrArg (Option.map Instr.cmp) (readCmp_write o)
    rcases o with ⟨_, _, _⟩ | ⟨_, _⟩ <;> exact e
  · cases o
    · exact mem_u32 (by decide)
    · exact mem_w16 _ (by decide)
theorem cmpi (o : OpsCmpi) : Statement (.cmpi o) := by
  intro h _
  simp only [Instr.inRange] at h
  refine ⟨?_, fit_Cmpi o, ?_⟩
  · have e := congrArg (Option.map Instr.cmpi) (readCmpi_write o h)
    rcases o with ⟨_, _, _⟩ | ⟨_, _⟩ <;> exact e
  · cases o
    · exact mem_u32 (by decide)
    · exact mem_w16 _ (by decide)
theorem sll (o : OpsRR) : Statement (.sll o) := by
  intro h _
  refine ⟨?_, fit_RR .sll rfl o, ?_⟩
  · have e := congrArg (Option.map Instr.sll) (readRR_write .sll o)
    rcases o with ⟨_ | g, _, _, _⟩ | ⟨_, _⟩ <;> exact e
  · rcases o with ⟨g, _, _, _⟩ | ⟨_, _⟩
    · exact mem_row32 (by decide) g
    · exact mem_w16 _ (by decide)
theorem slli (o : OpsRI) : Statement (.slli o) := by
  intro h _
  simp only [Instr.inRange] at h
  refine ⟨?_, fit_RIShift .slli rfl o, ?_⟩
  · have e := congrArg (Option.map Instr.slli) (readRIShift_write .slli o h)
    rcases o with ⟨_ | g, _, _, _⟩ | ⟨_, _⟩ <;> exact e
  · rcases o with ⟨_ | g, _, _, _⟩ | ⟨_, _⟩
    · exact mem_row32 (by decide) none
    · exact mem_row32 (by decide) (some g)
    · exact mem_w16 _ (by decide)
theorem sra (o : OpsRR) : Statement (.sra o) := by
  intro h _
  refine ⟨?_, fit_RR .sra rfl o, ?_⟩
  · have e := congrArg (Option.map Instr.sra) (readRR_write .sra o)
    rcases o with ⟨_ | g, _, _, _⟩ | ⟨_, _⟩ <;> exact e
  · rcases o with ⟨g, _, _, _⟩ | ⟨_, _⟩
    · exact mem_row32 (by decide) g
    · exact mem_w16 _ (by decide)
theorem srai (o : OpsRI) : Statement (.srai o) := by
  intro h _
  simp only [Instr.inRange] at h
  refine ⟨?_, fit_RIShift .srai rfl o, ?_⟩
  · have e := congrArg (Option.map Instr.srai) (readRIShift_write .srai o h)
    rcases o with ⟨_ | g, _, _, _⟩ | ⟨_, _⟩ <;> exact e
  · rcases o with ⟨_ | g, _, _, _⟩ | ⟨_, _⟩
    · exact mem_row32 (by decide) none
    · exact mem_row32 (by decide) (some g)
    · exact mem_w16 _ (by decide)
theorem srl (o : OpsRR) : Statement (.srl o) := by
  intro h _
  refine ⟨?_, fit_RR .srl rfl o, ?_⟩
  · have e := congrArg (Option.map Instr.srl) (readRR_write .srl o)
    rcases o with ⟨_ | g, _, _, _⟩ | ⟨_, _⟩ <;> exact e
  · rcases o with ⟨g, _, _, _⟩ | ⟨_, _⟩
    · exact mem_row32 (by decide) g
    · exact mem_w16 _ (by decide)
theorem srli (o : OpsRI) : Statement (.srli o) := by
  intro h _
  simp only [Instr.inRange] at h
  refine ⟨?_, fit_RIShift .srli rfl o, ?_⟩
  · have e := congrArg (Option.map Instr.srli) (readRIShift_write .srli o h)
    rcases o with ⟨_ | g, _, _, _⟩ | ⟨_, _⟩ <;> exact e
  · rcases o with ⟨_ | g, _, _, _⟩ | ⟨_, _⟩
    · exact mem_row32 (by decide) none
    · exact mem_row32 (by decide) (some g)
    · exact mem_w16 _ (by decide)
theorem ld (o : OpsRRI) : Statement (.ld o) := by
  intro h _
  simp only [Instr.inRange] at h
  refine ⟨?_, fit_RRIOff .ld rfl o, ?_⟩
  · have e := congrArg (Option.map Instr.ld) (readRRIOff_write .ld o h)
    rcases o with ⟨_ | g, _, _, _⟩ | ⟨_, _, _⟩ <;> exact e
  · rcases o with ⟨_ | g, _, _, _⟩ | ⟨_, _, _⟩
    · exact mem_row32 (by decide) none
    · exact mem_row32 (by decide) (some g)
    · exact mem_w16 _ (by decide)
theorem mov (o : OpsR2) : Statement (.mov o) := by
  intro h _
  refine ⟨?_, fit_R2 .mov rfl o, ?_⟩
  · have e := congrArg (Option.map Instr.mov) (readR2_write .mov o)
    rcases o with ⟨_ | g, _, _⟩ | ⟨_, _⟩ <;> exact e
  · rcases o with ⟨g, _, _⟩ | ⟨_, _⟩
    · exact mem_row32 (by decide) g
    · exact mem_w16 _ (by decide)
theorem st (o : OpsRRI) : Statement (.st o) := by
  intro h _
  simp only [Instr.inRange] at h
  refine ⟨?_, fit_RRIOff .st rfl o, ?_⟩
  · have e := congrArg (Option.map Instr.st) (readRRIOff_write .st o h)
    rcases o with ⟨_ | g, _, _, _⟩ | ⟨_, _, _⟩ <;> exact e
  · rcases o with ⟨_ | g, _, _, _⟩ | ⟨_, _, _⟩
    · exact mem_row32 (by decide) none
    · exact mem_row32 (by decide) (some g)
    · exact mem_w16 _ (by decide)
theorem movfc (o : OpsCp) : Statement (.movfc o) := by
  intro h _
  refine ⟨?_, fit_CpFrom o, ?_⟩
  · have e := congrArg (Option.map Instr.movfc) (readCpFrom_write o)
    rcases o with ⟨_ | g, _, _, _⟩ | ⟨_, _, _⟩ <;> exact e
  · rcases o with ⟨g, _, _, _⟩ | ⟨_, _, _⟩
    · exact mem_row32 (by decide) g
    · exact mem_w16 _ (by decide)
theorem movtc (o : OpsCp) : Statement (.movtc o) := by
  intro h _
  refine ⟨?_, fit_CpTo o, ?_⟩
  · have e := congrArg (Option.map Instr.movtc) (readCpTo_write o)
    rcases o with ⟨_ | g, _, _, _⟩ | ⟨_, _, _⟩ <;> exact e
  · rcases o with ⟨g, _, _, _⟩ | ⟨_, _, _⟩
    · exact mem_row32 (by decide) g
    · exact mem_w16 _ (by decide)
theorem chrs (m : Mode) (imm : Nat) : Statement (.chrs m imm) := by
  intro h _
  simp only [Instr.inRange, decide_eq_true_eq] at h
  cases m
  · exact ⟨rfl, argsFit_cons (by omega) argsFit_nil, mem_w16 _ (by decide)⟩
  · exact ⟨rfl, argsFit_cons (by omega) argsFit_nil, mem_u32 (by decide)⟩
theorem di (m : Mode) : Statement (.di m) := by
  intro _ _
  cases m
  · exact ⟨rfl, argsFit_nil, mem_w16 _ (by decide)⟩
  · exact ⟨rfl, argsFit_nil, mem_u32 (by decide)⟩
theorem ei (m : Mode) : Statement (.ei m) := by
  intro _ _
  cases m
  · exact ⟨rfl, argsFit_nil, mem_w16 _ (by decide)⟩
  · exact ⟨rfl, argsFit_nil, mem_u32 (by decide)⟩
theorem nop (m : Mode) : Statement (.nop m) := by
  intro _ _
  cases m
  · exact ⟨rfl, argsFit_nil, mem_w16 _ (by decide)⟩
  · exact ⟨rfl, argsFit_nil, mem_u32 (by decide)⟩
theorem rcon (o : OpsR1u) : Statement (.rcon o) := by
  intro h _
  refine ⟨?_, fit_R1u .rcon rfl o, ?_⟩
  · have e := congrArg (Option.map Instr.rcon) (readR1u_write .rcon o)
    rcases o with ⟨_⟩ | ⟨_⟩ <;> exact e
  · cases o
    · exact mem_u32 (by decide)
    · exact mem_w16 _ (by decide)
theorem reti (m : Mode) : Statement (.reti m) := by
  intro _ _
  cases m
  · exact ⟨rfl, argsFit_nil, mem_w16 _ (by decide)⟩
  · exact ⟨rfl, argsFit_nil, mem_u32 (by decide)⟩
theorem retu (m : Mode) : Statement (.retu m) := by
  intro _ _
  cases m
  · exact ⟨rfl, argsFit_nil, mem_w16 _ (by decide)⟩
  · exact ⟨rfl, argsFit_nil, mem_u32 (by decide)⟩
theorem scall (o : OpsG) : Statement (.scall o) := by
  intro h _
  refine ⟨?_, fit_G .scall rfl o, ?_⟩
  · have e := congrArg (Option.map Instr.scall) (readG_write .scall o)
    rcases o with ⟨_ | g⟩ | _ <;> exact e
  · rcases o with ⟨g⟩ | _
    · exact mem_row32 (by decide) g
    · exact mem_w16 _ (by decide)
theorem scon (o : OpsR1u) : Statement (.scon o) := by
  intro h _
  refine ⟨?_, fit_R1u .scon rfl o, ?_⟩
  · have e := congrArg (Option.map Instr.scon) (readR1u_write .scon o)
    rcases o with ⟨_⟩ | ⟨_⟩ <;> exact e
  · cases o
    · exact mem_u32 (by decide)
    · exact mem_w16 _ (by decide)
theorem swm (m : Mode) (target : Mode) : Statement (.swm m target) := by
  intro _ _
  cases m <;> cases target
  · exact ⟨rfl, argsFit_cons (by decide) argsFit_nil, mem_w16 _ (by decide)⟩
  · exact ⟨rfl, argsFit_cons (by decide) argsFit_nil, mem_w16 _ (by decide)⟩
  · exact ⟨rfl, argsFit_cons (by decide) argsFit_nil, mem_u32 (by decide)⟩
  · exact ⟨rfl, argsFit_cons (by decide) argsFit_nil, mem_u32 (by decide)⟩
theorem trap (imm : Nat) : Statement (.trap imm) := by
  intro h _
  simp only [Instr.inRange, decide_eq_true_eq] at h
  refine ⟨?_, argsFit_cons (by omega) argsFit_nil, mem_u32 (by decide)⟩
  simp [Instr.rowArgs, Row.build, readExbfi, readLoadImm]
theorem cop (n : Fin 4) (payload : BitVec 24) : Statement (.cop n payload) := by
  intro _ h; cases h
theorem fadd (o : OpsF) : Statement (.fadd o) := by
  intro _ h; cases h
theorem fsub (o : OpsF) : Statement (.fsub o) := by
  intro _ h; cases h
theorem fmul (o : OpsF) : Statement (.fmul o) := by
  intro _ h; cases h
theorem fdiv (o : OpsF) : Statement (.fdiv o) := by
  intro _ h; cases h
theorem fsqrt (o : OpsF) : Statement (.fsqrt o) := by
  intro _ h; cases h
theorem fabs (o : OpsF) : Statement (.fabs o) := by
  intro _ h; cases h
theorem fmov (o : OpsF) : Statement (.fmov o) := by
  intro _ h; cases h
theorem fneg (o : OpsF) : Statement (.fneg o) := by
  intro _ h; cases h
theorem fnop (o : OpsF) : Statement (.fnop o) := by
  intro _ h; cases h
theorem fcvts (o : OpsF) : Statement (.fcvts o) := by
  intro _ h; cases h
theorem fcvtw (o : OpsF) : Statement (.fcvtw o) := by
  intro _ h; cases h
theorem fcc (code : BitVec 6) (o : OpsF) : Statement (.fcc code o) := by
  intro _ h; cases h

end Sys2Proof.Laws.Encoded
end

