-- ==== Sys2Proof/Certificates/Slice0/Obligations.lean ====
section
/-! DEFINITION. The statements for the provers. `Completes r P`: the step goes on, to a state with `P`. The effects
`RegResult`, `FlagResult`, `MulResult`, `Pending`, `Raised`, `MilkResult` (Sys2Proof/Safety.lean) say the result and
all that stays unchanged. -/

open Sys2Proof Sys2Proof.Machine

/-! ### Registers -/

/-- R36: what a source operand reads, by PSR.RSRD and the index. -/
def Obligations.RegisterReadFollowsSelectedSet : Prop :=
  ∀ (s : State) (i : Fin 32),
    (s.psr.rsrd = false → s.rd i = s.set1[i.val]) ∧
    (s.psr.rsrd = true →
      (∀ h : i.val < 29, s.rd i = s.pr[i.val]) ∧
      (i.val = 29 → (s.rd i).toNat = 16 * s.psr.ie.toNat + 8 * s.psr.il.toNat + 4 * s.psr.rswr.toNat +
        2 * s.psr.rsrd.toNat + s.psr.um.toNat) ∧
      (i.val = 30 → s.rd i = s.spsr) ∧ (i.val = 31 → s.rd i = s.pr31))

/-- R37: what a destination operand writes, by PSR.RSWR and the index; nothing but that register changes. -/
def Obligations.RegisterWriteFollowsSelectedSet : Prop :=
  ∀ (s : State) (i : Fin 32) (v : Word),
    s.Wrote (s.wr i v) i v ∧ (s.wr i v).cr = s.cr ∧ (s.wr i v).psr = s.psr ∧ (s.wr i v).pc = s.pc ∧
      (s.wr i v).ptarget = s.ptarget ∧ (s.wr i v).m64 = s.m64 ∧ s.SameUnits (s.wr i v) ∧ s.SameMem (s.wr i v)

/-! ### Integer arithmetic -/

/-- R301, R303, R309 to R312: `add` and `addi` without signed overflow, `addu` and `addiu` always. -/
def Obligations.AdditionWritesSumAndFlags : Prop :=
  ∀ (s : State) (a b : Word) (i : Instr) (g : Option Guard) (d : Fin 32),
    ((∃ o : OpsRR, (i = .add o ∨ i = .addu o) ∧ g = o.guard ∧ d = o.dest ∧ a = s.rd o.first ∧ b = s.rd o.second) ∨
     (∃ o : OpsRI, (i = .addi o ∨ i = .addiu o) ∧ g = o.guard ∧ d = o.dest ∧ a = s.rd o.src ∧
        b = BitVec.ofInt 32 o.imm)) →
    s.CanRun g →
    (((∃ o, i = .add o) ∨ (∃ o, i = .addi o)) → -2147483648 ≤ a.toInt + b.toInt ∧ a.toInt + b.toInt ≤ 2147483647) →
    Completes (exec i s) (s.FlagResult d (BitVec.ofNat 32 (a.toNat + b.toNat))
      { z := decide ((a.toNat + b.toNat) % 4294967296 = 0)
        n := decide (2147483648 ≤ (a.toNat + b.toNat) % 4294967296)
        c := decide (4294967296 ≤ a.toNat + b.toNat) })

/-- R302, R320, R321: `sub` without signed overflow, `subu` always. The carry is the adder's carry out of
`a + not b + 1`, or its complement, by the parameter SUB_CARRY. -/
def Obligations.SubtractionWritesDifferenceAndFlags : Prop :=
  ∀ (s : State) (o : OpsRR) (i : Instr), (i = .sub o ∨ i = .subu o) → s.CanRun o.guard →
    (i = .sub o → -2147483648 ≤ (s.rd o.first).toInt - (s.rd o.second).toInt ∧
      (s.rd o.first).toInt - (s.rd o.second).toInt ≤ 2147483647) →
    Completes (exec i s) (s.FlagResult o.dest (BitVec.ofInt 32 ((s.rd o.first).toNat - (s.rd o.second).toNat))
      { z := decide (s.rd o.first = s.rd o.second)
        n := (BitVec.ofInt 32 ((s.rd o.first).toNat - (s.rd o.second).toNat)).getLsbD 31
        c := xor Config.subCarryIsBorrow
          (decide (4294967296 ≤ (s.rd o.first).toNat + (~~~ (s.rd o.second)).toNat + 1)) })

/-- R303, R607: `add`, `addi` and `sub` raise exception 6 on signed overflow, write no register and no flag. The PSR 0EH of
`Raised` is the spec's decision D15 (R611, log 33). -/
def Obligations.SignedOverflowRaisesSix : Prop :=
  ∀ (s : State) (i : Instr) (g : Option Guard) (r : Int),
    ((∃ o : OpsRR, i = .add o ∧ g = o.guard ∧ r = (s.rd o.first).toInt + (s.rd o.second).toInt) ∨
     (∃ o : OpsRI, i = .addi o ∧ g = o.guard ∧ r = (s.rd o.src).toInt + (BitVec.ofInt 32 o.imm).toInt) ∨
     (∃ o : OpsRR, i = .sub o ∧ g = o.guard ∧ r = (s.rd o.first).toInt - (s.rd o.second).toInt)) →
    s.CanRun g → s.ptarget = none → (r < -2147483648 ∨ 2147483647 < r) →
    Completes (exec i s) (s.Raised 6#8)

/-- R305, R313 to R315, R317: the low word of the exact product to the destination, the product to M64. -/
def Obligations.MultiplicationWritesProduct : Prop :=
  ∀ s : State,
    (∀ o : OpsRI, s.CanRun o.guard → Completes (exec (.muli o) s) (s.MulResult o.dest ((s.rd o.src).toInt * o.imm))) ∧
    (∀ o : OpsRR, s.CanRun o.guard →
      Completes (exec (.muls o) s) (s.MulResult o.dest ((s.rd o.first).toInt * (s.rd o.second).toInt)) ∧
      Completes (exec (.mulu o) s) (s.MulResult o.dest (((s.rd o.first).toNat : Int) * (s.rd o.second).toNat)) ∧
      Completes (exec (.mulus o) s) (s.MulResult o.dest (((s.rd o.first).toNat : Int) * (s.rd o.second).toInt)))

/-- R316, R318, R319: the products of the low halfwords; the product register is left empty. -/
def Obligations.HalfwordMultiplicationWritesProduct : Prop :=
  ∀ (s : State) (o : OpsRR), s.CanRun o.guard →
    Completes (exec (.muls16 o) s) (s.RegResult o.dest (BitVec.ofInt 32
      (((s.rd o.first).extractLsb' 0 16).toInt * ((s.rd o.second).extractLsb' 0 16).toInt))) ∧
    Completes (exec (.mulu16 o) s) (s.RegResult o.dest (BitVec.ofInt 32
      (((s.rd o.first).toNat % 65536 : Nat) * ((s.rd o.second).toNat % 65536 : Nat) : Int))) ∧
    Completes (exec (.mulus16 o) s) (s.RegResult o.dest (BitVec.ofInt 32
      (((s.rd o.first).toNat % 65536 : Nat) * ((s.rd o.second).extractLsb' 0 16).toInt)))

/-- R305, R308: a `mulhi` that is the next instruction after a 32-bit multiplication writes the upper word of its
exact product; with the product `p` in M64 it completes and writes the upper word of `p`. With no product in M64 it is
refused (the spec's decision D11, U2; the name of the refusal is log 15). -/
def Obligations.MulhiAfterMultiplication : Prop :=
  (∀ (s t : State) (i : Instr) (p : Int) (r : OpsR1),
    ((∃ o, i = .muli o ∧ s.CanRun o.guard ∧ p = (s.rd o.src).toInt * o.imm) ∨
     (∃ o, i = .muls o ∧ s.CanRun o.guard ∧ p = (s.rd o.first).toInt * (s.rd o.second).toInt) ∨
     (∃ o, i = .mulu o ∧ s.CanRun o.guard ∧ p = ((s.rd o.first).toNat : Int) * (s.rd o.second).toNat) ∨
     (∃ o, i = .mulus o ∧ s.CanRun o.guard ∧ p = ((s.rd o.first).toNat : Int) * (s.rd o.second).toInt)) →
    exec i s = .next t → t.CanRun r.guard →
    Completes (exec (.mulhi r) t) (t.RegResult r.reg (BitVec.ofInt 32 (p / 4294967296)))) ∧
  (∀ (s : State) (p : BitVec 64) (r : OpsR1), s.m64 = some p → s.CanRun r.guard →
    Completes (exec (.mulhi r) s) (s.RegResult r.reg (BitVec.ofNat 32 (p.toNat / 4294967296)))) ∧
  (∀ (s : State) (r : OpsR1), s.m64 = none → s.CanRun r.guard →
    exec (.mulhi r) s = .refused .noProduct)

/-- R86: only the four 32-bit multiplications leave a product in M64. -/
def Obligations.ProductLastsOneInstruction : Prop :=
  ∀ (i : Instr) (s t : State), exec i s = .next t → t.m64 ≠ none →
    (∃ o, i = .muli o) ∨ (∃ o, i = .muls o) ∨ (∃ o, i = .mulu o) ∨ (∃ o, i = .mulus o)

/-! ### Bytes, bit fields, constants -/

/-- R340, R341: the low bytes, or halfwords, of the two sources concatenated. -/
def Obligations.ConcatenationResults : Prop :=
  ∀ (s : State) (o : OpsRR), s.CanRun o.guard →
    Completes (exec (.conb o) s) (s.RegResult o.dest
      (BitVec.ofNat 32 (256 * ((s.rd o.first).toNat % 256) + (s.rd o.second).toNat % 256))) ∧
    Completes (exec (.conh o) s) (s.RegResult o.dest
      (BitVec.ofNat 32 (65536 * ((s.rd o.conhFirst).toNat % 65536) + (s.rd o.conhSecond).toNat % 65536)))

/-- R343, R344, R345, R346, R351: byte, halfword and bit field extraction; of an empty field (the spec's decision D10, log
13) or one that leaves the word (U4, log 13) only that some value is written is said. -/
def Obligations.ExtractionResults : Prop :=
  ∀ s : State,
    (∀ o : OpsRRI, s.CanRun o.guard → 0 ≤ o.imm → o.imm ≤ 3 → Completes (exec (.exb o) s)
      (s.RegResult o.regA (BitVec.ofNat 32 ((s.rd o.regB).toNat / 2 ^ (8 * o.imm.toNat) % 256)))) ∧
    (∀ o : OpsRRI, s.CanRun o.guard → 0 ≤ o.imm → o.imm ≤ 1 → Completes (exec (.exh o) s)
      (s.RegResult o.regA (BitVec.ofNat 32 ((s.rd o.regB).toNat / 2 ^ (16 * o.imm.toNat) % 65536)))) ∧
    (∀ (o : OpsRR) (l p : Nat), s.CanRun o.guard → l = (s.rd o.second).toNat / 32 % 64 →
      p = (s.rd o.second).toNat % 32 → Completes (exec (.exbf o) s) (fun t => ∃ v, s.RegResult o.dest v t ∧
        (1 ≤ l → p + l ≤ 32 → v = BitVec.ofNat 32 ((s.rd o.first).toNat / 2 ^ p % 2 ^ l)))) ∧
    (∀ (d r : Fin 32) (l p : Nat), s.psr.il = true → l ≤ 32 → p ≤ 31 →
      Completes (exec (.exbfi d r l p) s) (fun t => ∃ v, s.RegResult d v t ∧
        (1 ≤ l → p + l ≤ 32 → v = BitVec.ofNat 32 ((s.rd r).toNat / 2 ^ p % 2 ^ l))))

/-- R347, R348, R462: `lli` clears the upper halfword, `lui` keeps the lower one, `mov` copies. That `lui` keeps the
halfword of the destination as read, where RSRD and RSWR select different sets, is the sentence R348 marks as derived. -/
def Obligations.ConstantAndMoveResults : Prop :=
  ∀ s : State,
    (∀ (d : Fin 32) (imm : Nat), s.psr.il = true → imm < 65536 →
      Completes (exec (.lli d imm) s) (s.RegResult d (BitVec.ofNat 32 imm)) ∧
      Completes (exec (.lui d imm) s) (s.RegResult d (BitVec.ofNat 32 (65536 * imm + (s.rd d).toNat % 65536)))) ∧
    (∀ o : OpsR2, s.CanRun o.guard → Completes (exec (.mov o) s) (s.RegResult o.dest (s.rd o.src)))

/-- R349, R350, R352: bits up to the position P are copied, bits above it are copies of bit P. -/
def Obligations.SignExtensionResults : Prop :=
  ∀ s : State,
    (∀ o : OpsRR, s.CanRun o.guard → Completes (exec (.sext o) s) (fun t => ∃ v, s.RegResult o.dest v t ∧
      ∀ j < 32, v.getLsbD j = (s.rd o.first).getLsbD (min j ((s.rd o.second).toNat % 32)))) ∧
    (∀ o : OpsRI, s.CanRun o.guard → 0 ≤ o.imm → o.imm ≤ 31 →
      Completes (exec (.sexti o) s) (fun t => ∃ v, s.RegResult o.dest v t ∧
        ∀ j < 32, v.getLsbD j = (s.rd o.src).getLsbD (min j o.imm.toNat)))

/-! ### Boolean operations -/

/-- R370 to R376: the result bit by bit; no flag changes. `zext_32(imm)` is the word of the immediate's value. -/
def Obligations.BooleanResults : Prop :=
  ∀ s : State,
    (∀ o : OpsRR, s.CanRun o.guard →
      Completes (exec (.and o) s) (fun t => ∃ v, s.RegResult o.dest v t ∧
        ∀ j < 32, v.getLsbD j = ((s.rd o.first).getLsbD j && (s.rd o.second).getLsbD j)) ∧
      Completes (exec (.or o) s) (fun t => ∃ v, s.RegResult o.dest v t ∧
        ∀ j < 32, v.getLsbD j = ((s.rd o.first).getLsbD j || (s.rd o.second).getLsbD j)) ∧
      Completes (exec (.xor o) s) (fun t => ∃ v, s.RegResult o.dest v t ∧
        ∀ j < 32, v.getLsbD j = xor ((s.rd o.first).getLsbD j) ((s.rd o.second).getLsbD j))) ∧
    (∀ o : OpsRI, s.CanRun o.guard → 0 ≤ o.imm → o.imm ≤ 32767 →
      Completes (exec (.andi o) s) (fun t => ∃ v, s.RegResult o.dest v t ∧
        ∀ j < 32, v.getLsbD j = ((s.rd o.src).getLsbD j && o.imm.toNat.testBit j)) ∧
      Completes (exec (.ori o) s) (fun t => ∃ v, s.RegResult o.dest v t ∧
        ∀ j < 32, v.getLsbD j = ((s.rd o.src).getLsbD j || o.imm.toNat.testBit j))) ∧
    (∀ o : OpsR2, s.CanRun o.guard → Completes (exec (.not o) s) (fun t => ∃ v, s.RegResult o.dest v t ∧
        ∀ j < 32, v.getLsbD j = !(s.rd o.src).getLsbD j))

/-! ### Shifts -/

/-- R440, R441, R444, R445: left shifts by 0 to 32, the flags to C0; the carry is bit 32 of the unbounded shifted
value, and open for a shift by 0. -/
def Obligations.LeftShiftResults : Prop :=
  ∀ (s : State) (i : Instr) (g : Option Guard) (d : Fin 32) (a : Word) (p : Nat),
    ((∃ o : OpsRR, i = .sll o ∧ g = o.guard ∧ d = o.dest ∧ a = s.rd o.first ∧
        p = min ((s.rd o.second).toNat % 64) 32) ∨
     (∃ o : OpsRI, i = .slli o ∧ g = o.guard ∧ d = o.dest ∧ a = s.rd o.src ∧ 0 ≤ o.imm ∧ o.imm ≤ 32 ∧
        p = o.imm.toNat)) →
    s.CanRun g →
    Completes (exec i s) (fun t => ∃ c, (1 ≤ p → c = decide (a.toNat * 2 ^ p / 4294967296 % 2 = 1)) ∧
      s.FlagResult d (BitVec.ofNat 32 (a.toNat * 2 ^ p))
        { z := decide (a.toNat * 2 ^ p % 4294967296 = 0), n := decide (2147483648 ≤ a.toNat * 2 ^ p % 4294967296), c := c } t)

/-- R440, R446 to R449: right shifts by 0 to 32; no flag changes. -/
def Obligations.RightShiftResults : Prop :=
  ∀ s : State,
    (∀ (o : OpsRR) (p : Nat), s.CanRun o.guard → p = min ((s.rd o.second).toNat % 64) 32 →
      Completes (exec (.srl o) s) (s.RegResult o.dest (BitVec.ofNat 32 ((s.rd o.first).toNat / 2 ^ p))) ∧
      Completes (exec (.sra o) s) (s.RegResult o.dest (BitVec.ofInt 32 ((s.rd o.first).toInt / 2 ^ p)))) ∧
    (∀ (o : OpsRI) (p : Nat), s.CanRun o.guard → 0 ≤ o.imm → o.imm ≤ 32 → p = o.imm.toNat →
      Completes (exec (.srli o) s) (s.RegResult o.dest (BitVec.ofNat 32 ((s.rd o.src).toNat / 2 ^ p))) ∧
      Completes (exec (.srai o) s) (s.RegResult o.dest (BitVec.ofInt 32 ((s.rd o.src).toInt / 2 ^ p))))

/-! ### Compares and conditions -/

/-- R430 to R433: the named condition register (C0 in a 16-bit form) gets Z, N, C; nothing else changes. The carry follows
the parameter SUB_CARRY (R433, the spec's decision D8, log 11). -/
def Obligations.CompareWritesFlags : Prop :=
  ∀ (s : State) (i : Instr) (k : Fin 8) (a b : Word),
    ((∃ o : OpsCmp, i = .cmp o ∧ k = o.cr ∧ a = s.rd o.first ∧ b = s.rd o.second) ∨
     (∃ o : OpsCmpi, i = .cmpi o ∧ k = o.cr ∧ a = s.rd o.src ∧ b = BitVec.ofInt 32 o.imm)) →
    Completes (exec i s) (fun t =>
      t.cr[k.val] = { z := decide (a = b), n := decide (a.toInt < b.toInt)
                      c := xor Config.subCarryIsBorrow (decide (b.toNat ≤ a.toNat)) } ∧
      (∀ (j : Nat) (h : j < 8), j ≠ k.val → t.cr[j] = s.cr[j]) ∧ s.SameRegs t ∧ t.psr = s.psr ∧ t.m64 = none ∧
      s.SameUnits t ∧ s.SameMem t ∧ s.Advanced t)

/-- R28: the eight conditions on every flag triple, and that the prefix `(cond, creg)` asks for the condition on the
register it names; a prefix `lt` on Z = N = 1 is open (log 14), `blt` reads N. R401, R433: after a comparison of a with b
the conditions are the signed relations of a and b. -/
def Obligations.ConditionsExactAfterCompare : Prop :=
  (∀ f : Flags,
    (condHolds .c f = true ↔ f.c = true) ∧ (condHolds .nc f = true ↔ f.c = false) ∧
    (condHolds .eq f = true ↔ f.z = true) ∧ (condHolds .ne f = true ↔ f.z = false) ∧
    (condHolds .egt f = true ↔ f.z = true ∨ f.n = false) ∧ (condHolds .elt f = true ↔ f.z = true ∨ f.n = true) ∧
    (condHolds .gt f = true ↔ f.z = false ∧ f.n = false) ∧ (condHolds .lt f = true ↔ f.n = true)) ∧
  (∀ (s : State) (g : Guard), ¬(g.cond = .lt ∧ s.cr[g.cr.val].z = true ∧ s.cr[g.cr.val].n = true) →
    s.guardHolds (some g) = condHolds g.cond s.cr[g.cr.val]) ∧
  ∀ (a b : Word),
    (condHolds .eq (cmpFlags a b) = true ↔ a = b) ∧ (condHolds .ne (cmpFlags a b) = true ↔ a ≠ b) ∧
    (condHolds .lt (cmpFlags a b) = true ↔ a.toInt < b.toInt) ∧
    (condHolds .gt (cmpFlags a b) = true ↔ b.toInt < a.toInt) ∧
    (condHolds .elt (cmpFlags a b) = true ↔ a.toInt ≤ b.toInt) ∧
    (condHolds .egt (cmpFlags a b) = true ↔ b.toInt ≤ a.toInt) ∧
    ¬((cmpFlags a b).z = true ∧ (cmpFlags a b).n = true)

/-- R26: which instruction changes which condition register. -/
def Obligations.ConditionRegisterWriters : Prop :=
  ∀ (i : Instr) (s t : State) (k : Nat) (h : k < 8), exec i s = .next t → t.cr[k] ≠ s.cr[k] →
    (k = 0 ∧ ((∃ o, i = .add o) ∨ (∃ o, i = .addi o) ∨ (∃ o, i = .addiu o) ∨ (∃ o, i = .addu o) ∨
      (∃ o, i = .sub o) ∨ (∃ o, i = .subu o) ∨ (∃ o, i = .sll o) ∨ (∃ o, i = .slli o) ∨ (∃ m, i = .reti m))) ∨
    (∃ o, i = .cmp o ∧ k = o.cr.val) ∨ (∃ o, i = .cmpi o ∧ k = o.cr.val) ∨ (∃ o, i = .rcon o)

/-! ### Branches and jumps -/

/-- R391 to R399: a branch (all eight, by their condition) whose condition holds makes `pc + len + 2 * imm` the pending
target; one whose condition does not hold, and whose target would pass the checks, only advances the pc. The pc is then
`pc + len`, where that is an address (R23). -/
def Obligations.BranchResults : Prop :=
  ∀ (s : State) (k : Cond) (o : OpsBr), s.ptarget = none → s.GoodTarget (s.pc.toNat + s.len + 2 * o.imm) →
    (condHolds k s.cr[o.cr.val] = true →
      Completes (exec (branchOf k o) s) (fun t => s.Pending (s.pc.toNat + s.len + 2 * o.imm) t ∧ s.SameRegs t ∧
        (s.pc.toNat + s.len < 4294967296 → t.pc.toNat = s.pc.toNat + s.len))) ∧
    (condHolds k s.cr[o.cr.val] = false →
      Completes (exec (branchOf k o) s) (fun t => s.SameBut t ∧ s.Advanced t ∧
        (s.pc.toNat + s.len < 4294967296 → t.pc.toNat = s.pc.toNat + s.len)))

/-- R411 to R415: jumps make their target pending; `jal` and `jalr` write the link address `pc + 2 * len`, where it is
an address, to register 31 of the set selected for writing. -/
def Obligations.JumpResults : Prop :=
  ∀ s : State, s.ptarget = none →
    (∀ o : OpsJ, s.GoodTarget (s.pc.toNat + s.len + 2 * o.imm) →
      Completes (exec (.jmp o) s) (fun t => s.Pending (s.pc.toNat + s.len + 2 * o.imm) t ∧ s.SameRegs t) ∧
      Completes (exec (.jal o) s) (fun t => s.Pending (s.pc.toNat + s.len + 2 * o.imm) t ∧
        ∃ v, s.Wrote t 31 v ∧ (s.pc.toNat + 2 * s.len < 4294967296 → v.toNat = s.pc.toNat + 2 * s.len))) ∧
    (∀ o : OpsR1, s.CanRun o.guard → s.GoodTarget (s.rd o.reg).toNat →
      Completes (exec (.jmpr o) s) (fun t => s.Pending (s.rd o.reg).toNat t ∧ s.SameRegs t) ∧
      Completes (exec (.jalr o) s) (fun t => s.Pending (s.rd o.reg).toNat t ∧
        ∃ v, s.Wrote t 31 v ∧ (s.pc.toNat + 2 * s.len < 4294967296 → v.toNat = s.pc.toNat + 2 * s.len)))

/-- R391, R605: a taken transfer to a bad target raises 4 (PC-relative, outside the memory), else 3 (misaligned),
else 9 (user mode, protected), and writes no link. The order (R615) and the PSR 0EH of `Raised` (R611) are the spec's
decision D15 (log 33), the bounds 0 and FFFFFFFFH its decision D5 (log 49). -/
def Obligations.BadTargetRaisesException : Prop :=
  ∀ (s : State) (i : Instr) (pcrel : Bool) (a : Int), s.ptarget = none →
    ((∃ k o, i = branchOf k o ∧ condHolds k s.cr[o.cr.val] = true ∧ pcrel = true ∧
        a = s.pc.toNat + s.len + 2 * o.imm) ∨
     (∃ o, (i = .jmp o ∨ i = .jal o) ∧ pcrel = true ∧ a = s.pc.toNat + s.len + 2 * o.imm) ∨
     (∃ o, (i = .jmpr o ∨ i = .jalr o) ∧ s.CanRun o.guard ∧ pcrel = false ∧ a = (s.rd o.reg).toNat)) →
    (pcrel = true → (a < 0 ∨ 4294967295 < a) → Completes (exec i s) (s.Raised 4#8)) ∧
    (0 ≤ a → a ≤ 4294967295 → a % (s.len : Int) ≠ 0 → Completes (exec i s) (s.Raised 3#8)) ∧
    (0 ≤ a → a ≤ 4294967295 → a % (s.len : Int) = 0 → s.psr.um = true → s.iallowed a.toNat = false →
      Completes (exec i s) (s.Raised 9#8))

/-- R24: an instruction that is no control transfer, executed with a target pending, either stops or goes to the
target, and the target is no longer pending. -/
def Obligations.SlotInstructionGoesToTarget : Prop :=
  ∀ (i : Instr) (s t : State) (a : Word), s.ptarget = some a → exec i s = .next t → t.pc = a ∧ t.ptarget = none

/-! ### Load and store -/

/-- R104, R120, R461, R464: every load whose address passes the checks and has a meaning (R103, R113; the others are
refused, `UndefinedDataStops`) completes and writes its destination only, wherever the address leads (data memory, CCB,
external register block); from data memory at a multiple of 4 it gives the word of the four bytes there, most significant
first. The address is that of the meaning, `dataAddr`. That a load completes with an open value elsewhere is log 24 (reserved
offsets of the CCB), 27 (the external register block); the cells of the addresses that are no multiple of 4, under
DMEM_GRANULE = WORD, are log 9. -/
def Obligations.LoadResults : Prop :=
  ∀ (s : State) (o : OpsRRI), s.CanRun o.guard → s.GoodData (s.dataAddr o.regB o.imm) →
    s.AccessDefined (s.dataAddr o.regB o.imm) → Completes (exec (.ld o) s) (fun t => ∃ v, s.RegResult o.regA v t ∧
      ∀ a : Nat, s.dataAddr o.regB o.imm = a → a % 4 = 0 →
        (a < s.ccb.ccbBase.toNat ∨ s.ccb.ccbBase.toNat + 255 < a) →
        (a < s.ccb.ccbBase.toNat + 256 ∨ s.ccb.regspcEnd.toNat < a) →
        v = Memory.get s.mem a ++ Memory.get s.mem (a + 1) ++ Memory.get s.mem (a + 2) ++ Memory.get s.mem (a + 3))

/-- R105, R120, R463, R464: a store to data memory at a multiple of 4 replaces the four bytes there; every other byte,
every register and every unit stays. -/
def Obligations.StoreToDataMemory : Prop :=
  ∀ (s : State) (o : OpsRRI) (a : Nat), Memory.wf s.mem → s.CanRun o.guard → s.ccbMoved = none →
    s.dataAddr o.regB o.imm = a → s.GoodData a → a % 4 = 0 →
    (a < s.ccb.ccbBase.toNat ∨ s.ccb.ccbBase.toNat + 255 < a) →
    (a < s.ccb.ccbBase.toNat + 256 ∨ s.ccb.regspcEnd.toNat < a) →
    Completes (exec (.st o) s) (fun t =>
      (∀ j < 4, Memory.get t.mem (a + j) = (s.rd o.regA).extractLsb' (24 - 8 * j) 8) ∧
      (∀ k, k < a ∨ a + 4 ≤ k → Memory.get t.mem k = Memory.get s.mem k) ∧
      s.SameRegs t ∧ t.cr = s.cr ∧ t.psr = s.psr ∧ t.m64 = none ∧ s.SameUnits t ∧ s.Advanced t)

/-- R105, R128: a load after a store to the same address of data memory returns the stored word, at every address that
names a cell (one that is no multiple of 4 does so under DMEM_GRANULE = WORD only, log 9). -/
def Obligations.StoreThenLoadReturnsValue : Prop :=
  ∀ (s t : State) (o p : OpsRRI) (k : Nat), Memory.wf s.mem → s.CanRun o.guard → s.ccbMoved = none →
    s.GoodData (s.dataAddr o.regB o.imm) → s.region (BitVec.ofInt 32 (s.dataAddr o.regB o.imm)) = .cell k →
    exec (.st o) s = .next t → t.CanRun p.guard → t.dataAddr p.regB p.imm = s.dataAddr o.regB o.imm →
    Completes (exec (.ld p) t) (t.RegResult p.regA (s.rd o.regA))

/-- R464, R608: exception 8 for an address outside the memory, else 7 in user mode for a protected one; `ld` and `st`
then write nothing. R125: which addresses are permitted, the bounds being inside the area. The order and the PSR 0EH of
`Raised` are the spec's decision D15 (R611, R615, log 33), the bound FFFFFFFFH its decision D5 (log 49). -/
def Obligations.BadDataAddressRaisesException : Prop :=
  (∀ (s : State) (a : Nat), s.dallowed a = true ↔
    if s.ccb.memConf.getLsbD 1 = true then a < s.ccb.dmemBoundLo.toNat ∨ s.ccb.dmemBoundHi.toNat < a
    else s.ccb.dmemBoundLo.toNat ≤ a ∧ a ≤ s.ccb.dmemBoundHi.toNat) ∧
  ∀ (s : State) (o : OpsRRI) (i : Instr), (i = .ld o ∨ i = .st o) → s.CanRun o.guard → s.ptarget = none →
    ((s.dataAddr o.regB o.imm < 0 ∨ 4294967295 < s.dataAddr o.regB o.imm) → Completes (exec i s) (s.Raised 8#8)) ∧
    (0 ≤ s.dataAddr o.regB o.imm → s.dataAddr o.regB o.imm ≤ 4294967295 → s.psr.um = true →
      s.dallowed (s.dataAddr o.regB o.imm).toNat = false → Completes (exec i s) (s.Raised 7#8))

/-- R105, R111, R84: a store of `v` to the CCB at offset k, with no remap before it: a register of 32 bits takes `v`,
a narrower one its low bits; read-only registers and reserved offsets change nothing (the spec's decision D26, log 24);
the other registers stay. The timer counters take the value as plain storage (log 28); whether EXCEPTION_PSR takes it is
open (log 23). R113, R714: a store at offset 0 records the base it replaces for the next instruction, and no other
instruction leaves such a record (the field `ccbMoved` is the model's, log 26). -/
def Obligations.StoreToCcbRegister : Prop :=
  (∀ (i : Instr) (s t : State), exec i s = .next t → t.ccbMoved ≠ none →
    t.ccbMoved = some s.ccb.ccbBase ∧ ∃ o, i = .st o ∧ s.dataAddr o.regB o.imm = s.ccb.ccbBase.toNat) ∧
  ∀ (s : State) (o : OpsRRI) (k : Nat) (v : Word), s.CanRun o.guard → s.ccbMoved = none →
    s.dataAddr o.regB o.imm = s.ccb.ccbBase.toNat + k → k < 256 →
    s.GoodData (s.dataAddr o.regB o.imm) → v = s.rd o.regA → (k = 0 → v.toNat % 256 = 0) →
    Completes (exec (.st o) s) (fun t => s.SameRegs t ∧ t.cr = s.cr ∧ t.psr = s.psr ∧ s.SameMem t ∧ s.Advanced t ∧
      t.m64 = none ∧ t.imem = s.imem ∧ t.cops = s.cops ∧ t.requests = s.requests ∧
      t.ccbMoved = (if k = 0 then some s.ccb.ccbBase else none) ∧
      (k < 38 ∨ 40 < k ∨ s.hws ≠ [] → t.hwsIdle = s.hwsIdle) ∧
      (k = 0 → t.ccb.ccbBase = v) ∧ (k = 1 → t.ccb.regspcEnd = v) ∧
      (∀ (j : Nat) (h : j < 12), t.ccb.intVec[j] = if k = 2 + j then v else s.ccb.intVec[j]) ∧
      t.ccb.intModeIl = (if k = 14 then v.setWidth 12 else s.ccb.intModeIl) ∧
      t.ccb.intModeUm = (if k = 15 then v.setWidth 12 else s.ccb.intModeUm) ∧
      t.ccb.intMask = (if k = 16 then v.setWidth 12 else s.ccb.intMask) ∧
      t.ccb.intServ = s.ccb.intServ ∧ t.ccb.intPend = s.ccb.intPend ∧
      t.ccb.extIntPri = (if k = 19 then v else s.ccb.extIntPri) ∧
      t.ccb.copIntPri = (if k = 20 then v.setWidth 16 else s.ccb.copIntPri) ∧
      t.ccb.exceptionCs = s.ccb.exceptionCs ∧ t.ccb.exceptionPc = s.ccb.exceptionPc ∧
      (k ≠ 23 → t.ccb.exceptionPsr = s.ccb.exceptionPsr) ∧
      t.ccb.dmemBoundLo = (if k = 24 then v else s.ccb.dmemBoundLo) ∧
      t.ccb.dmemBoundHi = (if k = 25 then v else s.ccb.dmemBoundHi) ∧
      t.ccb.imemBoundLo = (if k = 26 then v else s.ccb.imemBoundLo) ∧
      t.ccb.imemBoundHi = (if k = 27 then v else s.ccb.imemBoundHi) ∧
      t.ccb.memConf = (if k = 28 then v.setWidth 2 else s.ccb.memConf) ∧
      t.ccb.systemAddr = (if k = 29 then v else s.ccb.systemAddr) ∧
      t.ccb.excepAddr = (if k = 30 then v else s.ccb.excepAddr) ∧
      t.ccb.busConf = (if k = 31 then v.setWidth 12 else s.ccb.busConf) ∧
      t.ccb.copConf = (if k = 32 then v.setWidth 28 else s.ccb.copConf) ∧
      t.ccb.tmr0Cnt = (if k = 33 then v else s.ccb.tmr0Cnt) ∧
      t.ccb.tmr0MaxCnt = (if k = 34 then v else s.ccb.tmr0MaxCnt) ∧
      t.ccb.tmr1Cnt = (if k = 35 then v else s.ccb.tmr1Cnt) ∧
      t.ccb.tmr1MaxCnt = (if k = 36 then v else s.ccb.tmr1MaxCnt) ∧
      t.ccb.tmrConf = (if k = 37 then v else s.ccb.tmrConf) ∧
      (k ≠ 0 → t.ccb.ccbBase = s.ccb.ccbBase) ∧ (k ≠ 1 → t.ccb.regspcEnd = s.ccb.regspcEnd) ∧
      (k < 38 ∨ 40 < k → t.hws = s.hws) ∧
      (∀ e rest, s.hws = e :: rest →
        (k = 38 → t.hws = { e with addr := v } :: rest) ∧
        (k = 39 → t.hws = { e with psr := v.setWidth 8 } :: rest) ∧
        (k = 40 → t.hws = { e with cr0 := { z := v.getLsbD 2, n := v.getLsbD 1, c := v.getLsbD 0 } } :: rest)))

/-- R110, R111: a load from the CCB reads the register at the offset, zero extended. -/
def Obligations.LoadFromCcbRegister : Prop :=
  ∀ (s : State) (o : OpsRRI) (k : Nat) (v : Word), s.CanRun o.guard → s.ccbMoved = none →
    s.dataAddr o.regB o.imm = s.ccb.ccbBase.toNat + k → k < 256 → s.GoodData (s.dataAddr o.regB o.imm) →
    ((k = 0 ∧ v = s.ccb.ccbBase) ∨ (k = 1 ∧ v = s.ccb.regspcEnd) ∨
     (∃ (j : Nat) (h : j < 12), k = 2 + j ∧ v = s.ccb.intVec[j]) ∨
     (k = 14 ∧ v.toNat = s.ccb.intModeIl.toNat) ∨ (k = 15 ∧ v.toNat = s.ccb.intModeUm.toNat) ∨
     (k = 16 ∧ v.toNat = s.ccb.intMask.toNat) ∨ (k = 17 ∧ v.toNat = s.ccb.intServ.toNat) ∨
     (k = 18 ∧ v.toNat = s.ccb.intPend.toNat) ∨ (k = 19 ∧ v = s.ccb.extIntPri) ∨
     (k = 20 ∧ v.toNat = s.ccb.copIntPri.toNat) ∨ (k = 21 ∧ v.toNat = s.ccb.exceptionCs.toNat) ∨
     (k = 22 ∧ v = s.ccb.exceptionPc) ∨ (k = 23 ∧ v.toNat = s.ccb.exceptionPsr.toNat) ∨
     (k = 24 ∧ v = s.ccb.dmemBoundLo) ∨ (k = 25 ∧ v = s.ccb.dmemBoundHi) ∨ (k = 26 ∧ v = s.ccb.imemBoundLo) ∨
     (k = 27 ∧ v = s.ccb.imemBoundHi) ∨ (k = 28 ∧ v.toNat = s.ccb.memConf.toNat) ∨
     (k = 29 ∧ v = s.ccb.systemAddr) ∨ (k = 30 ∧ v = s.ccb.excepAddr) ∨
     (k = 31 ∧ v.toNat = s.ccb.busConf.toNat) ∨ (k = 32 ∧ v.toNat = s.ccb.copConf.toNat) ∨
     (k = 34 ∧ v = s.ccb.tmr0MaxCnt) ∨ (k = 36 ∧ v = s.ccb.tmr1MaxCnt) ∨ (k = 37 ∧ v = s.ccb.tmrConf) ∨
     (∃ e rest, s.hws = e :: rest ∧ ((k = 38 ∧ v = e.addr) ∨ (k = 39 ∧ v.toNat = e.psr.toNat) ∨
       (k = 40 ∧ v.toNat = 4 * e.cr0.z.toNat + 2 * e.cr0.n.toNat + e.cr0.c.toNat)))) →
    Completes (exec (.ld o) s) (s.RegResult o.regA v)

/-- R101, R131: no instruction writes instruction memory (the spec's decision D2, log 5), and only `st` writes data
memory. -/
def Obligations.OnlyStoresWriteMemory : Prop :=
  ∀ (i : Instr) (s t : State), exec i s = .next t →
    t.imem = s.imem ∧ ((∀ o, i ≠ .st o) → ∀ k, Memory.get t.mem k = Memory.get s.mem k)

/-! ### Coprocessors -/

/-- R481, R482: `movfc` reads and `movtc` writes a general register of a Milk; with no register of a Milk named,
`movfc` writes an open value, and for an absent coprocessor `movtc` has no effect. -/
def Obligations.CoprocessorMoves : Prop :=
  ∀ (s : State) (o : OpsCp), s.CanRun o.guard →
    Completes (exec (.movfc o) s) (fun t => ∃ v, s.RegResult o.reg v t ∧
      ∀ (m : Milk) (h : o.cpr.val < 8), s.cops[o.cop.val] = .milk m → v = m.f[o.cpr.val]) ∧
    Completes (exec (.movtc o) s) (fun t => s.SameRegs t ∧ t.cr = s.cr ∧ t.psr = s.psr ∧ t.m64 = none ∧
      t.ccb = s.ccb ∧ t.hws = s.hws ∧ t.hwsIdle = s.hwsIdle ∧ t.imem = s.imem ∧ t.requests = s.requests ∧ s.SameMem t ∧
      s.Advanced t ∧
      (∀ (k : Nat) (h : k < 4), k ≠ o.cop.val → t.cops[k] = s.cops[k]) ∧
      (s.cops[o.cop.val] = .absent → t.cops[o.cop.val] = .absent) ∧
      (∀ (m : Milk) (h : o.cpr.val < 8), s.cops[o.cop.val] = .milk m →
        t.cops[o.cop.val] = .milk { m with f := m.f.set o.cpr.val (s.rd o.reg) }))

/-- R486, R490 to R493, R501: the Milk instructions with two operands. `sr1` and `sr2` are read from the Milk after
the word was written (log 36). What the operations give is said by `MilkRoundingIsExactOrNeighbour` and
`MilkInvalidOperationFlags`. -/
def Obligations.MilkTwoOperandResults : Prop :=
  ∀ (s : State) (o : OpsF) (c : BitVec 6), s.psr.il = true →
    Completes (exec (.fadd o) s) (s.MilkResult o.n (wordOf (.fadd o)) o.dr
      (fun m => fpAdd (s.freeCtr + 1) (m.reg o.sr1) (m.reg o.sr2))) ∧
    Completes (exec (.fsub o) s) (s.MilkResult o.n (wordOf (.fsub o)) o.dr
      (fun m => fpFsub (s.freeCtr + 1) (m.reg o.sr1) (m.reg o.sr2))) ∧
    Completes (exec (.fmul o) s) (s.MilkResult o.n (wordOf (.fmul o)) o.dr
      (fun m => fpMul (s.freeCtr + 1) (m.reg o.sr1) (m.reg o.sr2))) ∧
    Completes (exec (.fdiv o) s) (s.MilkResult o.n (wordOf (.fdiv o)) o.dr
      (fun m => fpFdiv (s.freeCtr + 1) (m.reg o.sr1) (m.reg o.sr2))) ∧
    Completes (exec (.fcc c o) s) (s.MilkResult o.n (wordOf (.fcc c o)) o.dr
      (fun m => fpCompare (s.freeCtr + 1) c (m.reg o.sr1) (m.reg o.sr2)))

/-- R486, R494 to R497, R499, R500: the Milk instructions with one operand; `fabs` clears bit 31, `fneg` inverts it, both
without a flag unless the operand is a NaN. `fnop` changes no general register and leaves FSR[6:0] zero, as R498 derives
from R486. -/
def Obligations.MilkOneOperandResults : Prop :=
  ∀ (s : State) (o : OpsF), s.psr.il = true →
    Completes (exec (.fsqrt o) s) (s.MilkResult o.n (wordOf (.fsqrt o)) o.dr
      (fun m => fpSqrt (s.freeCtr + 1) (m.reg o.sr1))) ∧
    Completes (exec (.fabs o) s) (s.MilkResult o.n (wordOf (.fabs o)) o.dr
      (fun m => fpAbs (s.freeCtr + 1) (m.reg o.sr1))) ∧
    Completes (exec (.fmov o) s) (s.MilkResult o.n (wordOf (.fmov o)) o.dr (fun m => { value := m.reg o.sr1, flags := 0#7 })) ∧
    Completes (exec (.fneg o) s) (s.MilkResult o.n (wordOf (.fneg o)) o.dr
      (fun m => fpNeg (s.freeCtr + 1) (m.reg o.sr1))) ∧
    Completes (exec (.fcvts o) s) (s.MilkResult o.n (wordOf (.fcvts o)) o.dr
      (fun m => fpFromInt (s.freeCtr + 1) (m.reg o.sr1))) ∧
    Completes (exec (.fcvtw o) s) (s.MilkResult o.n (wordOf (.fcvtw o)) o.dr
      (fun m => fpToInt (s.freeCtr + 1) (m.reg o.sr1))) ∧
    Completes (exec (.fnop o) s) (s.MilkResult o.n (wordOf (.fnop o)) 0
      (fun m => { value := m.f[0], flags := 0#7 })) ∧
    ∀ (n : Nat) (a : Word), (∀ x, fpVal a ≠ .nan x) →
      (fpAbs n a).flags = 0#7 ∧ (fpNeg n a).flags = 0#7 ∧ (fpAbs n a).value.getLsbD 31 = false ∧
      (fpNeg n a).value.getLsbD 31 = !a.getLsbD 31 ∧
      ∀ j < 31, (fpAbs n a).value.getLsbD j = a.getLsbD j ∧ (fpNeg n a).value.getLsbD j = a.getLsbD j

/-- R483: a forwarded word drives cop_rgi with COP_CONF.Cn_IR, reaches the control register of a Milk, and changes no
register, flag or memory of the core; a slot without a Milk is unchanged. -/
def Obligations.ForwardedWordLeavesCoreUnchanged : Prop :=
  ∀ (s : State) (n : Fin 4) (p : BitVec 24), s.psr.il = true →
    Completes (exec (.cop n p) s) (fun t => t.out = [.copRgi (s.ccb.copConf.extractLsb' (5 * n.val) 5)] ∧
      s.SameRegs t ∧ t.cr = s.cr ∧ t.psr = s.psr ∧ t.m64 = none ∧ t.ccb = s.ccb ∧ t.hws = s.hws ∧
      t.hwsIdle = s.hwsIdle ∧ t.imem = s.imem ∧ t.requests = s.requests ∧ s.SameMem t ∧ s.Advanced t ∧
      (∀ (k : Nat) (h : k < 4), k ≠ n.val → t.cops[k] = s.cops[k]) ∧
      (∀ m, s.cops[n.val] = .milk m → ∃ m', t.cops[n.val] = .milk m' ∧ m'.fcr = wordOf (.cop n p)) ∧
      ((∀ m, s.cops[n.val] ≠ .milk m) → t.cops[n.val] = s.cops[n.val]))

/-- R490, R492, R493, R494, R495, R497, R501: when a Milk instruction raises NV or DZ, and OF with NX for an infinite operand
(infinity times a finite number other than zero, infinity over zero); that a quiet NaN raises neither in
arithmetic is the model's choice (log 53). R486: no operation raises UI or DW, none OF or UF without NX. R501: how finite
numbers compare, and that the two codes of a pair, which differ in the top bit, give one value. -/
def Obligations.MilkInvalidOperationFlags : Prop :=
  ∀ (n : Nat) (a b : Word),
    ((fpAdd n a b).Described ∧ (fpFsub n a b).Described ∧ (fpMul n a b).Described ∧ (fpFdiv n a b).Described ∧
      (fpSqrt n a).Described ∧ (fpAbs n a).Described ∧ (fpNeg n a).Described ∧ (fpFromInt n a).Described ∧
      (fpToInt n a).Described) ∧
    (∀ c : BitVec 6, if fpRel a b = .unordered ∧ c.getLsbD 5 = true then (fpCompare n c a b).flags = 0x10#7
      else fpCompare n c a b = { value := Config.compareResult (c.extractLsb' 0 5) (fpRel a b), flags := 0#7 }) ∧
    (∀ x y, fpNumber a = some x → fpNumber b = some y →
      fpRel a b = if x < y then .less else if x = y then .equal else .greater) ∧
    ((fpVal a = .nan true ∨ fpVal b = .nan true) → (fpAdd n a b).flags = 0x10#7 ∧ (fpFsub n a b).flags = 0x10#7 ∧
      (fpMul n a b).flags = 0x10#7 ∧ (fpFdiv n a b).flags = 0x10#7) ∧
    (fpVal a = .nan true ∨ fpVal a = .inf true → (fpSqrt n a).flags = 0x10#7) ∧
    (∀ p q m e, m ≠ 0 → fpVal a = .inf p → fpVal b = .num q m e →
      (fpMul n a b).flags = 0x0A#7 ∧ (fpMul n b a).flags = 0x0A#7) ∧
    (∀ p q e, fpVal a = .inf p → fpVal b = .num q 0 e → (fpDiv n a b).flags = 0x0A#7) ∧
    (∀ p, fpVal a = .inf p → fpVal b = .inf (!p) → (fpAdd n a b).flags = 0x10#7 ∧ (fpFsub n a b).flags = 0x10#7) ∧
    (∀ p q e, fpVal a = .inf p → fpVal b = .num q 0 e → (fpMul n a b).flags = 0x10#7 ∧ (fpMul n b a).flags = 0x10#7) ∧
    (∀ p q, fpVal a = .inf p → fpVal b = .inf q → (fpDiv n a b).flags = 0x10#7) ∧
    (∀ p q e f, fpVal a = .num p 0 e → fpVal b = .num q 0 f → (fpDiv n a b).flags = 0x10#7) ∧
    (∀ p m q e f, m ≠ 0 → fpVal a = .num p m e → fpVal b = .num q 0 f → (fpDiv n a b).flags = 0x20#7) ∧
    (∀ m e, m ≠ 0 → fpVal a = .num true m e → (fpSqrt n a).flags = 0x10#7) ∧
    (∀ x, fpVal a = .nan x → (fpAbs n a).flags = 0x10#7 ∧ (fpNeg n a).flags = 0x10#7 ∧
      fpRel a b = .unordered ∧ fpRel b a = .unordered) ∧
    (fpVal a = .nan false → fpVal b ≠ .nan true → (fpAdd n a b).flags = 0#7 ∧ (fpMul n a b).flags = 0#7)

/-- R486, R499, R500: an integer of magnitude at most 2^24 is converted to single precision exactly and back again,
with no flag. The operand of `fcvt.s` is signed, as R499 derives (log 41). R500: what `fcvt.w` gives for integers, for
numbers with a fraction (either neighbour, NX or not), for subnormal ones, and that an argument too large in magnitude raises
NV, or OF with NX; the model's readings are log 41. -/
def Obligations.MilkSmallIntegersConvertExactly : Prop :=
  (∀ (n k : Nat) (i : Word), -16777216 ≤ i.toInt → i.toInt ≤ 16777216 →
    (fpFromInt n i).flags = 0#7 ∧ fpToInt k (fpFromInt n i).value = { value := i, flags := 0#7 }) ∧
  (∀ (n : Nat) (a : Word) (v : ℚ), fpNumber a = some v →
    (∀ i : Int, v = i → -2147483648 ≤ i → i ≤ 2147483647 →
      fpToInt n a = { value := BitVec.ofInt 32 i, flags := 0#7 }) ∧
    ((∀ i : Int, v ≠ i) → (2 : ℚ) ^ (-126 : ℤ) ≤ |v| →
      ((fpToInt n a).value = BitVec.ofInt 32 ⌊v⌋ ∨ (fpToInt n a).value = BitVec.ofInt 32 (⌊v⌋ + 1)) ∧
      ((fpToInt n a).flags = 0#7 ∨ (fpToInt n a).flags = 0x08#7)) ∧
    (v ≠ 0 → |v| < (2 : ℚ) ^ (-126 : ℤ) → fpToInt n a = { value := 0#32, flags := 0x08#7 }) ∧
    ((v ≤ -2147483649 ∨ 2147483647 < v) → (fpToInt n a).flags = 0x10#7 ∨ (fpToInt n a).flags = 0x0A#7)) ∧
  (∀ (n : Nat) (a : Word) (p : Bool), fpVal a = .inf p →
    (fpToInt n a).flags = 0x10#7 ∨ (fpToInt n a).flags = 0x0A#7)

/-- R486: what rounding may give for a positive magnitude `q * 2^x` below 2^128 and at least 2^-149: a finite number
of the same sign whose value is the exact one with no flag, or differs from it by less than one unit in the last
place, with NX. R490 to R494, R499: of finite operands `fadd`, `fsub`, `fmul`, `fdiv`, `fsqrt` and `fcvt.s` give a rounding
of the exact sum, difference, product, quotient, root and integer, overflow and underflow included. The free direction of
rounding is the spec's decision D22 (log 38), the layout of a word log 37, the operand orders of `fsub` and `fdiv` log 40. -/
def Obligations.MilkRoundingIsExactOrNeighbour : Prop :=
  (∀ (n : Nat) (a b : Word) (x y : ℚ), fpNumber a = some x → fpNumber b = some y →
    (fpAdd n a b).Rounds ((x + y : ℚ) : ℝ) ∧ (fpMul n a b).Rounds ((x * y : ℚ) : ℝ) ∧
    (fpFsub n a b).Rounds ((if Config.fsubSr2MinusSr1 then y - x else x - y : ℚ) : ℝ) ∧
    (Config.fdivSr2OverSr1 = true → x ≠ 0 → (fpFdiv n a b).Rounds ((y / x : ℚ) : ℝ)) ∧
    (Config.fdivSr2OverSr1 = false → y ≠ 0 → (fpFdiv n a b).Rounds ((x / y : ℚ) : ℝ)) ∧
    (a.getLsbD 31 = false → (fpSqrt n a).Rounds (Real.sqrt (x : ℝ)))) ∧
  (∀ (n : Nat) (i : Word), (fpFromInt n i).Rounds (i.toInt : ℝ)) ∧
  ∀ (n : Nat) (neg : Bool) (q : Nat) (x : Int), q ≠ 0 → -149 ≤ (Nat.log2 q : Int) + x → (Nat.log2 q : Int) + x ≤ 126 →
    ∃ m e, fpVal (fpRound n neg q x false).value = .num neg m e ∧
      (((m : ℚ) * 2 ^ e = q * 2 ^ x ∧ (fpRound n neg q x false).flags = 0#7) ∨
       ((m : ℚ) * 2 ^ e ≠ q * 2 ^ x ∧ |(m : ℚ) * 2 ^ e - q * 2 ^ x| < 2 ^ max ((Nat.log2 q : Int) + x - 23) (-149) ∧
        (fpRound n neg q x false).flags = 0x08#7))

/-! ### System instructions -/

/-- R521 to R523, R528: `chrs`, `di` and `ei` in super-user mode change only their PSR bits; `nop` changes nothing, and
with no target pending the pc is then `pc + len`, where that is an address (R23). -/
def Obligations.StatusInstructionResults : Prop :=
  ∀ (s : State) (m : Mode),
    (s.psr.um = false → ∀ imm, imm ≤ 3 → Completes (exec (.chrs m imm) s) (fun t =>
      t.psr = { s.psr with rsrd := decide (imm % 2 = 1), rswr := decide (2 ≤ imm) } ∧ s.SameRegs t ∧ t.cr = s.cr ∧
        t.m64 = none ∧ s.SameUnits t ∧ s.SameMem t ∧ s.Advanced t)) ∧
    (s.psr.um = false → Completes (exec (.di m) s) (fun t => t.psr = { s.psr with ie := false } ∧ s.SameRegs t ∧
        t.cr = s.cr ∧ t.m64 = none ∧ s.SameUnits t ∧ s.SameMem t ∧ s.Advanced t)) ∧
    (s.psr.um = false → Completes (exec (.ei m) s) (fun t => t.psr = { s.psr with ie := true } ∧ s.SameRegs t ∧
        t.cr = s.cr ∧ t.m64 = none ∧ s.SameUnits t ∧ s.SameMem t ∧ s.Advanced t)) ∧
    Completes (exec (.nop m) s) (fun t => s.SameBut t ∧ s.Advanced t ∧
      (s.ptarget = none → s.pc.toNat + s.len < 4294967296 → t.pc.toNat = s.pc.toNat + s.len))

/-- R532, R604: `chrs`, `di`, `ei` and `retu` raise exception 2 in user mode. The PSR 0EH of `Raised` is the spec's decision
D15 (R611, log 33). -/
def Obligations.SuperUserInstructionsTrapInUserMode : Prop :=
  ∀ (s : State) (i : Instr), s.psr.um = true → s.ptarget = none →
    ((∃ m k, i = .chrs m k) ∨ (∃ m, i = .di m) ∨ (∃ m, i = .ei m) ∨ (∃ m, i = .retu m)) →
    Completes (exec i s) (s.Raised 2#8)

/-- R157, R158, R604: an instruction of 32-bit mode only raises exception 2 in 16-bit mode (`trap` and the coprocessor words
by the spec's decision D29). The PSR 0EH of `Raised` is its decision D15 (R611, log 33). -/
def Obligations.ThirtyTwoBitInstructionsTrapInSixteenBitMode : Prop :=
  ∀ (s : State) (i : Instr), s.psr.il = false → s.ptarget = none → i.only32 = true → Completes (exec i s) (s.Raised 2#8)

/-- R529, R530: `scon` writes the eight flag triples with C[k] in bits 3k+2..3k and bits 31..24 zero; `rcon` restores
them. -/
def Obligations.ConditionRegistersSavedAndRestored : Prop :=
  ∀ (s : State) (o : OpsR1u),
    Completes (exec (.scon o) s) (fun t => ∃ v, s.RegResult o.reg v t ∧ v.toNat < 16777216 ∧
      ∀ (k : Nat) (h : k < 8), v.getLsbD (3 * k + 2) = s.cr[k].z ∧ v.getLsbD (3 * k + 1) = s.cr[k].n ∧
        v.getLsbD (3 * k) = s.cr[k].c) ∧
    Completes (exec (.rcon o) s) (fun t =>
      (∀ (k : Nat) (h : k < 8), t.cr[k] = { z := (s.rd o.reg).getLsbD (3 * k + 2)
                                            n := (s.rd o.reg).getLsbD (3 * k + 1)
                                            c := (s.rd o.reg).getLsbD (3 * k) }) ∧
      s.SameRegs t ∧ t.psr = s.psr ∧ t.m64 = none ∧ s.SameUnits t ∧ s.SameMem t ∧ s.Advanced t)

/-- R526: `scall`, followed by its `nop`: SPSR[7:0] is the old PSR, PR31 the address after the `nop`, the PSR 0EH, the
pc SYSTEM_ADDR. That the pair is one step is the spec's decision D21 (R533, log 18). -/
def Obligations.SystemCallEntersHandler : Prop :=
  ∀ (s : State) (o : OpsG), s.ptarget = none → s.CanRun o.guard → s.nopAt 1 = true →
    Completes (exec (.scall o) s) (fun t => t.spsr.extractLsb' 0 8 = s.psr.toBits ∧
      (s.pc.toNat + 2 * s.len < 4294967296 → t.pr31.toNat = s.pc.toNat + 2 * s.len) ∧
      t.psr = { ie := false, il := true, rswr := true, rsrd := true, um := false } ∧ t.pc = s.ccb.systemAddr ∧
      t.ptarget = none ∧ t.set1 = s.set1 ∧ t.pr = s.pr ∧ t.cr = s.cr ∧ t.m64 = none ∧ s.SameUnits t ∧ s.SameMem t)

/-- R525: `retu` in super-user mode, followed by a `nop`: IE and IL from SPSR bits 4 and 3, user mode on register set
1, the pc from PR31 (the reading of log 43; that the pair is one step is the spec's decision D21, log 18). -/
def Obligations.ReturnToUserRestoresStatus : Prop :=
  ∀ (s : State) (m : Mode), s.ptarget = none → s.psr.um = false → s.nopAt 1 = true →
    Completes (exec (.retu m) s) (fun t =>
      t.psr = { ie := s.spsr.getLsbD 4, il := s.spsr.getLsbD 3, rswr := false, rsrd := false, um := true } ∧
      t.pc = s.pr31 ∧ t.ptarget = none ∧ s.SameRegs t ∧ t.cr = s.cr ∧ t.m64 = none ∧ s.SameUnits t ∧ s.SameMem t)

/-- R524, R650: `reti`, followed by two `nop`s: the top entry of the hardware stack is popped into pc, PSR and C0, and
INT_SERV of its source is cleared; INT_DONE is pulsed. That the unit is one step is the spec's decision D21 (R533, log
18), that it runs in every mode its decision D23 (R532), the source kept in the entry log 31. -/
def Obligations.ReturnFromInterruptRestoresContext : Prop :=
  ∀ (s : State) (m : Mode) (e : HwsEntry) (rest : List HwsEntry), s.ptarget = none → s.nopAt 1 = true →
    s.nopAt 2 = true → s.hws = e :: rest →
    Completes (exec (.reti m) s) (fun t => t.pc = e.addr ∧
      t.psr = { ie := e.psr.getLsbD 4, il := e.psr.getLsbD 3, rswr := e.psr.getLsbD 2, rsrd := e.psr.getLsbD 1,
                um := e.psr.getLsbD 0 } ∧
      t.cr[0] = e.cr0 ∧ (∀ (k : Nat) (h : k < 8), k ≠ 0 → t.cr[k] = s.cr[k]) ∧ t.hws = rest ∧
      (∀ j < 12, t.ccb.intServ.getLsbD j = (s.ccb.intServ.getLsbD j && decide (j ≠ e.source.val))) ∧
      t.ccb = { s.ccb with intServ := t.ccb.intServ } ∧ t.out = [.intDone] ∧ t.ptarget = none ∧ t.m64 = none ∧
      s.SameRegs t ∧ t.cops = s.cops ∧ t.imem = s.imem ∧ t.requests = s.requests ∧ s.SameMem t)

/-- R527: `swm`, followed by two `nop`s: IL is the new mode, execution goes on after the second `nop`. That the unit is one
step is the spec's decision D21 (R533, log 18). -/
def Obligations.SwitchModeResults : Prop :=
  ∀ (s : State) (m target : Mode), s.ptarget = none → s.nopAt 1 = true → s.nopAt 2 = true →
    Completes (exec (.swm m target) s) (fun t => t.psr = { s.psr with il := decide (target = .m32) } ∧
      (s.pc.toNat + 3 * s.len < 4294967296 → t.pc.toNat = s.pc.toNat + 3 * s.len) ∧ t.ptarget = none ∧
      s.SameRegs t ∧ t.cr = s.cr ∧ t.m64 = none ∧ s.SameUnits t ∧ s.SameMem t)

/-- R531: `trap imm` raises exception 224 + imm. -/
def Obligations.TrapRaisesItsCode : Prop :=
  ∀ (s : State) (imm : Nat), s.psr.il = true → s.ptarget = none → imm ≤ 31 →
    Completes (exec (.trap imm) s) (s.Raised (BitVec.ofNat 8 (224 + imm)))

/-- R712, R715, R716: a control transfer in the slot of a taken one is refused (whether or not it would be taken);
`swm`, `reti`, `retu` and `scall` without their `nop`s are refused; `reti` on an empty hardware stack stops. The
spec's treatment of these points is `refuse`; the names are the model's (log 16, 18, 31). -/
def Obligations.UndefinedControlStops : Prop :=
  ∀ s : State,
    (∀ i a, s.ptarget = some a → isControl i = true → exec i s = .refused .controlInSlot) ∧
    (∀ m k, s.ptarget = none → s.nopAt 1 = false → exec (.swm m k) s = .refused .nopMissing ∧
      exec (.reti m) s = .refused .nopMissing ∧ (s.psr.um = false → exec (.retu m) s = .refused .nopMissing) ∧
      (∀ o : OpsG, s.CanRun o.guard → exec (.scall o) s = .refused .nopMissing)) ∧
    (∀ m k, s.ptarget = none → s.nopAt 1 = true → s.nopAt 2 = false → exec (.swm m k) s = .refused .nopMissing ∧
      exec (.reti m) s = .refused .nopMissing) ∧
    (∀ m, s.ptarget = none → s.hws = [] → s.nopAt 1 = true → s.nopAt 2 = true →
      exec (.reti m) s = .fault .hwsEmpty)

/-- R41, R113, R714, R103: a store to CCB_BASE of a value that is no multiple of 100H is refused, so is a load or store in
the old or the new CCB by the instruction after a remap, and, under DMEM_GRANULE = BYTE (D3), a load or store in data memory
at an address that is no multiple of 4. R616: every exception of an instruction in a slot is refused: 8 and 7 of a load or
store, 6 of a signed overflow, 2 of an instruction that the mode or the encoding does not have, 5 and 0 of the fetch.
Nothing is written. The spec's treatment of these points is `refuse`; the names are the model's (log 9, 16, 22, 26), that a
term with a prefix raises 2 in 16-bit mode is log 51. -/
def Obligations.UndefinedDataStops : Prop :=
  (∀ (s : State) (o : OpsRRI), s.CanRun o.guard →
    (∀ a i, (i = .ld o ∨ i = .st o) → s.ptarget = some a → ¬ s.GoodData (s.dataAddr o.regB o.imm) →
      exec i s = .refused .exceptionInSlot) ∧
    (s.GoodData (s.dataAddr o.regB o.imm) → s.ccbMoved = none → s.dataAddr o.regB o.imm = s.ccb.ccbBase.toNat →
      (s.rd o.regA).toNat % 256 ≠ 0 → exec (.st o) s = .refused .ccbBaseMisaligned) ∧
    (∀ (i : Instr) (b : Word) (k : Nat), (i = .ld o ∨ i = .st o) → s.GoodData (s.dataAddr o.regB o.imm) →
      s.ccbMoved = some b → k < 256 →
      (s.dataAddr o.regB o.imm = b.toNat + k ∨ s.dataAddr o.regB o.imm = s.ccb.ccbBase.toNat + k) →
      exec i s = .refused .ccbRemapAccess) ∧
    (∀ a : Nat, s.GoodData a → s.ccbMoved = none → s.dataAddr o.regB o.imm = a → a % 4 ≠ 0 →
      (a < s.ccb.ccbBase.toNat ∨ s.ccb.ccbBase.toNat + 255 < a) →
      (a < s.ccb.ccbBase.toNat + 256 ∨ s.ccb.regspcEnd.toNat < a) →
      if Config.dmemWordGranule = true then
        Completes (exec (.st o) s) (fun t => s.SameRegs t ∧ t.cr = s.cr ∧ t.psr = s.psr ∧ s.SameUnits t ∧ s.Advanced t ∧
          ∀ b < 4294967296, Memory.get t.mem b = Memory.get s.mem b)
      else exec (.st o) s = .refused .dmemMisaligned ∧ exec (.ld o) s = .refused .dmemMisaligned)) ∧
  (∀ (s : State) (a : Word), s.ptarget = some a →
    (∀ (i : Instr) (g : Option Guard) (r : Int),
      ((∃ o : OpsRR, i = .add o ∧ g = o.guard ∧ r = (s.rd o.first).toInt + (s.rd o.second).toInt) ∨
       (∃ o : OpsRI, i = .addi o ∧ g = o.guard ∧ r = (s.rd o.src).toInt + (BitVec.ofInt 32 o.imm).toInt) ∨
       (∃ o : OpsRR, i = .sub o ∧ g = o.guard ∧ r = (s.rd o.first).toInt - (s.rd o.second).toInt)) →
      s.CanRun g → (r < -2147483648 ∨ 2147483647 < r) → exec i s = .refused .exceptionInSlot) ∧
    (∀ m k, s.psr.um = true → exec (.chrs m k) s = .refused .exceptionInSlot ∧
      exec (.di m) s = .refused .exceptionInSlot ∧ exec (.ei m) s = .refused .exceptionInSlot) ∧
    (∀ i : Instr, isControl i = false → s.psr.il = false → (i.only32 = true ∨ prefixOf i ≠ none) →
      exec i s = .refused .exceptionInSlot) ∧
    (s.foreignSet = false →
      (s.pc.toNat % s.len ≠ 0 ∨ (s.psr.um = true ∧ s.iallowed s.pc.toNat = false)) →
      step s = .refused .exceptionInSlot))

/-- R31: the instructions that change the PSR; any other instruction that changes it has raised an exception. -/
def Obligations.StatusRegisterWriters : Prop :=
  ∀ (i : Instr) (s t : State), exec i s = .next t → t.psr ≠ s.psr →
    (∃ m k, i = .chrs m k) ∨ (∃ m, i = .di m) ∨ (∃ m, i = .ei m) ∨ (∃ m k, i = .swm m k) ∨ (∃ o, i = .scall o) ∨
    (∃ m, i = .retu m) ∨ (∃ m, i = .reti m) ∨ (∃ c, s.Raised c t)

/-- R304: a conditional instruction whose condition is false changes nothing but the pc. -/
def Obligations.FalseConditionHasNoEffect : Prop :=
  ∀ (s : State) (i : Instr) (g : Guard), prefixOf i = some g → s.psr.il = true → s.ptarget = none →
    s.guardHolds (some g) = false → Completes (exec i s) (fun t => s.SameBut t ∧ s.Advanced t)

/-! ### Exceptions, fetch, interrupts, the step -/

/-- R115, R602, R606: a fetch at a misaligned address raises 5; in user mode a fetch in the protected area raises 0;
the address fetched is saved. R126: which addresses are permitted, the bounds being inside the area. Stated where no interrupt is accepted and
no request arrives. The order (R615) and the PSR 0EH of `Raised` (R611) are the spec's decision D15 (log 33). -/
def Obligations.FetchExceptions : Prop :=
  (∀ (s : State) (a : Nat), s.iallowed a = true ↔
    if s.ccb.memConf.getLsbD 0 = true then a < s.ccb.imemBoundLo.toNat ∨ s.ccb.imemBoundHi.toNat < a
    else s.ccb.imemBoundLo.toNat ≤ a ∧ a ≤ s.ccb.imemBoundHi.toNat) ∧
  ∀ s : State, s.requests = [] → s.foreignSet = false → s.accepted = none → s.ptarget = none →
    (s.pc.toNat % s.len ≠ 0 → Completes (step s) (s.Raised 5#8)) ∧
    (s.pc.toNat % s.len = 0 → s.psr.um = true → s.iallowed s.pc.toNat = false → Completes (step s) (s.Raised 0#8))

/-- A step runs the decoded instruction. An instruction that stands at an aligned, permitted pc is the one `step`
executes when no interrupt is accepted; and the state with the word of an instruction placed at the pc runs that
instruction (log 5 says how a program comes to stand in the instruction memory). -/
def Obligations.StepExecutesFetchedInstruction : Prop :=
  (∀ (s : State) (i : Instr), s.sampleRequests.foreignSet = false → s.sampleRequests.accepted = none →
    s.pc.toNat % s.len = 0 → (s.psr.um = true → s.iallowed s.pc.toNat = true) →
    Imem.lookup s.imem s.pc.toNat = some { addr := s.pc.toNat, mode := s.mode, instr := i } → i.fits s.mode = true →
    step s = exec i s.sampleRequests) ∧
  (∀ (s : State) (nbits w : Nat) (i : Instr), (nbits = 16 ∨ nbits = 32) → decodeTableWord nbits w = some i →
    i.fits (if nbits = 32 then .m32 else .m16) = true → s.psr.ie = false → s.psr.um = false → s.requests = [] →
    s.pc.toNat % (nbits / 8) = 0 → step (s.withFetchWord nbits w) = exec i (s.withFetchWord nbits w))

/-- R641, R642: entry of the interrupt whose request passes, at a boundary with no target pending and room on the
hardware stack. With an external controller the offset it supplies, times 16, is added to the page of the vector of an
external source (R634, the spec's decision D16, log 30). The depth HWS_DEPTH is a parameter, the source in the entry the
model's record of R93 (log 31); the register sets are the decision D17. -/
def Obligations.InterruptEntrySavesContext : Prop :=
  ∀ (s : State) (k : Fin 12), s.requests = [] → s.foreignSet = false → s.ptarget = none → s.passes k = true →
    s.hws.length < Config.hwsDepth →
    Completes (step s) (fun t =>
      t.hws = { addr := s.pc, psr := s.psr.toBits, cr0 := s.cr[0], source := k } :: s.hws ∧
      (∀ j < 12, t.ccb.intServ.getLsbD j = (s.ccb.intServ.getLsbD j || decide (j = k.val))) ∧
      (∀ j < 12, t.ccb.intPend.getLsbD j = (s.ccb.intPend.getLsbD j && decide (j ≠ k.val))) ∧
      t.ccb = { s.ccb with intServ := t.ccb.intServ, intPend := t.ccb.intPend } ∧
      t.psr = { ie := false, il := s.ccb.intModeIl.getLsbD k.val, rswr := !s.ccb.intModeUm.getLsbD k.val,
                rsrd := !s.ccb.intModeUm.getLsbD k.val, um := s.ccb.intModeUm.getLsbD k.val } ∧
      t.out = [.intAck] ∧ t.m64 = none ∧ t.ptarget = none ∧ t.hwsIdle = s.hwsIdle ∧
      ((Config.extIntCtrl = false ∨ k.val < 4) → t.pc = s.ccb.intVec[k.val]) ∧
      ((Config.extIntCtrl = true ∧ 4 ≤ k.val) → ∃ offset < 256,
        t.pc.toNat = s.ccb.intVec[k.val].toNat / 4096 * 4096 + 16 * offset) ∧
      s.SameRegs t ∧ t.cr = s.cr ∧ t.cops = s.cops ∧ t.imem = s.imem ∧ t.requests = s.requests ∧ s.SameMem t)

/-- R635, R636: at most one source passes at a time; an interrupt that is entered had IE = 1, no target pending, its
source not masked and not in service. R632, R635: which source passes: it waits, comes before every other source that
waits, and no source in service is itself or comes before it; sources with one priority number come in their order. The
readings on masked and in-service requests are the spec's decision D17 (log 32). R631: the requests of a boundary enter
INT_PEND, masked or not, before anything else of the step (that they are a list of the state is log 29). -/
def Obligations.InterruptEntryIsPermitted : Prop :=
  (∀ (s : State) (r : BitVec 12) (rest : List (BitVec 12)), s.requests = r :: rest →
    (∀ j < 12, s.sampleRequests.ccb.intPend.getLsbD j = (s.ccb.intPend.getLsbD j || r.getLsbD j)) ∧
    s.sampleRequests = { s with ccb := { s.ccb with intPend := s.sampleRequests.ccb.intPend }, requests := rest } ∧
    (rest = [] → step s = step s.sampleRequests)) ∧
  (∀ s : State, s.requests = [] → s.sampleRequests = s) ∧
  (∀ (s : State) (p : Fin 12 → Nat) (k : Fin 12),
    (∀ j, j.val < 4 → p j = s.ccb.copIntPri.toNat / 16 ^ j.val % 16) →
    (∀ j, 4 ≤ j.val → p j = if Config.extIntCtrl then 15 else s.ccb.extIntPri.toNat / 16 ^ (j.val - 4) % 16) →
    (s.passes k = true ↔ s.psr.ie = true ∧ s.ccb.intPend.getLsbD k.val = true ∧ s.ccb.intMask.getLsbD k.val = true ∧
      (∀ j, j ≠ k → s.ccb.intPend.getLsbD j.val = true → s.ccb.intMask.getLsbD j.val = true →
        p k < p j ∨ p k = p j ∧ k.val < j.val) ∧
      (∀ j, s.ccb.intServ.getLsbD j.val = true → p k < p j ∨ p k = p j ∧ k.val < j.val))) ∧
  (∀ (s : State) (j k : Fin 12), s.passes j = true → s.passes k = true → j = k) ∧
  (∀ (s t : State) (k : Fin 12), step s = .next t → t.out = [.intAck] → t.hws.head?.map HwsEntry.source = some k →
    s.psr.ie = true ∧ s.ptarget = none ∧ s.ccb.intMask.getLsbD k.val = true ∧
      s.ccb.intServ.getLsbD k.val = false)

/-! ### Reset, invariant, encoding, isolation -/

/-- R83, R701 to R703: the state after reset where the spec gives a value, for every boot address and every set of
coprocessors (R8, R480); the accumulated flags of a Milk are zero (R88). -/
def Obligations.ResetState : Prop :=
  ∀ (boot : Word) (present : Vector CopKind 4),
    (State.resetAt boot present).pc = boot ∧
    (State.resetAt boot present).psr = { ie := false, il := true, rswr := true, rsrd := true, um := false } ∧
    (State.resetAt boot present).ptarget = none ∧ (State.resetAt boot present).m64 = none ∧ (State.resetAt boot present).hws = [] ∧
    (∀ k ∈ [2, 3, 4, 5, 6, 7, 8, 9, 10, 11, 12, 13, 29, 30],
      (ccbRegAt k).map (State.resetAt boot present).ccbGet = some 0x00000001#32) ∧
    (∀ k ∈ [16, 17, 18, 19, 20, 21, 22, 23, 24, 26, 32, 34, 36, 37, 40],
      (ccbRegAt k).map (State.resetAt boot present).ccbGet = some 0#32) ∧
    (∀ k ∈ [14, 15, 31], (ccbRegAt k).map (State.resetAt boot present).ccbGet = some 0x00000FFF#32) ∧
    (∀ k ∈ [25, 27, 38], (ccbRegAt k).map (State.resetAt boot present).ccbGet = some 0xFFFFFFFF#32) ∧
    (ccbRegAt 0).map (State.resetAt boot present).ccbGet = some 0x00010000#32 ∧
    (ccbRegAt 1).map (State.resetAt boot present).ccbGet = some 0x000100FF#32 ∧
    (ccbRegAt 28).map (State.resetAt boot present).ccbGet = some 3#32 ∧
    (ccbRegAt 39).map (State.resetAt boot present).ccbGet = some 0x0E#32 ∧
    (State.resetAt boot present).ccb.tmr0Cnt = 0#32 ∧ (State.resetAt boot present).ccb.tmr1Cnt = 0#32 ∧
    (∀ (k : Nat) (h : k < 4),
      (present[k] = .absent → (State.resetAt boot present).cops[k] = .absent) ∧
      (present[k] = .other → (State.resetAt boot present).cops[k] = .other) ∧
      (present[k] = .milk → ∃ m, (State.resetAt boot present).cops[k] = .milk m ∧ m.fsr.extractLsb' 7 7 = 0#7)) ∧
    State.reset = State.resetAt Config.bootAddr Config.copPresent

/-- The invariant holds after reset. -/
def Obligations.ResetSatisfiesInvariant : Prop := State.reset.Inv

/-- Every step keeps the invariant, from every state that has it. -/
def Obligations.StepKeepsInvariant : Prop := ∀ s t : State, s.Inv → step s = .next t → t.Inv

/-- R155, R165: the words the spec prints decode to the instructions it names, and for every 7-bit i and 3-bit d the
word 101010 i d is `ori Rd, i`. -/
def Obligations.PrintedWordsDecode : Prop :=
  decodeTableWord 16 0b0100101000000100 = some (.xor (.w16 4 4)) ∧
  decodeTableWord 16 0b0011010001110100 = some (.slli (.w16 4 7)) ∧
  decodeTableWord 16 0b0011010001000100 = some (.slli (.w16 4 4)) ∧
  decodeTableWord 16 0b1010101001101100 = some (.ori (.w16 4 77)) ∧
  ∀ (i : Fin 128) (d : Fin 8),
    decodeTableWord 16 (0b101010 * 1024 + 8 * i.val + d.val) = some (.ori (.w16 d i.val))

/-- R141, R161: for every admissible value of the parameter DECODE, the bytes of every well-formed instruction decode to it,
whatever follows them. R148, R161 (6): every 32-bit word with the operation code of `cop` is an instruction, and encoding
that instruction gives the word back, every bit of it (that bits 23..21 do not choose the instruction is log 3). -/
def Obligations.DecodeInvertsEncode : Prop :=
  (∀ (T : EncTable) (i : Instr) (rest : List Byte), T.admissible = true → i.wfIn T = true →
    decodeBytesWith T i.mode (encodeWith T i ++ rest) = .ok (i, rest)) ∧
  (∀ (T : EncTable) (w : BitVec 32), w.extractLsb' 26 6 = T.copOpcode →
    ∃ i, decodeWith T .m32 w.toNat = .ok i ∧ encodeWord T i = w.toNat)

/-- R39, R661: what user code executes neither depends on the registers of SET 2 and the SPSR nor changes them:
executing any instruction but `scall` on register set 1 commutes with giving those registers any other contents. -/
def Obligations.UserCodeIsolatedFromSetTwo : Prop :=
  ∀ (s : State) (i : Instr) (pr : Vector Word 29) (pr31 spsr : Word), s.psr.um = true → s.psr.rsrd = false →
    s.psr.rswr = false → (∀ o, i ≠ .scall o) →
    exec i (s.withSet2 pr pr31 spsr) = mapNext (·.withSet2 pr pr31 spsr) (exec i s)
end

