-- ==== Sys2Proof/Laws/Float.lean ====
section
/-! SUPPORT. What the rounding of Milk gives: `fpRound_rounds` says once that `fpRound` of a magnitude that brackets `r`
is a rounding of `r`. -/

namespace Sys2Proof.Machine

/-! ### The words `fpPlace` makes -/

theorem fpWord_neg (neg : Bool) (bits : Nat) : (fpWord neg bits).getLsbD 31 = neg := by
  rw [fpWord, BitVec.getLsbD_append]; simp

theorem fpWord_toNat (neg : Bool) {bits : Nat} (h : bits < 2 ^ 31) :
    (fpWord neg bits).toNat = neg.toNat * 2 ^ 31 + bits := by
  unfold fpWord
  rw [BitVec.toNat_append, BitVec.toNat_ofBool, BitVec.toNat_ofNat, Nat.mod_eq_of_lt h, Nat.shiftLeft_eq,
    Nat.mul_comm, Nat.two_pow_add_eq_or_of_lt h, Nat.mul_comm]

/-- A word of the exponent field `x` and the fraction `f`. -/
theorem fpVal_fields (neg : Bool) {x f : Nat} (hx : x < 255) (hf : f < 8388608) :
    fpVal (fpWord neg (x * 8388608 + f)) =
      if x = 0 then .num neg f (-149) else .num neg (f + 8388608) ((x : Int) - 150) := by
  have hb : x * 8388608 + f < 2 ^ 31 := by omega
  have h1 : ((fpWord neg (x * 8388608 + f)).extractLsb' 23 8).toNat = x := by
    rw [BitVec.extractLsb'_toNat, fpWord_toNat neg hb, Nat.shiftRight_eq_div_pow]
    cases neg <;> simp only [Bool.toNat_true, Bool.toNat_false] <;> omega
  have h2 : ((fpWord neg (x * 8388608 + f)).extractLsb' 0 23).toNat = f := by
    rw [BitVec.extractLsb'_toNat, fpWord_toNat neg hb, Nat.shiftRight_eq_div_pow]
    cases neg <;> simp only [Bool.toNat_true, Bool.toNat_false] <;> omega
  unfold fpVal
  simp only [fpWord_neg, h1, h2]
  rw [if_neg (by omega)]

/-- The significand and the exponent of a finite word are those of a single-precision number. -/
theorem fpVal_num_bounds {w : Word} {neg : Bool} {m : Nat} {e : Int} (h : fpVal w = .num neg m e) :
    m < 16777216 ∧ -149 ≤ e := by
  simp only [fpVal] at h
  have hf := (w.extractLsb' 0 23).isLt
  have hx := (w.extractLsb' 23 8).isLt
  split at h
  · split at h <;> cases h
  · split at h
    · cases h; omega
    · cases h; omega

/-- What `fpPlace` gives for bits that stand for `m * 2^u`: the exponent field and the fraction come out right even where
rounding up carried into the next power of two. -/
theorem fpNumber_place (neg : Bool) {u : Int} {m : Nat} (hu : -149 ≤ u) (hm : m ≤ 16777216)
    (hlow : -149 < u → 8388608 ≤ m) (hb : (u + 149).toNat * 8388608 + m < 255 * 8388608) :
    fpNumber (fpWord neg ((u + 149).toNat * 8388608 + m)) =
      some ((if neg then -1 else 1) * (m : ℚ) * (2 : ℚ) ^ u) := by
  obtain ⟨k, rfl⟩ : ∃ k : Nat, u = (k : Int) - 149 := ⟨(u + 149).toNat, by omega⟩
  have hk : ((k : Int) - 149 + 149).toNat = k := by omega
  rw [hk] at hb ⊢
  unfold fpNumber
  by_cases h0 : m < 8388608
  · obtain rfl : k = 0 := by by_contra hn; have := hlow (by omega); omega
    rw [fpVal_fields neg (by omega) h0]; simp
  · by_cases h1 : m < 16777216
    · obtain ⟨f, rfl⟩ : ∃ f, m = f + 8388608 := ⟨m - 8388608, by omega⟩
      have e : k * 8388608 + (f + 8388608) = (k + 1) * 8388608 + f := by ring
      rw [e, fpVal_fields neg (by omega) (by omega), if_neg (by omega)]
      have : ((k + 1 : Nat) : Int) - 150 = (k : Int) - 149 := by push_cast; ring
      simp only [this]
    · obtain rfl : m = 16777216 := by omega
      have e : k * 8388608 + 16777216 = (k + 2) * 8388608 + 0 := by ring
      rw [e, fpVal_fields neg (by omega) (by omega), if_neg (by omega)]
      have : ((k + 2 : Nat) : Int) - 150 = ((k : Int) - 149) + 1 := by push_cast; ring
      simp only [this, zpow_add_one₀ (two_ne_zero' ℚ)]
      push_cast
      congr 1; ring

/-- No finite number lies strictly between `m * 2^u` and `(m + 1) * 2^u`, for a full significand `m` or the least
exponent. -/
theorem fpNumber_gap {w : Word} {x : ℚ} (h : fpNumber w = some x) {m : Nat} {u : Int}
    (hlow : u = -149 ∨ 8388608 ≤ m) (h1 : (m : ℚ) * 2 ^ u ≤ |x|) (h2 : |x| ≤ (m + 1 : ℚ) * 2 ^ u) :
    |x| = (m : ℚ) * 2 ^ u ∨ |x| = (m + 1 : ℚ) * 2 ^ u := by
  unfold fpNumber at h
  split at h
  · rename_i neg k e hv
    obtain ⟨hk, he⟩ := fpVal_num_bounds hv
    cases h
    have habs : |(if neg then (-1 : ℚ) else 1) * (k : ℚ) * 2 ^ e| = (k : ℚ) * 2 ^ e := by
      rw [abs_mul, abs_mul, abs_of_nonneg (by positivity : (0 : ℚ) ≤ 2 ^ e), Nat.abs_cast]
      cases neg <;> simp
    rw [habs] at h1 h2 ⊢
    have hp : (0 : ℚ) < 2 ^ u := by positivity
    by_cases hue : u ≤ e
    · obtain ⟨d, rfl⟩ : ∃ d : Nat, e = u + d := ⟨(e - u).toNat, by omega⟩
      rw [zpow_add₀ (two_ne_zero' ℚ), zpow_natCast] at h1 h2 ⊢
      have e1 : (k : ℚ) * (2 ^ u * 2 ^ d) = ((k * 2 ^ d : Nat) : ℚ) * 2 ^ u := by push_cast; ring
      rw [e1] at h1 h2 ⊢
      have h1' : m ≤ k * 2 ^ d := by exact_mod_cast (mul_le_mul_iff_left₀ hp).1 h1
      have h2' : k * 2 ^ d ≤ m + 1 := by exact_mod_cast (mul_le_mul_iff_left₀ hp).1 h2
      rcases Nat.lt_or_ge m (k * 2 ^ d) with h3 | h3
      · right; rw [show k * 2 ^ d = m + 1 by omega]; push_cast; rfl
      · left; rw [show k * 2 ^ d = m by omega]
    · exfalso
      have hm : 8388608 ≤ m := by omega
      obtain ⟨d, rfl⟩ : ∃ d : Nat, u = e + 1 + d := ⟨(u - e - 1).toNat, by omega⟩
      have hq : (0 : ℚ) < 2 ^ e := by positivity
      rw [zpow_add₀ (two_ne_zero' ℚ), zpow_add₀ (two_ne_zero' ℚ), zpow_natCast, zpow_one] at h1
      have e1 : (m : ℚ) * (2 ^ e * 2 * 2 ^ d) = ((m * 2 * 2 ^ d : Nat) : ℚ) * 2 ^ e := by push_cast; ring
      rw [e1] at h1
      have h1' : m * 2 * 2 ^ d ≤ k := by exact_mod_cast (mul_le_mul_iff_left₀ hq).1 h1
      have := Nat.one_le_two_pow (n := d)
      nlinarith
  · cases h
  · cases h

/-! ### Rounding -/

/-- Two products of a sign with a magnitude: a number from one to the other is the sign times its own magnitude. -/
theorem sign_between {s x a b : ℝ} (hs : s = 1 ∨ s = -1) (ha : 0 ≤ a) (hb : 0 ≤ b)
    (h : (s * a ≤ x ∧ x ≤ s * b) ∨ (s * b ≤ x ∧ x ≤ s * a)) :
    x = s * |x| ∧ ((a ≤ |x| ∧ |x| ≤ b) ∨ (b ≤ |x| ∧ |x| ≤ a)) := by
  rcases hs with rfl | rfl
  · have hx : 0 ≤ x := by rcases h with h | h <;> linarith [h.1]
    rw [abs_of_nonneg hx]
    exact ⟨by ring, by rcases h with h | h <;> [left; right] <;> constructor <;> linarith [h.1, h.2]⟩
  · have hx : x ≤ 0 := by rcases h with h | h <;> linarith [h.2]
    rw [abs_of_nonpos hx]
    exact ⟨by ring, by rcases h with h | h <;> [right; left] <;> constructor <;> linarith [h.1, h.2]⟩

/-- The sign of a number as a factor. -/
theorem sign_cases (neg : Bool) : (if neg then (-1 : ℝ) else 1) = 1 ∨ (if neg then (-1 : ℝ) else 1) = -1 := by
  cases neg <;> simp

/-- `fpPlace` of one of the two neighbours of `r`, or of `r` itself, is a rounding of `r`. -/
theorem fpPlace_rounds {n : Nat} {neg inexact : Bool} {u : Int} {m : Nat} {r : ℝ} (hu : -149 ≤ u) (hu' : u ≤ 104)
    (hm : m < 16777216) (hlow : u = -149 ∨ 8388608 ≤ m) (h1 : (m : ℝ) * 2 ^ u ≤ r) (h2 : r < (m + 1 : ℝ) * 2 ^ u)
    (hex : inexact = false → r = (m : ℝ) * 2 ^ u) (hin : inexact = true → r ≠ (m : ℝ) * 2 ^ u)
    (hr : (2 : ℝ) ^ (-150 : ℤ) ≤ r) :
    (fpPlace n neg (if inexact && Config.freeRound n then (u + 149).toNat * 8388608 + m + 1
      else (u + 149).toNat * 8388608 + m) inexact).Rounds ((if neg then -1 else 1) * r) := by
  have hp : (0 : ℝ) < 2 ^ u := by positivity
  have hr0 : 0 ≤ r := le_trans (by positivity) hr
  have habs : |(if neg then (-1 : ℝ) else 1) * r| = r := by
    rw [abs_mul, abs_of_nonneg hr0]; cases neg <;> simp
  have hbig : r < 2 ^ 128 := by
    have e1 : (m + 1 : ℝ) ≤ 2 ^ 24 := by
      have : m + 1 ≤ 2 ^ 24 := by omega
      exact_mod_cast this
    have e2 : (2 : ℝ) ^ u ≤ 2 ^ (104 : ℤ) := zpow_le_zpow_right₀ (by norm_num) hu'
    calc r < (m + 1 : ℝ) * 2 ^ u := h2
      _ ≤ 2 ^ 24 * 2 ^ (104 : ℤ) := by gcongr
      _ = 2 ^ 128 := by norm_num
  obtain ⟨M, hM, hcase⟩ : ∃ M : Nat, (if inexact && Config.freeRound n then (u + 149).toNat * 8388608 + m + 1
      else (u + 149).toNat * 8388608 + m) = (u + 149).toNat * 8388608 + M ∧
      ((M = m) ∨ (M = m + 1 ∧ inexact = true)) := by
    split
    · rename_i h; simp only [Bool.and_eq_true] at h; exact ⟨m + 1, Nat.add_assoc _ _ _, .inr ⟨rfl, h.1⟩⟩
    · exact ⟨m, rfl, .inl rfl⟩
  rw [hM]
  refine ⟨fun h => absurd h (by rw [habs]; linarith), fun _ h => absurd h (by rw [habs]; linarith), fun _ _ => ?_⟩
  unfold fpPlace
  split
  · rename_i hb
    left
    have e104 : u = 104 := by omega
    have eM : M = m + 1 ∧ inexact = true := by
      rcases hcase with h | h
      · omega
      · exact h
    have em : m = 16777215 := by omega
    refine ⟨by simp [fpOpen, flagOF, flagNX], ?_⟩
    rw [habs]
    have hne := hin eM.2
    subst em e104
    have h3 := lt_of_le_of_ne h1 (Ne.symm hne)
    norm_num at h3 ⊢
    linarith
  · rename_i hb
    right
    have hMb : M ≤ 16777216 := by omega
    have hMlow : -149 < u → 8388608 ≤ M := by omega
    refine ⟨(if neg then -1 else 1) * (M : ℚ) * 2 ^ u, ?_, ?_⟩
    · simp only
      rw [fpNumber_place _ hu hMb hMlow (by omega)]
      split
      · rename_i hz; obtain rfl : M = 0 := by omega
        simp
      · rfl
    · have hcast : (((if neg then -1 else 1) * (M : ℚ) * 2 ^ u : ℚ) : ℝ) =
          (if neg then (-1 : ℝ) else 1) * ((M : ℝ) * 2 ^ u) := by
        cases neg <;> simp
      have hs := sign_cases neg
      simp only [hcast]
      cases hi : inexact with
      | false =>
        left
        obtain rfl : M = m := by rcases hcase with h | h <;> [exact h; simp [hi] at h]
        exact ⟨by rw [hex hi], by simp⟩
      | true =>
        right
        have hne := hin hi
        have hlt := lt_of_le_of_ne h1 (Ne.symm hne)
        refine ⟨?_, by simp [flagNX], fun w x hw hx => ?_⟩
        · intro h
          have h3 : (M : ℝ) * 2 ^ u = r := by rcases hs with e | e <;> rw [e] at h <;> linarith
          rcases hcase with rfl | ⟨rfl, -⟩
          · exact hne h3.symm
          · push_cast at h3; linarith
        · have key : ¬ (((if neg then (-1 : ℝ) else 1) * ((M : ℝ) * 2 ^ u) ≤ x ∧
                (x : ℝ) ≤ (if neg then (-1 : ℝ) else 1) * r) ∨
              ((if neg then (-1 : ℝ) else 1) * r ≤ x ∧
                (x : ℝ) ≤ (if neg then (-1 : ℝ) else 1) * ((M : ℝ) * 2 ^ u))) := by
            intro h
            obtain ⟨hx1, hx2⟩ := sign_between hs (by positivity) hr0 h
            have hcx : ((|x| : ℚ) : ℝ) = |(x : ℝ)| := by push_cast; rfl
            have b1 : (m : ℝ) * 2 ^ u ≤ |(x : ℝ)| := by
              rcases hcase with rfl | ⟨rfl, -⟩ <;> rcases hx2 with ⟨h3, h4⟩ | ⟨h3, h4⟩ <;> push_cast at h3 h4 <;>
                nlinarith
            have b2 : |(x : ℝ)| ≤ (m + 1 : ℝ) * 2 ^ u := by
              rcases hcase with rfl | ⟨rfl, -⟩ <;> rcases hx2 with ⟨h3, h4⟩ | ⟨h3, h4⟩ <;> push_cast at h3 h4 <;>
                nlinarith
            have g := fpNumber_gap hw hlow (by rw [← hcx] at b1; exact (Rat.cast_le (K := ℝ)).1 (by push_cast at b1 ⊢; exact b1))
              (by rw [← hcx] at b2; exact (Rat.cast_le (K := ℝ)).1 (by push_cast at b2 ⊢; exact b2))
            have g' : |(x : ℝ)| = (m : ℝ) * 2 ^ u ∨ |(x : ℝ)| = (m + 1 : ℝ) * 2 ^ u := by
              rw [← hcx]
              rcases g with g | g
              · left; rw [g]; push_cast; rfl
              · right; rw [g]; push_cast; rfl
            have hMx : |(x : ℝ)| = (M : ℝ) * 2 ^ u := by
              rcases hcase with rfl | ⟨rfl, -⟩
              · rcases g' with g' | g'
                · exact g'
                · rcases hx2 with ⟨h3, h4⟩ | ⟨h3, h4⟩ <;> linarith
              · push_cast
                rcases g' with g' | g'
                · rcases hx2 with ⟨h3, h4⟩ | ⟨h3, h4⟩ <;> push_cast at h3 h4 <;> linarith
                · exact g'
            apply hx
            have : (x : ℝ) = (((if neg then -1 else 1) * (M : ℚ) * 2 ^ u : ℚ) : ℝ) := by rw [hcast, ← hMx]; exact hx1
            exact_mod_cast this
          exact ⟨fun h => key (.inl h), fun h => key (.inr h)⟩

theorem fpZero_rounds (n : Nat) : (fpZero n).Rounds 0 := by
  refine ⟨fun h => absurd h (by norm_num), fun h => absurd rfl h, fun _ _ => .inr ⟨0, ?_, .inl ⟨by simp, rfl⟩⟩⟩
  have := fpNumber_place (Config.freeZeroSign n) (u := -149) (m := 0) (by norm_num) (by norm_num)
    (by norm_num) (by norm_num)
  simpa [fpZero] using this

/-- The magnitude that `q` and `x` bracket, seen in units of `2^u`, `u` above `x`. -/
theorem bracket_shift {q d : Nat} {x : Int} {r : ℝ} (h1 : (q : ℝ) * 2 ^ x ≤ r) (h2 : r < (q + 1 : ℝ) * 2 ^ x) :
    ((q / 2 ^ d : Nat) : ℝ) * 2 ^ (x + d) ≤ r ∧ r < ((q / 2 ^ d : Nat) + 1 : ℝ) * 2 ^ (x + d) ∧
    (q % 2 ^ d ≠ 0 → r ≠ ((q / 2 ^ d : Nat) : ℝ) * 2 ^ (x + d)) ∧
    (q % 2 ^ d = 0 → ((q / 2 ^ d : Nat) : ℝ) * 2 ^ (x + d) = q * 2 ^ x) := by
  have hx : (0 : ℝ) < 2 ^ x := by positivity
  have hd : 0 < 2 ^ d := by positivity
  have e : ∀ a : ℝ, a * 2 ^ (x + d : Int) = a * 2 ^ d * 2 ^ x := fun a => by
    rw [zpow_add₀ (two_ne_zero' ℝ), zpow_natCast]; ring
  have hdiv := Nat.div_add_mod q (2 ^ d)
  have hmod := Nat.mod_lt q hd
  have a1 : ((q / 2 ^ d : Nat) : ℝ) * 2 ^ d ≤ q := by exact_mod_cast Nat.div_mul_le_self q (2 ^ d)
  have a2 : (q + 1 : ℝ) ≤ ((q / 2 ^ d : Nat) + 1 : ℝ) * 2 ^ d := by
    have : q + 1 ≤ (q / 2 ^ d + 1) * 2 ^ d := by rw [add_mul, one_mul, mul_comm]; omega
    exact_mod_cast this
  rw [e, e]
  refine ⟨by nlinarith, by nlinarith, fun h => ?_, fun h => ?_⟩
  · have a3 : ((q / 2 ^ d : Nat) : ℝ) * 2 ^ d < q := by
      have : q / 2 ^ d * 2 ^ d < q := by rw [mul_comm]; omega
      exact_mod_cast this
    nlinarith
  · have a3 : q / 2 ^ d * 2 ^ d = q := by rw [mul_comm]; omega
    have a4 : ((q / 2 ^ d : Nat) : ℝ) * 2 ^ d = q := by exact_mod_cast a3
    rw [a4]

/-- `fpRound` of a magnitude that brackets `r` is a rounding of `r` with its sign. -/
theorem fpRound_rounds (n : Nat) (neg : Bool) {q : Nat} {x : Int} {sticky : Bool} {r : ℝ}
    (h1 : (q : ℝ) * 2 ^ x ≤ r) (h2 : r < (q + 1 : ℝ) * 2 ^ x) (hex : sticky = false → r = (q : ℝ) * 2 ^ x)
    (hin : sticky = true → r ≠ (q : ℝ) * 2 ^ x ∧ 16777216 ≤ q) :
    (fpRound n neg q x sticky).Rounds ((if neg then -1 else 1) * r) := by
  unfold fpRound
  split
  · rename_i hq
    have hs : sticky = false := by cases hs : sticky with
      | false => rfl
      | true => have := (hin hs).2; omega
    have : r = 0 := by rw [hex hs, hq]; simp
    rw [this, mul_zero]
    exact fpZero_rounds n
  · rename_i hq
    have hx : (0 : ℝ) < 2 ^ x := by positivity
    have hr : 0 < r := lt_of_lt_of_le (by have : (0 : ℝ) < q := by exact_mod_cast Nat.pos_of_ne_zero hq
                                          positivity) h1
    have habs : |(if neg then (-1 : ℝ) else 1) * r| = r := by
      rw [abs_mul, abs_of_pos hr]; cases neg <;> simp
    have hL1 : 2 ^ Nat.log2 q ≤ q := Nat.log2_self_le hq
    have hL2 : q + 1 ≤ 2 ^ (Nat.log2 q + 1) := Nat.lt_log2_self
    have t1 : (2 : ℝ) ^ ((Nat.log2 q : Int) + x) ≤ r := by
      rw [zpow_add₀ (two_ne_zero' ℝ), zpow_natCast]
      have : (2 : ℝ) ^ Nat.log2 q ≤ q := by exact_mod_cast hL1
      nlinarith
    have t2 : r < (2 : ℝ) ^ ((Nat.log2 q : Int) + x + 1) := by
      have e : (Nat.log2 q : Int) + x + 1 = ((Nat.log2 q + 1 : Nat) : Int) + x := by push_cast; ring
      rw [e, zpow_add₀ (two_ne_zero' ℝ), zpow_natCast]
      have : (q + 1 : ℝ) ≤ (2 : ℝ) ^ (Nat.log2 q + 1) := by exact_mod_cast hL2
      nlinarith
    have mono : ∀ {a b : Int}, a ≤ b → (2 : ℝ) ^ a ≤ 2 ^ b := fun h => zpow_le_zpow_right₀ (by norm_num) h
    have n128 : (2 : ℝ) ^ (128 : ℤ) = 2 ^ 128 := by norm_cast
    simp only
    split
    · rename_i htop
      have big : (2 : ℝ) ^ 128 ≤ r := by rw [← n128]; exact (mono (by omega)).trans t1
      have small : (2 : ℝ) ^ (-150 : ℤ) ≤ 2 ^ (128 : ℤ) := mono (by omega)
      exact ⟨fun _ => by simp [fpOpen, flagOF, flagNX], fun _ h => absurd h (by rw [habs]; linarith),
        fun h => absurd h (by rw [habs]; linarith)⟩
    · split
      · rename_i htop hlow
        have small : r < (2 : ℝ) ^ (-150 : ℤ) := t2.trans_le (mono (by omega))
        have big : (2 : ℝ) ^ (-150 : ℤ) ≤ 2 ^ (128 : ℤ) := mono (by omega)
        refine ⟨fun h => absurd h (by rw [habs]; linarith), fun _ _ => by simp [fpOpen, flagUF, flagNX], fun _ h => ?_⟩
        rw [habs] at h
        rcases h with h | h
        · rcases sign_cases neg with e | e <;> rw [e] at h <;> linarith
        · linarith
      · rename_i htop hlow
        have hmin : (2 : ℝ) ^ (-150 : ℤ) ≤ r := (mono (by omega)).trans t1
        generalize hu : max ((Nat.log2 q : Int) + x - 23) (-149) = u
        have sticky_le : sticky = true → x < u := by
          intro h
          have : 24 ≤ Nat.log2 q := (Nat.le_log2 hq).2 (hin h).2
          omega
        by_cases hux : u ≤ x
        · have hs : sticky = false := by cases hs : sticky with
            | false => rfl
            | true => have := sticky_le hs; omega
          obtain ⟨d, rfl⟩ : ∃ d : Nat, x = u + d := ⟨(x - u).toNat, by omega⟩
          have hd : (u + (d : Int) - u).toNat = d := by omega
          have e : ((q * 2 ^ d : Nat) : ℝ) * 2 ^ u = q * 2 ^ (u + (d : Int)) := by
            rw [zpow_add₀ (two_ne_zero' ℝ), zpow_natCast]; push_cast; ring
          have hr' : r = ((q * 2 ^ d : Nat) : ℝ) * 2 ^ u := by rw [e]; exact hex hs
          have hp : (0 : ℝ) < 2 ^ u := by positivity
          have hlt : q * 2 ^ d < 16777216 := by
            have : r < (16777216 : ℝ) * 2 ^ u := by
              refine t2.trans_le ((mono (show _ ≤ (24 : Int) + u by omega)).trans ?_)
              rw [zpow_add₀ (two_ne_zero' ℝ)]; norm_num
            rw [hr'] at this
            exact_mod_cast (mul_lt_mul_iff_left₀ hp).1 this
          have hge : u = -149 ∨ 8388608 ≤ q * 2 ^ d := by
            by_cases h : u = -149
            · exact .inl h
            · right
              have : (8388608 : ℝ) * 2 ^ u ≤ r := by
                refine le_trans ?_ ((mono (show (23 : Int) + u ≤ _ by omega)).trans t1)
                rw [zpow_add₀ (two_ne_zero' ℝ)]; norm_num
              rw [hr'] at this
              exact_mod_cast (mul_le_mul_iff_left₀ hp).1 this
          have := fpPlace_rounds (n := n) (neg := neg) (inexact := false) (u := u) (r := r) (by omega) (by omega) hlt hge hr'.ge
            (by rw [hr']; nlinarith) (fun _ => hr') (by simp) hmin
          have hd0 : ¬ (d : Int) < 0 := by omega
          simpa [hs, hd, hd0] using this
        · obtain ⟨d, rfl⟩ : ∃ d : Nat, u = x + d := ⟨(u - x).toNat, by omega⟩
          have hd : (x + (d : Int) - x).toNat = d := by omega
          obtain ⟨b1, b2, b3, b4⟩ := bracket_shift (d := d) h1 h2
          have hp : (0 : ℝ) < 2 ^ (x + (d : Int)) := by positivity
          have hlt : q / 2 ^ d < 16777216 := by
            have : r < (16777216 : ℝ) * 2 ^ (x + (d : Int)) := by
              refine t2.trans_le ((mono (show _ ≤ (24 : Int) + (x + d) by omega)).trans ?_)
              rw [zpow_add₀ (two_ne_zero' ℝ) 24]; norm_num
            exact_mod_cast (mul_lt_mul_iff_left₀ hp).1 (b1.trans_lt this)
          have hge : x + (d : Int) = -149 ∨ 8388608 ≤ q / 2 ^ d := by
            by_cases h : x + (d : Int) = -149
            · exact .inl h
            · right
              have : (8388608 : ℝ) * 2 ^ (x + (d : Int)) ≤ r := by
                refine le_trans ?_ ((mono (show (23 : Int) + (x + d) ≤ _ by omega)).trans t1)
                rw [zpow_add₀ (two_ne_zero' ℝ) 23]; norm_num
              have h3 := (mul_lt_mul_iff_left₀ hp).1 (this.trans_lt b2)
              have h4 : 8388608 < q / 2 ^ d + 1 := by exact_mod_cast h3
              omega
          have := fpPlace_rounds (n := n) (neg := neg) (inexact := sticky || decide (q % 2 ^ d ≠ 0)) (u := x + d) (r := r)
            (by omega) (by omega) hlt hge b1 b2 ?_ ?_ hmin
          · have hxu : x < x + (d : Int) := by omega
            simpa [hux, hd, hxu] using this
          · intro h
            simp only [Bool.or_eq_false_iff, decide_eq_false_iff_not, not_not] at h
            rw [b4 h.2]; exact hex h.1
          · intro h
            simp only [Bool.or_eq_true, decide_eq_true_eq] at h
            by_cases hq0 : q % 2 ^ d = 0
            · rw [b4 hq0]; exact (hin (h.resolve_right (by simp [hq0]))).1
            · exact b3 hq0

/-! ### The operations' exact results -/

/-- A finite word's sign, significand and exponent make its number. -/
theorem fpNumber_eq_some {w : Word} {x : ℚ} (h : fpNumber w = some x) :
    ∃ neg m e, fpVal w = .num neg m e ∧ x = (if neg then -1 else 1) * (m : ℚ) * 2 ^ e ∧ m < 16777216 := by
  unfold fpNumber at h
  split at h
  · rename_i neg m e hv
    cases h
    exact ⟨neg, m, e, hv, rfl, (fpVal_num_bounds hv).1⟩
  · cases h
  · cases h

/-- An exact magnitude, rounded. -/
theorem fpRound_exact (n : Nat) (neg : Bool) (q : Nat) (x : Int) :
    (fpRound n neg q x false).Rounds ((if neg then -1 else 1) * ((q : ℝ) * 2 ^ x)) := by
  have hx : (0 : ℝ) < 2 ^ x := by positivity
  exact fpRound_rounds n neg le_rfl (by nlinarith) (fun _ => rfl) (by simp)

theorem fpOfInt_rounds (n : Nat) (i x : Int) : (fpOfInt n i x).Rounds ((i : ℝ) * 2 ^ x) := by
  have h := fpRound_exact n (decide (i < 0)) i.natAbs x
  have e : (i : ℝ) = (if decide (i < 0) then -1 else 1) * (i.natAbs : ℝ) := by
    rw [Nat.cast_natAbs]
    by_cases hi : i < 0
    · simp [hi, abs_of_neg hi]
    · simp [hi, abs_of_nonneg (not_lt.1 hi)]
  rw [← mul_assoc, ← e] at h
  exact h

/-- Scaling to a lower exponent keeps the number. -/
theorem fpScaled_cast (neg : Bool) (m : Nat) {e x : Int} (h : x ≤ e) :
    ((fpScaled neg m e x : Int) : ℚ) * 2 ^ x = (if neg then -1 else 1) * (m : ℚ) * 2 ^ e := by
  obtain ⟨d, rfl⟩ : ∃ d : Nat, e = x + d := ⟨(e - x).toNat, by omega⟩
  have hd : (x + (d : Int) - x).toNat = d := by omega
  unfold fpScaled
  rw [hd, zpow_add₀ (two_ne_zero' ℚ), zpow_natCast]
  cases neg <;> simp <;> ring

/-- `isqrtFrom` finds the integer square root of a number below the square of its range. -/
theorem isqrtFrom_spec (k a r : Nat) (h1 : r * r ≤ a) (h2 : a < (r + 2 ^ k) * (r + 2 ^ k)) :
    isqrtFrom k a r * isqrtFrom k a r ≤ a ∧ a < (isqrtFrom k a r + 1) * (isqrtFrom k a r + 1) := by
  induction k generalizing r with
  | zero => exact ⟨h1, h2⟩
  | succ k ih =>
    unfold isqrtFrom
    split
    · rename_i h
      exact ih _ h (by rw [pow_succ] at h2; rwa [add_assoc, ← mul_two])
    · exact ih _ h1 (by omega)

/-- The root of `m * 2^e`, rounded. -/
theorem fpRoot_rounds (n : Nat) {m : Nat} (e : Int) (hm : m ≠ 0) (hm' : m < 16777216) :
    (fpRoot n m e).Rounds (Real.sqrt ((m : ℝ) * 2 ^ e)) := by
  unfold fpRoot
  simp only
  generalize hM : (if e % 2 = 0 then m else 2 * m) = M
  generalize hE : (if e % 2 = 0 then e else e - 1) = E
  obtain ⟨hM1, hM2⟩ : 1 ≤ M ∧ M < 33554432 := by subst hM; split <;> omega
  obtain ⟨c, hc⟩ : ∃ c : Int, E = 2 * c := ⟨E / 2, by subst hE; split <;> omega⟩
  have hv : (m : ℝ) * 2 ^ e = (M : ℝ) * 2 ^ E := by
    subst hM hE
    split
    · rfl
    · rw [zpow_sub_one₀ (two_ne_zero' ℝ)]; push_cast; ring
  have hE2 : E / 2 - 30 = c - 30 := by omega
  obtain ⟨s1, s2⟩ := isqrtFrom_spec 44 (M * 2 ^ 60) 0 (by positivity) (by
    have : M * 2 ^ 60 < 33554432 * 2 ^ 60 := by gcongr
    exact this.trans (by norm_num))
  generalize isqrtFrom 44 (M * 2 ^ 60) 0 = q at s1 s2 ⊢
  have hq : 16777216 ≤ q := by
    by_contra h
    have h3 : (q + 1) * (q + 1) ≤ 16777216 * 16777216 := Nat.mul_le_mul (by omega) (by omega)
    have h4 : 1 * 2 ^ 60 ≤ M * 2 ^ 60 := Nat.mul_le_mul_right _ hM1
    norm_num at h3 h4 s2
    omega
  have hp : (0 : ℝ) < 2 ^ (c - 30) := by positivity
  have hsq : (m : ℝ) * 2 ^ e = ((M * 2 ^ 60 : Nat) : ℝ) * (2 ^ (c - 30) * 2 ^ (c - 30)) := by
    rw [hv, hc, ← zpow_add₀ (two_ne_zero' ℝ)]
    have : 2 * c = 60 + (c - 30 + (c - 30)) := by ring
    rw [this, zpow_add₀ (two_ne_zero' ℝ)]
    push_cast
    norm_num
    ring
  have hroot : Real.sqrt ((m : ℝ) * 2 ^ e) = Real.sqrt ((M * 2 ^ 60 : Nat) : ℝ) * 2 ^ (c - 30) := by
    rw [hsq, Real.sqrt_mul (by positivity), Real.sqrt_mul_self hp.le]
  have b1 : (q : ℝ) ≤ Real.sqrt ((M * 2 ^ 60 : Nat) : ℝ) := Real.le_sqrt_of_sq_le (by rw [sq]; exact_mod_cast s1)
  have b2 : Real.sqrt ((M * 2 ^ 60 : Nat) : ℝ) < q + 1 := by
    rw [Real.sqrt_lt' (by positivity), sq]; exact_mod_cast s2
  have b3 : q * q = M * 2 ^ 60 ↔ Real.sqrt ((M * 2 ^ 60 : Nat) : ℝ) = q := by
    rw [Real.sqrt_eq_iff_mul_self_eq (by positivity) (by positivity)]
    constructor
    · intro h; exact_mod_cast h.symm
    · intro h; exact (show M * 2 ^ 60 = q * q by exact_mod_cast h).symm
  rw [hE2, hroot]
  have := fpRound_rounds n false (q := q) (x := c - 30) (sticky := decide (q * q ≠ M * 2 ^ 60))
    (r := Real.sqrt ((M * 2 ^ 60 : Nat) : ℝ) * 2 ^ (c - 30)) (by gcongr) (by gcongr)
    (fun h => by
      have : q * q = M * 2 ^ 60 := by simpa using h
      rw [b3.1 this])
    (fun h => by
      have h' : q * q ≠ M * 2 ^ 60 := by simpa using h
      exact ⟨fun h2 => h' (b3.2 (mul_right_cancel₀ hp.ne' h2)), hq⟩)
  simpa using this

/-- The quotient of two significands, with 60 more bits, rounded. -/
theorem fpQuotient_rounds (n : Nat) (neg : Bool) {m k : Nat} (e : Int) (hk : k ≠ 0) (hk' : k < 16777216) :
    (fpRound n neg (m * 2 ^ 60 / k) (e - 60) (decide (m * 2 ^ 60 % k ≠ 0))).Rounds
      ((if neg then -1 else 1) * ((m : ℝ) / k * 2 ^ e)) := by
  have hk0 : (0 : ℝ) < k := by exact_mod_cast Nat.pos_of_ne_zero hk
  have hp : (0 : ℝ) < 2 ^ (e - 60) := by positivity
  have he : (m : ℝ) / k * 2 ^ e = ((m * 2 ^ 60 : Nat) : ℝ) / k * 2 ^ (e - 60) := by
    rw [zpow_sub₀ (two_ne_zero' ℝ)]; push_cast; norm_num; field_simp
  have hdiv := Nat.div_add_mod (m * 2 ^ 60) k
  have hmod := Nat.mod_lt (m * 2 ^ 60) (Nat.pos_of_ne_zero hk)
  generalize hN : m * 2 ^ 60 = N at he hdiv hmod ⊢
  have c1 : ((N / k : Nat) : ℝ) ≤ (N : ℝ) / k := by
    rw [le_div_iff₀ hk0]; exact_mod_cast Nat.div_mul_le_self N k
  have c2 : (N : ℝ) / k < ((N / k : Nat) : ℝ) + 1 := by
    rw [div_lt_iff₀ hk0]
    have : N < (N / k + 1) * k := by rw [add_mul, one_mul, mul_comm]; omega
    exact_mod_cast this
  have c3 : N % k = 0 → (N : ℝ) / k = ((N / k : Nat) : ℝ) := fun h => by
    rw [div_eq_iff hk0.ne']
    have : N = N / k * k := by rw [mul_comm]; omega
    exact_mod_cast this
  rw [he]
  refine fpRound_rounds n neg (by gcongr) (by gcongr) (fun h => ?_) (fun h => ?_)
  · rw [c3 (by simpa using h)]
  · have h' : N % k ≠ 0 := by simpa using h
    refine ⟨fun h2 => h' ?_, ?_⟩
    · have h3 := mul_right_cancel₀ hp.ne' h2
      rw [div_eq_iff hk0.ne'] at h3
      have h4 : N = N / k * k := by exact_mod_cast h3
      rw [mul_comm] at h4; omega
    · have hm : m ≠ 0 := by rintro rfl; simp at hN; subst hN; simp at h'
      rw [Nat.le_div_iff_mul_le (Nat.pos_of_ne_zero hk), ← hN]
      have h3 : 16777216 * k ≤ 16777216 * 16777216 := Nat.mul_le_mul_left _ hk'.le
      have h4 : 1 * 2 ^ 60 ≤ m * 2 ^ 60 := Nat.mul_le_mul_right _ (Nat.one_le_iff_ne_zero.2 hm)
      norm_num at h3 h4 ⊢
      omega

/-! ### The flags the shared results raise (48_coprocessor.md R486) -/

theorem fpRound_described (n : Nat) (neg : Bool) (q : Nat) (x : Int) (s : Bool) : (fpRound n neg q x s).Described := by
  unfold FpOut.Described fpRound fpPlace fpZero fpOpen flagOF flagNX flagUF
  dsimp only
  repeat' split
  all_goals simp

theorem fpOfInt_described (n : Nat) (i x : Int) : (fpOfInt n i x).Described := fpRound_described ..

theorem fpZero_described (n : Nat) : (fpZero n).Described := by simp [FpOut.Described, fpZero]

theorem fpOpen_described (n : Nat) {f : BitVec 7} (h : f = 0#7 ∨ f = flagNV ∨ f = flagDZ ∨ f = flagOF ||| flagNX) :
    (fpOpen n f).Described := by
  rcases h with rfl | rfl | rfl | rfl <;> simp [FpOut.Described, fpOpen, flagNV, flagOF, flagNX, flagDZ]

theorem fpInfOpen_described (n : Nat) (neg : Bool) : (fpInfOpen n neg).Described := by
  unfold fpInfOpen; split <;> simp [FpOut.Described, fpOpen, flagOF, flagNX, fpInf]

theorem openFlags_described (n : Nat) (b : BitVec 7) : (fpOpen n (openFlags b)).Described := by
  have h : ∀ b : BitVec 7, (openFlags b).getLsbD 6 = false ∧ (openFlags b).getLsbD 0 = false ∧
      ((openFlags b).getLsbD 1 = true ∨ (openFlags b).getLsbD 2 = true → (openFlags b).getLsbD 3 = true) := by
    decide +kernel
  exact h b

theorem fpToIntOut_flags (n : Nat) : (fpToIntOut n).flags = 0x10#7 ∨ (fpToIntOut n).flags = 0x0A#7 := by
  unfold fpToIntOut fpOpen flagNV flagOF flagNX; split <;> simp

theorem fpToIntFrac_result (n : Nat) (i : Int) :
    ((fpToIntFrac n i).value = BitVec.ofInt 32 i ∨ (fpToIntFrac n i).value = BitVec.ofInt 32 (i + 1)) ∧
    ((fpToIntFrac n i).flags = 0#7 ∨ (fpToIntFrac n i).flags = 0x08#7) := by
  unfold fpToIntFrac flagNX; dsimp only; constructor <;> split <;> simp

end Sys2Proof.Machine
end

