-- ==== Sys2Proof/Laws/Results.lean ====
section
/-! SUPPORT. What a whole instruction leaves when its body writes a register, flags and a register, or raises an
exception: the effects of Sys2Proof/Safety.lean from the shape of the body. -/

namespace Sys2Proof.Machine

theorem State.retire_eq (s t : State) : s.retire t =
    { t with pc := s.ptarget.getD (s.pcAhead 1), ptarget := if s.ptarget.isSome then none else t.ptarget } := by
  unfold State.retire; cases s.ptarget <;> rfl

/-- A register write changes registers only (10_state.md R37). -/
theorem State.wr_frame (s : State) (i : Fin 32) (v : Word) :
    (s.wr i v).cr = s.cr ∧ (s.wr i v).psr = s.psr ∧ (s.wr i v).pc = s.pc ∧ (s.wr i v).ptarget = s.ptarget ∧
      (s.wr i v).m64 = s.m64 ∧ (s.wr i v).mem = s.mem ∧ s.SameUnits (s.wr i v) := by
  unfold State.wr State.SameUnits
  repeat' split
  all_goals simp

/-- Every exception that is taken has the effect `Raised` (60_exceptions.md R610). -/
theorem State.raised_raiseExc (s : State) (c : BitVec 8) : s.Raised c (s.raiseExc c) := by
  unfold State.Raised State.raiseExc State.SameRegs State.SameMem
  simp [Psr.handler]

theorem takeException_raised {s : State} (h : s.ptarget = none) (c : BitVec 8) :
    Completes (takeException s c) (s.Raised c) :=
  ⟨_, takeException_plain h c, s.raised_raiseExc c⟩

/-- A body that raises. -/
theorem run_raised {n : Need} {g : Option Guard} {s : State} {body : State → Res} {c : BitVec 8}
    (hi : s.illegal n g = false) (hg : s.guardHolds g = true) (hp : s.ptarget = none)
    (hb : body s.begin = .exc c) : Completes (run n g s body) (s.Raised c) := by
  rw [run_body (fun _ => hp) hi hg, hb]
  exact takeException_raised hp c

theorem State.canRun_legal {s : State} {g : Option Guard} (h : s.CanRun g) : s.illegal {} g = false := by
  obtain ⟨h, -⟩ := h
  cases g with
  | none => simp [State.illegal]
  | some g => simp [State.illegal, h]

/-- A body that writes one register. -/
theorem run_regResult {n : Need} {g : Option Guard} {s : State} {body : State → Res} {d : Fin 32} {v : Word}
    (hc : n.control = false) (hi : s.illegal n g = false) (hg : s.guardHolds g = true)
    (hb : body s.begin = .ok (s.begin.wr d v)) : Completes (run n g s body) (s.RegResult d v) := by
  refine ⟨s.retire (s.begin.wr d v), ?_, ?_⟩
  · rw [run_body (by simp [hc]) hi hg, hb]; rfl
  · obtain ⟨h1, h2, h3, h4, h5, h6, h7⟩ := s.begin.wr_frame d v
    rw [State.retire_eq]
    refine ⟨s.begin.wr_wrote d v, h1, h2, h5, h7, fun k => by simp, rfl, ?_⟩
    cases h : s.ptarget <;> simp [h]

/-- A body that writes one register and C0. -/
theorem run_flagResult {g : Option Guard} {s : State} {body : State → Res} {d : Fin 32} {v : Word} {f : Flags}
    (h : s.CanRun g) (hb : body s.begin = .ok ((s.begin.wr d v).setCr 0 f)) :
    Completes (run {} g s body) (s.FlagResult d v f) := by
  refine ⟨s.retire ((s.begin.wr d v).setCr 0 f), ?_, ?_⟩
  · rw [run_plain h, hb]; rfl
  · obtain ⟨h1, h2, h3, h4, h5, h6, h7⟩ := s.begin.wr_frame d v
    rw [State.retire_eq]
    refine ⟨s.begin.wr_wrote d v, by simp [State.setCr], fun k hk hn => ?_, h2, h5, h7, fun k => by simp,
      rfl, ?_⟩
    · simp [State.setCr, Ne.symm hn]
    · cases h : s.ptarget <;> simp [h]

end Sys2Proof.Machine
end

