-- ==== Sys2Proof/Tests/Slice0.lean ====
section
/-! SUPPORT. The model's own tests: ill-formed terms, decoded words, one step of each instruction, and for every
statement with hypotheses a state and operands that meet them. Expected values are computed by hand from the rules
named. -/

set_option Elab.async false

namespace Sys2Proof.Tests
open Sys2Proof.Machine

/-! ### Well-formedness: each check refuses a term (30_encoding.md R150) -/

theorem test_wf_addi_signed : Instr.wf (.addi (.w32 none 1 2 16384)) = false := rfl
theorem test_wf_addi_conditional : Instr.wf (.addi (.w32 (some ⟨.eq, 0⟩) 1 2 256)) = false := rfl
theorem test_wf_addi_short : Instr.wf (.addi (.w16 1 64)) = false := rfl
theorem test_wf_muli_low : Instr.wf (.muli (.w16 1 (-65))) = false := rfl
theorem test_wf_addiu_unsigned : Instr.wf (.addiu (.w32 none 1 2 (-1))) = false := rfl
theorem test_wf_ori_conditional : Instr.wf (.ori (.w32 (some ⟨.eq, 0⟩) 1 2 512)) = false := rfl
theorem test_wf_andi_short : Instr.wf (.andi (.w16 1 128)) = false := rfl
theorem test_wf_shift : Instr.wf (.slli (.w32 none 1 2 33)) = false := rfl
theorem test_wf_sexti : Instr.wf (.sexti (.w16 1 32)) = false := rfl
theorem test_wf_exb : Instr.wf (.exb (.w32 none 1 2 4)) = false := rfl
theorem test_wf_exh : Instr.wf (.exh (.w16 1 2 2)) = false := rfl
theorem test_wf_exbfi_length : Instr.wf (.exbfi 1 2 33 0) = false := rfl
theorem test_wf_exbfi_position : Instr.wf (.exbfi 1 2 0 32) = false := rfl
theorem test_wf_lli : Instr.wf (.lli 1 65536) = false := rfl
theorem test_wf_branch : Instr.wf (.beq (.w32 0 2097152)) = false := rfl
theorem test_wf_branch_short : Instr.wf (.beq (.w16 512)) = false := rfl
theorem test_wf_jump : Instr.wf (.jmp (.w32 16777216)) = false := rfl
theorem test_wf_cmpi : Instr.wf (.cmpi (.w32 0 1 65536)) = false := rfl
theorem test_wf_ld : Instr.wf (.ld (.w16 1 2 8)) = false := rfl
theorem test_wf_st_conditional : Instr.wf (.st (.w32 (some ⟨.eq, 0⟩) 1 2 256)) = false := rfl
theorem test_wf_chrs : Instr.wf (.chrs .m32 4) = false := rfl
theorem test_wf_trap : Instr.wf (.trap 32) = false := rfl

/-! ### One step of each instruction -/

/-- Super-user mode, 32-bit mode, register set 1, at 100H, with two `nop`s after the instruction and in both modes. -/
def base : State :=
  { State.resetAt 0x100#32 Config.copPresent with
    psr := { ie := false, il := true, rswr := false, rsrd := false, um := false }
    set1 := #v[0#32, 100#32, 7#32, 0xFFFFFFFF#32, 0x80000000#32, 0x12345678#32, 0x2000#32, 0x7FFFFFFF#32,
      33#32, 260#32, 0x10000#32, 0x60#32, 0#32, 0#32, 0#32, 0#32, 0#32, 0#32, 0#32, 0#32, 0#32, 0#32, 0#32, 0#32,
      5#32, 9#32, 0#32, 0#32, 0#32, 0#32, 0#32, 0#32]
    imem := [⟨0x104, .m32, .nop .m32⟩, ⟨0x108, .m32, .nop .m32⟩]
    cops := #v[.milk { Milk.reset with f := #v[0#32, 0x3FC00000#32, 0x40200000#32, 0xC0A00000#32, 0xFFFFFFFB#32,
      0x7F800000#32, 0#32, 0x40100000#32] }, .absent, .absent, .absent] }

/-- The same in 16-bit mode. -/
def base16 : State :=
  { base with
    psr := { base.psr with il := false }
    imem := [⟨0x102, .m16, .nop .m16⟩, ⟨0x104, .m16, .nop .m16⟩] }

/-- The same in user mode. -/
def user : State := { base with psr := { base.psr with um := true } }

/-- What holds of the next state, if there is one. -/
def after {α : Type} (i : Instr) (s : State) (f : State → α) : Option α :=
  match exec i s with
  | .next t => some (f t)
  | _ => none

/-- The refusal, if there is one. -/
def stop (r : Host.Outcome State Fault Refusal) : Option Refusal :=
  match r with
  | .refused r => some r
  | _ => none

-- R309: 100 + 7; the flags of 0FFFFFFFFH + 7 = 6 with carry.
theorem test_add : after (.add (.w32 none 12 1 2)) base (·.set1[12]) = some 107#32 := by decide +kernel
theorem test_add_overflow : after (.add (.w32 none 12 7 7)) base (·.ccb.exceptionCs) = some 6#8 := by decide +kernel
theorem test_addu : after (.addu (.w32 none 12 3 2)) base (fun t => (t.set1[12], t.cr[0])) =
    some (6#32, ⟨false, false, true⟩) := by decide +kernel
theorem test_addi : after (.addi (.w32 none 12 2 (-7))) base (fun t => (t.set1[12], t.cr[0])) =
    some (0#32, ⟨true, false, true⟩) := by decide +kernel
theorem test_addiu : after (.addiu (.w32 none 12 2 32767)) base (·.set1[12]) = some 32774#32 := by decide +kernel
-- R306: in 16-bit mode dr is source and destination, field n names register 24 + n.
theorem test_addi_short : after (.addi (.w16 0 3)) base16 (·.set1[24]) = some 8#32 := by decide +kernel
theorem test_sub : after (.sub (.w32 none 12 2 1)) base (·.set1[12]) = some 0xFFFFFFA3#32 := by decide +kernel
theorem test_sub_overflow : after (.sub (.w32 none 12 4 2)) base (·.ccb.exceptionCs) = some 6#8 := by decide +kernel
-- R306: `sub dr, sr` is sr - dr: 9 - 5.
theorem test_subu_short : after (.subu (.w16 0 1)) base16 (·.set1[24]) = some 4#32 := by decide +kernel
-- R305: -1 * 7 = -7; unsigned (2^32 - 1) * 7; mixed (2^32 - 1) * -1.
theorem test_muls : after (.muls (.w32 none 12 3 2)) base (fun t => (t.set1[12], t.m64)) =
    some (0xFFFFFFF9#32, some 0xFFFFFFFFFFFFFFF9#64) := by decide +kernel
theorem test_mulu : after (.mulu (.w32 none 12 3 2)) base (·.m64) = some (some 0x6FFFFFFF9#64) := by decide +kernel
theorem test_mulus : after (.mulus (.w32 none 12 2 3)) base (·.m64) = some (some 0xFFFFFFFFFFFFFFF9#64) := by
  decide +kernel
theorem test_muli : after (.muli (.w32 none 12 4 (-2))) base (·.m64) = some (some 0x100000000#64) := by decide +kernel
-- R308: the upper word of the product of the instruction before.
theorem test_mulhi : after (.mulhi (.w32 none 12)) { base with m64 := some 0x6FFFFFFF9#64 } (·.set1[12]) =
    some 6#32 := by decide +kernel
-- R308: without a product the instruction is refused.
theorem test_mulhi_no_product : stop (exec (.mulhi (.w32 none 12)) base) = some .noProduct := by decide +kernel
-- R316, R318, R319 on FFFFH and 7.
theorem test_muls16 : after (.muls16 (.w32 none 12 3 2)) base (·.set1[12]) = some 0xFFFFFFF9#32 := by decide +kernel
theorem test_mulu16 : after (.mulu16 (.w32 none 12 3 2)) base (·.set1[12]) = some 0x6FFF9#32 := by decide +kernel
theorem test_mulus16 : after (.mulus16 (.w32 none 12 2 3)) base (·.set1[12]) = some 0xFFFFFFF9#32 := by decide +kernel
-- R340, R341, R343, R344 on 12345678H.
theorem test_conb : after (.conb (.w32 none 12 5 2)) base (·.set1[12]) = some 0x7807#32 := by decide +kernel
theorem test_conh : after (.conh (.w32 none 12 5 2)) base (·.set1[12]) = some 0x56780007#32 := by decide +kernel
theorem test_conh_short : after (.conh (.w16 0 1)) base16 (·.set1[24]) = some 0x50009#32 := by decide +kernel
theorem test_exb : after (.exb (.w32 none 12 5 1)) base (·.set1[12]) = some 0x56#32 := by decide +kernel
theorem test_exh : after (.exh (.w32 none 12 5 1)) base (·.set1[12]) = some 0x1234#32 := by decide +kernel
-- R345: R9 = 260 asks for 8 bits from bit 4.
theorem test_exbf : after (.exbf (.w32 none 12 5 9)) base (·.set1[12]) = some 0x67#32 := by decide +kernel
theorem test_exbfi : after (.exbfi 12 5 12 20) base (·.set1[12]) = some 0x123#32 := by decide +kernel
theorem test_exbfi_word : after (.exbfi 12 5 32 0) base (·.set1[12]) = some 0x12345678#32 := by decide +kernel
theorem test_lli : after (.lli 5 0xFFFF) base (·.set1[5]) = some 0xFFFF#32 := by decide +kernel
theorem test_lui : after (.lui 5 0xFFFF) base (·.set1[5]) = some 0xFFFF5678#32 := by decide +kernel
-- R349: position 7 (R2): bit 7 of FFFFFFFFH; R350: position 5 of 60H, whose bit 5 is 1.
theorem test_sext : after (.sext (.w32 none 12 1 2)) base (·.set1[12]) = some 100#32 := by decide +kernel
theorem test_sexti : after (.sexti (.w32 none 12 11 5)) base (·.set1[12]) = some 0xFFFFFFE0#32 := by decide +kernel
-- R371 to R376.
theorem test_and : after (.and (.w32 none 12 5 11)) base (·.set1[12]) = some 0x60#32 := by decide +kernel
theorem test_andi : after (.andi (.w32 none 12 3 0x7FFF)) base (·.set1[12]) = some 0x7FFF#32 := by decide +kernel
theorem test_or : after (.or (.w32 none 12 4 2)) base (·.set1[12]) = some 0x80000007#32 := by decide +kernel
theorem test_ori : after (.ori (.w32 none 12 4 9)) base (·.set1[12]) = some 0x80000009#32 := by decide +kernel
theorem test_xor : after (.xor (.w32 none 12 3 5)) base (·.set1[12]) = some 0xEDCBA987#32 := by decide +kernel
theorem test_not : after (.not (.w32 none 12 5)) base (·.set1[12]) = some 0xEDCBA987#32 := by decide +kernel
theorem test_mov : after (.mov (.w16 0 1)) base16 (·.set1[24]) = some 9#32 := by decide +kernel
-- R440 to R449: R8 = 33 asks for a shift of 32.
theorem test_sll : after (.sll (.w32 none 12 3 8)) base (fun t => (t.set1[12], t.cr[0])) =
    some (0#32, ⟨true, false, true⟩) := by decide +kernel
theorem test_slli : after (.slli (.w32 none 12 4 1)) base (fun t => (t.set1[12], t.cr[0])) =
    some (0#32, ⟨true, false, true⟩) := by decide +kernel
theorem test_sra : after (.sra (.w32 none 12 4 8)) base (·.set1[12]) = some 0xFFFFFFFF#32 := by decide +kernel
theorem test_srai : after (.srai (.w32 none 12 4 4)) base (·.set1[12]) = some 0xF8000000#32 := by decide +kernel
theorem test_srl : after (.srl (.w32 none 12 4 2)) base (·.set1[12]) = some 0x01000000#32 := by decide +kernel
theorem test_srli : after (.srli (.w32 none 12 3 32)) base (·.set1[12]) = some 0#32 := by decide +kernel
-- R433: 80000000H < 7 as signed numbers.
theorem test_cmp : after (.cmp (.w32 3 4 2)) base (fun t => (t.cr[3].z, t.cr[3].n)) = some (false, true) := by
  decide +kernel
theorem test_cmpi : after (.cmpi (.w32 7 3 (-1))) base (fun t => (t.cr[7].z, t.cr[7].n)) = some (true, false) := by
  decide +kernel

/-- All flags of C5 set, or none. -/
def flagged (b : Bool) : State := { base with cr := base.cr.set 5 ⟨b, b, b⟩ }

-- R391: the target is 100H + 4 + 2 * 6 = 110H, the slot 104H.
theorem test_bc : after (.bc (.w32 5 6)) (flagged true) (fun t => (t.pc, t.ptarget)) =
    some (0x104#32, some 0x110#32) := by decide +kernel
theorem test_begt : after (.begt (.w32 5 6)) (flagged false) (·.ptarget) = some (some 0x110#32) := by decide +kernel
theorem test_belt : after (.belt (.w32 5 6)) (flagged true) (·.ptarget) = some (some 0x110#32) := by decide +kernel
theorem test_beq : after (.beq (.w32 5 (-2))) (flagged true) (·.ptarget) = some (some 0x100#32) := by decide +kernel
theorem test_bgt : after (.bgt (.w32 5 6)) (flagged false) (·.ptarget) = some (some 0x110#32) := by decide +kernel
theorem test_blt : after (.blt (.w32 5 6)) (flagged true) (·.ptarget) = some (some 0x110#32) := by decide +kernel
theorem test_bne : after (.bne (.w32 5 6)) (flagged false) (·.ptarget) = some (some 0x110#32) := by decide +kernel
theorem test_bnc : after (.bnc (.w32 5 6)) (flagged false) (·.ptarget) = some (some 0x110#32) := by decide +kernel
theorem test_branch_misaligned : after (.bc (.w32 5 5)) (flagged true) (·.ccb.exceptionCs) = some 3#8 := by
  decide +kernel
theorem test_jmp_outside : after (.jmp (.w32 (-200))) base (·.ccb.exceptionCs) = some 4#8 := by decide +kernel
theorem test_jmp : after (.jmp (.w16 3)) base16 (fun t => (t.pc, t.ptarget)) =
    some (0x102#32, some 0x108#32) := by decide +kernel
theorem test_jal : after (.jal (.w32 6)) base (fun t => (t.set1[31], t.ptarget)) =
    some (0x108#32, some 0x110#32) := by decide +kernel
theorem test_jmpr : after (.jmpr (.w32 none 6)) base (·.ptarget) = some (some 0x2000#32) := by decide +kernel
theorem test_jalr : after (.jalr (.w32 none 31)) { base with set1 := base.set1.set 31 0x40#32 }
    (fun t => (t.set1[31], t.ptarget)) = some (0x108#32, some 0x40#32) := by decide +kernel
theorem test_jalr_misaligned : after (.jalr (.w32 none 2)) base (fun t => (t.set1[31], t.ccb.exceptionCs)) =
    some (0#32, 3#8) := by decide +kernel

-- R463, R120: the word 12345678H at 2000H, most significant byte first; R461 reads it back.
theorem test_st : after (.st (.w32 none 5 6 0)) base (·.mem) =
    some [(0x2000, 0x12#8), (0x2001, 0x34#8), (0x2002, 0x56#8), (0x2003, 0x78#8)] := by decide +kernel
theorem test_ld : after (.ld (.w32 none 12 6 (-4))) { base with mem := [(0x1FFC, 0xAB#8), (0x1FFF, 0xCD#8)] }
    (·.set1[12]) = some 0xAB0000CD#32 := by decide +kernel
-- R464: 100 - 101 is no address; in user mode 2000H above DMEM_BOUND_HI.
theorem test_ld_outside : after (.ld (.w32 none 12 1 (-101))) base (·.ccb.exceptionCs) = some 8#8 := by decide +kernel
theorem test_st_protected : after (.st (.w32 none 5 6 0)) { user with ccb := { user.ccb with dmemBoundLo := 0x3000#32, memConf := 0#2 } }
    (fun t => (t.ccb.exceptionCs, t.mem)) = some (7#8, []) := by decide +kernel
-- R113, R714: the instruction after a remap may not load from the old range of the CCB.
theorem test_ld_remapped : stop (exec (.ld (.w32 none 12 6 0)) { base with ccbMoved := some 0x2000#32 }) =
    some .ccbRemapAccess := by decide +kernel
-- R83, R111: BUS_CONF at offset 1FH of the CCB takes 12 bits; a load of MEM_CONF after reset gives 3.
theorem test_st_ccb : after (.st (.w32 none 3 10 0x1F)) base (·.ccb.busConf) = some 0xFFF#12 := by decide +kernel
theorem test_ld_ccb : after (.ld (.w32 none 12 10 0x1C)) base (·.set1[12]) = some 3#32 := by decide +kernel

-- R521 to R531.
theorem test_chrs : after (.chrs .m32 2) base (fun t => (t.psr.rsrd, t.psr.rswr)) = some (false, true) := by
  decide +kernel
theorem test_chrs_user : after (.chrs .m32 2) user (·.ccb.exceptionCs) = some 2#8 := by decide +kernel
theorem test_di : after (.di .m32) { base with psr := { base.psr with ie := true } } (·.psr.ie) = some false := by
  decide +kernel
theorem test_ei : after (.ei .m32) base (·.psr.ie) = some true := by decide +kernel
theorem test_nop : after (.nop .m16) base16 (·.pc) = some 0x102#32 := by decide +kernel
theorem test_rcon : after (.rcon (.w32 2)) base (fun t => (t.cr[0], t.cr[1])) =
    some (⟨true, true, true⟩, ⟨false, false, false⟩) := by decide +kernel
theorem test_scon : after (.scon (.w32 12)) (flagged true) (·.set1[12]) = some 0x38000#32 := by decide +kernel
theorem test_scall : after (.scall (.w32 none)) base (fun t => (t.pr31, t.psr.toBits, t.pc)) =
    some (0x108#32, 0x0E#8, 1#32) := by decide +kernel
theorem test_retu : after (.retu .m32) { base with spsr := 0x1E#32, pr31 := 0x80#32 } (fun t => (t.psr.toBits, t.pc)) =
    some (0x19#8, 0x80#32) := by decide +kernel

/-- Source 3 is in service, its context on the hardware stack. -/
def served : State :=
  { base with
    hws := [⟨0x40#32, 0x18#8, ⟨true, false, true⟩, 3⟩, ⟨0x50#32, 0x08#8, ⟨false, false, false⟩, 7⟩]
    ccb := { base.ccb with intServ := 0x088#12 } }

theorem test_reti : after (.reti .m32) served (fun t => (t.pc, t.psr.toBits, t.cr[0], t.ccb.intServ)) =
    some (0x40#32, 0x18#8, ⟨true, false, true⟩, 0x080#12) := by decide +kernel
theorem test_swm : after (.swm .m32 .m16) base (fun t => (t.psr.il, t.pc)) = some (false, 0x10C#32) := by
  decide +kernel
theorem test_trap : after (.trap 5) base (fun t => (t.ccb.exceptionCs, t.ccb.exceptionPc, t.ccb.exceptionPsr, t.pc)) =
    some (229#8, 0x100#32, 0x08#8, 1#32) := by decide +kernel
-- R158: an instruction of 32-bit mode only.
theorem test_lui_short : after (.lui 0 0) base16 (·.ccb.exceptionCs) = some 2#8 := by decide +kernel

/-- A register of the Milk in slot 0. -/
def fReg (k : Fin 8) (t : State) : Option Word :=
  match t.cops[0] with
  | .milk m => some m.f[k.val]
  | _ => none

/-- The status register of the Milk in slot 0. -/
def fStatus (t : State) : Option Word :=
  match t.cops[0] with
  | .milk m => some m.fsr
  | _ => none

theorem test_movfc : after (.movfc (.w32 none 0 1 12)) base (·.set1[12]) = some 0x3FC00000#32 := by decide +kernel
theorem test_movtc : after (.movtc (.w16 0 6 1)) base16 (fReg 6) = some (some 9#32) := by decide +kernel
theorem test_cop : after (.cop 1 5#24) base (fun t => (t.out, t.cops[1])) = some ([.copRgi 0#5], .absent) := by
  decide +kernel
-- R490 to R500, IEEE single precision: 1.5 + 2.5 = 4; 1.5 * 2.5 = 3.75; sqrt 2.25 = 1.5.
theorem test_fadd : after (.fadd ⟨0, 6, 1, 2, 0⟩) base (fReg 6) = some (some 0x40800000#32) := by decide +kernel
theorem test_fmul : after (.fmul ⟨0, 6, 1, 2, 0⟩) base (fReg 6) = some (some 0x40700000#32) := by decide +kernel
theorem test_fsub_value : fpSub 0 0x3FC00000#32 0x40200000#32 = ⟨0xBF800000#32, 0#7⟩ := by decide +kernel
theorem test_fsub_done : (after (.fsub ⟨0, 6, 1, 2, 0⟩) base (·.pc)) = some 0x104#32 := by decide +kernel
theorem test_fdiv_value : fpDiv 0 0x40700000#32 0x3FC00000#32 = ⟨0x40200000#32, 0#7⟩ := by decide +kernel
theorem test_fdiv_by_zero : (fpDiv 0 0x3F800000#32 0#32).flags = 0x20#7 := by decide +kernel
theorem test_fdiv_done : (after (.fdiv ⟨0, 6, 1, 2, 0⟩) base (·.pc)) = some 0x104#32 := by decide +kernel
theorem test_fsqrt : after (.fsqrt ⟨0, 6, 7, 0, 0⟩) base (fReg 6) = some (some 0x3FC00000#32) := by decide +kernel
theorem test_fsqrt_negative : after (.fsqrt ⟨0, 6, 3, 0, 0⟩) base fStatus = some (some 0x810#32) := by decide +kernel
theorem test_fabs : after (.fabs ⟨0, 6, 3, 0, 0⟩) base (fReg 6) = some (some 0x40A00000#32) := by decide +kernel
theorem test_fmov : after (.fmov ⟨0, 6, 5, 0, 0⟩) base (fReg 6) = some (some 0x7F800000#32) := by decide +kernel
theorem test_fneg : after (.fneg ⟨0, 6, 1, 0, 0⟩) base (fReg 6) = some (some 0xBFC00000#32) := by decide +kernel
theorem test_fnop : after (.fnop ⟨0, 0, 0, 0, 0⟩) base (fun t => (fReg 6 t, fStatus t)) = some (some 0#32, some 0#32) := by
  decide +kernel
theorem test_fcvts : after (.fcvts ⟨0, 6, 4, 0, 0⟩) base (fReg 6) = some (some 0xC0A00000#32) := by decide +kernel
theorem test_fcvtw : after (.fcvtw ⟨0, 6, 3, 0, 0⟩) base (fReg 6) = some (some 0xFFFFFFFB#32) := by decide +kernel
theorem test_fcc : after (.fcc 0x20#6 ⟨0, 6, 1, 2, 0⟩) base fStatus = some (some 0#32) := by decide +kernel
theorem test_fadd_overflows : (fpAdd 0 0x7F7FFFFF#32 0x7F7FFFFF#32).flags = 0x0A#7 := by decide +kernel

/-! ### The step -/

/-- The outcome's next state. -/
def next {α : Type} (r : Host.Outcome State Fault Refusal) (f : State → α) : Option α :=
  match r with
  | .next t => some (f t)
  | _ => none

/-- `add R12, R1, R2` at the pc. -/
def ready : State := { base with imem := [⟨0x100, .m32, .add (.w32 none 12 1 2)⟩] }

theorem test_step : next (step ready) (·.set1[12]) = some 107#32 := by decide +kernel
theorem test_step_misaligned : next (step { ready with pc := 0x102#32 }) (·.ccb.exceptionCs) = some 5#8 := by
  decide +kernel
theorem test_step_slot : next (step { ready with ptarget := some 0x200#32 }) (fun t => (t.pc, t.ptarget)) =
    some (0x200#32, none) := by decide +kernel

/-- Sources 2 and 3 wait, 2 by a request of this boundary; 2 has the better priority number. -/
def asked : State :=
  { ready with
    psr := { ready.psr with ie := true }
    requests := [0x004#12]
    ccb := { ready.ccb with intMask := 0xFFF#12, intPend := 0x008#12, copIntPri := 0x1011#16, intModeUm := 0#12, intVec := ready.ccb.intVec.set 2 0x300#32 } }

theorem takeInterrupt_empty (k : Fin 12) {s : State} (h : s.hws = []) : takeInterrupt k s = .next (s.enterInterrupt k) := by
  unfold takeInterrupt; rw [if_pos (by rw [h]; exact Nat.succ_pos _)]

theorem step_asked : step asked = .next (asked.sampleRequests.enterInterrupt 2) := by
  have h1 : asked.sampleRequests.foreignSet = false := by decide +kernel
  have h2 : asked.sampleRequests.accepted = some 2 := by decide +kernel
  unfold step
  simp only [h1, h2]
  exact takeInterrupt_empty 2 (s := asked.sampleRequests) (by decide +kernel)

-- R641: the handler of source 2 runs in super-user mode with IE = 0; the return address is 100H.
theorem test_interrupt : next (step asked) (fun t => (t.hws.map (·.addr), t.ccb.intServ, t.ccb.intPend, t.psr.toBits)) =
    some ([0x100#32], 0x004#12, 0x008#12, 0x0E#8) := by rw [step_asked]; decide +kernel
theorem test_no_interrupt_in_slot : next (step { asked with ptarget := some 0x200#32 }) (·.pc) = some 0x200#32 := by
  decide +kernel
-- R644: HWS_DEPTH entries fill the hardware stack.
theorem test_stack_full : takeInterrupt 2 { asked with hws := List.replicate Config.hwsDepth ⟨0#32, 0#8, ⟨false, false, false⟩, 0⟩ } =
    .fault .hwsFull := by simp [takeInterrupt]
theorem test_user_foreign_set : stop (step { ready with psr := { ready.psr with um := true, rsrd := true } }) =
    some .userForeignSet := by decide +kernel
theorem test_slot_branch : stop (exec (.jmp (.w32 0)) { base with ptarget := some 0x200#32 }) = some .controlInSlot := by
  decide +kernel
-- R486: flags that are open stay free of UI and DW, and OF comes with NX.
theorem test_open_flags : openFlags 0x43#7 = 0x0A#7 := by decide
-- R500: 2^31 is too large; R440: a shift immediate of 40, which no well-formed term has, counts as 32.
theorem test_fcvtw_large : fpToInt 0 0x4F000000#32 = fpToIntOut 0 := by
  have h : fpVal 0x4F000000#32 = .num false 8388608 8 := by decide +kernel
  simp [fpToInt, h, fpScaled]
theorem test_slli_saturates : after (.slli (.w32 none 12 3 40)) base (fun t => (t.set1[12], t.cr[0])) =
    some (0#32, ⟨true, false, true⟩) := by decide +kernel

/-! ### For every statement with hypotheses, a state and operands that meet them -/

/-- A prefix on C5 that holds in `flagged true`. -/
def onC5 : Option Guard := some ⟨.eq, 5⟩

theorem canRun_plain (s : State) : s.CanRun none := ⟨nofun, rfl⟩
theorem canRun_prefix : (flagged true).CanRun onC5 := ⟨fun _ => rfl, by decide +kernel⟩

theorem witness_RegisterReadFollowsSelectedSet :
    let s : State := { State.resetAt 0#32 Config.copPresent with spsr := 5#32, pr31 := 6#32 }
    base.psr.rsrd = false ∧ base.rd 31 = 0#32 ∧ s.psr.rsrd = true ∧ s.rd 28 = 0#32 ∧ s.rd 29 = 0x0E#32 ∧
      s.rd 30 = 5#32 ∧ s.rd 31 = 6#32 := by decide +kernel

/-- The largest sum and the least difference without overflow. -/
theorem witness_AdditionWritesSumAndFlags :
    (flagged true).CanRun onC5 ∧ (OpsRR.w32 onC5 12 7 0).guard = onC5 ∧ ((flagged true).rd 7).toInt = 2147483647 ∧
      ((flagged true).rd 7).toInt + ((flagged true).rd 0).toInt ≤ 2147483647 ∧
      -2147483648 ≤ ((flagged true).rd 7).toInt + ((flagged true).rd 0).toInt :=
  ⟨canRun_prefix, rfl, by decide +kernel, by decide +kernel, by decide +kernel⟩

theorem witness_SubtractionWritesDifferenceAndFlags :
    base.CanRun (OpsRR.w32 none 12 4 0).guard ∧ -2147483648 ≤ (base.rd 4).toInt - (base.rd 0).toInt ∧
      (base.rd 4).toInt - (base.rd 0).toInt ≤ 2147483647 :=
  ⟨canRun_plain _, by decide +kernel, by decide +kernel⟩

theorem witness_SignedOverflowRaisesSix :
    base.CanRun none ∧ base.ptarget = none ∧ 2147483647 < (base.rd 7).toInt + (BitVec.ofInt 32 1).toInt ∧
      2147483647 < (base.rd 7).toInt + (base.rd 2).toInt ∧ (base.rd 4).toInt - (base.rd 2).toInt < -2147483648 :=
  ⟨canRun_plain _, rfl, by decide +kernel, by decide +kernel, by decide +kernel⟩

/-- For every statement whose hypothesis is `CanRun` of a 16-bit, an unconditional and a conditional form. -/
theorem witness_CanRun : base16.CanRun (OpsRR.w16 0 1).guard ∧ base.CanRun (OpsRR.w32 none 1 2 3).guard ∧
    (flagged true).CanRun (OpsRR.w32 onC5 1 2 3).guard :=
  ⟨canRun_plain _, canRun_plain _, canRun_prefix⟩

theorem witness_MulhiAfterMultiplication :
    base.CanRun (OpsRR.w32 none 12 3 2).guard ∧
    (after (.mulu (.w32 none 12 3 2)) base fun t => decide (t.m64 ≠ none) && t.guardHolds none) = some true ∧
    base.m64 = none ∧ ({ base with m64 := some 0x6FFFFFFF9#64 } : State).m64 = some 0x6FFFFFFF9#64 ∧
    State.CanRun { base with m64 := some 0x6FFFFFFF9#64 } (OpsR1.w32 none 12).guard :=
  ⟨canRun_plain _, by decide +kernel, rfl, rfl, canRun_plain _⟩

theorem witness_ProductLastsOneInstruction :
    after (.muli (.w32 none 12 3 2)) base (fun t => decide (t.m64 ≠ none)) = some true := by decide +kernel

theorem witness_ExtractionResults :
    base.CanRun (OpsRRI.w32 none 12 5 3).guard ∧ (0 : Int) ≤ 3 ∧ base.psr.il = true ∧
      (base.rd 9).toNat / 32 % 64 = 8 ∧ (base.rd 9).toNat % 32 = 4 ∧ 4 + 8 ≤ 32 ∧ 0 + 32 ≤ 32 ∧ 31 + 1 ≤ 32 ∧
      ¬ 31 + 2 ≤ 32 := ⟨canRun_plain _, by decide +kernel⟩

theorem witness_ConstantAndMoveResults : base.psr.il = true ∧ 65535 < 65536 ∧ base16.CanRun (OpsR2.w16 0 1).guard :=
  ⟨rfl, by decide, canRun_plain _⟩

theorem witness_SignExtensionResults :
    base.CanRun (OpsRI.w32 none 12 5 31).guard ∧ 0 ≤ (OpsRI.w32 none 12 5 31).imm ∧
      (OpsRI.w32 none 12 5 31).imm ≤ 31 := ⟨canRun_plain _, by decide⟩

theorem witness_BooleanResults :
    base.CanRun (OpsRI.w32 none 12 5 32767).guard ∧ 0 ≤ (OpsRI.w32 none 12 5 32767).imm ∧
      (OpsRI.w32 none 12 5 32767).imm ≤ 32767 := ⟨canRun_plain _, by decide⟩

theorem witness_LeftShiftResults :
    base.CanRun (OpsRI.w32 none 12 5 32).guard ∧ 0 ≤ (OpsRI.w32 none 12 5 32).imm ∧ (OpsRI.w32 none 12 5 32).imm ≤ 32 ∧
      min ((base.rd 8).toNat % 64) 32 = 32 := ⟨canRun_plain _, by decide +kernel⟩

theorem witness_RightShiftResults :
    base.CanRun (OpsRI.w16 0 0).guard ∧ 0 ≤ (OpsRI.w16 0 0).imm ∧ (OpsRI.w16 0 0).imm ≤ 32 ∧
      min ((base.rd 8).toNat % 64) 32 = 32 := ⟨canRun_plain _, by decide +kernel⟩

theorem witness_CompareWritesFlags : (OpsCmp.w32 3 4 2).cr = 3 ∧ (OpsCmpi.w16 2 (-1)).cr = 0 := by decide

/-- A prefix `lt` on Z = 0, N = 0. -/
theorem witness_ConditionsExactAfterCompare :
    ¬(Cond.lt = .lt ∧ (flagged false).cr[5].z = true ∧ (flagged false).cr[5].n = true) ∧
      (flagged false).guardHolds (some ⟨.lt, 5⟩) = false := by decide +kernel

theorem witness_ConditionRegisterWriters :
    after (.cmpi (.w32 7 3 (-1))) base (fun t => t.cr[7].z != base.cr[7].z) = some true ∧
    after (.slli (.w32 none 12 4 1)) base (fun t => t.cr[0].z != base.cr[0].z) = some true ∧
    after (.rcon (.w32 2)) base (fun t => t.cr[0].z != base.cr[0].z) = some true := by decide +kernel

theorem witness_BranchResults :
    base.ptarget = none ∧ base.GoodTarget (base.pc.toNat + base.len + 2 * (OpsBr.w32 5 (-130)).imm) ∧
      condHolds .c (flagged true).cr[5] = true ∧ condHolds .c (flagged false).cr[5] = false ∧
      base.pc.toNat + base.len < 4294967296 := by
  unfold State.GoodTarget; decide +kernel

theorem witness_JumpResults :
    base.ptarget = none ∧ base.GoodTarget (base.pc.toNat + base.len + 2 * (OpsJ.w32 (-130)).imm) ∧
      base.guardHolds (OpsR1.w32 none 6).guard = true ∧ base.GoodTarget (base.rd 6).toNat ∧
      base.pc.toNat + 2 * base.len < 4294967296 := by
  unfold State.GoodTarget; decide +kernel

/-- The targets -2, 2 modulo 4, and, in user mode with an empty window, 4. -/
theorem witness_BadTargetRaisesException :
    let s : State := { user with ccb := { user.ccb with imemBoundLo := 4#32, imemBoundHi := 4#32 } }
    s.ptarget = none ∧ condHolds .eq s.cr[5] = false ∧ s.guardHolds none = true ∧
      (s.pc.toNat + s.len + 2 * (-131) : Int) < 0 ∧ (s.pc.toNat + s.len + 2 * (-129) : Int) % s.len ≠ 0 ∧
      (s.pc.toNat + s.len + 2 * (-128) : Int) = 4 ∧ s.psr.um = true ∧ s.iallowed 4 = false ∧
      (s.rd 2).toNat % s.len ≠ 0 := by decide +kernel

theorem witness_SlotInstructionGoesToTarget :
    after (.nop .m32) { base with ptarget := some 0x40#32 } (·.pc) = some 0x40#32 := by decide +kernel

/-- A data address below the CCB, one above the external registers, the last word of the memory. -/
theorem witness_LoadResults :
    base.CanRun none ∧ base.ccbMoved = none ∧ base.GoodData (base.dataAddr 6 0) ∧ base.dataAddr 6 0 = 0x2000 ∧
      0x2000 < base.ccb.ccbBase.toNat ∧ base.GoodData 0xFFFFFFFC ∧ base.ccb.regspcEnd.toNat < 0xFFFFFFFC := by
  refine ⟨canRun_plain _, ?_⟩; unfold State.GoodData; decide +kernel

/-- The same address with no remap before, and right after one of a CCB at 3000H. -/
theorem witness_AccessDefined : base.AccessDefined (base.dataAddr 6 0) ∧
    State.AccessDefined { base with ccbMoved := some 0x3000#32 } (base.dataAddr 6 0) := by
  unfold State.AccessDefined
  exact ⟨⟨fun _ h => (nomatch h), .inl (by decide +kernel)⟩,
    ⟨fun b h => by obtain rfl := Option.some.inj h; decide +kernel, .inl (by decide +kernel)⟩⟩

theorem witness_StoreToDataMemory :
    Memory.wf base.mem ∧ base.CanRun none ∧ base.ccbMoved = none ∧ base.dataAddr 10 256 = 0x10100 ∧
      base.GoodData 0x10100 ∧ base.ccb.ccbBase.toNat + 255 < 0x10100 ∧ base.ccb.regspcEnd.toNat < 0x10100 := by
  refine ⟨by decide +kernel, canRun_plain _, ?_⟩; unfold State.GoodData; decide +kernel

theorem witness_StoreThenLoadReturnsValue :
    Memory.wf base.mem ∧ base.CanRun none ∧ base.ccbMoved = none ∧ base.GoodData (base.dataAddr 6 0) ∧
      base.region (BitVec.ofInt 32 (base.dataAddr 6 0)) = .cell 0x2000 ∧
      after (.st (.w32 none 5 6 0)) base (fun t => t.guardHolds none && decide (t.dataAddr 6 0 = base.dataAddr 6 0)) =
        some true := by
  refine ⟨by decide +kernel, canRun_plain _, ?_⟩; unfold State.GoodData; decide +kernel

/-- The addresses -1 and 2^32 + 6, and 2000H outside the window in user mode. -/
theorem witness_BadDataAddressRaisesException :
    let s : State := { user with ccb := { user.ccb with dmemBoundHi := 0x1FFF#32, memConf := 0#2 } }
    s.guardHolds none = true ∧ s.ptarget = none ∧ s.dataAddr 0 (-1) < 0 ∧ 4294967295 < s.dataAddr 3 7 ∧
      s.psr.um = true ∧ s.dataAddr 6 0 = 0x2000 ∧ s.dallowed 0x2000 = false ∧ s.dallowed 0x1FFF = true := by
  decide +kernel

/-- Offsets 0 with an aligned value, 28H, the top of the hardware stack, and FFH. -/
theorem witness_StoreToCcbRegister :
    served.CanRun none ∧ served.ccbMoved = none ∧ served.dataAddr 10 0x28 = served.ccb.ccbBase.toNat + 0x28 ∧
      served.GoodData (served.dataAddr 10 0x28) ∧ (served.rd 6).toNat % 256 = 0 ∧ served.hws ≠ [] ∧
      served.dataAddr 10 0 = served.ccb.ccbBase.toNat ∧ served.GoodData (served.dataAddr 10 0) ∧
      served.dataAddr 10 0xFF = served.ccb.ccbBase.toNat + 0xFF ∧ served.GoodData (served.dataAddr 10 0xFF) ∧
      after (.st (.w32 none 6 10 0)) served (fun t => decide (t.ccbMoved ≠ none)) = some true := by
  refine ⟨canRun_plain _, ?_⟩; unfold State.GoodData; decide +kernel

theorem witness_LoadFromCcbRegister :
    served.CanRun none ∧ served.ccbMoved = none ∧ served.GoodData (served.dataAddr 10 0x28) ∧
      served.dataAddr 10 0x28 = served.ccb.ccbBase.toNat + 0x28 ∧
      ∃ e rest, served.hws = e :: rest ∧ 5 = 4 * e.cr0.z.toNat + 2 * e.cr0.n.toNat + e.cr0.c.toNat := by
  refine ⟨canRun_plain _, rfl, ?_, ?_, _, _, rfl, ?_⟩ <;> (try unfold State.GoodData) <;> decide +kernel

theorem witness_UndefinedDataStops :
    let s : State := { base with ptarget := some 0x40#32, ccbMoved := some 0x2000#32 }
    base.CanRun none ∧ base.dataAddr 0 (-1) < 0 ∧ base.GoodData (base.dataAddr 10 0) ∧ base.ccbMoved = none ∧
      base.dataAddr 10 0 = base.ccb.ccbBase.toNat ∧ (base.rd 5).toNat % 256 ≠ 0 ∧
      s.dataAddr 6 255 = (0x2000#32).toNat + 255 ∧ s.dataAddr 10 255 = s.ccb.ccbBase.toNat + 255 ∧
      base.dataAddr 6 1 = 0x2001 ∧ base.GoodData 0x2001 ∧ 0x2001 < base.ccb.ccbBase.toNat := by
  refine ⟨canRun_plain _, ?_⟩; unfold State.GoodData; decide +kernel

/-- In a slot: an overflow, user mode, 16-bit mode, and a fetch at a misaligned and at a protected pc. -/
theorem witness_SlotExceptionStops :
    let s : State := { user with ptarget := some 0x40#32, ccb := { user.ccb with imemBoundHi := 0xFF#32, memConf := 0#2 } }
    let h : State := { base16 with ptarget := some 0x40#32 }
    2147483647 < (s.rd 7).toInt + (s.rd 2).toInt ∧ s.guardHolds none = true ∧ s.psr.um = true ∧
      s.foreignSet = false ∧ s.iallowed s.pc.toNat = false ∧
      ({ s with pc := 0x102#32 } : State).pc.toNat % s.len ≠ 0 ∧
      h.psr.il = false ∧ Instr.only32 (.lui 0 0) = true ∧ isControl (.lui 0 0) = false ∧
      prefixOf (.add (.w32 (some ⟨.lt, 6⟩) 3 17 30)) ≠ none := by
  decide +kernel

theorem witness_OnlyStoresWriteMemory : after (.nop .m32) base (·.mem) = some [] := by decide +kernel

theorem witness_CoprocessorMoves :
    base.CanRun (OpsCp.w32 none 0 7 12).guard ∧ (OpsCp.w32 none 0 7 12).cpr.val < 8 ∧
      (∃ m, base.cops[0] = .milk m) ∧ base.cops[1] = .absent := ⟨canRun_plain _, by decide, ⟨_, rfl⟩, rfl⟩

/-- 32-bit mode, a Milk in slot 0, none in slot 1: for the statements of the Milk instructions and of `cop`. -/
theorem witness_Milk : base.psr.il = true ∧ (∃ m, base.cops[0] = .milk m) ∧ ∀ m, base.cops[1] ≠ .milk m :=
  ⟨rfl, ⟨_, rfl⟩, nofun⟩

theorem fpNumber_of {w : Word} {neg : Bool} {m : Nat} {e : Int} (h : fpVal w = .num neg m e) :
    fpNumber w = some ((if neg then -1 else 1) * (m : ℚ) * 2 ^ e) := by
  unfold fpNumber; rw [h]

/-- Finite operands: 1.5, 2^31, the least subnormal number. -/
theorem witness_finite : fpNumber 0x3FC00000#32 = some (3 / 2) ∧ fpNumber 0x4F000000#32 = some 2147483648 ∧
    fpNumber 1#32 = some (2 ^ (-149 : ℤ)) ∧ (0x3FC00000#32 : Word).getLsbD 31 = false := by
  rw [fpNumber_of (show fpVal 0x3FC00000#32 = .num false 12582912 (-23) by decide +kernel),
    fpNumber_of (show fpVal 0x4F000000#32 = .num false 8388608 8 by decide +kernel),
    fpNumber_of (show fpVal 1#32 = .num false 1 (-149) by decide +kernel)]
  refine ⟨?_, ?_, ?_, by decide⟩ <;> norm_num

/-- Numbers between the integers, above 2^-126, and below it. -/
theorem witness_MilkFractions : (∀ i : Int, (3 / 2 : ℚ) ≠ i) ∧ (2 : ℚ) ^ (-126 : ℤ) ≤ |3 / 2| ∧
    (2 : ℚ) ^ (-149 : ℤ) ≠ 0 ∧ |(2 : ℚ) ^ (-149 : ℤ)| < 2 ^ (-126 : ℤ) ∧ (2147483647 : ℚ) < 2147483648 := by
  refine ⟨fun i h => ?_, by norm_num [abs_of_pos], by norm_num, by rw [abs_of_pos (by positivity)]; norm_num, by norm_num⟩
  have : (3 : Int) = 2 * i := by
    have h' : (3 : ℚ) = 2 * i := by linarith
    exact_mod_cast h'
  omega

theorem fpVal_nan (w : Word) (f : BitVec 23) (he : (w.extractLsb' 23 8).toNat = 255) (hf : w.extractLsb' 0 23 = f)
    (hn : f ≠ 0#23) : fpVal w = .nan (Config.isSignalling f) := by
  subst hf; unfold fpVal; rw [if_pos he, if_neg hn]

/-- Every NaN is a signalling or a quiet one; infinities, zeros of both signs, a negative number. -/
theorem witness_MilkInvalidOperationFlags :
    fpVal 0x7FC00000#32 = .nan (Config.isSignalling 0x400000#23) ∧ fpVal 0x7F800000#32 = .inf false ∧
      fpVal 0xFF800000#32 = .inf (!false) ∧ fpVal 0#32 = .num false 0 (-149) ∧
      fpVal 0x80000000#32 = .num true 0 (-149) ∧ fpVal 0xBF800000#32 = .num true 8388608 (-23) ∧
      fpVal 0xFF800000#32 = .inf true ∧
      fpVal 0#32 ≠ .nan true :=
  ⟨fpVal_nan _ _ (by decide) (by decide) (by decide), by decide +kernel⟩

theorem witness_MilkSmallIntegersConvertExactly :
    -16777216 ≤ (0xFF000000#32 : Word).toInt ∧ (0xFF000000#32 : Word).toInt = -16777216 ∧
      (0x01000000#32 : Word).toInt ≤ 16777216 := by decide +kernel

theorem witness_MilkRoundingIsExactOrNeighbour :
    (3 : Nat) ≠ 0 ∧ -149 ≤ (Nat.log2 3 : Int) + (-150) ∧ (Nat.log2 3 : Int) + 125 ≤ 126 := by decide +kernel

theorem witness_StatusInstructionResults : base.psr.um = false ∧ 3 ≤ 3 ∧ base.ptarget = none ∧
    base.pc.toNat + base.len < 4294967296 := by decide +kernel

theorem witness_SuperUserInstructionsTrapInUserMode : user.psr.um = true ∧ user.ptarget = none := ⟨rfl, rfl⟩

theorem witness_ThirtyTwoBitInstructionsTrapInSixteenBitMode :
    base16.psr.il = false ∧ base16.ptarget = none ∧ Instr.only32 (.lui 0 0) = true := ⟨rfl, rfl, rfl⟩

theorem witness_SystemCallEntersHandler :
    base.ptarget = none ∧ base.guardHolds (OpsG.w32 none).guard = true ∧ base.nopAt 1 = true ∧
      base.pc.toNat + 2 * base.len < 4294967296 ∧ base16.nopAt 1 = true := by decide +kernel

theorem witness_ReturnToUserRestoresStatus : base.ptarget = none ∧ base.psr.um = false ∧ base.nopAt 1 = true := by
  decide +kernel

theorem witness_ReturnFromInterruptRestoresContext :
    served.ptarget = none ∧ served.nopAt 1 = true ∧ served.nopAt 2 = true ∧ ∃ e rest, served.hws = e :: rest :=
  ⟨rfl, by decide +kernel, by decide +kernel, _, _, rfl⟩

theorem witness_SwitchModeResults :
    base16.ptarget = none ∧ base16.nopAt 1 = true ∧ base16.nopAt 2 = true ∧
      base16.pc.toNat + 3 * base16.len < 4294967296 := by decide +kernel

theorem witness_TrapRaisesItsCode : base.psr.il = true ∧ base.ptarget = none ∧ 31 ≤ 31 := ⟨rfl, rfl, le_refl _⟩

theorem witness_UndefinedControlStops :
    ({ base with ptarget := some 0#32 } : State).ptarget = some 0#32 ∧ isControl (.jmp (.w32 0)) = true ∧
      ready.ptarget = none ∧ ready.nopAt 1 = false ∧ ready.psr.um = false ∧ ready.guardHolds none = true ∧
      base.hws = [] ∧ base.nopAt 1 = true ∧ base.nopAt 2 = true ∧
      State.nopAt { base with imem := base.imem.take 1 } 1 = true ∧
      State.nopAt { base with imem := base.imem.take 1 } 2 = false := by decide +kernel

theorem witness_StatusRegisterWriters :
    after (.ei .m32) base (fun t => decide (t.psr ≠ base.psr)) = some true ∧
    after (.add (.w32 none 12 7 7)) base (fun t => decide (t.psr ≠ base.psr)) = some true := by decide +kernel

theorem witness_FalseConditionHasNoEffect :
    prefixOf (.jalr (.w32 onC5 6)) = onC5 ∧ (flagged false).psr.il = true ∧ (flagged false).ptarget = none ∧
      (flagged false).guardHolds onC5 = false := by decide +kernel

theorem witness_FetchExceptions :
    let s : State := { user with ccb := { user.ccb with imemBoundHi := 0xFF#32, memConf := 0#2 } }
    s.requests = [] ∧ s.foreignSet = false ∧ s.accepted = none ∧ s.ptarget = none ∧ s.pc.toNat % s.len = 0 ∧
      s.psr.um = true ∧ s.iallowed s.pc.toNat = false ∧ ({ s with pc := 0x102#32 } : State).pc.toNat % s.len ≠ 0 := by
  decide +kernel

theorem witness_StepExecutesFetchedInstruction :
    (ready.sampleRequests.foreignSet = false ∧ ready.sampleRequests.accepted = none ∧ ready.pc.toNat % ready.len = 0 ∧
      Imem.lookup ready.imem ready.pc.toNat = some ⟨ready.pc.toNat, ready.mode, .add (.w32 none 12 1 2)⟩ ∧
      Instr.fits ready.mode (.add (.w32 none 12 1 2)) = true) ∧
    (decodeTableWord 16 0b0011010001110100 = some (.slli (.w16 4 7)) ∧ Instr.fits .m16 (.slli (.w16 4 7)) = true ∧
      base16.psr.ie = false ∧ base16.psr.um = false ∧ base16.requests = [] ∧ base16.pc.toNat % (16 / 8) = 0) := by
  decide +kernel

/-- `asked` after its request was sampled. -/
theorem witness_InterruptEntrySavesContext :
    let s := asked.sampleRequests
    s.requests = [] ∧ s.foreignSet = false ∧ s.ptarget = none ∧ s.passes 2 = true ∧
      s.hws.length < Config.hwsDepth ∧ (2 : Fin 12).val < 4 :=
  ⟨rfl, by decide +kernel, rfl, by decide +kernel, Nat.succ_pos _, by decide⟩

theorem witness_InterruptEntryIsPermitted :
    next (step asked) (fun t => decide (t.out = [.intAck]) && decide (t.hws.head?.map HwsEntry.source = some 2)) =
      some true ∧ asked.requests = 0x004#12 :: [] ∧ asked.ccb.copIntPri.toNat / 16 ^ 2 % 16 = 0 := by
  rw [step_asked]; decide +kernel

theorem inv_base : State.Inv { ready with hws := served.hws.take 1, ptarget := some 0x40#32, ccbMoved := some 0x300#32 } where
  mem := by decide +kernel
  imem := by decide +kernel
  terms := by decide +kernel
  base := by decide +kernel
  moved := by intro b h; cases h; decide +kernel
  hws := Nat.succ_le_succ (Nat.zero_le _)
  target := by intro a h; cases h; decide +kernel
  cops := by
    intro k h
    obtain rfl | rfl | rfl | rfl : k = 0 ∨ k = 1 ∨ k = 2 ∨ k = 3 := by omega
    · exact show (0#32 : Word).extractLsb' 14 18 = 0#18 by decide
    all_goals trivial

theorem witness_StepKeepsInvariant :
    (next (step { ready with hws := served.hws.take 1, ptarget := some 0x40#32, ccbMoved := some 0x300#32 }) (·.pc)) =
      some 0x40#32 := by decide +kernel

theorem witness_UserCodeIsolatedFromSetTwo :
    user.psr.um = true ∧ user.psr.rsrd = false ∧ user.psr.rswr = false := ⟨rfl, rfl, rfl⟩

/-! ### Decoding. The spec gives the words of three 16-bit rows only (30_encoding.md R155) and some bits of others; the other
words are written out under `sampleTable`, a value of DECODE with the fields of spec/opcode_table.json: the operands stand
from bit 24 or bit 9 down, bit 25 tells a conditional form or one of two operations, the operation codes are of these tests
only. -/

/-- The operation code of the 32-bit rows of an operation. -/
def sample32 : Op → Nat
  | .add => 0 | .addi => 1 | .addiu => 2 | .addu => 3 | .mulhi => 4 | .muli => 5 | .muls => 6 | .muls16 => 7
  | .mulu => 8 | .mulu16 => 9 | .mulus => 10 | .mulus16 => 11 | .sub => 12 | .subu => 13 | .conb => 14
  | .conh => 15 | .exb => 16 | .exbf => 17 | .exh => 18 | .sext => 19 | .sexti => 20 | .and => 21
  | .andi => 22 | .not => 23 | .or => 24 | .ori => 25 | .xor => 26 | .jalr => 27 | .jmpr => 28 | .sll => 29
  | .slli => 30 | .sra => 31 | .srai => 32 | .srl => 33 | .srli => 34 | .ld => 35 | .mov => 36 | .st => 37
  | .movfc => 38 | .movtc => 39 | .scall => 40 | .bc => 41 | .begt => 42 | .belt => 43 | .beq => 44
  | .bgt => 45 | .blt => 46 | .bne => 47 | .bnc => 48 | .jal => 49 | .jmp => 50 | .cmp => 51 | .cmpi => 52
  | .chrs => 53 | .di => 54 | .ei => 55 | .nop => 56 | .rcon => 57 | .reti => 58 | .retu => 59 | .scon => 60
  | .swm => 60 | .exbfi => 61 | .lli => 61 | .lui => 62 | .trap => 62 | .cop => 63

/-- Bit 25 of an unconditional 32-bit row. -/
def sampleLow32 : Op → Bool
  | .swm | .lli | .trap => true
  | _ => false

/-- The operation code of the 16-bit row of an operation. -/
def sample16 : Op → Nat
  | .add => 0 | .addi => 1 | .addiu => 2 | .addu => 3 | .mulhi => 4 | .muli => 5 | .muls => 6 | .muls16 => 7
  | .mulu => 8 | .mulu16 => 9 | .mulus => 10 | .mulus16 => 11 | .sub => 12 | .subu => 14 | .conb => 15
  | .conh => 16 | .exb => 17 | .exbf => 19 | .exh => 20 | .sext => 21 | .sexti => 22 | .and => 23
  | .andi => 24 | .not => 25 | .or => 26 | .ori => 42 | .xor => 18 | .jalr => 27 | .jmpr => 28 | .sll => 29
  | .slli => 13 | .sra => 30 | .srai => 31 | .srl => 32 | .srli => 33 | .ld => 34 | .mov => 35 | .st => 36
  | .movfc => 37 | .movtc => 38 | .scall => 61 | .bc => 39 | .begt => 40 | .belt => 41 | .beq => 43
  | .bgt => 44 | .blt => 45 | .bne => 46 | .bnc => 47 | .jal => 48 | .jmp => 49 | .cmp => 50 | .cmpi => 51
  | .chrs => 52 | .di => 56 | .ei => 57 | .nop => 58 | .rcon => 53 | .reti => 59 | .retu => 60 | .scon => 54
  | .swm => 55 | .exbfi => 62 | .lli => 63 | .lui => 63 | .trap => 63 | .cop => 63

/-- The bits that tell apart the 16-bit rows that share an operation code. -/
def sampleLow16 : Op → List Bool
  | .lli => bitsOf 4 0
  | .lui => bitsOf 4 1
  | .trap => bitsOf 4 2
  | .cop => bitsOf 4 3
  | _ => []

/-- The bits of a row after its operation code, without those the spec gives the places of. -/
def sampleBody (r : Row) : List PBit :=
  let given : List PBit := r.widths.zipIdx.flatMap (fun (n, k) => argBits k n)
  let operands : List PBit :=
    if r.op = .lli ∨ r.op = .lui then argBits 0 5 ++ List.replicate 3 (.spare false) ++ argBits 1 15 ++ [.arg 1 15]
    else given.filter (fun b => !r.tail.contains b)
  match r.fmt with
  | .u32 => padTo 26 r ([.lit (sampleLow32 r.op)] ++ operands)
  | .c32 => padTo 26 r ([.lit true] ++ operands)
  | .w16 | .x16 => padTo 10 r ((sampleLow16 r.op).map .lit ++ if r.fmt = .w16 then operands else [])
where
  padTo (n : Nat) (r : Row) (p : List PBit) : List PBit :=
    p ++ List.replicate (n - r.tail.length - p.length) (.spare false)

/-- The sample value of DECODE. -/
def sampleTable : EncTable :=
  { opcode := fun r => BitVec.ofNat 6 (if r.fmt.mode = .m32 then sample32 r.op else sample16 r.op)
    body := sampleBody
    copOpcode := 63#6
    milkCode := fun m => BitVec.ofNat 6 (milkOps.idxOf m)
    compares := fun c => c.getLsbD 4 }

theorem test_wf_cop_described : Instr.wfIn sampleTable (.cop 0 0x00000A#24) = false := by decide +kernel
theorem test_wf_fcc_operation : Instr.wfIn sampleTable (.fcc 0x05#6 ⟨0, 1, 2, 3, 0⟩) = false := by decide +kernel

/-- The words of a list decode to the instructions beside them, and are what the encoder writes for them. -/
def decodesAll (l : List (Mode × Nat × Instr)) : Bool :=
  l.all fun (m, w, i) =>
    (match decodeBytesWith sampleTable m (wordBytes m w) with
     | .ok (j, []) => decide (i = j)
     | _ => false) &&
    (decide (i.mode ≠ m) || decide (encodeWith sampleTable i = wordBytes m w))

theorem test_decode_arithmetic : decodesAll [
    (.m32, 0b00000000001110001111100000000000, .add (.w32 none 3 17 30)),
    (.m32, 0b00001100001110001111100000000000, .addu (.w32 none 3 17 30)),
    (.m32, 0b00011000001110001111100000000000, .muls (.w32 none 3 17 30)),
    (.m32, 0b00011100001110001111100000000000, .muls16 (.w32 none 3 17 30)),
    (.m32, 0b00100000001110001111100000000000, .mulu (.w32 none 3 17 30)),
    (.m32, 0b00100100001110001111100000000000, .mulu16 (.w32 none 3 17 30)),
    (.m32, 0b00101000001110001111100000000000, .mulus (.w32 none 3 17 30)),
    (.m32, 0b00101100001110001111100000000000, .mulus16 (.w32 none 3 17 30)),
    (.m32, 0b00110000001110001111100000000000, .sub (.w32 none 3 17 30)),
    (.m32, 0b00110100001110001111100000000000, .subu (.w32 none 3 17 30)),
    (.m32, 0b00000010001110001111101011100000, .add (.w32 (some ⟨.lt, 6⟩) 3 17 30)),
    (.m16, 0b0011100111100000, .subu (.w16 3 6)),
    (.m32, 0b00000100001110001100000000000000, .addi (.w32 none 3 17 (-16384))),
    (.m32, 0b00000110001110001100000000001010, .addi (.w32 (some ⟨.egt, 2⟩) 3 17 (-256))),
    (.m16, 0b0000010111000000, .addi (.w16 3 (-64))),
    (.m32, 0b00001000001110001111111111111111, .addiu (.w32 none 3 17 32767)),
    (.m32, 0b00010100001110001011111111111111, .muli (.w32 none 3 17 16383)),
    (.m32, 0b00010011001111100100000000000000, .mulhi (.w32 (some ⟨.nc, 1⟩) 19))] = true := by decide +kernel

theorem test_decode_bytes : decodesAll [
    (.m32, 0b00111000000100010111110000000000, .conb (.w32 none 1 2 31)),
    (.m32, 0b00111100000100010111110000000000, .conh (.w32 none 1 2 31)),
    (.m32, 0b01000100000100010111110000000000, .exbf (.w32 none 1 2 31)),
    (.m32, 0b01001100000100010111110000000000, .sext (.w32 none 1 2 31)),
    (.m32, 0b01000000000100010110000000000000, .exb (.w32 none 1 2 3)),
    (.m16, 0b0100010010101000, .exb (.w16 1 2 2)),
    (.m32, 0b01001000000100010100000000000000, .exh (.w32 none 1 2 1)),
    (.m32, 0b11110100000100010100000111110000, .exbfi 1 2 32 31),
    (.m32, 0b11110110000100011111111111111110, .lli 1 65535),
    (.m32, 0b11111000000100000000000000000010, .lui 1 32768),
    (.m32, 0b01010000000100010111110000000000, .sexti (.w32 none 1 2 31)),
    (.m16, 0b0101100011000100, .sexti (.w16 1 17))] = true := by decide +kernel

theorem test_decode_boolean : decodesAll [
    (.m32, 0b01010110000100010111110111000000, .and (.w32 (some ⟨.eq, 4⟩) 1 2 31)),
    (.m32, 0b01100010000100010111110111000000, .or (.w32 (some ⟨.eq, 4⟩) 1 2 31)),
    (.m32, 0b01101010000100010111110111000000, .xor (.w32 (some ⟨.eq, 4⟩) 1 2 31)),
    (.m32, 0b01011010000100010111111111110111, .andi (.w32 (some ⟨.ne, 7⟩) 1 2 511)),
    (.m32, 0b01100100000100010100000000000000, .ori (.w32 none 1 2 16384)),
    (.m16, 0b0101110010100000, .and (.w16 1 2)),
    (.m32, 0b01011100000100010000000000000000, .not (.w32 none 1 2))] = true := by decide +kernel

theorem test_decode_branch : decodesAll [
    (.m32, 0b10100100000111111111111111111110, .bc (.w32 0 2097150)),
    (.m32, 0b10101000011000000000000000000000, .begt (.w32 1 (-2097152))),
    (.m32, 0b10101100100111111111111111111110, .belt (.w32 2 2097150)),
    (.m32, 0b10110000111000000000000000000000, .beq (.w32 3 (-2097152))),
    (.m32, 0b10110101000111111111111111111110, .bgt (.w32 4 2097150)),
    (.m32, 0b10111001011000000000000000000000, .blt (.w32 5 (-2097152))),
    (.m32, 0b10111101100111111111111111111110, .bne (.w32 6 2097150)),
    (.m32, 0b11000001111000000000000000000000, .bnc (.w32 7 (-2097152))),
    (.m16, 0b1011001000000000, .bgt (.w16 (-512))),
    (.m32, 0b11000101000000000000000000000000, .jal (.w32 (-16777216))),
    (.m32, 0b11001000111111111111111111111110, .jmp (.w32 16777214)),
    (.m16, 0b1100010111111111, .jmp (.w16 511)),
    (.m32, 0b01101101111100000000000000000000, .jalr (.w32 none 31)),
    (.m32, 0b01110011111100001100000000000000, .jmpr (.w32 (some ⟨.c, 3⟩) 31)),
    (.m16, 0b0111001110000000, .jmpr (.w16 7))] = true := by decide +kernel

theorem test_decode_compare : decodesAll [
    (.m32, 0b11001101010000100010000000000000, .cmp (.w32 5 1 2)),
    (.m16, 0b1100100010100000, .cmp (.w16 1 2)),
    (.m32, 0b11010001010000110000000000000000, .cmpi (.w32 5 1 (-65536))),
    (.m32, 0b01110100000100010000110000000000, .sll (.w32 none 1 2 3)),
    (.m32, 0b01111100000100010000110000000000, .sra (.w32 none 1 2 3)),
    (.m32, 0b10000100000100010000110000000000, .srl (.w32 none 1 2 3)),
    (.m32, 0b01111000000100010100000000000000, .slli (.w32 none 1 2 32)),
    (.m32, 0b10000000000100010100000000000000, .srai (.w32 none 1 2 32)),
    (.m32, 0b10001000000100010100000000000000, .srli (.w32 none 1 2 32))] = true := by decide +kernel

theorem test_decode_load_store : decodesAll [
    (.m32, 0b10001100000100010100000000000000, .ld (.w32 none 1 2 (-16384))),
    (.m16, 0b1000100010101000, .ld (.w16 1 2 (-8))),
    (.m32, 0b10010110000100010011111111010000, .st (.w32 (some ⟨.elt, 0⟩) 1 2 255)),
    (.m32, 0b10010000000100010000000000000000, .mov (.w32 none 1 2)),
    (.m32, 0b10011001110001010010000000000000, .movfc (.w32 none 3 9 17)),
    (.m16, 0b1001011110101001, .movfc (.w16 3 9 5)),
    (.m32, 0b10011101110001010010000000000000, .movtc (.w32 none 3 17 9)),
    (.m16, 0b1001101101001101, .movtc (.w16 3 9 5))] = true := by decide +kernel

theorem test_decode_system : decodesAll [
    (.m32, 0b11010101000000000000000000000000, .chrs .m32 2),
    (.m16, 0b1101000100000000, .chrs .m16 1),
    (.m32, 0b11011000000000000000000000000000, .di .m32),
    (.m16, 0b1110000000000000, .di .m16),
    (.m32, 0b11011100000000000000000000000000, .ei .m32),
    (.m16, 0b1110010000000000, .ei .m16),
    (.m32, 0b11100000000000000000000000000000, .nop .m32),
    (.m16, 0b1110100000000000, .nop .m16),
    (.m32, 0b11101000000000000000000000000000, .reti .m32),
    (.m16, 0b1110110000000000, .reti .m16),
    (.m32, 0b11101100000000000000000000000000, .retu .m32),
    (.m16, 0b1111000000000000, .retu .m16),
    (.m32, 0b11100100100100000000000000000000, .rcon (.w32 9)),
    (.m16, 0b1101101100000000, .scon (.w16 6)),
    (.m32, 0b11110000100100000000000000000000, .scon (.w32 9)),
    (.m32, 0b10100000000000000000000000000000, .scall (.w32 none)),
    (.m32, 0b10100011000010000000000000000000, .scall (.w32 (some ⟨.gt, 1⟩))),
    (.m16, 0b1111010000000000, .scall .w16),
    (.m32, 0b11110010000000000000000000000000, .swm .m32 .m16),
    (.m16, 0b1101111000000000, .swm .m16 .m32),
    (.m32, 0b11111011111100000000000000000000, .trap 31),
    (.m16, 0b1111110010000000, .trap 0),
    (.m16, 0b1111110011000000, .fadd ⟨0, 0, 0, 0, 0⟩)] = true := by decide +kernel

theorem test_decode_milk : decodesAll [
    (.m32, 0b11111110000001010011000111000000, .fadd ⟨2, 7, 6, 5, 0⟩),
    (.m32, 0b11111110000001010011000111000001, .fsub ⟨2, 7, 6, 5, 0⟩),
    (.m32, 0b11111110000001010011000111000010, .fmul ⟨2, 7, 6, 5, 0⟩),
    (.m32, 0b11111110000001010011000111000011, .fdiv ⟨2, 7, 6, 5, 0⟩),
    (.m32, 0b11111101000000000011000111000100, .fsqrt ⟨1, 7, 6, 0, 0⟩),
    (.m32, 0b11111101000000000011000111000101, .fabs ⟨1, 7, 6, 0, 0⟩),
    (.m32, 0b11111101000000000011000111000110, .fmov ⟨1, 7, 6, 0, 0⟩),
    (.m32, 0b11111101000000000011000111000111, .fneg ⟨1, 7, 6, 0, 0⟩),
    (.m32, 0b11111111000000000000000000001000, .fnop ⟨3, 0, 0, 0, 0⟩),
    (.m32, 0b11111100000000000011000111001001, .fcvts ⟨0, 7, 6, 0, 0⟩),
    (.m32, 0b11111100000000000011000111001010, .fcvtw ⟨0, 7, 6, 0, 0⟩),
    (.m32, 0b11111100000001010011000111110011, .fcc 0b110011#6 ⟨0, 7, 6, 5, 0⟩),
    (.m32, 0b11111100101001010011000111001111, .cop 0 0b101001010011000111001111#24),
    (.m32, 0b11111101101001010011000111000100, .fsqrt ⟨1, 7, 6, 5, 5⟩),
    (.m32, 0b11111111001111111111011101001000, .fnop ⟨3, 29, 30, 31, 1⟩)] = true := by decide +kernel

/-- The sample value satisfies the constraints on DECODE. -/
theorem test_sample_admissible : sampleTable.admissible = true := by decide +kernel

/-- R149: a bit of the immediate of `jal` that the parameter names outside bits 24..0 is an ignored bit there. -/
theorem test_jal_places : ({ sampleTable with body := fun _ => [.arg 0 3] } : EncTable).pat ⟨.jal, .u32⟩ =
    (bitsOf 6 49).map .lit ++ [.spare false] ++ argBits 0 25 := by decide +kernel

/-- R149: an operand bit in two places is not admissible. -/
theorem test_places_once : patCovers (.arg 1 2 :: argBits 1 3) [0, 3] = false := by decide +kernel

/-- The words the spec prints (30_encoding.md R155, R165). -/
theorem test_decode_printed_words :
    decodeTableWord 16 0b0100101000000100 = some (.xor (.w16 4 4)) ∧
    decodeTableWord 16 0b0011010001110100 = some (.slli (.w16 4 7)) ∧
    decodeTableWord 16 0b0011010001000100 = some (.slli (.w16 4 4)) ∧
    decodeTableWord 16 0b1010101001101100 = some (.ori (.w16 4 77)) := by decide +kernel

/-- A shift field above 32 is read as 32 (30_encoding.md R153). -/
theorem test_decode_shift_saturates : decodeTableWord 16 0b0011011111110100 = some (.slli (.w16 4 32)) := by
  decide +kernel

theorem test_decode_too_short : decodeBytes .m32 [0#8, 0#8, 0#8] = .error .truncated := rfl

/-- Words of no row are refused by name. -/
theorem test_decode_no_row : (match decodeWith sampleTable .m16 0b1111111111000000 with
    | .error .noRow => true
    | _ => false) = true := by decide +kernel

theorem test_decode_table_length : decodeTableWord 24 0 = none := rfl

theorem witness_DecodeInvertsEncode :
    sampleTable.admissible = true ∧ Instr.wfIn sampleTable (.muli (.w16 7 (-64))) = true ∧
      Instr.wfIn sampleTable (.fcc 0x33#6 ⟨0, 1, 2, 3, 5⟩) = true ∧ Instr.wfIn sampleTable (.cop 0 0x00000F#24) = true ∧
      (0xFCE00004#32 : BitVec 32).extractLsb' 26 6 = sampleTable.copOpcode :=
  ⟨test_sample_admissible, by decide +kernel⟩

end Sys2Proof.Tests
end

/-! ## The state after reset (10_state.md R83, R88; 70_reset_and_hazards.md R701 to R703) -/

namespace Sys2Proof.Machine

/-- The column of reset values in the table of R83, by offset 00H to 28H. What a load of a timer counter (21H, 23H)
returns is open (60_exceptions.md R672). -/
def ccbResetValues : List Word :=
  [0x00010000#32, 0x000100FF#32] ++ List.replicate 12 1#32 ++
  [0xFFF#32, 0xFFF#32, 0#32, 0#32, 0#32, 0#32,
   0#32, 0#32, 0#32, 0#32, 0#32, 0xFFFFFFFF#32, 0#32, 0xFFFFFFFF#32,
   3#32, 1#32, 1#32, 0xFFF#32, 0#32, Config.freeWord 0, 0#32, Config.freeWord 0, 0#32, 0#32,
   0xFFFFFFFF#32, 0x0E#32, 0#32]

theorem Flags.toBits_clear : ({ z := false, n := false, c := false } : Flags).toBits = 0#3 := by decide

theorem State.ccbGet_retiCr0_resetAt (boot : Word) (present : Vector CopKind 4) :
    (State.resetAt boot present).ccbGet .retiCr0 = 0#32 :=
  congrArg (BitVec.setWidth 32) Flags.toBits_clear

/-- R83: the whole table at once; only RETI_CR0 is no constant field but bits put together from flags. -/
theorem State.ccbMap_map_ccbGet_resetAt (boot : Word) (present : Vector CopKind 4) :
    ccbMap.map (State.resetAt boot present).ccbGet = ccbResetValues := by
  simp only [ccbMap, List.map_cons, List.map_nil, State.ccbGet_retiCr0_resetAt]
  rfl

/-- What a load returns from any offset of the CCB right after reset. -/
theorem State.ccbRegAt_map_ccbGet_resetAt (boot : Word) (present : Vector CopKind 4) (k : Nat) :
    (ccbRegAt k).map (State.resetAt boot present).ccbGet = ccbResetValues[k]? := by
  rw [← State.ccbMap_map_ccbGet_resetAt boot present, List.getElem?_map, ccbRegAt]

theorem State.resetAt_cops_getElem (boot : Word) (present : Vector CopKind 4) {k : Nat} (h : k < 4) :
    (State.resetAt boot present).cops[k] = CopSlot.reset present[k] :=
  match k, h with
  | 0, _ | 1, _ | 2, _ | 3, _ => rfl

/-- R88: the accumulated flags of a Milk are zero after reset. -/
theorem Milk.reset_flags : Milk.reset.fsr.extractLsb' 7 7 = 0#7 := rfl

/-- R480, R703: what each kind of slot of the platform holds after reset. -/
theorem State.resetAt_cops_of_kind (boot : Word) (present : Vector CopKind 4) (k : Nat) (h : k < 4) :
    (present[k] = .absent → (State.resetAt boot present).cops[k] = .absent) ∧
    (present[k] = .other → (State.resetAt boot present).cops[k] = .other) ∧
    (present[k] = .milk →
      ∃ m, (State.resetAt boot present).cops[k] = .milk m ∧ m.fsr.extractLsb' 7 7 = 0#7) := by
  rw [State.resetAt_cops_getElem boot present h]
  refine ⟨fun hk => ?absent, fun hk => ?other, fun hk => ?milk⟩
  case absent | other => rw [hk, CopSlot.reset]
  case milk => exact ⟨Milk.reset, by rw [hk, CopSlot.reset], Milk.reset_flags⟩

/-- Settles O55: the CCB by the table of R83, the coprocessors slot by slot, the other fields as `State.resetAt` sets
them. -/
theorem resetState : Obligations.ResetState := by
  intro boot present
  simp only [State.ccbRegAt_map_ccbGet_resetAt]
  refine ⟨rfl, rfl, rfl, rfl, rfl, ?ones, ?zeros, ?twelveBits, ?allBits, rfl, rfl, rfl, rfl, rfl, rfl,
    State.resetAt_cops_of_kind boot present, rfl⟩
  case ones | zeros | twelveBits | allBits => decide

end Sys2Proof.Machine

/-! ## Registers and conditions (10_state.md R25 to R37) -/

namespace Sys2Proof.Machine

/-- R30: the PSR as a number, its flags in bits 4 to 0. -/
theorem Psr.toNat_toBits (p : Psr) :
    p.toBits.toNat = 16 * p.ie.toNat + 8 * p.il.toNat + 4 * p.rswr.toNat + 2 * p.rsrd.toNat + p.um.toNat := by
  have h : ∀ ie il rswr rsrd um : Bool, (Psr.mk ie il rswr rsrd um).toBits.toNat =
      16 * ie.toNat + 8 * il.toNat + 4 * rswr.toNat + 2 * rsrd.toNat + um.toNat := by decide
  exact h ..

theorem State.rd_set1 {s : State} (h : s.psr.rsrd = false) (i : Fin 32) : s.rd i = s.set1[i.val] := by
  simp [State.rd, h]

theorem State.rd_set2 {s : State} (h : s.psr.rsrd = true) (i : Fin 32) :
    s.rd i = if h : i.val < 29 then s.pr[i.val]
      else if i.val = 29 then s.psr.toBits.setWidth 32 else if i.val = 30 then s.spsr else s.pr31 := by
  simp [State.rd, h]

/-- Settles O1: the two register sets apart; index 29 of SET 2 is the PSR as a number. -/
theorem registerReadFollowsSelectedSet : Obligations.RegisterReadFollowsSelectedSet := by
  intro s i
  refine ⟨fun h => State.rd_set1 h i, fun h => ?_⟩
  rw [State.rd_set2 h]
  refine ⟨fun hi => dif_pos hi, fun hi => ?psr, fun hi => by simp [hi], fun hi => by simp [hi]⟩
  case psr =>
    rw [dif_neg (by omega), if_pos hi, BitVec.toNat_setWidth_of_le (by decide), Psr.toNat_toBits]

/-- Settles O2: what a write changes is `State.wr_wrote`, what it leaves `State.wr_frame`. -/
theorem registerWriteFollowsSelectedSet : Obligations.RegisterWriteFollowsSelectedSet := by
  intro s i v
  obtain ⟨hcr, hpsr, hpc, htarget, hm64, hmem, hunits⟩ := s.wr_frame i v
  exact ⟨s.wr_wrote i v, hcr, hpsr, hpc, htarget, hm64, hunits, fun k => by rw [hmem]⟩

/-- R28: a guard and a branch read their condition alike, but for `lt` on Z = N = 1. -/
theorem State.guardHolds_some {s : State} {g : Guard}
    (h : ¬(g.cond = .lt ∧ s.cr[g.cr.val].z = true ∧ s.cr[g.cr.val].n = true)) :
    s.guardHolds (some g) = condHolds g.cond s.cr[g.cr.val] := by
  unfold State.guardHolds prefixHolds
  exact if_neg (by simpa [State.getCr, and_assoc] using h)

theorem condHolds_iff (f : Flags) :
    (condHolds .c f = true ↔ f.c = true) ∧ (condHolds .nc f = true ↔ f.c = false) ∧
    (condHolds .eq f = true ↔ f.z = true) ∧ (condHolds .ne f = true ↔ f.z = false) ∧
    (condHolds .egt f = true ↔ f.z = true ∨ f.n = false) ∧ (condHolds .elt f = true ↔ f.z = true ∨ f.n = true) ∧
    (condHolds .gt f = true ↔ f.z = false ∧ f.n = false) ∧ (condHolds .lt f = true ↔ f.n = true) := by
  simp [condHolds]

@[simp] theorem cmpFlags_z (a b : Word) : (cmpFlags a b).z = true ↔ a.toInt = b.toInt := by
  simp [cmpFlags, BitVec.toInt_inj]

@[simp] theorem cmpFlags_n (a b : Word) : (cmpFlags a b).n = true ↔ a.toInt < b.toInt := by
  simp [cmpFlags]

/-- Settles O18: after a comparison Z is equality and N the signed order, and the conditions are the relations these two
decide. -/
theorem conditionsExactAfterCompare : Obligations.ConditionsExactAfterCompare := by
  refine ⟨condHolds_iff, fun s g h => State.guardHolds_some h, fun a b => ?_⟩
  obtain ⟨-, -, heq, hne, hegt, helt, hgt, hlt⟩ := condHolds_iff (cmpFlags a b)
  rw [heq, hne, hegt, helt, hgt, hlt]
  simp only [← Bool.not_eq_true, cmpFlags_z, cmpFlags_n, ← BitVec.toInt_inj, ne_eq]
  refine ⟨trivial, trivial, trivial, ?gt, ?elt, ?egt, ?both⟩
  case gt | elt | egt | both => omega

end Sys2Proof.Machine

/-! ## What an executed instruction can do: one inversion lemma for `exec` -/

namespace Sys2Proof.Machine

/-- The eight instructions that write flags to C0 beside a register (10_state.md R26). -/
def writesC0 : Instr → Bool
  | .add _ | .addi _ | .addiu _ | .addu _ | .sub _ | .subu _ | .sll _ | .slli _ => true
  | _ => false

/-- The 32-bit multiplications (40_integer_arithmetic.md R305). -/
def multiplies : Instr → Bool
  | .muli _ | .muls _ | .mulu _ | .mulus _ => true
  | _ => false

/-- The instructions that write the PSR and advance the pc as usual (49_miscellaneous.md R521 to R523). -/
def writesStatus : Instr → Bool
  | .chrs .. | .di _ | .ei _ => true
  | _ => false

theorem writesC0_iff {i : Instr} (h : writesC0 i = true) :
    (∃ o, i = .add o) ∨ (∃ o, i = .addi o) ∨ (∃ o, i = .addiu o) ∨ (∃ o, i = .addu o) ∨
      (∃ o, i = .sub o) ∨ (∃ o, i = .subu o) ∨ (∃ o, i = .sll o) ∨ (∃ o, i = .slli o) := by
  unfold writesC0 at h
  split at h
  case h_9 => cases h
  all_goals simp

theorem multiplies_iff {i : Instr} (h : multiplies i = true) :
    (∃ o, i = .muli o) ∨ (∃ o, i = .muls o) ∨ (∃ o, i = .mulu o) ∨ (∃ o, i = .mulus o) := by
  unfold multiplies at h
  split at h
  case h_5 => cases h
  all_goals simp

theorem writesStatus_iff {i : Instr} (h : writesStatus i = true) :
    (∃ m k, i = .chrs m k) ∨ (∃ m, i = .di m) ∨ (∃ m, i = .ei m) := by
  unfold writesStatus at h
  split at h
  case h_4 => cases h
  all_goals simp

/-- `s.Effect i u`: the body of `i`, run in `s`, may end in `u`, after which the pc advances (`State.retire`). It says
what may be written, and by which instructions, not with which values. -/
inductive State.Effect (s : State) : Instr → State → Prop
  | nothing (i) : s.Effect i s.begin
  | register (i d v) : s.Effect i (s.begin.wr d v)
  | flags {i} (hi : writesC0 i = true) (d v f) : s.Effect i ((s.begin.wr d v).setCr 0 f)
  | product {i} (hi : multiplies i = true) (d v p) : s.Effect i ({ s.begin with m64 := some p }.wr d v)
  | compare (o f) : s.Effect (.cmp o) (s.begin.setCr o.cr f)
  | compareImm (o f) : s.Effect (.cmpi o) (s.begin.setCr o.cr f)
  | conditions (o v) : s.Effect (.rcon o) { s.begin with cr := v }
  | status {i} (hi : writesStatus i = true) (p : Psr) (hp : p.il = s.psr.il) : s.Effect i { s.begin with psr := p }
  | target (i p a) (ha : s.targetFault p a = none) : s.Effect i { s.begin with ptarget := some (BitVec.ofInt 32 a) }
  | link (i p a d v) (ha : s.targetFault p a = none) :
      s.Effect i ({ s.begin with ptarget := some (BitVec.ofInt 32 a) }.wr d v)
  | load (o e d v) : s.Effect (.ld o) ((s.begin.emit e).wr d v)
  | store (o e m a v u) (hu : (s.begin.emit e).store m a v = .ok u) : s.Effect (.st o) u
  | copWrite (o n k v) : s.Effect (.movtc o) (s.begin.copWrite n k v)
  | forward (i n w) (act : Milk → Milk) (hact : ∀ m, (CopSlot.milk (act m)).ok) : s.Effect i (s.begin.forward n w act)

/-- `s.Leaves i t`: the body of `i`, run in `s`, sets the pc itself and the next state is `t`. -/
inductive State.Leaves (s : State) : Instr → State → Prop
  | reti (m e rest) (h : s.hws = e :: rest) : s.Leaves (.reti m) (s.begin.returnFromInterrupt e rest)
  | retu (m) : s.Leaves (.retu m) s.begin.returnToUser
  | scall (o) : s.Leaves (.scall o) s.begin.systemCall
  | swm (m k) : s.Leaves (.swm m k) (s.begin.switchMode k)

/-- The next states of an executed instruction: an exception, an effect and the advanced pc, or a control transfer that
sets the pc; the first and the last never in a slot (60_exceptions.md R616, 70_reset_and_hazards.md R712). -/
inductive State.Ends (s : State) (i : Instr) : State → Prop
  | raised (c) (h : s.ptarget = none) : s.Ends i (s.raiseExc c)
  | retired {u} (h : s.Effect i u) : s.Ends i (s.retire u)
  | left {t} (h : s.ptarget = none) (ht : s.Leaves i t) : s.Ends i t

/-- What `Effect` and `Leaves` ask of the result of a body. -/
def State.Performs (s : State) (i : Instr) (n : Need) : Res → Prop
  | .ok u => s.Effect i u
  | .goto t => n.control = true ∧ s.Leaves i t
  | .exc _ | .fault _ | .refuse _ => True

section
variable {s t : State} {i : Instr} {n : Need}

theorem run_ends {g : Option Guard} {body : State → Res} (h : run n g s body = .next t)
    (hb : s.Performs i n (body s.begin)) : s.Ends i t := by
  obtain ⟨-, hp, rfl⟩ | ⟨-, -, rfl⟩ | ⟨-, -, hc, hf⟩ := run_next h
  · exact .raised _ hp
  · exact .retired (.nothing i)
  · obtain ⟨u, hu, rfl⟩ | hu | ⟨c, -, hp, rfl⟩ := finish_next hf
    · rw [hu] at hb
      exact .retired hb
    · rw [hu] at hb
      obtain ⟨hn, hl⟩ := hb
      exact .left (hc hn) hl
    · exact .raised _ hp

/-! ### The shared bodies -/

theorem addTo_performs (hi : writesC0 i = true) (b : Bool) (d : Fin 32) (x y : Word) :
    s.Performs i n (addTo b d x y s.begin) := by
  unfold addTo
  split
  · trivial
  · exact State.Effect.flags hi ..

theorem subTo_performs (hi : writesC0 i = true) (b : Bool) (d : Fin 32) (x y : Word) :
    s.Performs i n (subTo b d x y s.begin) := by
  unfold subTo
  split
  · trivial
  · exact State.Effect.flags hi ..

theorem take_performs (p : Bool) (a : Int) : s.Performs i n (s.begin.take p a id) := by
  obtain ⟨c, -, h⟩ | ⟨ha, h⟩ := s.begin.take_cases p a id
  · rw [h]; trivial
  · rw [h]; exact State.Effect.target i p a ha

theorem take_link_performs (p : Bool) (a : Int) (d : Fin 32) (v : Word) :
    s.Performs i n (s.begin.take p a fun u => u.wr d v) := by
  obtain ⟨c, -, h⟩ | ⟨ha, h⟩ := s.begin.take_cases p a fun u => u.wr d v
  · rw [h]; trivial
  · rw [h]; exact State.Effect.link i p a d v ha

theorem withNops_performs (k : Nat) {r : Res} (h : s.Performs i n r) : s.Performs i n (s.begin.withNops k r) := by
  obtain e | e := s.begin.withNops_cases k r
  · rw [e]; exact h
  · rw [e]; trivial

theorem regOp_ends {o : OpsRR} {f : Word → Word → Word} (h : regOp o s f = .next t) : s.Ends i t :=
  run_ends h (State.Effect.register ..)

theorem immOp_ends {o : OpsRI} {f : Word → Word} (h : immOp o s f = .next t) : s.Ends i t :=
  run_ends h (State.Effect.register ..)

theorem branchOn_ends {k : Cond} {o : OpsBr} (h : branchOn k o s = .next t) : s.Ends i t := by
  refine run_ends h ?_
  split
  · exact take_performs ..
  · split
    · split
      · trivial
      · exact State.Effect.nothing i
    · exact State.Effect.nothing i

theorem ld_ends {o : OpsRRI} (h : execLd o s = .next t) : s.Ends (.ld o) t := by
  refine run_ends h ?_
  obtain ⟨c, -, e⟩ | ⟨-, e⟩ := s.begin.access_cases o.regB o.imm fun u a => u.loadTo s.ccbMoved a o.regA
  · rw [e]; trivial
  · rw [e]
    obtain ⟨v, -, e⟩ | ⟨r, -, e⟩ := State.loadTo_cases _ s.ccbMoved (BitVec.ofInt 32 (s.begin.dataAddr o.regB o.imm)) o.regA
    · rw [e]; exact State.Effect.load ..
    · rw [e]; trivial

theorem st_ends {o : OpsRRI} (h : execSt o s = .next t) : s.Ends (.st o) t := by
  refine run_ends h ?_
  obtain ⟨c, -, e⟩ | ⟨-, e⟩ := s.begin.access_cases o.regB o.imm fun u a => u.store s.ccbMoved a (u.rd o.regA)
  · rw [e]; trivial
  · rw [e]
    cases e : State.store _ s.ccbMoved _ _ with
    | ok u => exact State.Effect.store _ _ _ _ _ _ e
    | goto u => exact absurd e State.store_not_goto
    | exc | fault | refuse => trivial

/-! ### The Milk -/

/-- R486: a status register after an operation has its unused bits zero. -/
theorem Milk.fsrAfter_unused (m : Milk) (b : BitVec 7) : (m.fsrAfter b).extractLsb' 14 18 = 0#18 := by
  unfold Milk.fsrAfter
  rw [BitVec.append_assoc]
  exact BitVec.extractLsb'_append_eq_left

theorem Milk.complete_ok (m : Milk) (w : Word) (d : Fin 32) (o : FpOut) : (CopSlot.milk (m.complete w d o)).ok :=
  m.fsrAfter_unused o.flags

theorem Milk.idle_ok (m : Milk) (w : Word) : (CopSlot.milk (m.idle w)).ok :=
  m.fsrAfter_unused 0#7

theorem Milk.perform_ok (k : Nat) (w : Word) (m : Milk) : (CopSlot.milk (m.perform k w)).ok := by
  unfold Milk.perform
  dsimp only
  split
  case h_9 => exact Milk.idle_ok ..
  all_goals exact Milk.complete_ok ..

theorem milkOp3_ends {j : Instr} {o : OpsF} {f : Nat → Word → Word → FpOut} (h : milkOp3 j o s f = .next t) :
    s.Ends i t :=
  run_ends h (State.Effect.forward _ _ _ _ fun _ => Milk.complete_ok ..)

theorem milkOp2_ends {j : Instr} {o : OpsF} {f : Nat → Word → FpOut} (h : milkOp2 j o s f = .next t) : s.Ends i t :=
  run_ends h (State.Effect.forward _ _ _ _ fun _ => Milk.complete_ok ..)

/-- Every instruction that goes on ends as `State.Ends` says. -/
theorem exec_ends (h : exec i s = .next t) : s.Ends i t := by
  unfold exec at h
  cases i with
  | add o | addi o | addiu o | addu o => exact run_ends h (addTo_performs rfl ..)
  | sub o | subu o => exact run_ends h (subTo_performs rfl ..)
  | sll o | slli o => exact run_ends h (State.Effect.flags rfl ..)
  | muli o | muls o | mulu o | mulus o => exact run_ends h (State.Effect.product rfl ..)
  | mulhi o =>
    refine run_ends h ?_
    split
    · exact State.Effect.register ..
    · trivial
  | conb o | sext o | muls16 o | mulu16 o | mulus16 o | and o | or o | xor o | sra o | srl o => exact regOp_ends h
  | sexti o | andi o | ori o | srai o | srli o => exact immOp_ends h
  | conh o | exb o | exbf o | exbfi dr sr len pos | exh o | lli dr k | lui dr k | not o | mov o | movfc o | scon o =>
    exact run_ends h (State.Effect.register ..)
  | bc o | begt o | belt o | beq o | bgt o | blt o | bne o | bnc o => exact branchOn_ends h
  | jmp o | jmpr o => exact run_ends h (take_performs ..)
  | jal o | jalr o => exact run_ends h (take_link_performs ..)
  | cmp o => exact run_ends h (State.Effect.compare ..)
  | cmpi o => exact run_ends h (State.Effect.compareImm ..)
  | rcon o => exact run_ends h (State.Effect.conditions ..)
  | ld o => exact ld_ends h
  | st o => exact st_ends h
  | chrs m k | di m | ei m => exact run_ends h (State.Effect.status rfl _ rfl)
  | nop m => exact run_ends h (State.Effect.nothing _)
  | trap k => exact run_ends h trivial
  | reti m =>
    refine run_ends h (withNops_performs 2 ?_)
    split
    · trivial
    · exact ⟨rfl, .reti m _ _ ‹_›⟩
  | retu m => exact run_ends h (withNops_performs 1 ⟨rfl, .retu m⟩)
  | scall o => exact run_ends h (withNops_performs 1 ⟨rfl, .scall o⟩)
  | swm m k => exact run_ends h (withNops_performs 2 ⟨rfl, .swm m k⟩)
  | movtc o => exact run_ends h (State.Effect.copWrite ..)
  | cop k p => exact run_ends h (State.Effect.forward _ _ _ _ (Milk.perform_ok _ _))
  | fnop o => exact run_ends h (State.Effect.forward _ _ _ _ fun _ => Milk.idle_ok ..)
  | fadd o | fsub o | fmul o | fdiv o | fcc k o => exact milkOp3_ends h
  | fsqrt o | fabs o | fmov o | fneg o | fcvts o | fcvtw o => exact milkOp2_ends h

end

end Sys2Proof.Machine

/-! ## Which instructions write the condition registers, the PSR and the product register -/

namespace Sys2Proof.Machine

/-- A store to the CCB changes the CCB, the hardware stack and the record of a remap only. -/
theorem State.ccbPut_frame (s : State) (r : CcbReg) (v : Word) :
    s.SameRegs (s.ccbPut r v) ∧ (s.ccbPut r v).cr = s.cr ∧ (s.ccbPut r v).psr = s.psr ∧ (s.ccbPut r v).m64 = s.m64 ∧
      (s.ccbPut r v).ptarget = s.ptarget ∧ (s.ccbPut r v).mem = s.mem ∧ (s.ccbPut r v).imem = s.imem ∧
      (s.ccbPut r v).cops = s.cops := by
  unfold State.ccbPut State.SameRegs
  repeat' split
  all_goals simp

theorem State.store_frame {s u : State} {m : Option Word} {a v : Word} (h : s.store m a v = .ok u) :
    u.cr = s.cr ∧ u.psr = s.psr ∧ u.m64 = s.m64 := by
  obtain ⟨-, ⟨k, r, -, -, -, rfl⟩ | rfl | ⟨k, -, rfl⟩⟩ := State.store_ok h
  · obtain ⟨-, hcr, hpsr, hm64, -⟩ := s.ccbPut_frame r v
    exact ⟨hcr, hpsr, hm64⟩
  · exact ⟨rfl, rfl, rfl⟩
  · exact ⟨rfl, rfl, rfl⟩

/-- A write to a coprocessor register changes that slot only. -/
theorem State.copWrite_eq (s : State) (n : Fin 4) (k : Fin 32) (v : Word) :
    s.copWrite n k v = { s with cops := (s.copWrite n k v).cops } := by
  unfold State.copWrite
  repeat' split
  all_goals rfl

/-- A forwarded word changes the coprocessor slots and the outputs only. -/
theorem State.forward_eq (s : State) (n : Fin 4) (w : Word) (act : Milk → Milk) :
    s.forward n w act = { s with cops := (s.forward n w act).cops, out := s.out ++ [.copRgi (s.copIr n)] } := by
  unfold State.forward
  split <;> rfl

section
variable {s u t : State} {i : Instr}

theorem State.Effect.m64_eq (h : s.Effect i u) : u.m64 = none ∨ multiplies i = true := by
  cases h with
  | product hi => exact .inr hi
  | store o e m a v u hu =>
    obtain ⟨-, -, hm⟩ := State.store_frame hu
    exact .inl hm
  | copWrite => rw [State.copWrite_eq]; exact .inl rfl
  | forward => rw [State.forward_eq]; exact .inl rfl
  | _ => simp

theorem State.Effect.psr_eq (h : s.Effect i u) : u.psr = s.psr ∨ writesStatus i = true := by
  cases h with
  | status hi => exact .inr hi
  | store o e m a v u hu =>
    obtain ⟨-, hp, -⟩ := State.store_frame hu
    exact .inl hp
  | copWrite => rw [State.copWrite_eq]; exact .inl rfl
  | forward => rw [State.forward_eq]; exact .inl rfl
  | _ => simp

/-- R26: which condition register an effect may change. -/
theorem State.Effect.cr_eq (h : s.Effect i u) (k : Nat) (hk : k < 8) :
    u.cr[k] = s.cr[k] ∨ (k = 0 ∧ writesC0 i = true) ∨ (∃ o, i = .cmp o ∧ k = o.cr.val) ∨
      (∃ o, i = .cmpi o ∧ k = o.cr.val) ∨ ∃ o, i = .rcon o := by
  cases h with
  | flags hi =>
    by_cases h0 : k = 0
    · exact .inr (.inl ⟨h0, hi⟩)
    · left; simp [Ne.symm h0]
  | compare o f =>
    by_cases hc : o.cr.val = k
    · simp [hc]
    · left; simp [hc]
  | compareImm o f =>
    by_cases hc : o.cr.val = k
    · simp [hc]
    · left; simp [hc]
  | conditions o => simp
  | store o e m a v u hu =>
    obtain ⟨hc, -, -⟩ := State.store_frame hu
    left; rw [hc]; rfl
  | copWrite => left; rw [State.copWrite_eq]; rfl
  | forward => left; rw [State.forward_eq]; rfl
  | _ => simp

end

/-- Settles O9: no effect but that of a multiplication leaves a product. -/
theorem productLastsOneInstruction : Obligations.ProductLastsOneInstruction := by
  intro i s t h hm
  cases exec_ends h with
  | raised c => exact absurd rfl hm
  | retired hu =>
    rw [State.retire_m64] at hm
    exact multiplies_iff (hu.m64_eq.resolve_left hm)
  | left _ ht => cases ht <;> exact absurd rfl hm

/-- Settles O19: of the control transfers only `reti` writes a condition register, C0. -/
theorem conditionRegisterWriters : Obligations.ConditionRegisterWriters := by
  intro i s t k hk h hc
  cases exec_ends h with
  | raised c => exact absurd rfl hc
  | retired hu =>
    simp only [State.retire_cr] at hc
    obtain ⟨h0, hi⟩ | hi := (hu.cr_eq k hk).resolve_left hc
    · have := writesC0_iff hi
      tauto
    · exact .inr hi
  | left _ ht =>
    cases ht with
    | reti m e rest =>
      by_cases h0 : k = 0
      · exact .inl ⟨h0, by simp⟩
      · exact absurd (by simp [State.returnFromInterrupt, Ne.symm h0]) hc
    | retu | scall | swm => exact absurd rfl hc

/-- Settles O49: `chrs`, `di`, `ei` and the four transfers that set the pc write the PSR, and an exception does. -/
theorem statusRegisterWriters : Obligations.StatusRegisterWriters := by
  intro i s t h hp
  cases exec_ends h with
  | raised c =>
    iterate 7 right
    exact ⟨c, s.raised_raiseExc c⟩
  | retired hu =>
    rw [State.retire_psr] at hp
    obtain ⟨m, k, rfl⟩ | ⟨m, rfl⟩ | ⟨m, rfl⟩ := writesStatus_iff (hu.psr_eq.resolve_left hp) <;> simp
  | left _ ht => cases ht <;> simp

/-- Settles O23: in a slot an instruction ends with `State.retire`, or not at all. -/
theorem slotInstructionGoesToTarget : Obligations.SlotInstructionGoesToTarget := by
  intro i s t a ha h
  cases exec_ends h with
  | raised c hn => rw [hn] at ha; cases ha
  | retired hu => exact ⟨by simp [State.retire_pc, ha], State.retire_ptarget_slot ha _⟩
  | left hn => rw [hn] at ha; cases ha

end Sys2Proof.Machine

/-! ## Every step keeps the invariant -/

namespace Sys2Proof.Machine

section
variable {s t u : State} {i : Instr}

/-! ### The operations -/

theorem State.Inv.begin (h : s.Inv) : s.begin.Inv :=
  ⟨h.mem, h.imem, h.terms, h.base, nofun, h.hws, h.target, h.cops⟩

theorem State.Inv.wr (h : s.Inv) (k : Fin 32) (v : Word) : (s.wr k v).Inv := by
  unfold State.wr
  repeat' split
  all_goals exact ⟨h.mem, h.imem, h.terms, h.base, h.moved, h.hws, h.target, h.cops⟩

theorem State.Inv.withCr (h : s.Inv) (v : Vector Flags 8) : { s with cr := v }.Inv :=
  ⟨h.mem, h.imem, h.terms, h.base, h.moved, h.hws, h.target, h.cops⟩

theorem State.Inv.withM64 (h : s.Inv) (p : Option (BitVec 64)) : { s with m64 := p }.Inv :=
  ⟨h.mem, h.imem, h.terms, h.base, h.moved, h.hws, h.target, h.cops⟩

theorem State.Inv.emit (h : s.Inv) (e : OutEvent) : (s.emit e).Inv :=
  ⟨h.mem, h.imem, h.terms, h.base, h.moved, h.hws, h.target, h.cops⟩

/-- The alignment of a pending target depends on the mode only. -/
theorem State.Inv.withPsr (h : s.Inv) {p : Psr} (hp : p.il = s.psr.il) : { s with psr := p }.Inv :=
  ⟨h.mem, h.imem, h.terms, h.base, h.moved, h.hws, fun a ha => by simpa [State.len, hp] using h.target a ha, h.cops⟩

theorem State.len_cases (s : State) : s.len = 4 ∨ s.len = 2 := by
  unfold State.len
  split <;> simp

/-- Both lengths divide 2^32, so a word is aligned as the integer it is made of. -/
theorem State.ofInt_toNat_mod_len {a : Int} (h : a % (s.len : Int) = 0) : (BitVec.ofInt 32 a).toNat % s.len = 0 := by
  rw [BitVec.toNat_ofInt]
  obtain e | e := s.len_cases <;> rw [e] at h ⊢ <;> omega

/-- R391: a target that passes its checks is aligned for the mode. -/
theorem State.Inv.withTarget (h : s.Inv) {p : Bool} {a : Int} (ha : s.targetFault p a = none) :
    { s with ptarget := some (BitVec.ofInt 32 a) }.Inv :=
  ⟨h.mem, h.imem, h.terms, h.base, h.moved, h.hws,
    fun _ e => Option.some.inj e ▸ State.ofInt_toNat_mod_len (State.targetFault_aligned ha), h.cops⟩

theorem State.Inv.setCop (h : s.Inv) {n : Nat} (hn : n < 4) {c : CopSlot} (hc : c.ok) :
    { s with cops := s.cops.set n c }.Inv where
  mem := h.mem
  imem := h.imem
  terms := h.terms
  base := h.base
  moved := h.moved
  hws := h.hws
  target := h.target
  cops k hk := by
    simp only [Vector.getElem_set]
    split
    · exact hc
    · exact h.cops k hk

theorem Milk.havoc_ok (k : Nat) : (CopSlot.milk (Milk.havoc k)).ok := BitVec.extractLsb'_append_eq_left

theorem State.Inv.copWrite (h : s.Inv) (n : Fin 4) (k : Fin 32) (v : Word) : (s.copWrite n k v).Inv := by
  unfold State.copWrite
  split
  · have hm := h.cops n.val n.isLt
    split
    · exact h.setCop _ (by simpa [CopSlot.ok, *] using hm)
    · exact h.setCop _ (Milk.havoc_ok _)
  · exact h
  · exact h

theorem State.Inv.forward (h : s.Inv) (n : Fin 4) (w : Word) {act : Milk → Milk}
    (hact : ∀ m, (CopSlot.milk (act m)).ok) : (s.forward n w act).Inv := by
  unfold State.forward
  split
  · exact (h.setCop _ (hact _)).emit _
  · exact h.emit _
  · exact h.emit _

/-- R41, R94: a store to the CCB moves its base to the stored word only, remembers the old one, and pushes and pops
nothing. -/
theorem State.ccbPut_base (s : State) (r : CcbReg) (v : Word) :
    ((s.ccbPut r v).ccb.ccbBase = s.ccb.ccbBase ∧ (s.ccbPut r v).ccbMoved = s.ccbMoved ∨
      r = .ccbBase ∧ (s.ccbPut r v).ccb.ccbBase = v ∧ (s.ccbPut r v).ccbMoved = some s.ccb.ccbBase) ∧
    (s.ccbPut r v).hws.length = s.hws.length := by
  unfold State.ccbPut
  repeat' split
  all_goals simp [*]

theorem State.Inv.ccbPut (h : s.Inv) {r : CcbReg} {v : Word} (hv : r = .ccbBase → v.extractLsb' 0 8 = 0#8) :
    (s.ccbPut r v).Inv := by
  obtain ⟨-, -, hpsr, -, htarget, hmem, himem, hcops⟩ := s.ccbPut_frame r v
  obtain ⟨hbase, hlen⟩ := s.ccbPut_base r v
  refine ⟨hmem ▸ h.mem, himem ▸ h.imem, himem ▸ h.terms, ?base, ?moved, hlen ▸ h.hws, ?target, hcops ▸ h.cops⟩
  case base =>
    obtain ⟨hb, -⟩ | ⟨hr, hb, -⟩ := hbase
    · rw [hb]; exact h.base
    · rw [hb]; exact hv hr
  case moved =>
    obtain ⟨-, hm⟩ | ⟨-, -, hm⟩ := hbase
    · rw [hm]; exact h.moved
    · rw [hm]; exact fun b hb => Option.some.inj hb ▸ h.base
  case target => simpa only [htarget, State.len, hpsr] using h.target

theorem State.Inv.store (h : s.Inv) {m : Option Word} {a v : Word} (hu : s.store m a v = .ok u) : u.Inv := by
  obtain ⟨-, ⟨k, r, -, -, hv, rfl⟩ | rfl | ⟨k, -, rfl⟩⟩ := State.store_ok hu
  · exact h.ccbPut hv
  · exact h
  · exact ⟨Memory.setWord_wf _ _ h.mem, h.imem, h.terms, h.base, h.moved, h.hws, h.target, h.cops⟩

theorem State.Inv.retire (h : t.Inv) (s : State) : (s.retire t).Inv := by
  unfold State.retire
  split
  · exact ⟨h.mem, h.imem, h.terms, h.base, h.moved, h.hws, nofun, h.cops⟩
  · exact ⟨h.mem, h.imem, h.terms, h.base, h.moved, h.hws, h.target, h.cops⟩

theorem State.Inv.raiseExc (h : s.Inv) (c : BitVec 8) : (s.raiseExc c).Inv :=
  ⟨h.mem, h.imem, h.terms, h.base, nofun, h.hws, nofun, h.cops⟩

theorem State.Inv.sampleRequests (h : s.Inv) : s.sampleRequests.Inv := by
  unfold State.sampleRequests
  split
  · exact h
  · exact ⟨h.mem, h.imem, h.terms, h.base, h.moved, h.hws, h.target, h.cops⟩

/-- With no target pending, an interrupt entry needs room on the hardware stack only. -/
theorem State.Inv.enterInterrupt (h : s.Inv) (hp : s.ptarget = none) (hd : s.hws.length < Config.hwsDepth)
    (k : Fin 12) : (s.enterInterrupt k).Inv :=
  ⟨h.mem, h.imem, h.terms, h.base, h.moved, hd, fun a (ha : s.ptarget = some a) => by simp [hp] at ha, h.cops⟩

/-! ### The instructions and the step -/

theorem State.Inv.effect (h : s.Inv) (hu : s.Effect i u) : u.Inv := by
  cases hu with
  | nothing => exact h.begin
  | register => exact h.begin.wr _ _
  | flags => exact (h.begin.wr _ _).withCr _
  | product => exact (h.begin.withM64 _).wr _ _
  | compare | compareImm | conditions => exact h.begin.withCr _
  | status _ _ hp => exact h.begin.withPsr hp
  | target i p a ha => exact h.begin.withTarget ha
  | link i p a d v ha => exact (h.begin.withTarget ha).wr _ _
  | load => exact (h.begin.emit _).wr _ _
  | store o e m a v u hu => exact (h.begin.emit e).store hu
  | copWrite => exact h.begin.copWrite _ _ _
  | forward i n w act hact => exact h.begin.forward _ _ hact

/-- A control transfer that sets the pc runs with no target pending, so the mode it selects does not matter. -/
theorem State.Inv.leaves (h : s.Inv) (hp : s.ptarget = none) (ht : s.Leaves i t) : t.Inv := by
  have hn : ∀ (n : Nat) (a : Word), s.ptarget = some a → a.toNat % n = 0 := by simp [hp]
  cases ht with
  | reti m e rest he =>
    have hr : rest.length ≤ Config.hwsDepth := Nat.le_of_succ_le (by simpa [he] using h.hws)
    exact ⟨h.mem, h.imem, h.terms, h.base, nofun, hr, hn _, h.cops⟩
  | retu | scall | swm => exact ⟨h.mem, h.imem, h.terms, h.base, nofun, h.hws, hn _, h.cops⟩

theorem State.Inv.exec (h : s.Inv) (ht : exec i s = .next t) : t.Inv := by
  cases exec_ends ht with
  | raised c => exact h.raiseExc c
  | retired hu => exact (h.effect hu).retire s
  | left hp hl => exact h.leaves hp hl

end

/-- Settles O57: an interrupt entry, an executed instruction and a fetch exception each keep the invariant. -/
theorem stepKeepsInvariant : Obligations.StepKeepsInvariant := by
  intro s t h ht
  have h' := h.sampleRequests
  obtain ⟨-, ⟨k, hk, hi⟩ | ⟨-, i, -, he⟩ | ⟨-, c, -, hf⟩⟩ := step_next ht
  · obtain ⟨hd, rfl⟩ := takeInterrupt_next hi
    obtain ⟨hp, -⟩ := State.accepted_plain hk
    exact h'.enterInterrupt hp hd k
  · exact h'.exec he
  · obtain ⟨-, rfl⟩ := fetchException_next hf
    exact { h'.raiseExc c with moved := h'.moved }

end Sys2Proof.Machine

/-! ## User code and SET 2 (10_state.md R39, 60_exceptions.md R661) -/

namespace Sys2Proof.Machine

/-- User mode on register set 1. -/
structure State.UserSet1 (s : State) : Prop where
  um : s.psr.um = true
  rsrd : s.psr.rsrd = false
  rswr : s.psr.rswr = false

/-- The result of a body with its state changed by `f`. -/
def Res.mapState (f : State → State) : Res → Res
  | .ok t => .ok (f t)
  | .goto t => .goto (f t)
  | .exc c => .exc c
  | .fault r => .fault r
  | .refuse r => .refuse r

section
variable {s t : State} {pr : Vector Word 29} {pr31 spsr : Word}

/-! ### The state -/

@[simp] theorem State.withSet2_cr : (s.withSet2 pr pr31 spsr).cr = s.cr := rfl
@[simp] theorem State.withSet2_m64 : (s.withSet2 pr pr31 spsr).m64 = s.m64 := rfl
@[simp] theorem State.withSet2_hws : (s.withSet2 pr pr31 spsr).hws = s.hws := rfl
@[simp] theorem State.withSet2_ptarget : (s.withSet2 pr pr31 spsr).ptarget = s.ptarget := rfl
@[simp] theorem State.withSet2_cops : (s.withSet2 pr pr31 spsr).cops = s.cops := rfl
@[simp] theorem State.withSet2_ccbMoved : (s.withSet2 pr pr31 spsr).ccbMoved = s.ccbMoved := rfl
@[simp] theorem State.withSet2_freeCtr : (s.withSet2 pr pr31 spsr).freeCtr = s.freeCtr := rfl
@[simp] theorem State.withSet2_getCr (k : Fin 8) : (s.withSet2 pr pr31 spsr).getCr k = s.getCr k := rfl
@[simp] theorem State.withSet2_slot : (s.withSet2 pr pr31 spsr).slot = s.slot := rfl
@[simp] theorem State.withSet2_targetFault (p : Bool) (a : Int) :
    (s.withSet2 pr pr31 spsr).targetFault p a = s.targetFault p a := rfl
@[simp] theorem State.withSet2_copRead (n : Fin 4) (k : Fin 32) :
    (s.withSet2 pr pr31 spsr).copRead n k = s.copRead n k := rfl
@[simp] theorem State.withSet2_setCr (k : Fin 8) (f : Flags) :
    (s.withSet2 pr pr31 spsr).setCr k f = (s.setCr k f).withSet2 pr pr31 spsr := rfl
@[simp] theorem State.withSet2_load (m : Option Word) (a : Word) : (s.withSet2 pr pr31 spsr).load m a = s.load m a := rfl

theorem State.UserSet1.rd_withSet2 (h : s.UserSet1) (k : Fin 32) : (s.withSet2 pr pr31 spsr).rd k = s.rd k := by
  rw [State.rd_set1 h.rsrd, State.rd_set1 (by exact h.rsrd)]
  rfl

theorem State.wr_set1 (h : s.psr.rswr = false) (k : Fin 32) (v : Word) :
    s.wr k v = { s with set1 := s.set1.set k.val v } := by
  simp [State.wr, h]

theorem State.UserSet1.wr_withSet2 (h : s.UserSet1) (k : Fin 32) (v : Word) :
    (s.withSet2 pr pr31 spsr).wr k v = (s.wr k v).withSet2 pr pr31 spsr := by
  rw [State.wr_set1 h.rswr, State.wr_set1 (by exact h.rswr)]
  rfl

theorem State.copWrite_withSet2 (n : Fin 4) (k : Fin 32) (v : Word) :
    (s.withSet2 pr pr31 spsr).copWrite n k v = (s.copWrite n k v).withSet2 pr pr31 spsr := by
  simp only [State.copWrite, State.withSet2_cops]
  cases s.cops[n.val] with
  | milk m => dsimp only; split <;> rfl
  | other | absent => rfl

theorem State.forward_withSet2 (n : Fin 4) (w : Word) (act : Milk → Milk) :
    (s.withSet2 pr pr31 spsr).forward n w act = (s.forward n w act).withSet2 pr pr31 spsr := by
  simp only [State.forward, State.withSet2_cops]
  cases s.cops[n.val] <;> rfl

theorem State.ccbPut_withSet2 (r : CcbReg) (v : Word) :
    (s.withSet2 pr pr31 spsr).ccbPut r v = (s.ccbPut r v).withSet2 pr pr31 spsr := by
  cases r with
  | exceptionPsr => simp only [State.ccbPut]; split <;> rfl
  | retiAddr | retiPsr | retiCr0 => simp only [State.ccbPut, State.withSet2_hws]; split <;> rfl
  | _ => rfl

theorem State.store_withSet2 (m : Option Word) (a v : Word) :
    (s.withSet2 pr pr31 spsr).store m a v = (s.store m a v).mapState (·.withSet2 pr pr31 spsr) := by
  have hz : (s.withSet2 pr pr31 spsr).remapHazard m a = s.remapHazard m a := rfl
  have hr : (s.withSet2 pr pr31 spsr).region a = s.region a := rfl
  simp only [State.store, hz, hr, State.ccbPut_withSet2]
  repeat' split
  all_goals rfl

theorem State.UserSet1.loadTo_withSet2 (h : s.UserSet1) (m : Option Word) (a : Word) (d : Fin 32) :
    (s.withSet2 pr pr31 spsr).loadTo m a d = (s.loadTo m a d).mapState (·.withSet2 pr pr31 spsr) := by
  simp only [State.loadTo, State.withSet2_load, h.wr_withSet2]
  split <;> rfl

theorem State.UserSet1.access_withSet2 (h : s.UserSet1) (b : Fin 32) (k : Int) {f f' : State → Word → Res}
    (hf : ∀ e a, f' ((s.emit e).withSet2 pr pr31 spsr) a = (f (s.emit e) a).mapState (·.withSet2 pr pr31 spsr)) :
    (s.withSet2 pr pr31 spsr).access b k f' = (s.access b k f).mapState (·.withSet2 pr pr31 spsr) := by
  have ha : (s.withSet2 pr pr31 spsr).dataAddr b k = s.dataAddr b k := by
    simp only [State.dataAddr, h.rd_withSet2]
  have hd : ∀ a, (s.withSet2 pr pr31 spsr).dataFault a = s.dataFault a := fun _ => rfl
  simp only [State.access, ha, hd]
  split
  · rfl
  · exact hf _ _

theorem State.take_withSet2 (p : Bool) (a : Int) {k k' : State → State}
    (hk : ∀ b, k' ({ s with ptarget := some b }.withSet2 pr pr31 spsr) =
      (k { s with ptarget := some b }).withSet2 pr pr31 spsr) :
    (s.withSet2 pr pr31 spsr).take p a k' = (s.take p a k).mapState (·.withSet2 pr pr31 spsr) := by
  simp only [State.take, State.withSet2_targetFault]
  split
  · rfl
  · exact congrArg Res.ok (hk _)

theorem State.take_id_withSet2 (p : Bool) (a : Int) :
    (s.withSet2 pr pr31 spsr).take p a id = (s.take p a id).mapState (·.withSet2 pr pr31 spsr) :=
  State.take_withSet2 p a fun _ => rfl

theorem State.withNops_withSet2 (n : Nat) {r r' : Res} (hr : r' = r.mapState (·.withSet2 pr pr31 spsr)) :
    (s.withSet2 pr pr31 spsr).withNops n r' = (s.withNops n r).mapState (·.withSet2 pr pr31 spsr) := by
  have hn : ∀ j, (s.withSet2 pr pr31 spsr).nopAt j = s.nopAt j := fun _ => rfl
  simp only [State.withNops, hn]
  split
  · exact hr
  · rfl

theorem State.retire_withSet2 :
    (s.withSet2 pr pr31 spsr).retire (t.withSet2 pr pr31 spsr) = (s.retire t).withSet2 pr pr31 spsr := by
  simp only [State.retire, State.withSet2_ptarget]
  split <;> rfl

theorem takeException_withSet2 (c : BitVec 8) :
    takeException (s.withSet2 pr pr31 spsr) c = mapNext (·.withSet2 pr pr31 spsr) (takeException s c) := by
  simp only [takeException, State.withSet2_ptarget]
  split <;> rfl

theorem finish_withSet2 (r : Res) :
    finish (s.withSet2 pr pr31 spsr) (r.mapState (·.withSet2 pr pr31 spsr)) =
      mapNext (·.withSet2 pr pr31 spsr) (finish s r) := by
  cases r with
  | ok t => exact congrArg Host.Outcome.next (State.retire_withSet2 ..)
  | exc c => exact takeException_withSet2 ..
  | goto | fault | refuse => rfl

/-- An instruction commutes with a change of SET 2 if its body does, where the decode checks let it run. -/
theorem run_withSet2 {n : Need} {g : Option Guard} {body body' : State → Res}
    (hb : s.illegal n g = false →
      body' (s.begin.withSet2 pr pr31 spsr) = (body s.begin).mapState (·.withSet2 pr pr31 spsr)) :
    run n g (s.withSet2 pr pr31 spsr) body' = mapNext (·.withSet2 pr pr31 spsr) (run n g s body) := by
  have hi : (s.withSet2 pr pr31 spsr).illegal n g = s.illegal n g := rfl
  have hg : (s.withSet2 pr pr31 spsr).guardHolds g = s.guardHolds g := rfl
  simp only [run, State.withSet2_ptarget, hi, hg, takeException_withSet2]
  split
  · rfl
  · split
    · rfl
    · rename_i hl
      split
      · exact (congrArg _ (hb (by simpa using hl))).trans (finish_withSet2 ..)
      · exact congrArg Host.Outcome.next (State.retire_withSet2 (t := s.begin))

/-! ### The shared bodies -/

theorem addTo_withSet2 (h : s.UserSet1) (b : Bool) (d : Fin 32) (x y : Word) :
    addTo b d x y (s.withSet2 pr pr31 spsr) = (addTo b d x y s).mapState (·.withSet2 pr pr31 spsr) := by
  simp only [addTo, h.wr_withSet2, State.withSet2_setCr]
  split <;> rfl

theorem subTo_withSet2 (h : s.UserSet1) (b : Bool) (d : Fin 32) (x y : Word) :
    subTo b d x y (s.withSet2 pr pr31 spsr) = (subTo b d x y s).mapState (·.withSet2 pr pr31 spsr) := by
  simp only [subTo, h.wr_withSet2, State.withSet2_setCr]
  split <;> rfl

theorem mulTo_withSet2 (h : s.UserSet1) (d : Fin 32) (p : Int) :
    mulTo d p (s.withSet2 pr pr31 spsr) = (mulTo d p s).mapState (·.withSet2 pr pr31 spsr) :=
  have h' : { s with m64 := some (BitVec.ofInt 64 p) }.UserSet1 := ⟨h.um, h.rsrd, h.rswr⟩
  congrArg Res.ok (h'.wr_withSet2 ..)

theorem sllTo_withSet2 (h : s.UserSet1) (d : Fin 32) (a : Word) (p : Nat) :
    sllTo d a p (s.withSet2 pr pr31 spsr) = (sllTo d a p s).mapState (·.withSet2 pr pr31 spsr) := by
  simp only [sllTo, h.wr_withSet2, State.withSet2_setCr, State.withSet2_freeCtr, Res.mapState]

theorem State.UserSet1.take_link_withSet2 (h : s.UserSet1) (p : Bool) (a : Int) (d : Fin 32) (v : Word) :
    (s.withSet2 pr pr31 spsr).take p a (fun u => u.wr d v) =
      (s.take p a fun u => u.wr d v).mapState (·.withSet2 pr pr31 spsr) :=
  State.take_withSet2 _ _ fun b =>
    have h' : { s with ptarget := some b }.UserSet1 := ⟨h.um, h.rsrd, h.rswr⟩
    h'.wr_withSet2 ..

/-- In user mode an instruction reserved to super-user mode does not reach its body (R604). -/
theorem State.UserSet1.not_legal (h : s.UserSet1) {n : Need} (hn : n.su = true) {g : Option Guard} :
    s.illegal n g ≠ false := by
  simp [State.illegal, h.um, hn]

theorem State.UserSet1.begin (h : s.UserSet1) : s.begin.UserSet1 := ⟨h.um, h.rsrd, h.rswr⟩

/-! ### The instructions -/

theorem regOp_withSet2 (h : s.UserSet1) (o : OpsRR) (f : Word → Word → Word) :
    regOp o (s.withSet2 pr pr31 spsr) f = mapNext (·.withSet2 pr pr31 spsr) (regOp o s f) :=
  run_withSet2 fun _ => by simp only [h.begin.rd_withSet2, h.begin.wr_withSet2, Res.mapState]

theorem immOp_withSet2 (h : s.UserSet1) (o : OpsRI) (f : Word → Word) :
    immOp o (s.withSet2 pr pr31 spsr) f = mapNext (·.withSet2 pr pr31 spsr) (immOp o s f) :=
  run_withSet2 fun _ => by simp only [h.begin.rd_withSet2, h.begin.wr_withSet2, Res.mapState]

theorem branchOn_withSet2 (k : Cond) (o : OpsBr) :
    branchOn k o (s.withSet2 pr pr31 spsr) = mapNext (·.withSet2 pr pr31 spsr) (branchOn k o s) := by
  refine run_withSet2 fun _ => ?_
  cases hc : condHolds k (s.begin.getCr o.cr) with
  | true =>
    simp only [State.withSet2_getCr, hc, if_true]
    exact State.take_id_withSet2 ..
  | false =>
    simp only [State.withSet2_getCr, hc, Bool.false_eq_true, if_false, State.withSet2_slot, State.withSet2_targetFault]
    cases s.begin.targetFault true (s.begin.slot + 2 * o.imm) <;> cases Config.notTakenChecked <;> rfl

theorem milkOp3_withSet2 (i : Instr) (o : OpsF) (f : Nat → Word → Word → FpOut) :
    milkOp3 i o (s.withSet2 pr pr31 spsr) f = mapNext (·.withSet2 pr pr31 spsr) (milkOp3 i o s f) :=
  run_withSet2 fun _ => congrArg Res.ok (State.forward_withSet2 ..)

theorem milkOp2_withSet2 (i : Instr) (o : OpsF) (f : Nat → Word → FpOut) :
    milkOp2 i o (s.withSet2 pr pr31 spsr) f = mapNext (·.withSet2 pr pr31 spsr) (milkOp2 i o s f) :=
  run_withSet2 fun _ => congrArg Res.ok (State.forward_withSet2 ..)

theorem execMulhi_withSet2 (h : s.UserSet1) (o : OpsR1) :
    execMulhi o (s.withSet2 pr pr31 spsr) = mapNext (·.withSet2 pr pr31 spsr) (execMulhi o s) := by
  refine run_withSet2 fun _ => ?_
  simp only [State.withSet2_m64, h.begin.wr_withSet2]
  cases s.m64 <;> rfl

theorem execLd_withSet2 (h : s.UserSet1) (o : OpsRRI) :
    execLd o (s.withSet2 pr pr31 spsr) = mapNext (·.withSet2 pr pr31 spsr) (execLd o s) :=
  run_withSet2 fun _ => h.begin.access_withSet2 _ _ fun e _ =>
    have h' : (s.begin.emit e).UserSet1 := ⟨h.um, h.rsrd, h.rswr⟩
    h'.loadTo_withSet2 ..

theorem execSt_withSet2 (h : s.UserSet1) (o : OpsRRI) :
    execSt o (s.withSet2 pr pr31 spsr) = mapNext (·.withSet2 pr pr31 spsr) (execSt o s) :=
  run_withSet2 fun _ => h.begin.access_withSet2 _ _ fun e _ => by
    have h' : (s.begin.emit e).UserSet1 := ⟨h.um, h.rsrd, h.rswr⟩
    simp only [h'.rd_withSet2, State.store_withSet2, State.withSet2_ccbMoved]

theorem execReti_withSet2 (m : Mode) :
    execReti m (s.withSet2 pr pr31 spsr) = mapNext (·.withSet2 pr pr31 spsr) (execReti m s) := by
  refine run_withSet2 fun _ => State.withNops_withSet2 _ ?_
  simp only [State.withSet2_hws]
  cases s.begin.hws <;> rfl

/-- R39: in user mode on register set 1 every instruction but `scall` commutes with a change of SET 2 and the SPSR. -/
theorem exec_withSet2 (h : s.UserSet1) (i : Instr) (hi : ∀ o, i ≠ .scall o) :
    exec i (s.withSet2 pr pr31 spsr) = mapNext (·.withSet2 pr pr31 spsr) (exec i s) := by
  have hb := h.begin
  unfold exec
  cases i with
  | add o | addi o | addiu o | addu o =>
    exact run_withSet2 fun _ => by simp only [hb.rd_withSet2, addTo_withSet2 hb]
  | sub o | subu o => exact run_withSet2 fun _ => by simp only [hb.rd_withSet2, subTo_withSet2 hb]
  | sll o | slli o => exact run_withSet2 fun _ => by simp only [hb.rd_withSet2, sllTo_withSet2 hb]
  | muli o | muls o | mulu o | mulus o =>
    exact run_withSet2 fun _ => by simp only [hb.rd_withSet2, mulTo_withSet2 hb]
  | mulhi o => exact execMulhi_withSet2 h o
  | conb o | sext o | muls16 o | mulu16 o | mulus16 o | and o | or o | xor o | sra o | srl o =>
    exact regOp_withSet2 h ..
  | sexti o | andi o | ori o | srai o | srli o => exact immOp_withSet2 h ..
  | conh o | exb o | exbf o | exbfi dr sr len pos | exh o | lli dr k | lui dr k | not o | mov o | movfc o | scon o =>
    exact run_withSet2 fun _ => by
      simp only [hb.rd_withSet2, hb.wr_withSet2, State.withSet2_freeCtr, State.withSet2_copRead, State.withSet2_cr,
        Res.mapState]
  | bc o | begt o | belt o | beq o | bgt o | blt o | bne o | bnc o => exact branchOn_withSet2 ..
  | jmp o => exact run_withSet2 fun _ => State.take_id_withSet2 ..
  | jal o => exact run_withSet2 fun _ => hb.take_link_withSet2 ..
  | jmpr o =>
    exact run_withSet2 fun _ => by
      rw [hb.rd_withSet2]; exact State.take_id_withSet2 ..
  | jalr o => exact run_withSet2 fun _ => by rw [hb.rd_withSet2]; exact hb.take_link_withSet2 ..
  | cmp o | cmpi o =>
    exact run_withSet2 fun _ => by simp only [hb.rd_withSet2, State.withSet2_setCr, Res.mapState]
  | rcon o => exact run_withSet2 fun _ => by rw [hb.rd_withSet2]; rfl
  | ld o => exact execLd_withSet2 h o
  | st o => exact execSt_withSet2 h o
  | chrs m k | di m | ei m | retu m =>
    exact run_withSet2 fun hl => absurd hl (h.not_legal rfl)
  | nop m | trap k => exact run_withSet2 fun _ => rfl
  | swm m k => exact run_withSet2 fun _ => State.withNops_withSet2 _ rfl
  | reti m => exact execReti_withSet2 ..
  | scall o => exact absurd rfl (hi o)
  | movtc o => exact run_withSet2 fun _ => by simp only [hb.rd_withSet2, State.copWrite_withSet2, Res.mapState]
  | cop k p | fnop o => exact run_withSet2 fun _ => congrArg Res.ok (State.forward_withSet2 ..)
  | fadd o | fsub o | fmul o | fdiv o | fcc k o => exact milkOp3_withSet2 ..
  | fsqrt o | fabs o | fmov o | fneg o | fcvts o | fcvtw o => exact milkOp2_withSet2 ..

end

/-- Settles O60: the hypotheses are `State.UserSet1`, and `exec_withSet2` goes through the instructions. -/
theorem userCodeIsolatedFromSetTwo : Obligations.UserCodeIsolatedFromSetTwo :=
  fun _ i _ _ _ hum hrd hwr hi => exec_withSet2 ⟨hum, hrd, hwr⟩ i hi

end Sys2Proof.Machine

/-! ## Data accesses: what `ld` and `st` do (20_memory.md R103 to R128, 47_load_store_move.md R461 to R464) -/

namespace Sys2Proof.Machine

/-! ### Words in the data memory (R105, R120) -/

/-- A word put together again from its bytes, the most significant first. -/
theorem word_of_bytes (w : Word) :
    w.extractLsb' 24 8 ++ w.extractLsb' 16 8 ++ w.extractLsb' 8 8 ++ w.extractLsb' 0 8 = w := by
  rw [BitVec.extractLsb'_append_extractLsb'_eq_extractLsb' (by decide),
    BitVec.extractLsb'_append_extractLsb'_eq_extractLsb' (by decide),
    BitVec.extractLsb'_append_extractLsb'_eq_extractLsb' (by decide), BitVec.extractLsb'_eq_self]

/-- Byte `j` of a stored word, counted from the most significant one. -/
theorem Memory.get_setWord_byte {m : List Host.Cell} (hm : Memory.wf m) (k : Nat) (w : Word) {j : Nat} (hj : j < 4) :
    Memory.get (Memory.setWord m k w) (k + j) = w.extractLsb' (24 - 8 * j) 8 := by
  have h0 := Memory.set_wf k (w.extractLsb' 24 8) hm
  have h1 := Memory.set_wf (k + 1) (w.extractLsb' 16 8) h0
  have h2 := Memory.set_wf (k + 2) (w.extractLsb' 8 8) h1
  unfold Memory.setWord
  match j, hj with
  | 0, _ =>
    rw [Memory.get_set_other _ _ _ _ (by omega), Memory.get_set_other _ _ _ _ (by omega),
      Memory.get_set_other _ _ _ _ (by omega)]
    exact Memory.get_set_self _ _ _ hm
  | 1, _ =>
    rw [Memory.get_set_other _ _ _ _ (by omega), Memory.get_set_other _ _ _ _ (by omega)]
    exact Memory.get_set_self _ _ _ h0
  | 2, _ =>
    rw [Memory.get_set_other _ _ _ _ (by omega)]
    exact Memory.get_set_self _ _ _ h1
  | 3, _ => exact Memory.get_set_self _ _ _ h2

theorem Memory.getWord_setWord {m : List Host.Cell} (hm : Memory.wf m) (k : Nat) (w : Word) :
    Memory.getWord (Memory.setWord m k w) k = w := by
  have hb : ∀ j < 4, Memory.get (Memory.setWord m k w) (k + j) = w.extractLsb' (24 - 8 * j) 8 :=
    fun j hj => Memory.get_setWord_byte hm k w hj
  have h0 : Memory.get (Memory.setWord m k w) k = w.extractLsb' 24 8 := hb 0 (by decide)
  rw [Memory.getWord, h0, hb 1 (by decide), hb 2 (by decide), hb 3 (by decide)]
  exact word_of_bytes w

section
variable {s t u : State} {o : OpsRRI} {a : Int}

/-! ### Which addresses select what (R104, R110, R113) -/

theorem State.dataFault_none_iff : s.dataFault a = none ↔ s.GoodData a := by
  unfold State.dataFault State.GoodData
  by_cases hr : a < 0 ∨ 4294967295 < a
  · simp only [if_pos hr, reduceCtorEq, false_iff]
    omega
  · rw [if_neg hr]
    cases s.psr.um <;> cases s.dallowed a.toNat <;> simp <;> omega

/-- A data address that passes its checks is the word on the bus. -/
theorem State.GoodData.toNat_ofInt (h : s.GoodData a) : ((BitVec.ofInt 32 a).toNat : Int) = a := by
  obtain ⟨h0, h1, -⟩ := h
  rw [BitVec.toNat_ofInt]
  omega

/-- The checks of a data address depend on the mode and the CCB only. -/
theorem State.GoodData.congr (h : s.GoodData a) (hpsr : t.psr = s.psr) (hccb : t.ccb = s.ccb) : t.GoodData a := by
  obtain ⟨h0, h1, hd⟩ := h
  exact ⟨h0, h1, by simpa only [State.dallowed, hpsr, hccb] using hd⟩

theorem State.region_congr (hccb : t.ccb = s.ccb) (w : Word) : t.region w = s.region w := by
  simp only [State.region, hccb]

theorem inCcb_iff {b w : Word} : inCcb b w = true ↔ b.toNat ≤ w.toNat ∧ w.toNat ≤ b.toNat + 255 := by
  simp [inCcb]

/-- R104: the addresses of the CCB, by their offset. -/
theorem State.region_ccb (hg : s.GoodData a) {k : Nat} (ha : a = s.ccb.ccbBase.toNat + k) (hk : k < 256) :
    s.region (BitVec.ofInt 32 a) = .ccb k := by
  have hn := hg.toNat_ofInt
  have hi : inCcb s.ccb.ccbBase (BitVec.ofInt 32 a) = true := by
    rw [inCcb_iff]; omega
  rw [State.region, if_pos hi]
  congr 1
  omega

theorem State.region_ccb_inv {w : Word} {k : Nat} (h : s.region w = .ccb k) : w.toNat = s.ccb.ccbBase.toNat + k := by
  unfold State.region at h
  split at h
  · rename_i hi
    rw [inCcb_iff] at hi
    cases h
    omega
  · repeat' split at h
    all_goals cases h

/-- R103, R110: a multiple of 4 outside the CCB and the external register block is the address of its cell. -/
theorem State.region_cell {n : Nat} (hg : s.GoodData n) (h4 : n % 4 = 0)
    (hccb : n < s.ccb.ccbBase.toNat ∨ s.ccb.ccbBase.toNat + 255 < n)
    (hext : n < s.ccb.ccbBase.toNat + 256 ∨ s.ccb.regspcEnd.toNat < n) :
    s.region (BitVec.ofInt 32 n) = .cell n := by
  have hn : (BitVec.ofInt 32 (n : Int)).toNat = n := Int.ofNat.inj hg.toNat_ofInt
  have hi : inCcb s.ccb.ccbBase (BitVec.ofInt 32 n) ≠ true := by
    rw [Ne, inCcb_iff]; omega
  rw [State.region, if_neg hi, if_neg (by omega), if_pos (.inl (by omega)), cellKey, if_pos (by omega), hn]

/-- R113, R103: where an access has a meaning it meets no remap and selects something. -/
theorem State.AccessDefined.no_hazard (h : s.AccessDefined a) (hg : s.GoodData a) :
    s.remapHazard s.ccbMoved (BitVec.ofInt 32 a) = false ∧ s.region (BitVec.ofInt 32 a) ≠ .noCell := by
  obtain ⟨hmoved, hcell⟩ := h
  have hn := hg.toNat_ofInt
  constructor
  · unfold State.remapHazard
    split
    · rfl
    · have := hmoved _ ‹_›
      rw [Bool.or_eq_false_iff, ← Bool.not_eq_true, ← Bool.not_eq_true, inCcb_iff, inCcb_iff]
      omega
  · intro hno
    obtain ⟨hccb, hext, h4, hbyte⟩ := State.region_noCell hno
    rw [← Bool.not_eq_true, inCcb_iff] at hccb
    simp only [hbyte, Bool.false_eq_true, false_or] at hcell
    omega

theorem State.no_hazard_of_none (hm : s.ccbMoved = none) (w : Word) : s.remapHazard s.ccbMoved w = false := by
  rw [hm]; rfl

/-! ### Loads and stores by what the address selects -/

theorem State.load_ccb {m : Option Word} {w : Word} {k : Nat} {r : CcbReg} (hm : s.remapHazard m w = false)
    (hw : s.region w = .ccb k) (hr : ccbRegAt k = some r) : s.load m w = .ok (s.ccbGet r) := by
  simp [State.load, hm, hw, hr]

theorem State.load_cell {m : Option Word} {w : Word} {k : Nat} (hm : s.remapHazard m w = false)
    (hw : s.region w = .cell k) : s.load m w = .ok (Memory.getWord s.mem k) := by
  simp [State.load, hm, hw]

theorem State.store_cell {m : Option Word} {w v : Word} {k : Nat} (hm : s.remapHazard m w = false)
    (hw : s.region w = .cell k) : s.store m w v = .ok { s with mem := Memory.setWord s.mem k v } := by
  simp [State.store, hm, hw]

/-! ### The two instructions (R461, R463) -/

/-- The state in which the access at address `a` is made: its address is on the bus (10_state.md R98). -/
def State.accessing (s : State) (a : Int) : State := s.begin.emit (.dataAddress (BitVec.ofInt 32 a))

@[simp] theorem State.accessing_mem (s : State) (a : Int) : (s.accessing a).mem = s.mem := rfl
@[simp] theorem State.accessing_remapHazard (s : State) (a : Int) (m : Option Word) (w : Word) :
    (s.accessing a).remapHazard m w = s.remapHazard m w := rfl

theorem State.access_good (hg : s.GoodData (s.dataAddr o.regB o.imm)) (k : State → Word → Res) :
    s.begin.access o.regB o.imm k =
      k (s.accessing (s.dataAddr o.regB o.imm)) (BitVec.ofInt 32 (s.dataAddr o.regB o.imm)) := by
  obtain ⟨c, hc, -⟩ | ⟨-, h⟩ := s.begin.access_cases o.regB o.imm k
  · rw [State.begin_dataFault, State.begin_dataAddr, State.dataFault_none_iff.2 hg] at hc
    cases hc
  · exact h

theorem exec_ld (hr : s.CanRun o.guard) (hg : s.GoodData (s.dataAddr o.regB o.imm)) :
    exec (.ld o) s = finish s ((s.accessing (s.dataAddr o.regB o.imm)).loadTo s.ccbMoved
      (BitVec.ofInt 32 (s.dataAddr o.regB o.imm)) o.regA) := by
  rw [show exec (.ld o) s = execLd o s from rfl, execLd, run_plain hr, State.access_good hg]

theorem exec_st (hr : s.CanRun o.guard) (hg : s.GoodData (s.dataAddr o.regB o.imm)) :
    exec (.st o) s = finish s ((s.accessing (s.dataAddr o.regB o.imm)).store s.ccbMoved
      (BitVec.ofInt 32 (s.dataAddr o.regB o.imm)) (s.rd o.regA)) := by
  rw [show exec (.st o) s = execSt o s from rfl, execSt, run_plain hr, State.access_good hg]
  rfl

/-- An effect that makes nothing pending is followed by the pc update of 10_state.md R24. -/
theorem State.retire_advanced (h : u.ptarget = s.ptarget) : s.Advanced (s.retire u) := by
  refine ⟨State.retire_pc s u, ?_⟩
  cases hp : s.ptarget with
  | none => rw [State.retire_ptarget_plain hp, h, hp]
  | some a => exact State.retire_ptarget_slot hp u

/-- R461: a load that reads `v` writes `v` to its destination and changes nothing else. -/
theorem ld_completes {v : Word} (hr : s.CanRun o.guard) (hg : s.GoodData (s.dataAddr o.regB o.imm))
    (hv : (s.accessing (s.dataAddr o.regB o.imm)).load s.ccbMoved (BitVec.ofInt 32 (s.dataAddr o.regB o.imm)) = .ok v) :
    Completes (exec (.ld o) s) (s.RegResult o.regA v) := by
  rw [exec_ld hr hg, State.loadTo, hv]
  obtain ⟨hcr, hpsr, -, hp, hm64, hmem, hunits⟩ := (s.accessing (s.dataAddr o.regB o.imm)).wr_frame o.regA v
  refine ⟨_, rfl, ?_⟩
  have ha := State.retire_advanced (s := s) hp
  rw [State.retire_eq] at ha ⊢
  exact ⟨State.wr_wrote .., hcr, hpsr, hm64, hunits, fun k => congrArg (Memory.get · k) hmem, ha⟩

/-! ### Data memory -/

/-- Settles O24: an access that has a meaning is no refused one (`State.load_error`), so `ld` completes; from a cell it
reads the bytes there. -/
theorem loadResults : Obligations.LoadResults := by
  intro s o hr hg hd
  obtain ⟨hz, hcell⟩ := hd.no_hazard hg
  cases hv : (s.accessing (s.dataAddr o.regB o.imm)).load s.ccbMoved (BitVec.ofInt 32 (s.dataAddr o.regB o.imm)) with
  | error r =>
    obtain ⟨h, -⟩ | ⟨-, h, -⟩ := State.load_error hv
    · rw [State.accessing_remapHazard, hz] at h
      cases h
    · exact absurd h hcell
  | ok v =>
    obtain ⟨t, ht, hres⟩ := ld_completes hr hg hv
    refine ⟨t, ht, v, hres, fun a ha h4 hccb hext => ?_⟩
    rw [ha] at hg hz hv
    have hc : (s.accessing a).load s.ccbMoved (BitVec.ofInt 32 a) = .ok (Memory.getWord s.mem a) :=
      State.load_cell hz (State.region_cell hg h4 hccb hext)
    exact Except.ok.inj (hv.symm.trans hc)

/-- R105: a store to a cell of data memory replaces its word. -/
theorem st_cell {k : Nat} (hr : s.CanRun o.guard) (hm : s.ccbMoved = none)
    (hg : s.GoodData (s.dataAddr o.regB o.imm))
    (hk : s.region (BitVec.ofInt 32 (s.dataAddr o.regB o.imm)) = .cell k) :
    exec (.st o) s = .next (s.retire { s.accessing (s.dataAddr o.regB o.imm) with
      mem := Memory.setWord s.mem k (s.rd o.regA) }) := by
  rw [exec_st hr hg, State.store_cell (s := s.accessing _) (State.no_hazard_of_none hm _) hk]
  rfl

/-- Settles O25: at a multiple of 4 the cell is the four bytes from the address on. -/
theorem storeToDataMemory : Obligations.StoreToDataMemory := by
  intro s o a hwf hr hm ha hg h4 hccb hext
  have hk : s.region (BitVec.ofInt 32 (s.dataAddr o.regB o.imm)) = .cell a := by
    rw [ha]; exact State.region_cell hg h4 hccb hext
  refine ⟨_, st_cell hr hm (ha ▸ hg) hk, ?_⟩
  have hadv := State.retire_advanced (s := s) (u := { s.accessing (s.dataAddr o.regB o.imm) with
    mem := Memory.setWord s.mem a (s.rd o.regA) }) rfl
  rw [State.retire_eq] at hadv ⊢
  exact ⟨fun j hj => Memory.get_setWord_byte hwf a _ hj, fun k hk => Memory.get_setWord_other _ _ _ _ hk,
    ⟨rfl, rfl, rfl, rfl⟩, rfl, rfl, rfl, ⟨rfl, rfl, rfl, rfl, rfl, rfl⟩, hadv⟩

/-- Settles O26: the store leaves the mode and the CCB, so the load passes its checks and selects the same cell. -/
theorem storeThenLoadReturnsValue : Obligations.StoreThenLoadReturnsValue := by
  intro s t o p k hwf hr hm hg hk ht hp ha
  rw [st_cell hr hm hg hk] at ht
  have ht := (Host.Outcome.next.inj ht).symm
  have hccb : t.ccb = s.ccb := by rw [ht, State.retire_ccb]; rfl
  have hpsr : t.psr = s.psr := by rw [ht, State.retire_psr]; rfl
  have hmoved : t.ccbMoved = none := by rw [ht, State.retire_ccbMoved]; rfl
  have hmem : t.mem = Memory.setWord s.mem k (s.rd o.regA) := by rw [ht, State.retire_mem]
  rw [← ha] at hg hk
  refine ld_completes hp (hg.congr hpsr hccb) ?_
  rw [hmoved, State.load_cell (s := t.accessing _) rfl ((State.region_congr hccb _).trans hk), State.accessing_mem, hmem,
    Memory.getWord_setWord hwf]

end

end Sys2Proof.Machine

/-! ## Which instructions write a memory (20_memory.md R101, R105, R131) -/

namespace Sys2Proof.Machine

section
variable {s u t : State} {i : Instr}

theorem State.store_imem {m : Option Word} {a v : Word} (h : s.store m a v = .ok u) : u.imem = s.imem := by
  obtain ⟨-, ⟨k, r, -, -, -, rfl⟩ | rfl | ⟨k, -, rfl⟩⟩ := State.store_ok h
  · obtain ⟨-, -, -, -, -, -, himem, -⟩ := s.ccbPut_frame r v
    exact himem
  · rfl
  · rfl

theorem State.Effect.imem_eq (h : s.Effect i u) : u.imem = s.imem := by
  cases h with
  | store o e m a v u hu => exact (State.store_imem hu :)
  | copWrite => rw [State.copWrite_eq]; rfl
  | forward => rw [State.forward_eq]; rfl
  | _ => simp

theorem State.Effect.mem_eq (h : s.Effect i u) (hi : ∀ o, i ≠ .st o) : u.mem = s.mem := by
  cases h with
  | store o => exact absurd rfl (hi o)
  | copWrite => rw [State.copWrite_eq]; rfl
  | forward => rw [State.forward_eq]; rfl
  | _ => simp

theorem State.Leaves.mem_eq (h : s.Leaves i t) : t.imem = s.imem ∧ t.mem = s.mem := by
  cases h <;> exact ⟨rfl, rfl⟩

end

/-- Settles O30: neither an exception nor a transfer writes a memory, and of the effects only that of `st`. -/
theorem onlyStoresWriteMemory : Obligations.OnlyStoresWriteMemory := by
  intro i s t h
  cases exec_ends h with
  | raised c => exact ⟨rfl, fun _ _ => rfl⟩
  | retired hu =>
    rw [State.retire_imem, State.retire_mem]
    exact ⟨hu.imem_eq, fun hi k => by rw [hu.mem_eq hi]⟩
  | left _ ht =>
    obtain ⟨himem, hmem⟩ := ht.mem_eq
    exact ⟨himem, fun _ k => by rw [hmem]⟩

end Sys2Proof.Machine

/-! ## Fetch: its exceptions and the instruction a step executes (10_state.md R24, 20_memory.md R115, R126) -/

namespace Sys2Proof.Machine

section
variable {s : State} {i : Instr}

/-- R126: the bounds belong to the area. -/
theorem State.iallowed_iff (s : State) (a : Nat) : s.iallowed a = true ↔
    if s.ccb.memConf.getLsbD 0 = true then a < s.ccb.imemBoundLo.toNat ∨ s.ccb.imemBoundHi.toNat < a
    else s.ccb.imemBoundLo.toNat ≤ a ∧ a ≤ s.ccb.imemBoundHi.toNat := by
  unfold State.iallowed
  split
  · simp only [Bool.not_eq_true', Bool.and_eq_false_iff, decide_eq_false_iff_not, Nat.not_le]
  · simp only [Bool.and_eq_true, decide_eq_true_eq]

theorem State.fetch_misaligned (h : s.pc.toNat % s.len ≠ 0) : s.fetch = .exc 5#8 := if_pos h

theorem State.fetch_protected (h : s.pc.toNat % s.len = 0) (hum : s.psr.um = true)
    (hp : s.iallowed s.pc.toNat = false) : s.fetch = .exc 0#8 := by
  rw [State.fetch, if_neg (not_not.2 h), if_pos (by simp [hum, hp])]

theorem State.fetch_instr (h : s.pc.toNat % s.len = 0) (hum : s.psr.um = true → s.iallowed s.pc.toNat = true)
    (hl : Imem.lookup s.imem s.pc.toNat = some { addr := s.pc.toNat, mode := s.mode, instr := i })
    (hf : i.fits s.mode = true) : s.fetch = .instr i := by
  rw [State.fetch, if_neg (not_not.2 h), if_neg (by simpa using hum), hl]
  exact if_pos ⟨rfl, hf⟩

theorem fetchException_raised (h : s.ptarget = none) (c : BitVec 8) :
    Completes (fetchException s c) (s.Raised c) := by
  refine ⟨_, by rw [fetchException, h], ?_⟩
  exact s.raised_raiseExc c

theorem step_of_fetch_exc {c : BitVec 8} (hf : s.sampleRequests.foreignSet = false)
    (ha : s.sampleRequests.accepted = none) (h : s.sampleRequests.fetch = .exc c) :
    step s = fetchException s.sampleRequests c := by
  simp [step, hf, ha, h]

theorem step_of_fetch_instr (hf : s.sampleRequests.foreignSet = false)
    (ha : s.sampleRequests.accepted = none) (h : s.sampleRequests.fetch = .instr i) :
    step s = exec i s.sampleRequests := by
  simp [step, hf, ha, h]

/-- The requests of a boundary reach INT_PEND only, so they do not matter to the fetch. -/
theorem State.sampleRequests_fetch (s : State) : s.sampleRequests.fetch = s.fetch := by
  unfold State.sampleRequests; split <;> rfl

/-- R635: with interrupts disabled no request is accepted. -/
theorem State.accepted_of_disabled (h : s.psr.ie = false) : s.accepted = none := by
  cases ha : s.accepted with
  | none => rfl
  | some k =>
    obtain ⟨-, hp⟩ := State.accepted_plain ha
    simp [State.passes, h] at hp

/-! ### An instruction placed at the pc (log 5) -/

theorem Imem.lookup_place_other (l : List IWord) (w : IWord) {a : Nat} (h : w.addr ≠ a) :
    Imem.lookup (Imem.place l w) a = Imem.lookup l a := by
  induction l with
  | nil => simp [Imem.place, Imem.lookup, h]
  | cons v l ih =>
    simp only [Imem.place]
    split
    · rw [Imem.lookup, if_neg h]
    · split
      · rename_i he
        rw [Imem.lookup, Imem.lookup, if_neg h, if_neg (he ▸ h)]
      · rw [Imem.lookup, Imem.lookup, ih]

theorem Imem.lookup_placeNops_before (m : Mode) (n b : Nat) (l : List IWord) {a : Nat} (h : a < b) :
    Imem.lookup (Imem.placeNops m n b l) a = Imem.lookup l a := by
  induction n generalizing b l with
  | zero => rfl
  | succ n ih => rw [Imem.placeNops, ih _ _ (by omega), Imem.lookup_place_other _ _ h.ne']

theorem Mode.len_pos (m : Mode) : 0 < m.len := by cases m <;> decide

/-- The nops of a unit stand after its instruction. -/
theorem Imem.lookup_placeInstr (m : Mode) (a : Nat) (i : Instr) (l : List IWord) :
    Imem.lookup (Imem.placeInstr m a i l) a = some { addr := a, mode := m, instr := i } := by
  have := Mode.len_pos m
  rw [Imem.placeInstr, Imem.lookup_placeNops_before _ _ _ _ (by omega)]
  exact Imem.lookup_place_self l { addr := a, mode := m, instr := i }

theorem State.withFetchWord_imem {nbits w : Nat} (h : decodeTableWord nbits w = some i) :
    (s.withFetchWord nbits w).imem =
      Imem.placeInstr (if nbits = 32 then .m32 else .m16) s.pc.toNat i s.imem := by
  simp [State.withFetchWord, h]

theorem State.withFetchWord_mode (s : State) (nbits w : Nat) :
    (s.withFetchWord nbits w).mode = if nbits = 32 then .m32 else .m16 := by
  simp [State.mode, State.withFetchWord]

theorem State.withFetchWord_len {nbits : Nat} (h : nbits = 16 ∨ nbits = 32) (s : State) (w : Nat) :
    (s.withFetchWord nbits w).len = nbits / 8 := by
  obtain rfl | rfl := h <;> rfl

/-- In super-user mode the fetch finds the instruction of a word placed at an aligned pc. -/
theorem State.withFetchWord_fetch {nbits w : Nat} (hn : nbits = 16 ∨ nbits = 32) (hd : decodeTableWord nbits w = some i)
    (hfit : i.fits (if nbits = 32 then .m32 else .m16) = true) (hum : s.psr.um = false)
    (h : s.pc.toNat % (nbits / 8) = 0) : (s.withFetchWord nbits w).fetch = .instr i := by
  rw [← State.withFetchWord_len hn s w] at h
  rw [← State.withFetchWord_mode s nbits w] at hfit
  refine State.fetch_instr h (fun hu => ?_) ?_ hfit
  · exact absurd (hum.symm.trans hu) (by decide)
  · rw [State.withFetchWord_imem hd, State.withFetchWord_mode]
    exact Imem.lookup_placeInstr ..

end

/-- Settles O51: 5 comes before 0, and an exception of a fetch has the effect `Raised`. -/
theorem fetchExceptions : Obligations.FetchExceptions := by
  refine ⟨State.iallowed_iff, fun s hr hf ha hp => ?_⟩
  have hs := State.sampleRequests_nil hr
  rw [← hs] at hf ha hp
  have hstep : ∀ c, s.fetch = .exc c → Completes (step s) (s.Raised c) := fun c h => by
    rw [step_of_fetch_exc hf ha (by rw [hs]; exact h), hs]
    exact fetchException_raised (by rw [← hs]; exact hp) c
  exact ⟨fun h => hstep _ (State.fetch_misaligned h), fun h hum hi => hstep _ (State.fetch_protected h hum hi)⟩

/-- Settles O52: the fetch finds the instruction; one placed with its nops stands before them. -/
theorem stepExecutesFetchedInstruction : Obligations.StepExecutesFetchedInstruction := by
  refine ⟨fun s i hf ha h hum hl hfit => ?_, fun s nbits w i hn hd hfit hie hum hr h => ?_⟩
  · refine step_of_fetch_instr hf ha ?_
    rw [State.sampleRequests_fetch]
    exact State.fetch_instr h hum hl hfit
  · have hs : (s.withFetchWord nbits w).sampleRequests = s.withFetchWord nbits w := State.sampleRequests_nil hr
    have hf : (s.withFetchWord nbits w).foreignSet = false := congrArg (· && _) hum
    have hstep := step_of_fetch_instr (s := s.withFetchWord nbits w) (i := i)
    rw [hs] at hstep
    exact hstep hf (State.accepted_of_disabled hie) (State.withFetchWord_fetch hn hd hfit hum h)

end Sys2Proof.Machine

/-! ## The core configuration block: what `ld` and `st` do at each offset (10_state.md R40 to R84, 20_memory.md R111) -/

namespace Sys2Proof.Machine

/-! ### Offsets -/

/-- The offset of a register (R83). -/
def CcbReg.offset : CcbReg → Nat
  | .ccbBase => 0 | .regspcEnd => 1 | .intVec j => 2 + j.val | .intModeIl => 14 | .intModeUm => 15 | .intMask => 16
  | .intServ => 17 | .intPend => 18 | .extIntPri => 19 | .copIntPri => 20 | .exceptionCs => 21 | .exceptionPc => 22
  | .exceptionPsr => 23 | .dmemBoundLo => 24 | .dmemBoundHi => 25 | .imemBoundLo => 26 | .imemBoundHi => 27
  | .memConf => 28 | .systemAddr => 29 | .excepAddr => 30 | .busConf => 31 | .copConf => 32 | .tmr0Cnt => 33
  | .tmr0MaxCnt => 34 | .tmr1Cnt => 35 | .tmr1MaxCnt => 36 | .tmrConf => 37 | .retiAddr => 38 | .retiPsr => 39
  | .retiCr0 => 40

theorem ccbMap_map_offset : ccbMap.map CcbReg.offset = List.range 41 := by decide

theorem ccbRegAt_offset (r : CcbReg) : ccbRegAt r.offset = some r := by
  cases r with
  | intVec j =>
    have h : ∀ j : Fin 12, ccbMap[2 + j.val]? = some (.intVec j) := by decide
    exact h j
  | _ => rfl

/-- A register stands at its offset and nowhere else. -/
theorem ccbRegAt_eq_some_iff {k : Nat} {r : CcbReg} : ccbRegAt k = some r ↔ k = r.offset := by
  refine ⟨fun h => ?_, fun h => h ▸ ccbRegAt_offset r⟩
  have hr : (List.range 41)[k]? = some r.offset := by
    rw [← ccbMap_map_offset, List.getElem?_map]
    exact congrArg _ h
  obtain ⟨hk, hr⟩ := List.getElem?_eq_some_iff.1 hr
  rw [← hr, List.getElem_range]

/-! ### A store at an offset -/

/-- The registers of the CCB after a store of `v` to the register `x`, if there is one. -/
def Ccb.put (c : Ccb) (x : Option CcbReg) (v : Word) : Ccb :=
  { ccbBase := if x = some .ccbBase then v else c.ccbBase
    regspcEnd := if x = some .regspcEnd then v else c.regspcEnd
    intVec := Vector.ofFn fun j => if x = some (.intVec j) then v else c.intVec[j.val]
    intModeIl := if x = some .intModeIl then v.setWidth 12 else c.intModeIl
    intModeUm := if x = some .intModeUm then v.setWidth 12 else c.intModeUm
    intMask := if x = some .intMask then v.setWidth 12 else c.intMask
    intServ := c.intServ
    intPend := c.intPend
    extIntPri := if x = some .extIntPri then v else c.extIntPri
    copIntPri := if x = some .copIntPri then v.setWidth 16 else c.copIntPri
    exceptionCs := c.exceptionCs
    exceptionPc := c.exceptionPc
    exceptionPsr := if x = some .exceptionPsr ∧ Config.exceptionPsrWritable = true then v.setWidth 8 else c.exceptionPsr
    dmemBoundLo := if x = some .dmemBoundLo then v else c.dmemBoundLo
    dmemBoundHi := if x = some .dmemBoundHi then v else c.dmemBoundHi
    imemBoundLo := if x = some .imemBoundLo then v else c.imemBoundLo
    imemBoundHi := if x = some .imemBoundHi then v else c.imemBoundHi
    memConf := if x = some .memConf then v.setWidth 2 else c.memConf
    systemAddr := if x = some .systemAddr then v else c.systemAddr
    excepAddr := if x = some .excepAddr then v else c.excepAddr
    busConf := if x = some .busConf then v.setWidth 12 else c.busConf
    copConf := if x = some .copConf then v.setWidth 28 else c.copConf
    tmr0Cnt := if x = some .tmr0Cnt then v else c.tmr0Cnt
    tmr0MaxCnt := if x = some .tmr0MaxCnt then v else c.tmr0MaxCnt
    tmr1Cnt := if x = some .tmr1Cnt then v else c.tmr1Cnt
    tmr1MaxCnt := if x = some .tmr1MaxCnt then v else c.tmr1MaxCnt
    tmrConf := if x = some .tmrConf then v else c.tmrConf }

/-- The top of the hardware stack after a store of `v` to the register `x`, if there is one (R94). -/
def HwsEntry.put (e : HwsEntry) (x : Option CcbReg) (v : Word) : HwsEntry :=
  { addr := if x = some .retiAddr then v else e.addr
    psr := if x = some .retiPsr then v.setWidth 8 else e.psr
    cr0 := if x = some .retiCr0 then { z := v.getLsbD 2, n := v.getLsbD 1, c := v.getLsbD 0 } else e.cr0
    source := e.source }

/-- The state after a store of `v` at offset `k` of the CCB: an offset without a register takes nothing (R82). -/
def State.putAt (s : State) (k : Nat) (v : Word) : State := (ccbRegAt k).elim s (s.ccbPut · v)

/-- A store to the CCB is `State.putAt`, but for a base that is not aligned (R41). -/
theorem State.store_ccb {s : State} {m : Option Word} {w v : Word} {k : Nat} (hm : s.remapHazard m w = false)
    (hw : s.region w = .ccb k) (hv : k = 0 → v.extractLsb' 0 8 = 0#8) : s.store m w v = .ok (s.putAt k v) := by
  simp only [State.store, hm, hw, Bool.false_eq_true, if_false, State.putAt]
  cases hr : ccbRegAt k with
  | none => rfl
  | some r =>
    refine if_neg fun ⟨hb, hn⟩ => hn (hv ?_)
    rw [hb] at hr
    exact ccbRegAt_eq_some_iff.1 hr

theorem Ccb.put_none (c : Ccb) (v : Word) : c.put none v = c := by
  simp [Ccb.put]

theorem HwsEntry.put_none (e : HwsEntry) (v : Word) : e.put none v = e := by
  simp [HwsEntry.put]

/-- Only the offsets of RETI_ADDR, RETI_PSR and RETI_CR0 reach the top of the hardware stack. -/
theorem HwsEntry.put_of_outside (e : HwsEntry) (v : Word) {k : Nat} (h : k < 38 ∨ 40 < k) :
    e.put (ccbRegAt k) v = e := by
  have h38 : k ≠ 38 := by omega
  have h39 : k ≠ 39 := by omega
  have h40 : k ≠ 40 := by omega
  simp [HwsEntry.put, ccbRegAt_eq_some_iff, CcbReg.offset, h38, h39, h40]

section
variable (s : State) (r : CcbReg) (k : Nat) (v : Word)

theorem State.ccbPut_ccb : (s.ccbPut r v).ccb = s.ccb.put (some r) v := by
  cases r with
  | intVec j =>
    have hj : s.ccb.intVec.set j.val v =
        Vector.ofFn fun i : Fin 12 => if j = i then v else s.ccb.intVec[i.val] := by
      ext i hi
      simp [Vector.getElem_set, Fin.ext_iff]
    simp [State.ccbPut, Ccb.put, hj]
  | exceptionPsr =>
    simp only [State.ccbPut]
    split <;> simp [Ccb.put, *]
  | retiAddr | retiPsr | retiCr0 =>
    simp only [State.ccbPut]
    split <;> simp [Ccb.put]
  | _ => simp [State.ccbPut, Ccb.put]

/-- R94: the three registers RETI_ADDR, RETI_PSR and RETI_CR0 are the top of the hardware stack. -/
theorem State.ccbPut_hws : (s.ccbPut r v).hws = s.hws.modifyHead (·.put (some r) v) := by
  cases r with
  | exceptionPsr =>
    simp only [State.ccbPut]
    split <;> cases s.hws <;> simp [HwsEntry.put]
  | retiAddr | retiPsr | retiCr0 =>
    simp only [State.ccbPut]
    split <;> simp [HwsEntry.put, Flags.ofBits, *]
  | _ => cases h : s.hws <;> simp [State.ccbPut, HwsEntry.put, h]

/-- R94: what an empty hardware stack shows changes by a store to its top only. -/
theorem State.ccbPut_hwsIdle (h : r = .retiAddr ∨ r = .retiPsr ∨ r = .retiCr0 → s.hws ≠ []) :
    (s.ccbPut r v).hwsIdle = s.hwsIdle := by
  cases r with
  | exceptionPsr =>
    simp only [State.ccbPut]
    split <;> rfl
  | retiAddr | retiPsr | retiCr0 =>
    simp only [State.ccbPut]
    split
    · exact absurd ‹_› (h (by simp))
    · rfl
  | _ => rfl

theorem State.ccbPut_requests : (s.ccbPut r v).requests = s.requests := by
  unfold State.ccbPut
  repeat' split
  all_goals rfl

/-- R113, R714: a store to CCB_BASE records the base it replaces. -/
theorem State.ccbPut_ccbMoved :
    (s.ccbPut r v).ccbMoved = if r = .ccbBase then some s.ccb.ccbBase else s.ccbMoved := by
  unfold State.ccbPut
  repeat' split
  all_goals simp_all

theorem State.putAt_frame :
    s.SameRegs (s.putAt k v) ∧ (s.putAt k v).cr = s.cr ∧ (s.putAt k v).psr = s.psr ∧ (s.putAt k v).m64 = s.m64 ∧
      (s.putAt k v).ptarget = s.ptarget ∧ (s.putAt k v).mem = s.mem ∧ (s.putAt k v).imem = s.imem ∧
      (s.putAt k v).cops = s.cops ∧ (s.putAt k v).requests = s.requests := by
  unfold State.putAt
  cases ccbRegAt k with
  | none => exact ⟨⟨rfl, rfl, rfl, rfl⟩, rfl, rfl, rfl, rfl, rfl, rfl, rfl, rfl⟩
  | some r =>
    obtain ⟨hregs, hcr, hpsr, hm64, hp, hmem, himem, hcops⟩ := s.ccbPut_frame r v
    exact ⟨hregs, hcr, hpsr, hm64, hp, hmem, himem, hcops, s.ccbPut_requests r v⟩

theorem State.putAt_ccb : (s.putAt k v).ccb = s.ccb.put (ccbRegAt k) v := by
  unfold State.putAt
  cases ccbRegAt k with
  | none => exact (s.ccb.put_none v).symm
  | some r => exact s.ccbPut_ccb r v

theorem State.putAt_hws : (s.putAt k v).hws = s.hws.modifyHead (·.put (ccbRegAt k) v) := by
  unfold State.putAt
  cases ccbRegAt k with
  | none => cases h : s.hws <;> simp [h, HwsEntry.put_none]
  | some r => exact s.ccbPut_hws r v

theorem State.putAt_hwsIdle (h : k < 38 ∨ 40 < k ∨ s.hws ≠ []) : (s.putAt k v).hwsIdle = s.hwsIdle := by
  unfold State.putAt
  cases hr : ccbRegAt k with
  | none => rfl
  | some r =>
    refine s.ccbPut_hwsIdle r v ?_
    have hk := ccbRegAt_eq_some_iff.1 hr
    rintro (rfl | rfl | rfl) <;>
      exact (h.resolve_left (by rw [hk]; decide)).resolve_left (by rw [hk]; decide)

theorem State.putAt_ccbMoved : (s.putAt k v).ccbMoved = if k = 0 then some s.ccb.ccbBase else s.ccbMoved := by
  unfold State.putAt
  cases hr : ccbRegAt k with
  | none =>
    have hk : k ≠ 0 := by rintro rfl; cases hr
    rw [if_neg hk]; rfl
  | some r =>
    have hk : r = .ccbBase ↔ k = 0 := by
      rw [← Option.some_inj, ← hr]
      exact ccbRegAt_eq_some_iff
    simp only [Option.elim, State.ccbPut_ccbMoved, hk]

end

section
variable {s t : State} {o : OpsRRI}

/-- R105, R111: a store to the CCB is `State.putAt`. -/
theorem st_ccb {k : Nat} (hr : s.CanRun o.guard) (hm : s.ccbMoved = none)
    (ha : s.dataAddr o.regB o.imm = s.ccb.ccbBase.toNat + k) (hk : k < 256)
    (hg : s.GoodData (s.dataAddr o.regB o.imm)) (hv : k = 0 → (s.rd o.regA).toNat % 256 = 0) :
    exec (.st o) s = .next (s.retire ((s.accessing (s.dataAddr o.regB o.imm)).putAt k (s.rd o.regA))) := by
  have hv' : k = 0 → (s.rd o.regA).extractLsb' 0 8 = 0#8 := fun h =>
    BitVec.eq_of_toNat_eq (by simpa using hv h)
  rw [exec_st hr hg, State.store_ccb (s := s.accessing _) (State.no_hazard_of_none hm _) (State.region_ccb hg ha hk) hv']
  rfl

/-- What a store at an offset of the CCB leaves: the register there, the top of the hardware stack, and the frame. -/
theorem st_ccb_completes {k : Nat} {v : Word} (hr : s.CanRun o.guard) (hm : s.ccbMoved = none)
    (ha : s.dataAddr o.regB o.imm = s.ccb.ccbBase.toNat + k) (hk : k < 256)
    (hg : s.GoodData (s.dataAddr o.regB o.imm)) (hv : v = s.rd o.regA) (hal : k = 0 → v.toNat % 256 = 0) :
    Completes (exec (.st o) s) fun t => (s.SameRegs t ∧ t.cr = s.cr ∧ t.psr = s.psr ∧ s.SameMem t ∧ s.Advanced t ∧
      t.m64 = none ∧ t.imem = s.imem ∧ t.cops = s.cops ∧ t.requests = s.requests) ∧
      t.ccbMoved = (if k = 0 then some s.ccb.ccbBase else none) ∧
      (k < 38 ∨ 40 < k ∨ s.hws ≠ [] → t.hwsIdle = s.hwsIdle) ∧
      t.ccb = s.ccb.put (ccbRegAt k) v ∧ t.hws = s.hws.modifyHead (·.put (ccbRegAt k) v) := by
  subst hv
  refine ⟨_, st_ccb hr hm ha hk hg hal, ?_⟩
  generalize s.rd o.regA = v
  generalize hx : s.accessing (s.dataAddr o.regB o.imm) = x
  obtain ⟨hregs, hcr, hpsr, hm64, hp, hmem, himem, hcops, hreq⟩ := x.putAt_frame k v
  have hmoved := x.putAt_ccbMoved k v
  have hidle := x.putAt_hwsIdle k v
  have hccb := x.putAt_ccb k v
  have hhws := x.putAt_hws k v
  subst hx
  have hadv := State.retire_advanced (s := s) hp
  rw [State.retire_eq] at hadv ⊢
  exact ⟨⟨hregs, hcr, hpsr, fun j => congrArg (Memory.get · j) hmem, hadv, hm64, himem, hcops, hreq⟩,
    hmoved, hidle, hccb, hhws⟩

/-- A store that goes on: an exception, a false condition, or the store itself. -/
theorem st_next (h : exec (.st o) s = .next t) :
    (∃ c, t = s.raiseExc c) ∨ t = s.retire s.begin ∨
    (s.GoodData (s.dataAddr o.regB o.imm) ∧ ∃ u, t = s.retire u ∧
      (s.accessing (s.dataAddr o.regB o.imm)).store s.ccbMoved (BitVec.ofInt 32 (s.dataAddr o.regB o.imm))
        (s.rd o.regA) = .ok u) := by
  obtain ⟨-, -, rfl⟩ | ⟨-, -, rfl⟩ | ⟨hi, hg, -, hf⟩ := run_next (show execSt o s = .next t from h)
  · exact .inl ⟨_, rfl⟩
  · exact .inr (.inl rfl)
  · obtain ⟨c, -, e⟩ | ⟨hd, e⟩ := s.begin.access_cases o.regB o.imm fun u a => u.store s.ccbMoved a (u.rd o.regA)
    · rw [e] at hf
      obtain ⟨-, rfl⟩ := takeException_next hf
      exact .inl ⟨c, rfl⟩
    · rw [e] at hf
      obtain ⟨u, hu, rfl⟩ | hu | ⟨c, hu, -⟩ := finish_next hf
      · exact .inr (.inr ⟨State.dataFault_none_iff.1 hd, u, rfl, hu⟩)
      · exact absurd hu State.store_not_goto
      · exact absurd hu State.store_not_exc

/-- R113, R714: a store leaves a record of a remap if it goes to CCB_BASE. -/
theorem st_ccbMoved (h : exec (.st o) s = .next t) (hm : t.ccbMoved ≠ none) :
    t.ccbMoved = some s.ccb.ccbBase ∧ s.dataAddr o.regB o.imm = s.ccb.ccbBase.toNat := by
  obtain ⟨c, rfl⟩ | rfl | ⟨hg, u, rfl, hu⟩ := st_next h
  · exact absurd rfl hm
  · exact absurd (State.retire_ccbMoved ..) hm
  · rw [State.retire_ccbMoved] at hm ⊢
    obtain ⟨-, ⟨k, r, hk, hr, -, rfl⟩ | rfl | ⟨k, -, rfl⟩⟩ := State.store_ok hu
    · rw [State.ccbPut_ccbMoved] at hm ⊢
      split at hm
      · rename_i hb
        subst hb
        have hw := State.region_ccb_inv hk
        rw [ccbRegAt_eq_some_iff.1 hr] at hw
        refine ⟨if_pos rfl, ?_⟩
        rw [← hg.toNat_ofInt, hw]
        rfl
      · exact absurd rfl hm
    · exact absurd rfl hm
    · exact absurd rfl hm

theorem State.Effect.ccbMoved_eq {i : Instr} {u : State} (h : s.Effect i u) (hi : ∀ o, i ≠ .st o) :
    u.ccbMoved = none := by
  cases h with
  | store o => exact absurd rfl (hi o)
  | copWrite => rw [State.copWrite_eq]; rfl
  | forward => rw [State.forward_eq]; rfl
  | _ => simp

/-- R714: an instruction that is no store leaves no record of a remap. -/
theorem exec_ccbMoved {i : Instr} (h : exec i s = .next t) (hi : ∀ o, i ≠ .st o) : t.ccbMoved = none := by
  cases exec_ends h with
  | raised c => rfl
  | retired hu => rw [State.retire_ccbMoved]; exact hu.ccbMoved_eq hi
  | left _ ht => cases ht <;> rfl

end

/-- Settles O28: a record of a remap comes from a store (`exec_ccbMoved`) to CCB_BASE (`st_ccbMoved`); a store at offset
`k` is `State.putAt`, which writes the register whose offset is `k` (`ccbRegAt_eq_some_iff`). -/
theorem storeToCcbRegister : Obligations.StoreToCcbRegister := by
  refine ⟨fun i s t h hm => ?_, fun s o k v hr hm ha hk hg hv hal => ?_⟩
  · by_cases hi : ∃ o, i = .st o
    · obtain ⟨o, rfl⟩ := hi
      obtain ⟨hb, haddr⟩ := st_ccbMoved h hm
      exact ⟨hb, o, rfl, haddr⟩
    · exact absurd (exec_ccbMoved h fun o ho => hi ⟨o, ho⟩) hm
  · obtain ⟨t, ht, ⟨hregs, hcr, hpsr, hmem, hadv, hm64, himem, hcops, hreq⟩, hmoved, hidle, hccb, hhws⟩ :=
      st_ccb_completes hr hm ha hk hg hv hal
    refine ⟨t, ht, hregs, hcr, hpsr, hmem, hadv, hm64, himem, hcops, hreq, hmoved, hidle, ?_⟩
    simp only [hccb, hhws, Ccb.put, ccbRegAt_eq_some_iff, CcbReg.offset, true_and]
    refine ⟨fun h => if_pos h, fun h => if_pos h, fun j hj => ?vec, fun h => if_neg fun h' => h h'.1,
      fun h => if_neg h, fun h => if_neg h, fun h => ?below, fun e rest he => ?top⟩
    case vec => simp
    case below =>
      cases s.hws with
      | nil => rfl
      | cons e rest => exact congrArg (· :: rest) (e.put_of_outside v h)
    case top =>
      rw [he]
      refine ⟨?_, ?_, ?_⟩ <;> rintro rfl <;> rfl

/-! ### A load at an offset -/

theorem setWidth_eq_of_toNat {n : Nat} (hn : n ≤ 32) {x : BitVec n} {v : Word} (h : v.toNat = x.toNat) :
    x.setWidth 32 = v :=
  BitVec.eq_of_toNat_eq (by rw [BitVec.toNat_setWidth_of_le hn, h])

/-- R25: the three flags as a number. -/
theorem Flags.toNat_toBits (f : Flags) : f.toBits.toNat = 4 * f.z.toNat + 2 * f.n.toNat + f.c.toNat := by
  have h : ∀ z n c : Bool, (Flags.mk z n c).toBits.toNat = 4 * z.toNat + 2 * n.toNat + c.toNat := by decide
  exact h ..

/-- R94: what an entry on the top of the hardware stack shows. -/
theorem State.hwsTop_cons {s : State} {e : HwsEntry} {rest : List HwsEntry} (h : s.hws = e :: rest) :
    s.hwsTop = { addr := e.addr, psr := e.psr, cr0 := e.cr0 } := by
  simp [State.hwsTop, h]

/-- R104, R111: a load at the offset of a register gives its value. -/
theorem ld_ccb_completes {s : State} {o : OpsRRI} {k : Nat} {r : CcbReg} {v : Word} (hr : s.CanRun o.guard)
    (hm : s.ccbMoved = none) (ha : s.dataAddr o.regB o.imm = s.ccb.ccbBase.toNat + k) (hk : k < 256)
    (hg : s.GoodData (s.dataAddr o.regB o.imm)) (hreg : ccbRegAt k = some r)
    (hv : (s.accessing (s.dataAddr o.regB o.imm)).ccbGet r = v) :
    Completes (exec (.ld o) s) (s.RegResult o.regA v) := by
  refine ld_completes hr hg ?_
  rw [State.load_ccb (s := s.accessing _) (State.no_hazard_of_none hm _) (State.region_ccb hg ha hk) hreg, hv]

/-- Settles O29: the registers in the order of their offsets, the narrow ones zero extended. -/
theorem loadFromCcbRegister : Obligations.LoadFromCcbRegister := by
  intro s o k v hr hm ha hk hg h
  obtain ⟨r, hreg, hv⟩ : ∃ r, ccbRegAt k = some r ∧ (s.accessing (s.dataAddr o.regB o.imm)).ccbGet r = v := by
    rcases h with ⟨rfl, rfl⟩ | ⟨rfl, rfl⟩ | ⟨j, hj, rfl, rfl⟩ | ⟨rfl, hv⟩ | ⟨rfl, hv⟩ | ⟨rfl, hv⟩ | ⟨rfl, hv⟩ | ⟨rfl, hv⟩ |
      ⟨rfl, rfl⟩ | ⟨rfl, hv⟩ | ⟨rfl, hv⟩ | ⟨rfl, rfl⟩ | ⟨rfl, hv⟩ | ⟨rfl, rfl⟩ | ⟨rfl, rfl⟩ | ⟨rfl, rfl⟩ | ⟨rfl, rfl⟩ |
      ⟨rfl, hv⟩ | ⟨rfl, rfl⟩ | ⟨rfl, rfl⟩ | ⟨rfl, hv⟩ | ⟨rfl, hv⟩ | ⟨rfl, rfl⟩ | ⟨rfl, rfl⟩ | ⟨rfl, rfl⟩ |
      ⟨e, rest, he, ⟨rfl, rfl⟩ | ⟨rfl, hv⟩ | ⟨rfl, hv⟩⟩
    · exact ⟨.ccbBase, rfl, rfl⟩
    · exact ⟨.regspcEnd, rfl, rfl⟩
    · exact ⟨.intVec ⟨j, hj⟩, ccbRegAt_offset (.intVec ⟨j, hj⟩), rfl⟩
    · exact ⟨.intModeIl, rfl, setWidth_eq_of_toNat (by decide) hv⟩
    · exact ⟨.intModeUm, rfl, setWidth_eq_of_toNat (by decide) hv⟩
    · exact ⟨.intMask, rfl, setWidth_eq_of_toNat (by decide) hv⟩
    · exact ⟨.intServ, rfl, setWidth_eq_of_toNat (by decide) hv⟩
    · exact ⟨.intPend, rfl, setWidth_eq_of_toNat (by decide) hv⟩
    · exact ⟨.extIntPri, rfl, rfl⟩
    · exact ⟨.copIntPri, rfl, setWidth_eq_of_toNat (by decide) hv⟩
    · exact ⟨.exceptionCs, rfl, setWidth_eq_of_toNat (by decide) hv⟩
    · exact ⟨.exceptionPc, rfl, rfl⟩
    · exact ⟨.exceptionPsr, rfl, setWidth_eq_of_toNat (by decide) hv⟩
    · exact ⟨.dmemBoundLo, rfl, rfl⟩
    · exact ⟨.dmemBoundHi, rfl, rfl⟩
    · exact ⟨.imemBoundLo, rfl, rfl⟩
    · exact ⟨.imemBoundHi, rfl, rfl⟩
    · exact ⟨.memConf, rfl, setWidth_eq_of_toNat (by decide) hv⟩
    · exact ⟨.systemAddr, rfl, rfl⟩
    · exact ⟨.excepAddr, rfl, rfl⟩
    · exact ⟨.busConf, rfl, setWidth_eq_of_toNat (by decide) hv⟩
    · exact ⟨.copConf, rfl, setWidth_eq_of_toNat (by decide) hv⟩
    · exact ⟨.tmr0MaxCnt, rfl, rfl⟩
    · exact ⟨.tmr1MaxCnt, rfl, rfl⟩
    · exact ⟨.tmrConf, rfl, rfl⟩
    · exact ⟨.retiAddr, rfl, by rw [State.ccbGet, State.hwsTop_cons (s := s.accessing _) he]⟩
    · refine ⟨.retiPsr, rfl, ?_⟩
      rw [State.ccbGet, State.hwsTop_cons (s := s.accessing _) he]
      exact setWidth_eq_of_toNat (by decide) hv
    · refine ⟨.retiCr0, rfl, ?_⟩
      rw [State.ccbGet, State.hwsTop_cons (s := s.accessing _) he]
      exact setWidth_eq_of_toNat (by decide) (hv.trans e.cr0.toNat_toBits.symm)
  exact ld_ccb_completes hr hm ha hk hg hreg hv

end Sys2Proof.Machine

section
-- One thread elaborates what follows: a text this long, elaborated by many at once, outgrows the check's memory limit.
set_option Elab.async false

/-! ## Instructions of 32-bit mode only (30_encoding.md R157, R158; 60_exceptions.md R604) -/

namespace Sys2Proof.Machine

/-- R604: an instruction that fails the checks of its decode takes exception 2. -/
theorem run_illegal_raised {n : Need} {g : Option Guard} {s : State} {body : State → Res} (hp : s.ptarget = none)
    (hi : s.illegal n g = true) : Completes (run n g s body) (s.Raised 2#8) := by
  have hrun : run n g s body = takeException s 2#8 := by simp [run, hp, hi]
  rw [hrun]
  exact takeException_raised hp _

section
variable {s : State} (hil : s.psr.il = false) (hp : s.ptarget = none)
include hil hp

/-- R158: what asks for 32-bit mode fails the checks in 16-bit mode, a control transfer (`trap`) or not. -/
theorem run_only32_raised {c : Bool} {g : Option Guard} {body : State → Res} :
    Completes (run { control := c, only32 := true } g s body) (s.Raised 2#8) :=
  run_illegal_raised hp (by simp [State.illegal, hil])

theorem milkOp3_only32_raised {i : Instr} {o : OpsF} {f : Nat → Word → Word → FpOut} :
    Completes (milkOp3 i o s f) (s.Raised 2#8) :=
  run_only32_raised hil hp

theorem milkOp2_only32_raised {i : Instr} {o : OpsF} {f : Nat → Word → FpOut} :
    Completes (milkOp2 i o s f) (s.Raised 2#8) :=
  run_only32_raised hil hp

end

/-- Settles O40: every instruction of 32-bit mode only asks for that mode at its decode. -/
theorem thirtyTwoBitInstructionsTrapInSixteenBitMode : Obligations.ThirtyTwoBitInstructionsTrapInSixteenBitMode := by
  intro s i hil hp hi
  unfold exec
  cases i
  case exbfi | lli | lui | trap | cop | fnop => exact run_only32_raised hil hp
  case fadd | fsub | fmul | fdiv | fcc => exact milkOp3_only32_raised hil hp
  case fsqrt | fabs | fmov | fneg | fcvts | fcvtw => exact milkOp2_only32_raised hil hp
  all_goals cases hi

end Sys2Proof.Machine

/-! ## Words as bits and as bytes (20_memory.md R122) -/

namespace Sys2Proof

theorem natOfBits_concat (bs : List Bool) (b : Bool) : natOfBits (bs ++ [b]) = 2 * natOfBits bs + b.toNat := by
  simp [natOfBits]

theorem natOfBits_append (as bs : List Bool) :
    natOfBits (as ++ bs) = natOfBits as * 2 ^ bs.length + natOfBits bs := by
  induction bs using List.reverseRecOn with
  | nil => simp [natOfBits]
  | append_singleton bs b ih =>
    rw [← List.append_assoc, natOfBits_concat, natOfBits_concat, ih, List.length_append, List.length_singleton]
    ring

@[simp] theorem length_bitsOf (n w : Nat) : (bitsOf n w).length = n := by simp [bitsOf]

theorem bitsOf_add (m n w : Nat) : bitsOf (m + n) w = bitsOf m (w / 2 ^ n) ++ bitsOf n w := by
  unfold bitsOf
  rw [List.range_add, List.map_append, List.map_map]
  congr 1
  · refine List.map_congr_left fun k hk => ?_
    rw [List.mem_range] at hk
    rw [Nat.testBit_div_two_pow, show m + n - 1 - k = n + (m - 1 - k) by omega, Nat.add_comm]
  · refine List.map_congr_left fun k _ => ?_
    rw [Function.comp_apply, show m + n - 1 - (m + k) = n - 1 - k by omega]

theorem bitsOf_succ (n w : Nat) : bitsOf (n + 1) w = bitsOf n (w / 2) ++ [w.testBit 0] := by
  rw [bitsOf_add, pow_one]; rfl

/-- The bits of a number give it back, as far as they reach. -/
theorem natOfBits_bitsOf (n w : Nat) : natOfBits (bitsOf n w) = w % 2 ^ n := by
  induction n generalizing w with
  | zero => simp [bitsOf, natOfBits, Nat.mod_one]
  | succ n ih => rw [bitsOf_succ, natOfBits_concat, ih, pow_succ', Nat.mod_mul, Nat.toNat_testBit]; omega

/-- A list of bits is the bits of its number. -/
theorem bitsOf_natOfBits (bs : List Bool) : bitsOf bs.length (natOfBits bs) = bs := by
  induction bs using List.reverseRecOn with
  | nil => rfl
  | append_singleton bs b ih =>
    have hdiv : (2 * natOfBits bs + b.toNat) / 2 = natOfBits bs := by
      rw [Nat.mul_add_div two_pos, Nat.div_eq_of_lt b.toNat_lt, Nat.add_zero]
    have hbit : (2 * natOfBits bs + b.toNat).testBit 0 = b := by cases b <;> simp [Nat.testBit_zero]
    rw [natOfBits_concat, List.length_append, List.length_singleton, bitsOf_succ, hdiv, ih, hbit]

theorem natOfBits_lt (bs : List Bool) : natOfBits bs < 2 ^ bs.length := by
  rw [← bitsOf_natOfBits bs, natOfBits_bitsOf, length_bitsOf]
  exact Nat.mod_lt _ (by positivity)

@[simp] theorem length_wordBytes (m : Mode) (w : Nat) : (wordBytes m w).length = m.len := by cases m <;> rfl

theorem natOfBytes_wordBytes {m : Mode} {w : Nat} (h : w < 2 ^ (8 * m.len)) : natOfBytes (wordBytes m w) = w := by
  cases m <;> simp only [Mode.len] at h <;>
    simp only [natOfBytes, wordBytes, List.foldl_cons, List.foldl_nil, BitVec.toNat_ofNat] <;> omega

end Sys2Proof

/-! ## Patterns: a word made of operand values matches its pattern, shows the values, and matches no clashing pattern -/

namespace Sys2Proof

@[simp] theorem length_patWord (p : List PBit) (args : List Nat) : (patWord p args).length = p.length := by
  simp [patWord]

theorem patWord_append (p q : List PBit) (args : List Nat) :
    patWord (p ++ q) args = patWord p args ++ patWord q args := by
  simp [patWord]

theorem patWord_lits (bs : List Bool) (args : List Nat) : patWord (bs.map .lit) args = bs := by
  induction bs with
  | nil => rfl
  | cons b bs ih => exact congrArg (b :: ·) ih

theorem patWord_argBits (k n : Nat) (args : List Nat) : patWord (argBits k n) args = bitsOf n (args.getD k 0) := by
  simp [patWord, argBits, bitsOf]

theorem patMatches_patWord (p : List PBit) (args : List Nat) : patMatches p (patWord p args) = true := by
  induction p with
  | nil => rfl
  | cons b p ih => cases b <;> simpa [patWord, patMatches] using ih

theorem argBit_patWord {p : List PBit} {k j : Nat} (h : PBit.arg k j ∈ p) (args : List Nat) :
    argBit p (patWord p args) k j = (args.getD k 0).testBit j := by
  induction p with
  | nil => cases h
  | cons b p ih =>
    cases b with
    | lit c | spare c => exact ih (by simpa using h)
    | arg k' j' =>
      by_cases he : k' = k ∧ j' = j
      · obtain ⟨rfl, rfl⟩ := he
        simp [patWord, argBit]
      · have ht : PBit.arg k j ∈ p := by
          rcases List.mem_cons.mp h with hb | ht
          · cases hb; exact absurd ⟨rfl, rfl⟩ he
          · exact ht
        simpa [patWord, argBit, he] using ih ht

/-- The values written in a pattern that holds every bit of its operands are read back. -/
theorem patArgs_patWord {p : List PBit} {widths args : List Nat} (hp : patCovers p widths = true)
    (hfit : argsFit widths args) : patArgs p (patWord p args) widths = args := by
  have hread : ∀ nk ∈ widths.zipIdx, natOfBits ((List.range nk.1).map fun j =>
      argBit p (patWord p args) nk.2 (nk.1 - 1 - j)) = args.getD nk.2 0 := by
    rintro ⟨n, k⟩ hk
    have hbits : ((List.range n).map fun j => argBit p (patWord p args) k (n - 1 - j)) = bitsOf n (args.getD k 0) :=
      List.map_congr_left fun j hj => argBit_patWord (patCovers_mem hp hk (by have := List.mem_range.mp hj; omega)) args
    have hlt : args.getD k 0 < 2 ^ n := by
      obtain ⟨hk', hn⟩ := List.mem_zipIdx' hk
      have hka : k < args.length := hfit.length_eq ▸ hk'
      rw [List.getD_eq_getElem _ _ hka, hn]
      exact hfit.get hk' hka
    rw [hbits, natOfBits_bitsOf, Nat.mod_eq_of_lt hlt]
  rw [patArgs, List.map_congr_left hread]
  refine List.ext_getElem (by simp [hfit.length_eq]) fun k _ hk => ?_
  simp [hk]

theorem patMatches_cons_iff {x : PBit} {p : List PBit} {c : Bool} {w : List Bool} :
    patMatches (x :: p) (c :: w) = true ↔ (∀ b, x = .lit b → b = c) ∧ patMatches p w = true := by
  cases x <;> simp [patMatches]

theorem patClash_cons_iff {x y : PBit} {p q : List PBit} :
    patClash (x :: p) (y :: q) = true ↔ (∃ b, x = .lit !b ∧ y = .lit b) ∨ patClash p q = true := by
  cases x <;> cases y <;> simp [patClash, Bool.eq_not]

/-- Two patterns that clash match no common word: it would have both values at the bit where they do. -/
theorem not_patMatches_of_patClash {p q : List PBit} {w : List Bool} (h : patClash p q = true)
    (hp : patMatches p w = true) : ¬ patMatches q w = true := by
  intro hq
  induction p generalizing q w with
  | nil => cases h
  | cons x p ih =>
    cases q with
    | nil => cases x <;> cases h
    | cons y q =>
      cases w with
      | nil => cases x <;> cases hp
      | cons c w =>
        obtain ⟨hx, hp'⟩ := patMatches_cons_iff.mp hp
        obtain ⟨hy, hq'⟩ := patMatches_cons_iff.mp hq
        obtain ⟨b, hnb, hb⟩ | h' := patClash_cons_iff.mp h
        · exact Bool.not_ne_self b ((hx _ hnb).trans (hy b hb).symm)
        · exact ih h' hp' hq'

end Sys2Proof

/-! ## Rows: a word that matches one of a list of rows decodes by that row, and the words of the encoder do
(30_encoding.md R161) -/

namespace Sys2Proof

@[simp] theorem EncTable.rowsOk_nil (T : EncTable) (len : Nat) : T.rowsOk len [] = true := rfl

theorem EncTable.rowsOk_cons_iff {T : EncTable} {len : Nat} {r : Row} {rs : List Row} :
    T.rowsOk len (r :: rs) = true ↔ ((T.pat r).length = len ∧ patCovers (T.pat r) r.widths = true) ∧
      (∀ r' ∈ rs, patClash (T.pat r) (T.pat r') = true) ∧ T.rowsOk len rs = true := by
  simp [EncTable.rowsOk, and_assoc]

theorem EncTable.rowsOk_mem {T : EncTable} {len : Nat} {r : Row} {rows : List Row} (hok : T.rowsOk len rows = true)
    (hr : r ∈ rows) : (T.pat r).length = len ∧ patCovers (T.pat r) r.widths = true := by
  induction rows with
  | nil => cases hr
  | cons r' rs ih =>
    obtain ⟨hhead, -, htail⟩ := rowsOk_cons_iff.mp hok
    rcases List.mem_cons.mp hr with rfl | hr
    · exact hhead
    · exact ih htail hr

/-- The rows before the one a word matches clash with it, so it is the row that gives the term. -/
theorem decodeRows_of_mem {T : EncTable} {len : Nat} {r : Row} {rows : List Row} (hok : T.rowsOk len rows = true)
    (hr : r ∈ rows) (rest : List Row) {w : List Bool} (hm : patMatches (T.pat r) w = true) {i : Instr}
    (hb : r.build (patArgs (T.pat r) w r.widths) = some i) : decodeRows T w (rows ++ rest) = .ok i := by
  induction rows with
  | nil => cases hr
  | cons r' rs ih =>
    obtain ⟨-, hclash, htail⟩ := EncTable.rowsOk_cons_iff.mp hok
    rw [List.cons_append, decodeRows]
    rcases List.mem_cons.mp hr with rfl | hr
    · rw [if_pos hm, hb]
    · rw [if_neg fun hm' => not_patMatches_of_patClash (hclash r hr) hm' hm]
      exact ih htail hr

/-- Every term of the core's own operations has a row of its mode that gives it back (Laws/PerInstr). -/
theorem Instr.encoded : (i : Instr) → Laws.Encoded.Statement i
  | .add o => Laws.Encoded.add o
  | .addi o => Laws.Encoded.addi o
  | .addiu o => Laws.Encoded.addiu o
  | .addu o => Laws.Encoded.addu o
  | .mulhi o => Laws.Encoded.mulhi o
  | .muli o => Laws.Encoded.muli o
  | .muls o => Laws.Encoded.muls o
  | .muls16 o => Laws.Encoded.muls16 o
  | .mulu o => Laws.Encoded.mulu o
  | .mulu16 o => Laws.Encoded.mulu16 o
  | .mulus o => Laws.Encoded.mulus o
  | .mulus16 o => Laws.Encoded.mulus16 o
  | .sub o => Laws.Encoded.sub o
  | .subu o => Laws.Encoded.subu o
  | .conb o => Laws.Encoded.conb o
  | .conh o => Laws.Encoded.conh o
  | .exb o => Laws.Encoded.exb o
  | .exbf o => Laws.Encoded.exbf o
  | .exbfi d s l p => Laws.Encoded.exbfi d s l p
  | .exh o => Laws.Encoded.exh o
  | .lli d k => Laws.Encoded.lli d k
  | .lui d k => Laws.Encoded.lui d k
  | .sext o => Laws.Encoded.sext o
  | .sexti o => Laws.Encoded.sexti o
  | .and o => Laws.Encoded.and o
  | .andi o => Laws.Encoded.andi o
  | .not o => Laws.Encoded.not o
  | .or o => Laws.Encoded.or o
  | .ori o => Laws.Encoded.ori o
  | .xor o => Laws.Encoded.xor o
  | .bc o => Laws.Encoded.bc o
  | .begt o => Laws.Encoded.begt o
  | .belt o => Laws.Encoded.belt o
  | .beq o => Laws.Encoded.beq o
  | .bgt o => Laws.Encoded.bgt o
  | .blt o => Laws.Encoded.blt o
  | .bne o => Laws.Encoded.bne o
  | .bnc o => Laws.Encoded.bnc o
  | .jal o => Laws.Encoded.jal o
  | .jmp o => Laws.Encoded.jmp o
  | .jalr o => Laws.Encoded.jalr o
  | .jmpr o => Laws.Encoded.jmpr o
  | .cmp o => Laws.Encoded.cmp o
  | .cmpi o => Laws.Encoded.cmpi o
  | .sll o => Laws.Encoded.sll o
  | .slli o => Laws.Encoded.slli o
  | .sra o => Laws.Encoded.sra o
  | .srai o => Laws.Encoded.srai o
  | .srl o => Laws.Encoded.srl o
  | .srli o => Laws.Encoded.srli o
  | .ld o => Laws.Encoded.ld o
  | .mov o => Laws.Encoded.mov o
  | .st o => Laws.Encoded.st o
  | .movfc o => Laws.Encoded.movfc o
  | .movtc o => Laws.Encoded.movtc o
  | .chrs m k => Laws.Encoded.chrs m k
  | .di m => Laws.Encoded.di m
  | .ei m => Laws.Encoded.ei m
  | .nop m => Laws.Encoded.nop m
  | .rcon o => Laws.Encoded.rcon o
  | .reti m => Laws.Encoded.reti m
  | .retu m => Laws.Encoded.retu m
  | .scall o => Laws.Encoded.scall o
  | .scon o => Laws.Encoded.scon o
  | .swm m t => Laws.Encoded.swm m t
  | .trap k => Laws.Encoded.trap k
  | .cop n p => Laws.Encoded.cop n p
  | .fadd o => Laws.Encoded.fadd o
  | .fsub o => Laws.Encoded.fsub o
  | .fmul o => Laws.Encoded.fmul o
  | .fdiv o => Laws.Encoded.fdiv o
  | .fsqrt o => Laws.Encoded.fsqrt o
  | .fabs o => Laws.Encoded.fabs o
  | .fmov o => Laws.Encoded.fmov o
  | .fneg o => Laws.Encoded.fneg o
  | .fnop o => Laws.Encoded.fnop o
  | .fcvts o => Laws.Encoded.fcvts o
  | .fcvtw o => Laws.Encoded.fcvtw o
  | .fcc c o => Laws.Encoded.fcc c o

/-- What a coprocessor term is: a `cop` word, a named operation of Milk, or a comparison (30_encoding.md R148). -/
theorem Instr.isCop_iff {i : Instr} : i.isCop = true ↔
    (∃ n p, i = .cop n p) ∨ (∃ m o, i = MilkOp.term m o) ∨ ∃ c o, i = .fcc c o := by
  constructor
  · intro h
    cases i
    case cop => exact .inl ⟨_, _, rfl⟩
    case fcc => exact .inr (.inr ⟨_, _, rfl⟩)
    case fadd => exact .inr (.inl ⟨.fadd, _, rfl⟩)
    case fsub => exact .inr (.inl ⟨.fsub, _, rfl⟩)
    case fmul => exact .inr (.inl ⟨.fmul, _, rfl⟩)
    case fdiv => exact .inr (.inl ⟨.fdiv, _, rfl⟩)
    case fsqrt => exact .inr (.inl ⟨.fsqrt, _, rfl⟩)
    case fabs => exact .inr (.inl ⟨.fabs, _, rfl⟩)
    case fmov => exact .inr (.inl ⟨.fmov, _, rfl⟩)
    case fneg => exact .inr (.inl ⟨.fneg, _, rfl⟩)
    case fnop => exact .inr (.inl ⟨.fnop, _, rfl⟩)
    case fcvts => exact .inr (.inl ⟨.fcvts, _, rfl⟩)
    case fcvtw => exact .inr (.inl ⟨.fcvtw, _, rfl⟩)
    all_goals cases h
  · rintro (⟨n, p, rfl⟩ | ⟨m, o, rfl⟩ | ⟨c, o, rfl⟩)
    · rfl
    · cases m <;> rfl
    · rfl

theorem encodeCop_of_core {i : Instr} (h : i.isCop = false) (T : EncTable) : encodeCop T i = none := by
  cases i
  case cop | fadd | fsub | fmul | fdiv | fsqrt | fabs | fmov | fneg | fnop | fcvts | fcvtw | fcc => cases h
  all_goals rfl

section
variable {T : EncTable} {len : Nat} {rows : List Row} {i : Instr}

theorem encodeWord_of_core (h : i.isCop = false) :
    encodeWord T i = natOfBits (patWord (T.pat i.rowArgs.1) i.rowArgs.2) := by
  rw [encodeWord, encodeCop_of_core h]

theorem bitsOf_encodeWord (hok : T.rowsOk len rows = true) (hr : i.rowArgs.1 ∈ rows) (h : i.isCop = false) :
    bitsOf len (encodeWord T i) = patWord (T.pat i.rowArgs.1) i.rowArgs.2 := by
  obtain ⟨rfl, -⟩ := EncTable.rowsOk_mem hok hr
  rw [encodeWord_of_core h, ← length_patWord _ i.rowArgs.2, bitsOf_natOfBits]

theorem encodeWord_lt (hok : T.rowsOk len rows = true) (hr : i.rowArgs.1 ∈ rows) (h : i.isCop = false) :
    encodeWord T i < 2 ^ len := by
  obtain ⟨rfl, -⟩ := EncTable.rowsOk_mem hok hr
  rw [encodeWord_of_core h, ← length_patWord _ i.rowArgs.2]
  exact natOfBits_lt _

/-- A list of rows decodes the word of a term that has its row there. -/
theorem decodeRows_encodeWord (hok : T.rowsOk len rows = true) (hr : i.rowArgs.1 ∈ rows) (h : i.isCop = false)
    (hi : i.inRange = true) (rest : List Row) :
    decodeRows T (bitsOf len (encodeWord T i)) (rows ++ rest) = .ok i := by
  obtain ⟨-, hcov⟩ := EncTable.rowsOk_mem hok hr
  obtain ⟨hbuild, hfit, -⟩ := i.encoded hi h
  rw [bitsOf_encodeWord hok hr h]
  exact decodeRows_of_mem hok hr rest (patMatches_patWord ..) (by rw [patArgs_patWord hcov hfit, hbuild])

end

/-- The checks that remain after a term is read: its fields, and the bytes. -/
theorem decodeBytesWith_of_raw {T : EncTable} {m : Mode} {w : Nat} {i : Instr} (hd : decodeRaw T m w = .ok i)
    (hwf : i.wfIn T = true) (hw : w < 2 ^ (8 * m.len)) (rest : List Byte) :
    decodeBytesWith T m (wordBytes m w ++ rest) = .ok (i, rest) := by
  have hlen := length_wordBytes m w
  rw [decodeBytesWith, if_neg (by simp), List.take_left' hlen, List.drop_left' hlen, natOfBytes_wordBytes hw, decodeWith,
    hd]
  simp [hwf]

end Sys2Proof

/-! ## Coprocessor words (30_encoding.md R148, R161 (6)) -/

namespace Sys2Proof

/-- The parts of a word of seven fields, of the widths of R148. -/
theorem extractLsb'_fields (op : BitVec 6) (n : BitVec 2) (top : BitVec 3) (sr2 sr1 dr : BitVec 5) (code : BitVec 6) :
    (op ++ n ++ top ++ sr2 ++ sr1 ++ dr ++ code).extractLsb' 26 6 = op ∧
    (op ++ n ++ top ++ sr2 ++ sr1 ++ dr ++ code).extractLsb' 24 2 = n ∧
    (op ++ n ++ top ++ sr2 ++ sr1 ++ dr ++ code).extractLsb' 21 3 = top ∧
    (op ++ n ++ top ++ sr2 ++ sr1 ++ dr ++ code).extractLsb' 16 5 = sr2 ∧
    (op ++ n ++ top ++ sr2 ++ sr1 ++ dr ++ code).extractLsb' 11 5 = sr1 ∧
    (op ++ n ++ top ++ sr2 ++ sr1 ++ dr ++ code).extractLsb' 6 5 = dr ∧
    (op ++ n ++ top ++ sr2 ++ sr1 ++ dr ++ code).extractLsb' 0 6 = code := by
  simp [BitVec.extractLsb'_append_eq_ite, -Nat.reduceAdd]

/-- The operation code, the fields and Milk's code of a coprocessor term are read back from its word. -/
theorem copWord_parts (T : EncTable) (o : OpsF) (code : BitVec 6) :
    (copWord T o code).extractLsb' 26 6 = T.copOpcode ∧ copFields (copWord T o code) = o ∧
      (copWord T o code).extractLsb' 0 6 = code := by
  obtain ⟨hop, hn, htop, hsr2, hsr1, hdr, hcode⟩ := extractLsb'_fields T.copOpcode (BitVec.ofNat 2 o.n.val) o.top
    (BitVec.ofNat 5 o.sr2.val) (BitVec.ofNat 5 o.sr1.val) (BitVec.ofNat 5 o.dr.val) code
  refine ⟨hop, ?_, hcode⟩
  unfold copFields copWord
  rw [hn, htop, hsr2, hsr1, hdr]
  simp

/-- The same for a forwarded word with its 24 bits. -/
theorem forwardedWord_parts (T : EncTable) (n : Fin 4) (p : BitVec 24) :
    (T.copOpcode ++ BitVec.ofNat 2 n.val ++ p : BitVec 32).extractLsb' 26 6 = T.copOpcode ∧
    (copFields (T.copOpcode ++ BitVec.ofNat 2 n.val ++ p)).n = n ∧
    (T.copOpcode ++ BitVec.ofNat 2 n.val ++ p : BitVec 32).extractLsb' 0 24 = p ∧
    (T.copOpcode ++ BitVec.ofNat 2 n.val ++ p : BitVec 32).extractLsb' 0 6 = p.extractLsb' 0 6 := by
  have hparts : ∀ (op : BitVec 6) (m : BitVec 2), (op ++ m ++ p).extractLsb' 26 6 = op ∧
      (op ++ m ++ p).extractLsb' 24 2 = m ∧ (op ++ m ++ p).extractLsb' 0 24 = p ∧
      (op ++ m ++ p).extractLsb' 0 6 = p.extractLsb' 0 6 := by
    simp [BitVec.extractLsb'_append_eq_ite, -Nat.reduceAdd]
  obtain ⟨hop, hn, hp, hcode⟩ := hparts T.copOpcode (BitVec.ofNat 2 n.val)
  refine ⟨hop, ?_, hp, hcode⟩
  unfold copFields
  rw [hn]
  simp

@[simp] theorem MilkOp.term_wfIn (T : EncTable) (m : MilkOp) (o : OpsF) : (m.term o).wfIn T = true := by
  cases m <;> rfl

@[simp] theorem MilkOp.term_mode (m : MilkOp) (o : OpsF) : (m.term o).mode = .m32 := by
  cases m <;> rfl

theorem MilkOp.encodeCop_term (T : EncTable) (m : MilkOp) (o : OpsF) :
    encodeCop T (m.term o) = some (copWord T o (T.milkCode m)) := by
  cases m <;> rfl

section
variable {T : EncTable} {w : BitVec 32}

/-- What a coprocessor word decodes to is well formed: its term is the one its code stands for. -/
theorem decodeCop_wfIn (T : EncTable) (w : BitVec 32) : (decodeCop T w).wfIn T = true := by
  unfold decodeCop
  split
  · exact MilkOp.term_wfIn ..
  next hk => simp [Instr.wfIn, Instr.inRange, Instr.coded, hk]
  next hk => simp [Instr.wfIn, Instr.inRange, Instr.coded, BitVec.extractLsb'_extractLsb'_of_le, hk]

/-- R161 (6): no bit of a coprocessor word is dropped. -/
theorem encodeCop_decodeCop (h : w.extractLsb' 26 6 = T.copOpcode) : encodeCop T (decodeCop T w) = some w := by
  unfold decodeCop
  split
  next hk => rw [MilkOp.encodeCop_term, EncTable.milkCode_of_kind hk, copWord_copFields h]
  next => exact congrArg some (copWord_copFields h)
  next => exact congrArg some (copPayload_word h)

theorem decodeRaw_cop (h : w.extractLsb' 26 6 = T.copOpcode) : decodeRaw T .m32 w.toNat = .ok (decodeCop T w) := by
  simp [decodeRaw, h]

/-- The word of a well-formed coprocessor term has the operation code of `cop` and decodes to the term: its code stands
for what the term says. -/
theorem decodeCop_encodeCop {i : Instr} (hT : ∀ m, T.milkKind (T.milkCode m) = .op m) (hc : i.isCop = true)
    (hi : i.coded T = true) :
    ∃ w, encodeCop T i = some w ∧ w.extractLsb' 26 6 = T.copOpcode ∧ decodeCop T w = i := by
  obtain ⟨n, p, rfl⟩ | ⟨m, o, rfl⟩ | ⟨code, o, rfl⟩ := Instr.isCop_iff.mp hc
  · obtain ⟨hop, hn, hp, hcode⟩ := forwardedWord_parts T n p
    refine ⟨_, rfl, hop, ?_⟩
    have hk : T.milkKind (p.extractLsb' 0 6) = .undescribed := of_decide_eq_true hi
    rw [decodeCop, hcode, hk, hn, hp]
  · obtain ⟨hop, hfields, hcode⟩ := copWord_parts T o (T.milkCode m)
    refine ⟨_, MilkOp.encodeCop_term T m o, hop, ?_⟩
    rw [decodeCop, hcode, hT, hfields]
  · obtain ⟨hop, hfields, hcode⟩ := copWord_parts T o code
    refine ⟨_, rfl, hop, ?_⟩
    have hk : T.milkKind code = .compare := of_decide_eq_true hi
    rw [decodeCop, hcode, hk, hfields]

theorem Instr.mode_of_isCop {i : Instr} (h : i.isCop = true) : i.mode = .m32 := by
  obtain ⟨n, p, rfl⟩ | ⟨m, o, rfl⟩ | ⟨code, o, rfl⟩ := Instr.isCop_iff.mp h
  · rfl
  · exact MilkOp.term_mode ..
  · rfl

/-! ### A word of another row has another operation code -/

theorem patMatches_lits_append (bs : List Bool) (p : List PBit) (w : List Bool) :
    patMatches (bs.map .lit ++ p) (bs ++ w) = patMatches p w := by
  induction bs with
  | nil => rfl
  | cons b bs ih => simpa [patMatches] using ih

theorem patMatches_replicate_spare (b : Bool) (w : List Bool) :
    patMatches (List.replicate w.length (.spare b)) w = true := by
  induction w with
  | nil => rfl
  | cons c w ih => simpa [List.replicate_succ, patMatches] using ih

/-- The words with the operation code of `cop` match its pattern. -/
theorem patMatches_copPat (h : w.extractLsb' 26 6 = T.copOpcode) : patMatches T.copPat (bitsOf 32 w.toNat) = true := by
  have hop : T.copOpcode.toNat = w.toNat / 2 ^ 26 := by
    rw [← h, BitVec.extractLsb'_toNat, Nat.shiftRight_eq_div_pow]
    have := w.isLt
    omega
  have hspare := patMatches_replicate_spare false (bitsOf 26 w.toNat)
  rw [length_bitsOf] at hspare
  rw [EncTable.copPat, hop, bitsOf_add 6 26, patMatches_lits_append, hspare]

end

end Sys2Proof

/-! ## Decode of encode -/

namespace Sys2Proof

/-- What the rules on DECODE say of the rows and of Milk's codes (30_encoding.md R161). -/
theorem EncTable.admissible_rows {T : EncTable} (h : T.admissible = true) :
    (∀ m : Mode, T.rowsOk (8 * m.len) (rowsOf m) = true) ∧ (∀ r ∈ rows32, patClash (T.pat r) T.copPat = true) ∧
      ∀ m, T.milkKind (T.milkCode m) = .op m := by
  simp only [EncTable.admissible, Bool.and_eq_true, List.all_eq_true, decide_eq_true_eq] at h
  obtain ⟨⟨⟨⟨⟨⟨⟨h16, h32⟩, hclash⟩, -⟩, -⟩, -⟩, -⟩, hmilk⟩ := h
  refine ⟨fun m => ?_, hclash, fun m => ?_⟩
  · cases m
    · exact h16
    · exact h32
  · obtain ⟨hkind, -⟩ := hmilk m (by cases m <;> decide)
    exact hkind

section
variable {T : EncTable} {i : Instr}

/-- A term of the core's own operations: its row is one of its mode, and in 32-bit mode no word of a row is a coprocessor
word. -/
theorem decodeRaw_encodeWord_core {m : Mode} (hT : T.admissible = true) (hr : i.rowArgs.1 ∈ rowsOf m)
    (hc : i.isCop = false) (hi : i.inRange = true) : decodeRaw T m (encodeWord T i) = .ok i := by
  obtain ⟨hok, hclash, -⟩ := EncTable.admissible_rows hT
  have hrows := decodeRows_encodeWord (hok m) hr hc hi []
  rw [List.append_nil] at hrows
  cases m with
  | m16 => exact hrows
  | m32 =>
    have hnot : ¬ (BitVec.ofNat 32 (encodeWord T i)).extractLsb' 26 6 = T.copOpcode := fun hcop => by
      have hlt : encodeWord T i < 2 ^ 32 := encodeWord_lt (hok .m32) hr hc
      have hbits : bitsOf 32 (encodeWord T i) = patWord (T.pat i.rowArgs.1) i.rowArgs.2 :=
        bitsOf_encodeWord (hok .m32) hr hc
      have hmatch := patMatches_copPat hcop
      rw [BitVec.toNat_ofNat, Nat.mod_eq_of_lt hlt, hbits] at hmatch
      exact not_patMatches_of_patClash (hclash _ hr) (patMatches_patWord ..) hmatch
    rw [decodeRaw, if_neg hnot]
    exact hrows

/-- Every well-formed term is read from its word, which fits the word length of its mode. -/
theorem decodeRaw_encodeWord (hT : T.admissible = true) (hwf : i.wfIn T = true) :
    decodeRaw T i.mode (encodeWord T i) = .ok i ∧ encodeWord T i < 2 ^ (8 * i.mode.len) := by
  obtain ⟨hok, -, hmilk⟩ := EncTable.admissible_rows hT
  obtain ⟨hrange, hcoded⟩ := (Bool.and_eq_true _ _).mp hwf
  cases hc : i.isCop with
  | false =>
    obtain ⟨-, -, hr⟩ := i.encoded hrange hc
    exact ⟨decodeRaw_encodeWord_core hT hr hc hrange, encodeWord_lt (hok _) hr hc⟩
  | true =>
    obtain ⟨w, hw, hop, hd⟩ := decodeCop_encodeCop hmilk hc hcoded
    rw [Instr.mode_of_isCop hc, encodeWord, hw]
    exact ⟨hd ▸ decodeRaw_cop hop, w.isLt⟩

end

/-- Settles O59: the words of the rows by `decodeRaw_encodeWord_core`, the coprocessor words by their fields. -/
theorem decodeInvertsEncode : Obligations.DecodeInvertsEncode := by
  refine ⟨fun T i rest hT hwf => ?_, fun T w h => ⟨decodeCop T w, ?_, ?_⟩⟩
  · obtain ⟨hd, hlt⟩ := decodeRaw_encodeWord hT hwf
    exact decodeBytesWith_of_raw hd hwf hlt rest
  · rw [decodeWith, decodeRaw_cop h]
    exact if_pos (decodeCop_wfIn T w)
  · rw [encodeWord, encodeCop_decodeCop h]

end Sys2Proof

/-! ## The words the spec prints (30_encoding.md R155, R165) -/

namespace Sys2Proof

/-- The rows of 16-bit mode that the spec gives whole; they lead `rows16`. -/
def printedRows : List Row := [⟨.ori, .w16⟩, ⟨.slli, .w16⟩, ⟨.xor, .w16⟩]

theorem rows16_eq : ∃ rest, rows16 = printedRows ++ rest := ⟨_, List.append_assoc ..⟩

section
variable (T : EncTable)

theorem pat_ori16 : T.pat ⟨.ori, .w16⟩ = (bitsOf 6 0b101010).map .lit ++ (argBits 1 7 ++ argBits 0 3) := rfl

theorem pat_slli16 :
    T.pat ⟨.slli, .w16⟩ = (bitsOf 6 0b001101).map .lit ++ (argBits 1 6 ++ [.lit false] ++ argBits 0 3) := rfl

theorem pat_xor16 : T.pat ⟨.xor, .w16⟩ =
    (bitsOf 6 0b010010).map .lit ++ (argBits 1 3 ++ List.replicate 4 (.lit false) ++ argBits 0 3) := rfl

/-- They are as R161 asks whatever the parameter DECODE is, for it has no bit in them. -/
theorem rowsOk_printedRows : T.rowsOk 16 printedRows = true := by
  simp only [printedRows, EncTable.rowsOk_cons_iff, EncTable.rowsOk_nil, List.forall_mem_cons,
    List.not_mem_nil, false_implies, implies_true, pat_ori16, pat_slli16, pat_xor16]
  decide

end

/-- A term with one of these rows is read from its word by the machine's own decoder. -/
theorem decodeTableWord_encodeWord {i : Instr} (hr : i.rowArgs.1 ∈ printedRows) (hc : i.isCop = false)
    (hwf : i.wf = true) :
    decodeTableWord 16 (encodeWord Config.enc i) = some i := by
  obtain ⟨hrange, -⟩ := (Bool.and_eq_true _ _).mp hwf
  have hok := rowsOk_printedRows Config.enc
  obtain ⟨rest, hrest⟩ := rows16_eq
  have hd : decodeRaw Config.enc .m16 (encodeWord Config.enc i) = .ok i := by
    rw [decodeRaw, hrest]
    exact decodeRows_encodeWord hok hr hc hrange rest
  have hbytes := decodeBytesWith_of_raw hd hwf (encodeWord_lt hok hr hc) []
  rw [List.append_nil] at hbytes
  simp [decodeTableWord, decodeBytes, hbytes]

/-- R155: the word `101010 i d`. -/
theorem encodeWord_ori16 (T : EncTable) (i : Fin 128) (d : Fin 8) :
    encodeWord T (.ori (.w16 d i.val)) = 0b101010 * 1024 + 8 * i.val + d.val := by
  have hi : fieldOf 7 i.val = i.val := by unfold fieldOf; omega
  have hargs : (Instr.ori (.w16 d i.val)).rowArgs = (⟨.ori, .w16⟩, [d.val, i.val]) := by
    simp [Instr.rowArgs, writeRI, hi]
  rw [encodeWord_of_core rfl, hargs, pat_ori16, patWord_append, patWord_append, patWord_lits, patWord_argBits,
    patWord_argBits, natOfBits_append, natOfBits_append, natOfBits_bitsOf, natOfBits_bitsOf, natOfBits_bitsOf]
  simp
  omega

theorem decodeTableWord_ori16 (i : Fin 128) (d : Fin 8) :
    decodeTableWord 16 (0b101010 * 1024 + 8 * i.val + d.val) = some (.ori (.w16 d i.val)) := by
  have hwf : (Instr.ori (.w16 d i.val)).wf = true := by
    have hi : fitsU 127 i.val = true := fitsU_iff.mpr (by omega)
    simpa [Instr.wf, Instr.wfIn, Instr.inRange, Instr.coded, OpsRI.wfUnsigned] using hi
  rw [← encodeWord_ori16 Config.enc]
  exact decodeTableWord_encodeWord (List.mem_cons_self ..) rfl hwf

/-- Settles O58: each printed word is the encoder's, whatever DECODE is. -/
theorem printedWordsDecode : Obligations.PrintedWordsDecode := by
  refine ⟨decodeTableWord_encodeWord (i := .xor (.w16 4 4)) (by decide) rfl rfl,
    decodeTableWord_encodeWord (i := .slli (.w16 4 7)) (by decide) rfl rfl,
    decodeTableWord_encodeWord (i := .slli (.w16 4 4)) (by decide) rfl rfl, decodeTableWord_ori16 77 4,
    decodeTableWord_ori16⟩

end Sys2Proof

end

/-! ## Integer arithmetic (40_integer_arithmetic.md R301 to R321) -/

namespace Sys2Proof.Machine

/-! ### Sums and differences (R301 to R303) -/

section
variable {a b : Word}

theorem addOverflows_iff :
    addOverflows a b = true ↔ a.toInt + b.toInt < -2147483648 ∨ 2147483647 < a.toInt + b.toInt := by
  simp [addOverflows]

theorem subOverflows_iff :
    subOverflows a b = true ↔ a.toInt - b.toInt < -2147483648 ∨ 2147483647 < a.toInt - b.toInt := by
  simp [subOverflows]

theorem add_eq_ofNat (a b : Word) : a + b = BitVec.ofNat 32 (a.toNat + b.toNat) := by
  rw [BitVec.ofNat_add, BitVec.ofNat_toNat, BitVec.ofNat_toNat, BitVec.setWidth_eq, BitVec.setWidth_eq]

theorem sub_eq_ofInt (a b : Word) : a - b = BitVec.ofInt 32 ((a.toNat : Int) - b.toNat) := by
  rw [← BitVec.toNat_inj, BitVec.toNat_sub, BitVec.toNat_ofInt]
  omega

/-- R301: the flags of a sum, by the sum of the unsigned values. -/
theorem addFlags_eq (a b : Word) : addFlags a b =
    { z := decide ((a.toNat + b.toNat) % 4294967296 = 0)
      n := decide (2147483648 ≤ (a.toNat + b.toNat) % 4294967296)
      c := decide (4294967296 ≤ a.toNat + b.toNat) } := by
  have hz : a + b = 0#32 ↔ (a.toNat + b.toNat) % 4294967296 = 0 := by
    rw [← BitVec.toNat_inj, BitVec.toNat_add]; rfl
  have hn : (a + b).getLsbD 31 = decide (2147483648 ≤ (a.toNat + b.toNat) % 4294967296) := by
    rw [← BitVec.toNat_add]
    exact BitVec.msb_eq_decide (a + b)
  simp only [addFlags, hz, hn]

/-- R302: the carry out of `a + not b + 1` is 1 exactly when nothing is borrowed. -/
theorem subCarry_eq (a b : Word) :
    subCarry a b = xor Config.subCarryIsBorrow (decide (4294967296 ≤ a.toNat + (~~~ b).toNat + 1)) := by
  have hcarry : 4294967296 ≤ a.toNat + (~~~ b).toNat + 1 ↔ b.toNat ≤ a.toNat := by
    rw [BitVec.toNat_not]; omega
  unfold subCarry
  simp only [hcarry]
  cases Config.subCarryIsBorrow with
  | false => simp
  | true => simp [← decide_not]

theorem subFlags_eq (a b : Word) : subFlags a b =
    { z := decide (a = b)
      n := (BitVec.ofInt 32 ((a.toNat : Int) - b.toNat)).getLsbD 31
      c := xor Config.subCarryIsBorrow (decide (4294967296 ≤ a.toNat + (~~~ b).toNat + 1)) } := by
  have hz : a - b = 0#32 ↔ a = b := by bv_omega
  simp only [subFlags, hz, ← sub_eq_ofInt, subCarry_eq]

/-- R303: a sum in range, or one whose range the instruction does not check, is written. -/
theorem addTo_ok {trapping : Bool}
    (h : trapping = true → -2147483648 ≤ a.toInt + b.toInt ∧ a.toInt + b.toInt ≤ 2147483647) (d : Fin 32) (t : State) :
    addTo trapping d a b t = .ok ((t.wr d (a + b)).setCr 0 (addFlags a b)) := by
  refine if_neg ?_
  rw [Bool.and_eq_true, addOverflows_iff]
  rintro ⟨ht, ho⟩
  have hrange := h ht
  omega

theorem subTo_ok {trapping : Bool}
    (h : trapping = true → -2147483648 ≤ a.toInt - b.toInt ∧ a.toInt - b.toInt ≤ 2147483647) (d : Fin 32) (t : State) :
    subTo trapping d a b t = .ok ((t.wr d (a - b)).setCr 0 (subFlags a b)) := by
  refine if_neg ?_
  rw [Bool.and_eq_true, subOverflows_iff]
  rintro ⟨ht, ho⟩
  have hrange := h ht
  omega

theorem addTo_overflow (h : addOverflows a b = true) (d : Fin 32) (t : State) : addTo true d a b t = .exc 6#8 :=
  if_pos h

theorem subTo_overflow (h : subOverflows a b = true) (d : Fin 32) (t : State) : subTo true d a b t = .exc 6#8 :=
  if_pos h

end

/-- Settles O3: the four forms are `addTo` of their two operands; only `add` and `addi` ask for the range. -/
theorem additionWritesSumAndFlags : Obligations.AdditionWritesSumAndFlags := by
  intro s a b i g d hi hrun hrange
  rw [← addFlags_eq, ← add_eq_ofNat]
  unfold exec
  obtain ⟨o, rfl | rfl, rfl, rfl, rfl, rfl⟩ | ⟨o, rfl | rfl, rfl, rfl, rfl, rfl⟩ := hi
  case inl.inl => exact run_flagResult hrun (addTo_ok (fun _ => hrange (.inl ⟨o, rfl⟩)) ..)
  case inr.inl => exact run_flagResult hrun (addTo_ok (fun _ => hrange (.inr ⟨o, rfl⟩)) ..)
  case inl.inr | inr.inr => exact run_flagResult hrun (addTo_ok (fun h => by cases h) ..)

/-- Settles O4: `sub` and `subu` are `subTo` of their two operands; only `sub` asks for the range. -/
theorem subtractionWritesDifferenceAndFlags : Obligations.SubtractionWritesDifferenceAndFlags := by
  intro s o i hi hrun hrange
  rw [← subFlags_eq, ← sub_eq_ofInt]
  unfold exec
  obtain rfl | rfl := hi
  · exact run_flagResult hrun (subTo_ok (fun _ => hrange rfl) ..)
  · exact run_flagResult hrun (subTo_ok (fun h => by cases h) ..)

/-- Settles O5: out of range, the body raises 6 and nothing of it is kept. -/
theorem signedOverflowRaisesSix : Obligations.SignedOverflowRaisesSix := by
  intro s i g r hi hrun hp hr
  unfold exec
  have hlegal := State.canRun_legal hrun
  obtain ⟨-, hg⟩ := hrun
  obtain ⟨o, rfl, rfl, rfl⟩ | ⟨o, rfl, rfl, rfl⟩ | ⟨o, rfl, rfl, rfl⟩ := hi
  case inl | inr.inl => exact run_raised hlegal hg hp (addTo_overflow (addOverflows_iff.2 hr) ..)
  case inr.inr => exact run_raised hlegal hg hp (subTo_overflow (subOverflows_iff.2 hr) ..)

/-! ### Products (R305, R313 to R319) -/

section
variable {s : State}

theorem Completes.of_next {r : Host.Outcome State Fault Refusal} {P : State → Prop} (h : Completes r P)
    {t : State} (ht : r = .next t) : P t := by
  obtain ⟨u, hu, hP⟩ := h
  cases hu.symm.trans ht
  exact hP

/-- R305: a body that multiplies. -/
theorem run_mulResult {g : Option Guard} {body : State → Res} {d : Fin 32} {p : Int} (h : s.CanRun g)
    (hb : body s.begin = mulTo d p s.begin) : Completes (run {} g s body) (s.MulResult d p) := by
  rw [run_plain h, hb, mulTo]
  obtain ⟨hcr, hpsr, -, hp, hm64, hmem, hunits⟩ :=
    State.wr_frame { s.begin with m64 := some (BitVec.ofInt 64 p) } d (BitVec.ofInt 32 p)
  refine ⟨_, rfl, ?_⟩
  have ha := State.retire_advanced (s := s) hp
  rw [State.retire_eq] at ha ⊢
  exact ⟨State.wr_wrote .., hm64, hcr, hpsr, hunits, fun k => congrArg (Memory.get · k) hmem, ha⟩

theorem regOp_completes {o : OpsRR} (h : s.CanRun o.guard) (f : Word → Word → Word) :
    Completes (regOp o s f) (s.RegResult o.dest (f (s.rd o.first) (s.rd o.second))) :=
  run_regResult rfl (State.canRun_legal h) h.2 rfl

theorem loU_eq (w : Word) : loU w = ((w.toNat % 65536 : Nat) : Int) := by
  rw [loU, BitVec.extractLsb'_toNat, Nat.shiftRight_zero]

end

/-- Settles O6: each form multiplies its own two values. -/
theorem multiplicationWritesProduct : Obligations.MultiplicationWritesProduct := by
  intro s
  unfold exec
  refine ⟨fun o h => run_mulResult h rfl, fun o h => ⟨?muls, ?mulu, ?mulus⟩⟩
  case muls | mulu | mulus => exact run_mulResult h rfl

/-- Settles O7: register operations, whose body begins with an empty product register. -/
theorem halfwordMultiplicationWritesProduct : Obligations.HalfwordMultiplicationWritesProduct := by
  intro s o h
  simp only [← loU_eq]
  unfold exec
  exact ⟨regOp_completes h _, regOp_completes h _, regOp_completes h _⟩

/-! ### The upper word of a product (R308) -/

theorem extractLsb'_upper (p : BitVec 64) : p.extractLsb' 32 32 = BitVec.ofNat 32 (p.toNat / 4294967296) := by
  rw [← BitVec.toNat_inj, BitVec.extractLsb'_toNat, BitVec.toNat_ofNat, Nat.shiftRight_eq_div_pow]

/-- The upper word of a product kept modulo 2^64 is that of the exact product, also of a negative one. -/
theorem upperWord_ofInt (p : Int) :
    BitVec.ofNat 32 ((BitVec.ofInt 64 p).toNat / 4294967296) = BitVec.ofInt 32 (p / 4294967296) := by
  rw [← BitVec.toNat_inj, BitVec.toNat_ofNat, BitVec.toNat_ofInt, BitVec.toNat_ofInt]
  omega

section
variable {s : State} {r : OpsR1} (hrun : s.CanRun r.guard)
include hrun

theorem mulhi_completes {p : BitVec 64} (hp : s.m64 = some p) :
    Completes (exec (.mulhi r) s) (s.RegResult r.reg (BitVec.ofNat 32 (p.toNat / 4294967296))) := by
  rw [← extractLsb'_upper]
  unfold exec
  refine run_regResult rfl (State.canRun_legal hrun) hrun.2 ?_
  rw [hp]

theorem mulhi_refused (hp : s.m64 = none) : exec (.mulhi r) s = .refused .noProduct := by
  rw [exec, execMulhi, run_plain hrun, hp]
  rfl

end

/-- R308: after a multiplication, `mulhi` finds the product it left. -/
theorem State.MulResult.mulhi_completes {s t : State} {d : Fin 32} {p : Int} {r : OpsR1} (h : s.MulResult d p t)
    (hrun : t.CanRun r.guard) :
    Completes (exec (.mulhi r) t) (t.RegResult r.reg (BitVec.ofInt 32 (p / 4294967296))) := by
  obtain ⟨-, hm64, -⟩ := h
  rw [← upperWord_ofInt]
  exact Machine.mulhi_completes hrun hm64

/-- Settles O8: each multiplication leaves its exact product (O6); `mulhi` reads the upper word of what M64 holds. -/
theorem mulhiAfterMultiplication : Obligations.MulhiAfterMultiplication := by
  refine ⟨fun s t i p r hi ht hrun => ?_, fun s p r hp hrun => mulhi_completes hrun hp,
    fun s r hp hrun => mulhi_refused hrun hp⟩
  obtain ⟨hmuli, hreg⟩ := multiplicationWritesProduct s
  obtain ⟨o, rfl, h, rfl⟩ | ⟨o, rfl, h, rfl⟩ | ⟨o, rfl, h, rfl⟩ | ⟨o, rfl, h, rfl⟩ := hi
  case inl => exact ((hmuli o h).of_next ht).mulhi_completes hrun
  all_goals obtain ⟨hmuls, hmulu, hmulus⟩ := hreg o h
  case inr.inl => exact (hmuls.of_next ht).mulhi_completes hrun
  case inr.inr.inl => exact (hmulu.of_next ht).mulhi_completes hrun
  case inr.inr.inr => exact (hmulus.of_next ht).mulhi_completes hrun

end Sys2Proof.Machine

/-! ## A false condition (40_integer_arithmetic.md R304) -/

namespace Sys2Proof.Machine

section
variable {s : State} {k : Guard} (hil : s.psr.il = true) (hp : s.ptarget = none) (hk : s.guardHolds (some k) = false)
include hil hp hk

/-- In 32-bit mode a false condition skips the body of whatever is not reserved to super-user mode, a control transfer
or not. -/
theorem run_skipped {n : Need} {g : Option Guard} {body : State → Res} (hn : n.su = false) (hg : g = some k) :
    Completes (run n g s body) (fun t => s.SameBut t ∧ s.Advanced t) := by
  subst hg
  refine ⟨s.retire s.begin, by simp [run, State.illegal, hil, hp, hk, hn], ?_⟩
  have ha : s.Advanced (s.retire s.begin) := State.retire_advanced rfl
  rw [State.retire_eq] at ha ⊢
  exact ⟨⟨⟨rfl, rfl, rfl, rfl⟩, rfl, rfl, rfl, ⟨rfl, rfl, rfl, rfl, rfl, rfl⟩, fun _ => rfl⟩, ha⟩

theorem regOp_skipped {o : OpsRR} {f : Word → Word → Word} (hg : o.guard = some k) :
    Completes (regOp o s f) (fun t => s.SameBut t ∧ s.Advanced t) :=
  run_skipped hil hp hk rfl hg

theorem immOp_skipped {o : OpsRI} {f : Word → Word} (hg : o.guard = some k) :
    Completes (immOp o s f) (fun t => s.SameBut t ∧ s.Advanced t) :=
  run_skipped hil hp hk rfl hg

end

/-- Settles O50: no instruction that can carry a prefix is reserved to super-user mode. -/
theorem falseConditionHasNoEffect : Obligations.FalseConditionHasNoEffect := by
  intro s i k hi hil hp hk
  unfold exec
  cases i
  case exbfi | lli | lui | bc | begt | belt | beq | bgt | blt | bne | bnc | jal | jmp | cmp | cmpi | chrs | di | ei
      | nop | rcon | reti | retu | scon | swm | trap | cop | fadd | fsub | fmul | fdiv | fsqrt | fabs | fmov | fneg
      | fnop | fcvts | fcvtw | fcc => cases hi
  case conb | sext | muls16 | mulu16 | mulus16 | and | or | xor | sra | srl => exact regOp_skipped hil hp hk hi
  case sexti | andi | ori | srai | srli => exact immOp_skipped hil hp hk hi
  all_goals exact run_skipped hil hp hk rfl hi

end Sys2Proof.Machine

/-! ## Bytes, bit fields, constants and moves (41_byte_bitfield.md R340 to R352, 47_load_store_move.md R462) -/

namespace Sys2Proof.Machine

/-! ### Bit strings by their values -/

theorem append_eq_ofNat {m n : Nat} (x : BitVec m) (y : BitVec n) :
    x ++ y = BitVec.ofNat (m + n) (2 ^ n * x.toNat + y.toNat) := by
  have hval : (x ++ y).toNat = 2 ^ n * x.toNat + y.toNat := by
    rw [BitVec.toNat_append, ← Nat.shiftLeft_add_eq_or_of_lt y.isLt, Nat.shiftLeft_eq, Nat.mul_comm]
  rw [← hval, BitVec.ofNat_toNat, BitVec.setWidth_eq]

theorem toNat_extractLsb'_div {w : Nat} (p l : Nat) (v : BitVec w) :
    (v.extractLsb' p l).toNat = v.toNat / 2 ^ p % 2 ^ l := by
  rw [BitVec.extractLsb'_toNat, Nat.shiftRight_eq_div_pow]

theorem toNat_extractLsb'_low {w : Nat} (l : Nat) (v : BitVec w) : (v.extractLsb' 0 l).toNat = v.toNat % 2 ^ l := by
  rw [toNat_extractLsb'_div, Nat.pow_zero, Nat.div_one]

/-- A field, zero extended. -/
theorem setWidth_extractLsb'_eq_ofNat {w : Nat} (n p l : Nat) (v : BitVec w) :
    (v.extractLsb' p l).setWidth n = BitVec.ofNat n (v.toNat / 2 ^ p % 2 ^ l) := by
  rw [← toNat_extractLsb'_div, BitVec.ofNat_toNat]

/-! ### Bodies that write one register -/

section
variable {s : State} {body : State → Res} {d : Fin 32} {v : Word}

theorem run_plain_regResult {g : Option Guard} (h : s.CanRun g) (hb : body s.begin = .ok (s.begin.wr d v)) :
    Completes (run {} g s body) (s.RegResult d v) :=
  run_regResult rfl (State.canRun_legal h) h.2 hb

/-- The instructions that exist only in 32-bit mode carry no prefix (R342). -/
theorem run_only32_regResult (h : s.psr.il = true) (hb : body s.begin = .ok (s.begin.wr d v)) :
    Completes (run { only32 := true } none s body) (s.RegResult d v) := by
  have hlegal : s.illegal { only32 := true } none = false := by simp [State.illegal, h]
  exact run_regResult rfl hlegal rfl hb

theorem immOp_completes {o : OpsRI} (h : s.CanRun o.guard) (f : Word → Word) :
    Completes (immOp o s f) (s.RegResult o.dest (f (s.rd o.src))) :=
  run_plain_regResult h rfl

/-- What is known of the value written may be said beside it. -/
theorem Completes.regResult_and {r : Host.Outcome State Fault Refusal} {Q : Word → Prop}
    (h : Completes r (s.RegResult d v)) (hv : Q v) : Completes r (fun t => ∃ v, s.RegResult d v t ∧ Q v) := by
  obtain ⟨t, hr, ht⟩ := h
  exact ⟨t, hr, v, ht, hv⟩

end

/-! ### Concatenation (R340, R341) -/

theorem concatBytes_eq (a b : Word) : 0#16 ++ a.extractLsb' 0 8 ++ b.extractLsb' 0 8 =
    BitVec.ofNat 32 (256 * (a.toNat % 256) + b.toNat % 256) := by
  have hupper : (0#16 ++ a.extractLsb' 0 8).toNat = a.toNat % 256 := by
    rw [BitVec.toNat_append, toNat_extractLsb'_low]
    simp
  rw [append_eq_ofNat, hupper, toNat_extractLsb'_low]
  rfl

theorem concatHalfwords_eq (a b : Word) : a.extractLsb' 0 16 ++ b.extractLsb' 0 16 =
    BitVec.ofNat 32 (65536 * (a.toNat % 65536) + b.toNat % 65536) := by
  rw [append_eq_ofNat, toNat_extractLsb'_low, toNat_extractLsb'_low]
  rfl

/-- Settles O10: both write the concatenation of their low parts; `conh` takes its operands in its own order. -/
theorem concatenationResults : Obligations.ConcatenationResults := by
  intro s o h
  rw [← concatBytes_eq, ← concatHalfwords_eq]
  unfold exec
  exact ⟨regOp_completes h _, run_plain_regResult h rfl⟩

/-! ### Extraction (R343 to R346, R351) -/

/-- R351: a field that is not empty and lies inside the word. -/
theorem field_of_inside (free v : Word) {l p : Nat} (hl : 1 ≤ l) (hp : p + l ≤ 32) :
    field free v l p = BitVec.ofNat 32 (v.toNat / 2 ^ p % 2 ^ l) := by
  rw [field, if_neg (by omega), if_pos hp]

/-- R343: byte `k`. -/
theorem byte_eq (v : Word) (k : Nat) :
    (v.extractLsb' (8 * k) 8).setWidth 32 = BitVec.ofNat 32 (v.toNat / 2 ^ (8 * k) % 256) :=
  setWidth_extractLsb'_eq_ofNat ..

/-- R344: the halfword `imm` selects. -/
theorem halfword_eq (v : Word) {i : Int} (h0 : 0 ≤ i) (h1 : i ≤ 1) :
    (if i = 0 then v.extractLsb' 0 16 else v.extractLsb' 16 16).setWidth 32 =
      BitVec.ofNat 32 (v.toNat / 2 ^ (16 * i.toNat) % 65536) := by
  obtain rfl | rfl : i = 0 ∨ i = 1 := by omega
  · exact setWidth_extractLsb'_eq_ofNat 32 0 16 v
  · exact setWidth_extractLsb'_eq_ofNat 32 16 16 v

section
variable {s : State}

theorem exb_completes {o : OpsRRI} (h : s.CanRun o.guard) : Completes (exec (.exb o) s)
    (s.RegResult o.regA (BitVec.ofNat 32 ((s.rd o.regB).toNat / 2 ^ (8 * o.imm.toNat) % 256))) := by
  rw [← byte_eq]
  unfold exec
  exact run_plain_regResult h rfl

theorem exh_completes {o : OpsRRI} (h : s.CanRun o.guard) (h0 : 0 ≤ o.imm) (h1 : o.imm ≤ 1) :
    Completes (exec (.exh o) s)
      (s.RegResult o.regA (BitVec.ofNat 32 ((s.rd o.regB).toNat / 2 ^ (16 * o.imm.toNat) % 65536))) := by
  rw [← halfword_eq _ h0 h1]
  unfold exec
  exact run_plain_regResult h rfl

/-- R345: the length and the position are fields of the second operand. -/
theorem exbf_completes {o : OpsRR} (h : s.CanRun o.guard) : ∃ free, Completes (exec (.exbf o) s)
    (s.RegResult o.dest
      (field free (s.rd o.first) ((s.rd o.second).toNat / 32 % 64) ((s.rd o.second).toNat % 32))) := by
  have hl : ((s.rd o.second).extractLsb' 5 6).toNat = (s.rd o.second).toNat / 32 % 64 := toNat_extractLsb'_div ..
  have hp : ((s.rd o.second).extractLsb' 0 5).toNat = (s.rd o.second).toNat % 32 := toNat_extractLsb'_low ..
  rw [← hl, ← hp]
  unfold exec
  exact ⟨_, run_plain_regResult h rfl⟩

theorem exbfi_completes (d r : Fin 32) (l p : Nat) (h : s.psr.il = true) :
    ∃ free, Completes (exec (.exbfi d r l p) s) (s.RegResult d (field free (s.rd r) l p)) := by
  unfold exec
  exact ⟨_, run_only32_regResult h rfl⟩

end

/-- Settles O11: the bit fields are `field` of some open word, which does not matter inside the word. -/
theorem extractionResults : Obligations.ExtractionResults := by
  intro s
  refine ⟨fun o h _ _ => exb_completes h, fun o h h0 h1 => exh_completes h h0 h1, ?exbf, ?exbfi⟩
  case exbf =>
    rintro o l p h rfl rfl
    obtain ⟨free, hr⟩ := exbf_completes h
    exact hr.regResult_and (field_of_inside free _)
  case exbfi =>
    intro d r l p h _ _
    obtain ⟨free, hr⟩ := exbfi_completes d r l p h
    exact hr.regResult_and (field_of_inside free _)

/-! ### Constants and moves (R347, R348, R462) -/

theorem lowerImmediate_eq {k : Nat} (hk : k < 65536) : 0#16 ++ BitVec.ofNat 16 k = BitVec.ofNat 32 k := by
  rw [append_eq_ofNat, BitVec.toNat_ofNat, BitVec.toNat_ofNat, Nat.mod_eq_of_lt hk, Nat.zero_mod, Nat.mul_zero,
    Nat.zero_add]

theorem upperImmediate_eq {k : Nat} (hk : k < 65536) (v : Word) :
    BitVec.ofNat 16 k ++ v.extractLsb' 0 16 = BitVec.ofNat 32 (65536 * k + v.toNat % 65536) := by
  rw [append_eq_ofNat, BitVec.toNat_ofNat, Nat.mod_eq_of_lt hk, toNat_extractLsb'_low]
  rfl

/-- Settles O12: the immediate leads or follows the other halfword; `mov` writes what it reads. -/
theorem constantAndMoveResults : Obligations.ConstantAndMoveResults := by
  intro s
  unfold exec
  refine ⟨fun d k h hk => ?_, fun o h => ?_⟩
  · rw [← lowerImmediate_eq hk, ← upperImmediate_eq hk]
    exact ⟨run_only32_regResult h rfl, run_only32_regResult h rfl⟩
  · exact run_plain_regResult h rfl

/-! ### Sign extension (R349, R350, R352) -/

/-- Shifting the bit at `p` to the top moves the bits below it with it. -/
theorem getLsbD_shiftLeft_to_top (v : Word) {p k : Nat} (hp : p ≤ 31) (hk : k ≤ p) :
    (v <<< (31 - p)).getLsbD (31 - p + k) = v.getLsbD k := by
  have hlt : 31 - p + k < 32 := by omega
  rw [BitVec.getLsbD_shiftLeft, Nat.add_sub_cancel_left]
  simp [-BitVec.getLsbD_eq_getElem, hlt]

/-- R352: up to the position the bits of the word, above it the bit at the position. -/
theorem getLsbD_signext (v : Word) {p j : Nat} (hp : p ≤ 31) (hj : j < 32) :
    (signext v p).getLsbD j = v.getLsbD (min j p) := by
  have hin : decide (32 ≤ j) = false := decide_eq_false (by omega)
  rw [signext, BitVec.getLsbD_sshiftRight, hin, Bool.not_false, Bool.true_and]
  obtain hle | hgt : j ≤ p ∨ p < j := by omega
  · rw [if_pos (by omega), getLsbD_shiftLeft_to_top v hp hle, Nat.min_eq_left hle]
  · have hmsb : (v <<< (31 - p)).msb = v.getLsbD p := by
      rw [BitVec.msb_eq_getLsbD_last, ← getLsbD_shiftLeft_to_top v hp le_rfl, Nat.sub_add_cancel hp]
    rw [if_neg (by omega), hmsb, Nat.min_eq_right hgt.le]

/-- Settles O13: the position is below 32 in both, by its five bits or by its range. -/
theorem signExtensionResults : Obligations.SignExtensionResults := by
  intro s
  unfold exec
  refine ⟨fun o h => ?sext, fun o h h0 h1 => ?sexti⟩
  case sext =>
    refine (regOp_completes h _).regResult_and fun j hj => ?_
    have hp : ((s.rd o.second).extractLsb' 0 5).toNat = (s.rd o.second).toNat % 32 := toNat_extractLsb'_low ..
    rw [hp]
    exact getLsbD_signext _ (by omega) hj
  case sexti => exact (immOp_completes h _).regResult_and fun j hj => getLsbD_signext _ (by omega) hj

end Sys2Proof.Machine

/-! ## Boolean operations (42_boolean.md R371 to R376) -/

namespace Sys2Proof.Machine

/-- R370: the word of an immediate that is not negative is its zero extension. -/
theorem getLsbD_immWord {i : Int} (h0 : 0 ≤ i) {j : Nat} (hj : j < 32) :
    (immWord i).getLsbD j = i.toNat.testBit j := by
  obtain ⟨n, rfl⟩ := Int.eq_ofNat_of_zero_le h0
  rw [immWord, BitVec.ofInt_natCast, BitVec.getLsbD_ofNat, decide_eq_true hj, Bool.true_and, Int.toNat_natCast]

theorem not_completes {s : State} {o : OpsR2} (h : s.CanRun o.guard) :
    Completes (exec (.not o) s) (s.RegResult o.dest (~~~ s.rd o.src)) := by
  unfold exec
  exact run_plain_regResult h rfl

/-- Settles O14: each writes the word operation on what it reads, and that operation acts bit by bit. -/
theorem booleanResults : Obligations.BooleanResults := by
  intro s
  refine ⟨fun o h => ⟨?and, ?or, ?xor⟩, fun o h h0 _ => ⟨?andi, ?ori⟩, fun o h => ?not⟩
  case and => exact (regOp_completes h (· &&& ·)).regResult_and fun _ _ => BitVec.getLsbD_and
  case or => exact (regOp_completes h (· ||| ·)).regResult_and fun _ _ => BitVec.getLsbD_or
  case xor => exact (regOp_completes h (· ^^^ ·)).regResult_and fun _ _ => BitVec.getLsbD_xor
  case andi =>
    refine (immOp_completes h (· &&& immWord o.imm)).regResult_and fun j hj => ?_
    rw [BitVec.getLsbD_and, getLsbD_immWord h0 hj]
  case ori =>
    refine (immOp_completes h (· ||| immWord o.imm)).regResult_and fun j hj => ?_
    rw [BitVec.getLsbD_or, getLsbD_immWord h0 hj]
  case not =>
    refine (not_completes h).regResult_and fun j hj => ?_
    rw [BitVec.getLsbD_not, decide_eq_true hj, Bool.true_and]

end Sys2Proof.Machine

/-! ## Branches, and the targets of control transfers (43_branch.md R390 to R401, 44_jump.md R411 to R414) -/

namespace Sys2Proof.Machine

theorem Completes.mono {r : Host.Outcome State Fault Refusal} {P Q : State → Prop} (h : Completes r P)
    (hPQ : ∀ t, P t → Q t) : Completes r Q := by
  obtain ⟨t, hr, ht⟩ := h
  exact ⟨t, hr, hPQ t ht⟩

theorem State.canRun_none (s : State) : s.CanRun none := ⟨nofun, rfl⟩

section
variable {s : State} {a : Int} {p : Bool} {c : BitVec 8}

/-! ### The checks of a target (R391, R605) -/

theorem State.GoodTarget.targetFault_none (h : s.GoodTarget a) (p : Bool) : s.targetFault p a = none := by
  obtain ⟨h0, h1, hlen, hallowed⟩ := h
  have hprot : ¬ ((s.psr.um && !s.iallowed a.toNat) = true) := by simpa using hallowed
  rw [State.targetFault, if_neg (by simp; omega), if_neg (not_not_intro hlen), if_neg hprot]

theorem State.targetFault_outside (h : a < 0 ∨ 4294967295 < a) : s.targetFault true a = some 4#8 := by
  rw [State.targetFault, if_pos (by simpa using h)]

theorem State.targetFault_misaligned (h0 : 0 ≤ a) (h1 : a ≤ 4294967295) (hlen : a % (s.len : Int) ≠ 0) :
    s.targetFault p a = some 3#8 := by
  rw [State.targetFault, if_neg (by simp; omega), if_pos hlen]

theorem State.targetFault_protected (h0 : 0 ≤ a) (h1 : a ≤ 4294967295) (hlen : a % (s.len : Int) = 0)
    (hum : s.psr.um = true) (hi : s.iallowed a.toNat = false) : s.targetFault p a = some 9#8 := by
  rw [State.targetFault, if_neg (by simp; omega), if_neg (not_not_intro hlen), if_pos (by simp [hum, hi])]

theorem State.take_of_fault (h : s.targetFault p a = some c) (k : State → State) : s.take p a k = .exc c := by
  rw [State.take, h]

theorem State.take_of_good (h : s.targetFault p a = none) (k : State → State) :
    s.take p a k = .ok (k { s with ptarget := some (BitVec.ofInt 32 a) }) := by
  rw [State.take, h]

/-! ### The addresses after the pc (10_state.md R23) -/

theorem State.slot_eq (s : State) : s.slot = s.pc.toNat + s.len := by
  simp [State.slot, State.ahead]

theorem State.toNat_pcAhead (h : s.pc.toNat + s.len < 4294967296) : (s.pcAhead 1).toNat = s.pc.toNat + s.len := by
  have hahead : s.ahead 1 = s.pc.toNat + s.len := by rw [State.ahead, Nat.one_mul]
  rw [State.pcAhead, hahead, if_pos h, BitVec.toNat_ofNat, Nat.mod_eq_of_lt h]

/-! ### Bodies of control transfers -/

section
variable {g : Option Guard} {body : State → Res} {k : State → State} (hp : s.ptarget = none) (h : s.CanRun g)
include hp h

theorem run_control : run { control := true } g s body = finish s (body s.begin) :=
  run_body (fun _ => hp) (State.canRun_legal h) h.2

/-- A taken transfer whose target fails its checks: `k`, which writes the link, is not reached. -/
theorem run_take_raised (ha : s.targetFault p a = some c) (hb : body s.begin = s.begin.take p a k) :
    Completes (run { control := true } g s body) (s.Raised c) := by
  rw [run_control hp h, hb, State.take_of_fault (s := s.begin) ha]
  exact takeException_raised hp c

/-- A taken transfer without a link. -/
theorem run_take_pending (ha : s.GoodTarget a) (hb : body s.begin = s.begin.take p a id) :
    Completes (run { control := true } g s body) (fun t => s.Pending a t ∧ s.SameRegs t) := by
  rw [run_control hp h, hb, State.take_of_good (s := s.begin) (ha.targetFault_none p)]
  refine ⟨_, rfl, ?_⟩
  rw [State.retire_eq, hp]
  exact ⟨⟨rfl, rfl, rfl, rfl, rfl, ⟨rfl, rfl, rfl, rfl, rfl, rfl⟩, fun _ => rfl⟩, rfl, rfl, rfl, rfl⟩

/-- A control transfer that does nothing. -/
theorem run_control_idle (hb : body s.begin = .ok s.begin) :
    Completes (run { control := true } g s body) (fun t => s.SameBut t ∧ s.Advanced t) := by
  rw [run_control hp h, hb]
  have ha : s.Advanced (s.retire s.begin) := State.retire_advanced rfl
  refine ⟨_, rfl, ?_, ha⟩
  rw [State.retire_eq]
  exact ⟨⟨rfl, rfl, rfl, rfl⟩, rfl, rfl, rfl, ⟨rfl, rfl, rfl, rfl, rfl, rfl⟩, fun _ => rfl⟩

end

/-! ### The eight branches (R392 to R399) -/

theorem exec_branchOf (k : Cond) (o : OpsBr) (s : State) : exec (branchOf k o) s = branchOn k o s := by
  cases k <;> rfl

section
variable {k : Cond} {o : OpsBr} (hp : s.ptarget = none)
include hp

theorem branchOn_pending (hk : condHolds k s.cr[o.cr.val] = true) (ha : s.GoodTarget (s.slot + 2 * o.imm)) :
    Completes (branchOn k o s) (fun t => s.Pending (s.slot + 2 * o.imm) t ∧ s.SameRegs t) :=
  run_take_pending hp (State.canRun_none s) ha (if_pos hk)

theorem branchOn_raised (hk : condHolds k s.cr[o.cr.val] = true)
    (ha : s.targetFault true (s.slot + 2 * o.imm) = some c) : Completes (branchOn k o s) (s.Raised c) :=
  run_take_raised hp (State.canRun_none s) ha (if_pos hk)

/-- Whether the target is checked does not matter where it passes (log 17). -/
theorem branchOn_idle (hk : condHolds k s.cr[o.cr.val] = false) (ha : s.GoodTarget (s.slot + 2 * o.imm)) :
    Completes (branchOn k o s) (fun t => s.SameBut t ∧ s.Advanced t) := by
  refine run_control_idle hp (State.canRun_none s) ((if_neg (Bool.eq_false_iff.1 hk)).trans ?_)
  have hgood : s.begin.targetFault true (s.begin.slot + 2 * o.imm) = none := ha.targetFault_none true
  rw [hgood]
  split <;> rfl

end

end

/-- Settles O20: a branch is `branchOn` of its condition, which takes its target or does nothing. -/
theorem branchResults : Obligations.BranchResults := by
  intro s k o hp ha
  rw [exec_branchOf]
  rw [← State.slot_eq] at ha ⊢
  refine ⟨fun hk => ?taken, fun hk => ?notTaken⟩
  case taken =>
    refine (branchOn_pending hp hk ha).mono fun t ⟨hpend, hregs⟩ => ⟨hpend, hregs, fun hpc => ?_⟩
    obtain ⟨-, htpc, -⟩ := hpend
    rw [htpc, State.toNat_pcAhead hpc]
  case notTaken =>
    refine (branchOn_idle hp hk ha).mono fun t ⟨hsame, hadv⟩ => ⟨hsame, hadv, fun hpc => ?_⟩
    obtain ⟨htpc, -⟩ := hadv
    rw [htpc, hp, Option.getD_none, State.toNat_pcAhead hpc]

/-- Settles O22: each of the transfers raises what the check of its target finds, and the three clauses are the three
outcomes of that check. -/
theorem badTargetRaisesException : Obligations.BadTargetRaisesException := by
  intro s i pcrel a hp hi
  have hraise : ∀ c, s.targetFault pcrel a = some c → Completes (exec i s) (s.Raised c) := by
    intro c hc
    rw [← State.slot_eq] at hi
    obtain ⟨k, o, rfl, hk, rfl, rfl⟩ | ⟨o, rfl | rfl, rfl, rfl⟩ | ⟨o, rfl | rfl, hrun, rfl, rfl⟩ := hi
    case inl =>
      rw [exec_branchOf]
      exact branchOn_raised hp hk hc
    case inr.inl.inl | inr.inl.inr =>
      unfold exec
      exact run_take_raised hp (State.canRun_none s) hc rfl
    case inr.inr.inl | inr.inr.inr =>
      unfold exec
      exact run_take_raised hp hrun hc rfl
  refine ⟨fun hrel hout => hraise _ ?outside, fun h0 h1 hlen => hraise _ ?misaligned,
    fun h0 h1 hlen hum hi => hraise _ ?forbidden⟩
  case outside => exact hrel ▸ State.targetFault_outside hout
  case misaligned => exact State.targetFault_misaligned h0 h1 hlen
  case forbidden => exact State.targetFault_protected h0 h1 hlen hum hi

end Sys2Proof.Machine

/-! ## Jumps (44_jump.md R410 to R415) -/

namespace Sys2Proof.Machine

section
variable {s : State}

/-- R415: the link address. -/
theorem State.toNat_link (h : s.pc.toNat + 2 * s.len < 4294967296) : s.link.toNat = s.pc.toNat + 2 * s.len := by
  rw [State.link, State.ahead, if_pos h, BitVec.toNat_ofNat, Nat.mod_eq_of_lt h]

/-- A taken transfer that writes a link: the target is pending, and register `d` alone is written. -/
theorem run_take_link {g : Option Guard} {body : State → Res} {p : Bool} {a : Int} {d : Fin 32} {v : Word}
    (hp : s.ptarget = none) (h : s.CanRun g) (ha : s.GoodTarget a)
    (hb : body s.begin = s.begin.take p a (·.wr d v)) :
    Completes (run { control := true } g s body) (fun t => s.Pending a t ∧ s.Wrote t d v) := by
  rw [run_control hp h, hb, State.take_of_good (s := s.begin) (ha.targetFault_none p)]
  obtain ⟨hcr, hpsr, -, hptarget, hm64, hmem, hunits⟩ :=
    State.wr_frame { s.begin with ptarget := some (BitVec.ofInt 32 a) } d v
  refine ⟨_, rfl, ?_⟩
  rw [State.retire_eq, hp]
  exact ⟨⟨hptarget, rfl, hcr, hpsr, hm64, hunits, fun k => congrArg (Memory.get · k) hmem⟩, State.wr_wrote ..⟩

/-- The link of `jal` and `jalr`. Past FFFFFFFFH its value is the open one of the state the body works on (log 19). -/
theorem run_take_link31 {g : Option Guard} {body : State → Res} {p : Bool} {a : Int}
    (hp : s.ptarget = none) (h : s.CanRun g) (ha : s.GoodTarget a)
    (hb : body s.begin = s.begin.take p a (·.wr 31 s.begin.link)) :
    Completes (run { control := true } g s body) (fun t => s.Pending a t ∧
      ∃ v, s.Wrote t 31 v ∧ (s.pc.toNat + 2 * s.len < 4294967296 → v.toNat = s.pc.toNat + 2 * s.len)) :=
  (run_take_link hp h ha hb).mono fun _ ⟨hpending, hwrote⟩ =>
    ⟨hpending, s.begin.link, hwrote, State.toNat_link (s := s.begin)⟩

end

/-- Settles O21: each jump takes its target, `jmp` and `jmpr` without a link, `jal` and `jalr` with one. -/
theorem jumpResults : Obligations.JumpResults := by
  intro s hp
  refine ⟨fun o ha => ?relative, fun o hrun ha => ?absolute⟩
  case relative =>
    rw [← State.slot_eq] at ha ⊢
    unfold exec
    exact ⟨run_take_pending hp (State.canRun_none s) ha rfl, run_take_link31 hp (State.canRun_none s) ha rfl⟩
  case absolute =>
    unfold exec
    exact ⟨run_take_pending hp hrun ha rfl, run_take_link31 hp hrun ha rfl⟩

end Sys2Proof.Machine

/-! ## Comparisons (45_compare.md R431 to R433) -/

namespace Sys2Proof.Machine

/-- R433: the carry of R302 is the unsigned order, or its complement (SUB_CARRY; D8, log 11). -/
theorem subCarry_eq_xor_le (a b : Word) :
    subCarry a b = xor Config.subCarryIsBorrow (decide (b.toNat ≤ a.toNat)) := by
  have hcarry : 4294967296 ≤ a.toNat + (~~~ b).toNat + 1 ↔ b.toNat ≤ a.toNat := by
    rw [BitVec.toNat_not]; omega
  simp only [subCarry_eq, hcarry]

theorem cmpFlags_eq (a b : Word) : cmpFlags a b =
    { z := decide (a = b), n := decide (a.toInt < b.toInt)
      c := xor Config.subCarryIsBorrow (decide (b.toNat ≤ a.toNat)) } := by
  rw [cmpFlags, subCarry_eq_xor_le]

/-- The effect of an instruction that writes `f` to condition register `k` and nothing else. -/
def State.CrResult (s : State) (k : Fin 8) (f : Flags) (t : State) : Prop :=
  t.cr[k.val] = f ∧ (∀ (j : Nat) (h : j < 8), j ≠ k.val → t.cr[j] = s.cr[j]) ∧ s.SameRegs t ∧ t.psr = s.psr ∧
    t.m64 = none ∧ s.SameUnits t ∧ s.SameMem t ∧ s.Advanced t

/-- A body that writes one condition register. -/
theorem run_crResult {g : Option Guard} {s : State} {body : State → Res} {k : Fin 8} {f : Flags} (h : s.CanRun g)
    (hb : body s.begin = .ok (s.begin.setCr k f)) : Completes (run {} g s body) (s.CrResult k f) := by
  rw [run_plain h, hb]
  have ha : s.Advanced (s.retire (s.begin.setCr k f)) := State.retire_advanced rfl
  refine ⟨_, rfl, ?_⟩
  rw [State.retire_eq] at ha ⊢
  refine ⟨?written, fun j hj hne => ?kept, ⟨rfl, rfl, rfl, rfl⟩, rfl, rfl, ⟨rfl, rfl, rfl, rfl, rfl, rfl⟩,
    fun _ => rfl, ha⟩
  case written => exact Vector.getElem_set_self k.isLt
  case kept => exact Vector.getElem_set_ne k.isLt hj hne.symm

/-- Settles O17: a comparison carries no prefix, so it runs in every state; its one write is `cmpFlags` of what it
reads. -/
theorem compareWritesFlags : Obligations.CompareWritesFlags := by
  intro s i k a b hi
  rw [← cmpFlags_eq]
  unfold exec
  obtain ⟨o, rfl, rfl, rfl, rfl⟩ | ⟨o, rfl, rfl, rfl, rfl⟩ := hi
  case inl | inr => exact run_crResult s.canRun_none rfl

end Sys2Proof.Machine

/-! ## Shifts (46_shift.md R440 to R449) -/

namespace Sys2Proof.Machine

/-! ### Shift amounts (R440) -/

theorem amount_eq (v : Word) : amount v = min (v.toNat % 64) 32 := by
  rw [amount, toNat_extractLsb'_low]
  rfl

theorem immAmount_of_le {i : Int} (h : i ≤ 32) : immAmount i = i.toNat :=
  min_eq_left (by omega)

/-! ### Left shifts (R441, R444, R445) -/

theorem toNat_shiftLeft_mod (a : Word) (p : Nat) : (a <<< p).toNat = a.toNat * 2 ^ p % 4294967296 := by
  rw [BitVec.toNat_shiftLeft, Nat.shiftLeft_eq]

theorem shiftLeft_eq_ofNat (a : Word) (p : Nat) : a <<< p = BitVec.ofNat 32 (a.toNat * 2 ^ p) := by
  rw [← BitVec.toNat_inj, toNat_shiftLeft_mod, BitVec.toNat_ofNat]

/-- R441: Z and N by the low word of the unbounded shifted value, C by its bit 32 or open (log 12). -/
theorem sllFlags_eq (free : Bool) (a : Word) (p : Nat) : sllFlags free a p =
    { z := decide (a.toNat * 2 ^ p % 4294967296 = 0)
      n := decide (2147483648 ≤ a.toNat * 2 ^ p % 4294967296)
      c := if p = 0 then free else decide (a.toNat * 2 ^ p / 4294967296 % 2 = 1) } := by
  have hz : a <<< p = 0#32 ↔ a.toNat * 2 ^ p % 4294967296 = 0 := by
    rw [← BitVec.toNat_inj, toNat_shiftLeft_mod]; rfl
  have hn : (a <<< p).getLsbD 31 = decide (2147483648 ≤ a.toNat * 2 ^ p % 4294967296) := by
    rw [← toNat_shiftLeft_mod]
    exact BitVec.msb_eq_decide (a <<< p)
  have hc : (a.toNat * 2 ^ p).testBit 32 = decide (a.toNat * 2 ^ p / 4294967296 % 2 = 1) :=
    Nat.testBit_eq_decide_div_mod_eq
  rw [sllFlags, hn, hc]
  simp only [hz]

/-- A body that is a left shift, with what the open carry came out as. -/
theorem run_sllTo {g : Option Guard} {s : State} {body : State → Res} {d : Fin 32} {a : Word} {p : Nat}
    (h : s.CanRun g) (hb : body s.begin = sllTo d a p s.begin) :
    ∃ free, Completes (run {} g s body) (s.FlagResult d (a <<< p) (sllFlags free a p)) :=
  ⟨_, run_flagResult h hb⟩

/-- Settles O15: both are `sllTo`, by the amount the statement names; the open carry is the one of a shift by 0. -/
theorem leftShiftResults : Obligations.LeftShiftResults := by
  intro s i g d a p hi hrun
  obtain ⟨free, hr⟩ : ∃ free, Completes (exec i s) (s.FlagResult d (a <<< p) (sllFlags free a p)) := by
    unfold exec
    obtain ⟨o, rfl, rfl, rfl, rfl, rfl⟩ | ⟨o, rfl, rfl, rfl, rfl, -, h32, rfl⟩ := hi
    case inl => rw [← amount_eq]; exact run_sllTo hrun rfl
    case inr => rw [← immAmount_of_le h32]; exact run_sllTo hrun rfl
  rw [shiftLeft_eq_ofNat, sllFlags_eq] at hr
  exact hr.mono fun t ht => ⟨_, fun hp => if_neg (by omega), ht⟩

/-! ### Right shifts (R446 to R449) -/

theorem ushiftRight_eq_ofNat (a : Word) (p : Nat) : a >>> p = BitVec.ofNat 32 (a.toNat / 2 ^ p) := by
  rw [← Nat.shiftRight_eq_div_pow, ← BitVec.toNat_ushiftRight, BitVec.ofNat_toNat, BitVec.setWidth_eq]

theorem sshiftRight_eq_ofInt (a : Word) (p : Nat) : a.sshiftRight p = BitVec.ofInt 32 (a.toInt / 2 ^ p) := by
  rw [BitVec.sshiftRight, Int.shiftRight_eq_div_pow]
  norm_cast

/-- Settles O16: register and immediate operations that write the shifted word and no flag. -/
theorem rightShiftResults : Obligations.RightShiftResults := by
  intro s
  unfold exec
  refine ⟨fun o p hrun hp => ?register, fun o p hrun _ h32 hp => ?immediate⟩
  case register =>
    rw [hp, ← amount_eq, ← ushiftRight_eq_ofNat, ← sshiftRight_eq_ofInt]
    exact ⟨regOp_completes hrun _, regOp_completes hrun _⟩
  case immediate =>
    rw [hp, ← immAmount_of_le h32, ← ushiftRight_eq_ofNat, ← sshiftRight_eq_ofInt]
    exact ⟨immOp_completes hrun _, immOp_completes hrun _⟩

end Sys2Proof.Machine

section
-- One thread again, for the check's memory limit.
set_option Elab.async false

/-! ## The invariant after reset -/

namespace Sys2Proof.Machine

theorem CopSlot.reset_ok (k : CopKind) : (CopSlot.reset k).ok := by
  cases k with
  | milk => exact (rfl : Milk.reset.fsr.extractLsb' 14 18 = 0#18)
  | absent | other => trivial

/-- Whatever the platform: both memories and the hardware stack are empty, nothing is pending. -/
theorem State.resetAt_inv (boot : Word) (present : Vector CopKind 4) : (State.resetAt boot present).Inv where
  mem := Memory.wf_nil
  imem := List.Pairwise.nil
  terms _ hw := absurd hw (List.not_mem_nil)
  base := (by decide : (0x00010000#32 : Word).extractLsb' 0 8 = 0#8)
  moved := nofun
  hws := Nat.zero_le _
  target := nofun
  cops k h := by rw [State.resetAt_cops_getElem boot present h]; exact CopSlot.reset_ok _

/-- Settles O56: one of the resets of `State.resetAt_inv`. -/
theorem resetSatisfiesInvariant : Obligations.ResetSatisfiesInvariant :=
  State.resetAt_inv _ _

end Sys2Proof.Machine

/-! ## System instructions (49_miscellaneous.md R521 to R533) -/

namespace Sys2Proof.Machine

section
variable {s : State} {body : State → Res}

/-! ### The bits of the PSR and the condition registers (R521 to R523, R528 to R530) -/

/-- What an instruction leaves that changes no general register, no condition register and no unit. -/
def State.OnlyStatus (s : State) (p : Psr) (t : State) : Prop :=
  t.psr = p ∧ s.SameRegs t ∧ t.cr = s.cr ∧ t.m64 = none ∧ s.SameUnits t ∧ s.SameMem t ∧ s.Advanced t

/-- A body that writes the PSR, in super-user mode if the instruction asks for it. -/
theorem run_onlyStatus {n : Need} {p : Psr} (hc : n.control = false) (hi : s.illegal n none = false)
    (hb : body s.begin = .ok { s.begin with psr := p }) : Completes (run n none s body) (s.OnlyStatus p) := by
  rw [run_body (by simp [hc]) hi rfl, hb]
  have ha : s.Advanced (s.retire { s.begin with psr := p }) := State.retire_advanced rfl
  refine ⟨_, rfl, ?_⟩
  rw [State.retire_eq] at ha ⊢
  exact ⟨rfl, ⟨rfl, rfl, rfl, rfl⟩, rfl, rfl, ⟨rfl, rfl, rfl, rfl, rfl, rfl⟩, fun _ => rfl, ha⟩

/-- R604: super-user mode passes the check of `chrs`, `di`, `ei` and `retu`. -/
theorem State.superUser_legal (h : s.psr.um = false) (c : Bool) :
    s.illegal { control := c, su := true } none = false := by
  simp [State.illegal, h]

/-- R521: the two bits of the immediate of `chrs`. -/
theorem testBit_of_le_three {k : Nat} (h : k ≤ 3) :
    k.testBit 0 = decide (k % 2 = 1) ∧ k.testBit 1 = decide (2 ≤ k) := by
  have hall : ∀ k : Fin 4, k.val.testBit 0 = decide (k.val % 2 = 1) ∧ k.val.testBit 1 = decide (2 ≤ k.val) := by decide
  exact hall ⟨k, by omega⟩

end

/-- Settles O38: `chrs`, `di` and `ei` write their bits of the PSR, `nop` writes the PSR back. -/
theorem statusInstructionResults : Obligations.StatusInstructionResults := by
  intro s m
  have hlegal : s.psr.um = false → s.illegal { su := true } none = false := (State.superUser_legal · false)
  unfold exec
  refine ⟨fun hum k hk => ?chrs, fun hum => ?di, fun hum => ?ei, ?nop⟩
  case chrs =>
    obtain ⟨hread, hwrite⟩ := testBit_of_le_three hk
    rw [← hread, ← hwrite]
    exact run_onlyStatus (p := { s.psr with rsrd := k.testBit 0, rswr := k.testBit 1 }) rfl (hlegal hum) rfl
  case di => exact run_onlyStatus (p := { s.psr with ie := false }) rfl (hlegal hum) rfl
  case ei => exact run_onlyStatus (p := { s.psr with ie := true }) rfl (hlegal hum) rfl
  case nop =>
    have h : Completes (exec (.nop m) s) (s.OnlyStatus s.psr) :=
      run_onlyStatus (p := s.psr) rfl (State.canRun_legal s.canRun_none) rfl
    refine h.mono fun t ⟨hpsr, hregs, hcr, hm64, hunits, hmem, hadv⟩ =>
      ⟨⟨hregs, hcr, hpsr, hm64, hunits, hmem⟩, hadv, fun hp hpc => ?_⟩
    obtain ⟨htpc, -⟩ := hadv
    rw [htpc, hp, Option.getD_none, State.toNat_pcAhead hpc]

/-- Settles O39: each of the four asks for super-user mode at its decode. -/
theorem superUserInstructionsTrapInUserMode : Obligations.SuperUserInstructionsTrapInUserMode := by
  intro s i hum hp hi
  unfold exec
  obtain ⟨m, k, rfl⟩ | ⟨m, rfl⟩ | ⟨m, rfl⟩ | ⟨m, rfl⟩ := hi
  case inl | inr.inl | inr.inr.inl | inr.inr.inr => exact run_illegal_raised hp (by simp [State.illegal, hum])

theorem Flags.getLsbD_toBits (f : Flags) :
    f.toBits.getLsbD 2 = f.z ∧ f.toBits.getLsbD 1 = f.n ∧ f.toBits.getLsbD 0 = f.c := by
  have h : ∀ z n c : Bool, (Flags.mk z n c).toBits.getLsbD 2 = z ∧ (Flags.mk z n c).toBits.getLsbD 1 = n ∧
      (Flags.mk z n c).toBits.getLsbD 0 = c := by decide
  exact h ..

/-- R530: bit `j` of the flags of C[k] is bit `3 * k + j` of them all. -/
theorem getLsbD_crBits (v : Vector Flags 8) {k j : Nat} (hk : k < 8) (hj : j < 3) :
    (crBits v).getLsbD (3 * k + j) = v[k].toBits.getLsbD j := by
  simp only [crBits, BitVec.getLsbD_append]
  interval_cases k <;> simp +arith +decide [hj]

theorem toNat_zeroAppend_lt {m n : Nat} (b : BitVec n) : (0#m ++ b).toNat < 2 ^ n := by
  simpa using b.isLt

theorem getLsbD_zeroAppend {m n j : Nat} (b : BitVec n) (h : j < n) : (0#m ++ b).getLsbD j = b.getLsbD j := by
  rw [BitVec.getLsbD_append, if_pos h]

/-- R529: the flags of C[k] in the word `rcon` reads. -/
theorem crOfWord_getElem (w : Word) {k : Nat} (hk : k < 8) : (crOfWord w)[k] =
    { z := w.getLsbD (3 * k + 2), n := w.getLsbD (3 * k + 1), c := w.getLsbD (3 * k) } := by
  simp [crOfWord, Flags.ofBits]

/-- Settles O41: `scon` writes `crBits`, `rcon` reads them back. -/
theorem conditionRegistersSavedAndRestored : Obligations.ConditionRegistersSavedAndRestored := by
  intro s o
  have hrun := s.canRun_none
  refine ⟨?scon, ?rcon⟩
  case scon =>
    have h : Completes (exec (.scon o) s) (s.RegResult o.reg (0#8 ++ crBits s.cr)) := by
      unfold exec
      exact run_plain_regResult hrun rfl
    refine h.regResult_and ⟨toNat_zeroAppend_lt _, fun k hk => ?_⟩
    obtain ⟨hz, hn, hc⟩ := s.cr[k].getLsbD_toBits
    have hbit : ∀ j < 3, (0#8 ++ crBits s.cr).getLsbD (3 * k + j) = s.cr[k].toBits.getLsbD j := fun j hj => by
      rw [getLsbD_zeroAppend _ (by omega), getLsbD_crBits _ hk hj]
    exact ⟨(hbit 2 (by decide)).trans hz, (hbit 1 (by decide)).trans hn, (hbit 0 (by decide)).trans hc⟩
  case rcon =>
    have hexec : exec (.rcon o) s = .next (s.retire { s.begin with cr := crOfWord (s.rd o.reg) }) := by
      unfold exec
      exact run_plain hrun
    have ha : s.Advanced (s.retire { s.begin with cr := crOfWord (s.rd o.reg) }) := State.retire_advanced rfl
    refine ⟨_, hexec, ?_⟩
    rw [State.retire_eq] at ha ⊢
    exact ⟨fun k hk => crOfWord_getElem _ hk, ⟨rfl, rfl, rfl, rfl⟩, rfl, rfl, ⟨rfl, rfl, rfl, rfl, rfl, rfl⟩,
      fun _ => rfl, ha⟩

/-! ### Units with mandatory nops, and `trap` (R524 to R527, R531, R533) -/

theorem State.begin_withNops_one (s : State) (r : Res) :
    s.begin.withNops 1 r = if s.nopAt 1 = true then r else .refuse .nopMissing := by
  simp [State.withNops]

theorem State.begin_withNops_two (s : State) (r : Res) :
    s.begin.withNops 2 r = if s.nopAt 1 = true ∧ s.nopAt 2 = true then r else .refuse .nopMissing := by
  simp [State.withNops, List.range_succ]

/-- R23: the address `n` instructions ahead, where it is one. -/
theorem State.toNat_pcAhead_of_lt {s : State} {n : Nat} (h : s.pc.toNat + n * s.len < 4294967296) :
    (s.pcAhead n).toNat = s.pc.toNat + n * s.len := by
  rw [State.pcAhead, State.ahead, if_pos h, BitVec.toNat_ofNat, Nat.mod_eq_of_lt h]

section
variable {s : State} (hp : s.ptarget = none)
include hp

theorem exec_scall {o : OpsG} (h : s.CanRun o.guard) :
    exec (.scall o) s = finish s (s.begin.withNops 1 (.goto s.begin.systemCall)) := by
  unfold exec
  exact run_control hp h

theorem exec_retu (m : Mode) (hum : s.psr.um = false) :
    exec (.retu m) s = finish s (s.begin.withNops 1 (.goto s.begin.returnToUser)) := by
  unfold exec
  exact run_body (fun _ => hp) (State.superUser_legal hum true) rfl

theorem exec_swm (m k : Mode) :
    exec (.swm m k) s = finish s (s.begin.withNops 2 (.goto (s.begin.switchMode k))) := by
  unfold exec
  exact run_control hp s.canRun_none

theorem exec_reti (m : Mode) : exec (.reti m) s = finish s (s.begin.withNops 2
    (match s.hws with
     | [] => .fault .hwsEmpty
     | e :: rest => .goto (s.begin.returnFromInterrupt e rest))) := by
  unfold exec
  exact run_control hp s.canRun_none

end

/-- Settles O42: with its nop there, `scall` goes to `State.systemCall`. -/
theorem systemCallEntersHandler : Obligations.SystemCallEntersHandler := by
  intro s o hp hrun hnop
  rw [exec_scall hp hrun, State.begin_withNops_one, if_pos hnop]
  exact ⟨_, rfl, BitVec.extractLsb'_append_eq_right, State.toNat_link (s := s.begin), rfl, rfl, hp, rfl, rfl, rfl, rfl,
    ⟨rfl, rfl, rfl, rfl, rfl, rfl⟩, fun _ => rfl⟩

/-- Settles O43: with its nop there, `retu` goes to `State.returnToUser`. -/
theorem returnToUserRestoresStatus : Obligations.ReturnToUserRestoresStatus := by
  intro s m hp hum hnop
  rw [exec_retu hp m hum, State.begin_withNops_one, if_pos hnop]
  exact ⟨_, rfl, rfl, rfl, hp, ⟨rfl, rfl, rfl, rfl⟩, rfl, rfl, ⟨rfl, rfl, rfl, rfl, rfl, rfl⟩, fun _ => rfl⟩

theorem getLsbD_and_not_twoPow {w : Nat} (x : BitVec w) {i j : Nat} (hj : j < w) :
    (x &&& ~~~ (BitVec.twoPow w i)).getLsbD j = (x.getLsbD j && decide (j ≠ i)) := by
  simp [hj, eq_comm]

theorem getLsbD_or_twoPow {w : Nat} (x : BitVec w) {i j : Nat} (hj : j < w) :
    (x ||| BitVec.twoPow w i).getLsbD j = (x.getLsbD j || decide (j = i)) := by
  simp [hj, eq_comm]

/-- Settles O44: with its nops there and an entry on the hardware stack, `reti` goes to `State.returnFromInterrupt`. -/
theorem returnFromInterruptRestoresContext : Obligations.ReturnFromInterruptRestoresContext := by
  intro s m e rest hp h1 h2 he
  rw [exec_reti hp m, State.begin_withNops_two, if_pos ⟨h1, h2⟩, he]
  refine ⟨_, rfl, rfl, rfl, ?c0, fun k hk hne => ?others, rfl, fun j hj => getLsbD_and_not_twoPow _ hj, rfl, rfl, hp, rfl,
    ⟨rfl, rfl, rfl, rfl⟩, rfl, rfl, rfl, fun _ => rfl⟩
  case c0 => exact Vector.getElem_set_self (by decide)
  case others => exact Vector.getElem_set_ne (by decide) hk hne.symm

/-- Settles O45: with its nops there, `swm` goes to `State.switchMode`, in the length of the old mode. -/
theorem switchModeResults : Obligations.SwitchModeResults := by
  intro s m target hp h1 h2
  rw [exec_swm hp m target, State.begin_withNops_two, if_pos ⟨h1, h2⟩]
  exact ⟨_, rfl, rfl, State.toNat_pcAhead_of_lt (s := s.begin), hp, ⟨rfl, rfl, rfl, rfl⟩, rfl, rfl,
    ⟨rfl, rfl, rfl, rfl, rfl, rfl⟩, fun _ => rfl⟩

/-- R531: the codes of `trap` are the last 32. -/
theorem trapCode_eq {k : Nat} (h : k ≤ 31) : 7#3 ++ BitVec.ofNat 5 k = BitVec.ofNat 8 (224 + k) := by
  rw [append_eq_ofNat, BitVec.toNat_ofNat k 5, Nat.mod_eq_of_lt (by omega)]
  rfl

/-- Settles O46: in 32-bit mode the body of `trap` is reached, and raises. -/
theorem trapRaisesItsCode : Obligations.TrapRaisesItsCode := by
  intro s k hil hp hk
  rw [← trapCode_eq hk]
  have hlegal : s.illegal { control := true, only32 := true } none = false := by simp [State.illegal, hil]
  unfold exec
  exact run_raised hlegal rfl hp rfl

/-! ### Control transfers that stop (R712, R715, R716) -/

theorem run_controlInSlot {n : Need} {g : Option Guard} {s : State} {body : State → Res} {a : Word}
    (hc : n.control = true) (ha : s.ptarget = some a) : run n g s body = .refused .controlInSlot := by
  simp [run, hc, ha]

theorem branchOn_controlInSlot {s : State} {k : Cond} {o : OpsBr} {a : Word} (ha : s.ptarget = some a) :
    branchOn k o s = .refused .controlInSlot :=
  run_controlInSlot rfl ha

/-- R712: every control transfer asks at its decode for no pending target. -/
theorem exec_controlInSlot {s : State} {a : Word} {i : Instr} (ha : s.ptarget = some a) (hi : isControl i = true) :
    exec i s = .refused .controlInSlot := by
  unfold exec
  cases i
  case bc | begt | belt | beq | bgt | blt | bne | bnc => exact branchOn_controlInSlot ha
  case jal | jmp | jalr | jmpr | scall | retu | reti | trap | swm =>
    exact run_controlInSlot rfl ha
  all_goals cases hi

/-- Settles O47: transfers in a slot by `exec_controlInSlot`, the others by what the nops of their unit decide. -/
theorem undefinedControlStops : Obligations.UndefinedControlStops := by
  intro s
  refine ⟨fun i a ha hi => exec_controlInSlot ha hi, fun m k hp h1 => ?firstMissing, fun m k hp h1 h2 => ?secondMissing,
    fun m hp he h1 h2 => ?empty⟩
  case firstMissing =>
    have hone : ∀ r, s.begin.withNops 1 r = .refuse .nopMissing := fun r => by
      rw [State.begin_withNops_one, if_neg (by simp [h1])]
    have htwo : ∀ r, s.begin.withNops 2 r = .refuse .nopMissing := fun r => by
      rw [State.begin_withNops_two, if_neg (by simp [h1])]
    refine ⟨?_, ?_, fun hum => ?_, fun o hrun => ?_⟩
    · rw [exec_swm hp, htwo]; rfl
    · rw [exec_reti hp, htwo]; rfl
    · rw [exec_retu hp m hum, hone]; rfl
    · rw [exec_scall hp hrun, hone]; rfl
  case secondMissing =>
    have htwo : ∀ r, s.begin.withNops 2 r = .refuse .nopMissing := fun r => by
      rw [State.begin_withNops_two, if_neg (by simp [h2])]
    rw [exec_swm hp, exec_reti hp, htwo, htwo]
    exact ⟨rfl, rfl⟩
  case empty =>
    rw [exec_reti hp, State.begin_withNops_two, if_pos ⟨h1, h2⟩, he]
    rfl

end Sys2Proof.Machine

/-! ## Accesses that raise or stop, exceptions in a slot (20_memory.md R103, R113, R125, 60_exceptions.md R616) -/

namespace Sys2Proof.Machine

/-- R125: the bounds belong to the area. -/
theorem State.dallowed_iff (s : State) (a : Nat) : s.dallowed a = true ↔
    if s.ccb.memConf.getLsbD 1 = true then a < s.ccb.dmemBoundLo.toNat ∨ s.ccb.dmemBoundHi.toNat < a
    else s.ccb.dmemBoundLo.toNat ≤ a ∧ a ≤ s.ccb.dmemBoundHi.toNat := by
  unfold State.dallowed
  split
  · simp only [Bool.not_eq_true', Bool.and_eq_false_iff, decide_eq_false_iff_not, Nat.not_le]
  · simp only [Bool.and_eq_true, decide_eq_true_eq]

theorem takeException_inSlot {s : State} {a : Word} (ha : s.ptarget = some a) (c : BitVec 8) :
    takeException s c = .refused .exceptionInSlot := by
  rw [takeException, ha]

section
variable {s : State} {o : OpsRRI} {i : Instr} {a : Int} {w v : Word} {m : Option Word} {r : Refusal}

theorem State.dataFault_outside (h : a < 0 ∨ 4294967295 < a) : s.dataFault a = some 8#8 := if_pos h

theorem State.dataFault_protected (h0 : 0 ≤ a) (h1 : a ≤ 4294967295) (hum : s.psr.um = true)
    (hd : s.dallowed a.toNat = false) : s.dataFault a = some 7#8 := by
  rw [State.dataFault, if_neg (by omega), if_pos (by simp [hum, hd])]

/-- R464: an address that fails its checks ends `ld` and `st` before their access. -/
theorem exec_dataFault {c : BitVec 8} (hi : i = .ld o ∨ i = .st o) (hr : s.CanRun o.guard)
    (h : s.dataFault (s.dataAddr o.regB o.imm) = some c) : exec i s = takeException s c := by
  have hacc : ∀ k, s.begin.access o.regB o.imm k = .exc c := fun k => by
    rw [State.access, State.begin_dataAddr, State.begin_dataFault, h]
  unfold exec
  obtain rfl | rfl := hi
  · exact (run_plain hr).trans (congrArg (finish s) (hacc _))
  · exact (run_plain hr).trans (congrArg (finish s) (hacc _))

/-- R113, R103: an access that is given no meaning, and why (`State.load_error`). -/
def State.Stops (s : State) (m : Option Word) (w : Word) (r : Refusal) : Prop :=
  s.remapHazard m w = true ∧ r = .ccbRemapAccess ∨
    s.remapHazard m w = false ∧ s.region w = .noCell ∧ r = .dmemMisaligned

theorem State.Stops.loadTo (h : s.Stops m w r) (d : Fin 32) : s.loadTo m w d = .refuse r := by
  obtain ⟨hm, rfl⟩ | ⟨hm, hw, rfl⟩ := h
  · simp [State.loadTo, State.load, hm]
  · simp [State.loadTo, State.load, hm, hw]

theorem State.Stops.store (h : s.Stops m w r) (v : Word) : s.store m w v = .refuse r := by
  obtain ⟨hm, rfl⟩ | ⟨hm, hw, rfl⟩ := h
  · simp [State.store, hm]
  · simp [State.store, hm, hw]

theorem exec_access_refused (hi : i = .ld o ∨ i = .st o) (hr : s.CanRun o.guard)
    (ha : s.dataAddr o.regB o.imm = a) (hg : s.GoodData a) (h : s.Stops s.ccbMoved (BitVec.ofInt 32 a) r) :
    exec i s = .refused r := by
  subst ha
  have hstop : (s.accessing (s.dataAddr o.regB o.imm)).Stops s.ccbMoved (BitVec.ofInt 32 (s.dataAddr o.regB o.imm)) r := h
  obtain rfl | rfl := hi
  · rw [exec_ld hr hg, hstop.loadTo]; rfl
  · rw [exec_st hr hg, hstop.store]; rfl

/-- R714: both ranges of a CCB that was just moved are forbidden. -/
theorem State.remapHazard_of_moved {b : Word} {k : Nat} (hg : s.GoodData a) (hm : s.ccbMoved = some b) (hk : k < 256)
    (ha : a = b.toNat + k ∨ a = s.ccb.ccbBase.toNat + k) : s.remapHazard s.ccbMoved (BitVec.ofInt 32 a) = true := by
  have hn := hg.toNat_ofInt
  rw [hm, State.remapHazard, Bool.or_eq_true, inCcb_iff, inCcb_iff]
  omega

/-- R41: a store of a base that is not aligned. -/
theorem State.store_misalignedBase (hm : s.remapHazard m w = false) (hw : s.region w = .ccb 0)
    (hv : v.extractLsb' 0 8 ≠ 0#8) : s.store m w v = .refuse .ccbBaseMisaligned := by
  have hreg : ccbRegAt 0 = some .ccbBase := rfl
  simp [State.store, hm, hw, hreg, hv]

/-- R103: in data memory an address that is no multiple of 4 has a cell past the byte addresses, or none. -/
theorem State.region_misaligned {n : Nat} (hg : s.GoodData n) (h4 : n % 4 ≠ 0)
    (hccb : n < s.ccb.ccbBase.toNat ∨ s.ccb.ccbBase.toNat + 255 < n)
    (hext : n < s.ccb.ccbBase.toNat + 256 ∨ s.ccb.regspcEnd.toNat < n) :
    s.region (BitVec.ofInt 32 n) =
      if Config.dmemWordGranule = true then .cell (wordCount + 4 * n) else .noCell := by
  have hn : (BitVec.ofInt 32 (n : Int)).toNat = n := Int.ofNat.inj hg.toNat_ofInt
  have hi : inCcb s.ccb.ccbBase (BitVec.ofInt 32 n) ≠ true := by
    rw [Ne, inCcb_iff]; omega
  rw [State.region, if_neg hi, if_neg (by omega), cellKey, hn]
  simp only [h4, false_or, if_false]

/-- A store to a cell past the byte addresses. -/
theorem st_pastBytes {n : Nat} (hr : s.CanRun o.guard) (hm : s.ccbMoved = none)
    (hg : s.GoodData (s.dataAddr o.regB o.imm))
    (hk : s.region (BitVec.ofInt 32 (s.dataAddr o.regB o.imm)) = .cell (wordCount + n)) :
    Completes (exec (.st o) s) (fun t => s.SameRegs t ∧ t.cr = s.cr ∧ t.psr = s.psr ∧ s.SameUnits t ∧ s.Advanced t ∧
      ∀ b < 4294967296, Memory.get t.mem b = Memory.get s.mem b) := by
  refine ⟨_, st_cell hr hm hg hk, ?_⟩
  have ha := State.retire_advanced (s := s) (u := { s.accessing (s.dataAddr o.regB o.imm) with
    mem := Memory.setWord s.mem (wordCount + n) (s.rd o.regA) }) rfl
  rw [State.retire_eq] at ha ⊢
  exact ⟨⟨rfl, rfl, rfl, rfl⟩, rfl, rfl, ⟨rfl, rfl, rfl, rfl, rfl, rfl⟩, ha,
    fun b hb => Memory.get_setWord_other _ _ _ _ (.inl (hb.trans_le (Nat.le_add_right ..)))⟩

end

/-- Settles O27: the two clauses are the two exceptions of `State.dataFault`. -/
theorem badDataAddressRaisesException : Obligations.BadDataAddressRaisesException := by
  refine ⟨State.dallowed_iff, fun s o i hi hr hp => ?_⟩
  have hraise : ∀ c, s.dataFault (s.dataAddr o.regB o.imm) = some c → Completes (exec i s) (s.Raised c) := fun c hc => by
    rw [exec_dataFault hi hr hc]
    exact takeException_raised hp c
  exact ⟨fun h => hraise _ (State.dataFault_outside h),
    fun h0 h1 hum hd => hraise _ (State.dataFault_protected h0 h1 hum hd)⟩

/-! ### Exceptions in the slot of a taken transfer (R616) -/

section
variable {s : State} {a : Word} (ha : s.ptarget = some a) {n : Need} {g : Option Guard} {body : State → Res}
include ha

theorem run_raises_inSlot {c : BitVec 8} (h : s.CanRun g) (hb : body s.begin = .exc c) :
    run {} g s body = .refused .exceptionInSlot := by
  rw [run_plain h, hb]
  exact takeException_inSlot ha c

theorem run_illegal_inSlot (hc : n.control = false) (hi : s.illegal n g = true) :
    run n g s body = .refused .exceptionInSlot := by
  simp [run, hc, hi, takeException_inSlot ha]

/-- R157, R158: what 16-bit mode does not have: an instruction of 32-bit mode only, or a condition (log 51). -/
theorem run_thirtyTwoBit_inSlot (hil : s.psr.il = false) (hc : n.control = false) (h : n.only32 = true ∨ g ≠ none) :
    run n g s body = .refused .exceptionInSlot := by
  refine run_illegal_inSlot ha hc ?_
  rw [← Option.isSome_iff_ne_none] at h
  simpa [State.illegal, hil] using .inl h

section
variable (hil : s.psr.il = false)
include hil

theorem regOp_thirtyTwoBit_inSlot {o : OpsRR} {f : Word → Word → Word} (h : false = true ∨ o.guard ≠ none) :
    regOp o s f = .refused .exceptionInSlot :=
  run_thirtyTwoBit_inSlot ha hil rfl h

theorem immOp_thirtyTwoBit_inSlot {o : OpsRI} {f : Word → Word} (h : false = true ∨ o.guard ≠ none) :
    immOp o s f = .refused .exceptionInSlot :=
  run_thirtyTwoBit_inSlot ha hil rfl h

theorem milkOp3_inSlot {i : Instr} {o : OpsF} {f : Nat → Word → Word → FpOut} :
    milkOp3 i o s f = .refused .exceptionInSlot :=
  run_thirtyTwoBit_inSlot ha hil rfl (.inl rfl)

theorem milkOp2_inSlot {i : Instr} {o : OpsF} {f : Nat → Word → FpOut} : milkOp2 i o s f = .refused .exceptionInSlot :=
  run_thirtyTwoBit_inSlot ha hil rfl (.inl rfl)

/-- R157, R616: every instruction asks at its decode for what `Instr.only32` and `prefixOf` say. -/
theorem exec_thirtyTwoBit_inSlot {i : Instr} (hi : isControl i = false) (h : i.only32 = true ∨ prefixOf i ≠ none) :
    exec i s = .refused .exceptionInSlot := by
  unfold exec
  cases i
  case bc | begt | belt | beq | bgt | blt | bne | bnc | jal | jmp | jalr | jmpr | scall | retu | reti | trap | swm =>
    cases hi
  case conb | sext | muls16 | mulu16 | mulus16 | and | or | xor | sra | srl => exact regOp_thirtyTwoBit_inSlot ha hil h
  case sexti | andi | ori | srai | srli => exact immOp_thirtyTwoBit_inSlot ha hil h
  case fadd | fsub | fmul | fdiv | fcc => exact milkOp3_inSlot ha hil
  case fsqrt | fabs | fmov | fneg | fcvts | fcvtw => exact milkOp2_inSlot ha hil
  all_goals exact run_thirtyTwoBit_inSlot ha hil rfl h

end

/-- R604: the instructions reserved to super-user mode. -/
theorem exec_superUser_inSlot (hum : s.psr.um = true) (m : Mode) (k : Nat) :
    exec (.chrs m k) s = .refused .exceptionInSlot ∧ exec (.di m) s = .refused .exceptionInSlot ∧
      exec (.ei m) s = .refused .exceptionInSlot := by
  have hsu : ∀ body, run { su := true } none s body = .refused .exceptionInSlot := fun _ =>
    run_illegal_inSlot ha rfl (by simp [State.illegal, hum])
  unfold exec
  exact ⟨hsu _, hsu _, hsu _⟩

/-- R303: a signed overflow. -/
theorem exec_overflow_inSlot {i : Instr} {g : Option Guard} {r : Int}
    (hi : (∃ o : OpsRR, i = .add o ∧ g = o.guard ∧ r = (s.rd o.first).toInt + (s.rd o.second).toInt) ∨
       (∃ o : OpsRI, i = .addi o ∧ g = o.guard ∧ r = (s.rd o.src).toInt + (BitVec.ofInt 32 o.imm).toInt) ∨
       (∃ o : OpsRR, i = .sub o ∧ g = o.guard ∧ r = (s.rd o.first).toInt - (s.rd o.second).toInt))
    (h : s.CanRun g) (hr : r < -2147483648 ∨ 2147483647 < r) : exec i s = .refused .exceptionInSlot := by
  unfold exec
  obtain ⟨o, rfl, rfl, rfl⟩ | ⟨o, rfl, rfl, rfl⟩ | ⟨o, rfl, rfl, rfl⟩ := hi
  case inl | inr.inl => exact run_raises_inSlot ha h (addTo_overflow (addOverflows_iff.2 hr) ..)
  case inr.inr => exact run_raises_inSlot ha h (subTo_overflow (subOverflows_iff.2 hr) ..)

/-- R602, R606: an exception of the fetch; with a target pending no interrupt comes before it (R636). -/
theorem step_fetch_inSlot (hf : s.foreignSet = false)
    (h : s.pc.toNat % s.len ≠ 0 ∨ s.psr.um = true ∧ s.iallowed s.pc.toNat = false) :
    step s = .refused .exceptionInSlot := by
  have hacc : s.sampleRequests.accepted = none := by
    rw [State.accepted, State.sampleRequests_ptarget, ha]; rfl
  have hforeign : s.sampleRequests.foreignSet = false := by
    rw [State.foreignSet, State.sampleRequests_psr]; exact hf
  obtain ⟨c, hc⟩ : ∃ c, s.fetch = .exc c := by
    by_cases hpc : s.pc.toNat % s.len = 0
    · obtain ⟨hum, hi⟩ := h.resolve_left (not_not_intro hpc)
      exact ⟨_, State.fetch_protected hpc hum hi⟩
    · exact ⟨_, State.fetch_misaligned hpc⟩
  rw [step_of_fetch_exc hforeign hacc (s.sampleRequests_fetch.trans hc), fetchException, State.sampleRequests_ptarget, ha]

end

/-- Settles O48: what `ld` and `st` refuse by the address, what a slot refuses by the exception. -/
theorem undefinedDataStops : Obligations.UndefinedDataStops := by
  refine ⟨fun s o hr => ⟨fun a i hi ha hbad => ?fault, fun hg hm hbase hv => ?base, fun i b k hi hg hm hk hb => ?moved,
      fun a hg hm haddr h4 hccb hext => ?misaligned⟩,
    fun s a ha => ⟨fun i g r hi h hr => exec_overflow_inSlot ha hi h hr, fun m k hum => exec_superUser_inSlot ha hum m k,
      fun i hi hil h => exec_thirtyTwoBit_inSlot ha hil hi h, fun hf h => step_fetch_inSlot ha hf h⟩⟩
  case fault =>
    obtain ⟨c, hc⟩ := Option.ne_none_iff_exists'.1 (mt State.dataFault_none_iff.1 hbad)
    rw [exec_dataFault hi hr hc, takeException_inSlot ha]
  case base =>
    have hv' : (s.rd o.regA).extractLsb' 0 8 ≠ 0#8 := fun h => hv (by simpa using congrArg BitVec.toNat h)
    rw [exec_st hr hg, State.store_misalignedBase (s := s.accessing _) (State.no_hazard_of_none hm _)
      (State.region_ccb hg (k := 0) (by omega) (by decide)) hv']
    rfl
  case moved => exact exec_access_refused hi hr rfl hg (.inl ⟨State.remapHazard_of_moved hg hm hk hb, rfl⟩)
  case misaligned =>
    have hregion := State.region_misaligned hg h4 hccb hext
    split
    · rename_i hword
      rw [if_pos hword] at hregion
      exact st_pastBytes hr hm (haddr ▸ hg) (haddr ▸ hregion)
    · rename_i hbyte
      rw [if_neg hbyte] at hregion
      have hstop : ∀ i, i = .ld o ∨ i = .st o → exec i s = .refused .dmemMisaligned := fun i hi =>
        exec_access_refused hi hr haddr hg (.inr ⟨State.no_hazard_of_none hm _, hregion, rfl⟩)
      exact ⟨hstop _ (.inr rfl), hstop _ (.inl rfl)⟩

end Sys2Proof.Machine

/-! ## Interrupts (60_exceptions.md R631 to R642) -/

namespace Sys2Proof.Machine

/-! ### Requests (R631) -/

theorem State.sampleRequests_cons {s : State} {r : BitVec 12} {rest : List (BitVec 12)} (h : s.requests = r :: rest) :
    s.sampleRequests = { s with ccb := { s.ccb with intPend := s.ccb.intPend ||| r }, requests := rest } := by
  rw [State.sampleRequests, h]

/-- R631: a boundary changes INT_PEND alone of the CCB. -/
theorem State.sampleRequests_ccb (s : State) :
    s.sampleRequests.ccb = { s.ccb with intPend := s.sampleRequests.ccb.intPend } := by
  unfold State.sampleRequests
  split <;> rfl

theorem step_sampleRequests {s : State} (h : s.sampleRequests.requests = []) : step s.sampleRequests = step s := by
  unfold step
  rw [State.sampleRequests_nil h]

/-! ### Which source passes (R632, R635) -/

section
variable {s : State} {j k : Fin 12}

/-- R632: the nibbles of a priority register. -/
theorem toNat_nibble {w : Nat} (x : BitVec w) (n : Nat) : (x.extractLsb' (4 * n) 4).toNat = x.toNat / 16 ^ n % 16 := by
  rw [toNat_extractLsb'_div, Nat.pow_mul]
  rfl

/-- R632: the priority number of a source, by the two registers and the external controller. -/
theorem State.pri_eq {p : Fin 12 → Nat} (hcop : ∀ j, j.val < 4 → p j = s.ccb.copIntPri.toNat / 16 ^ j.val % 16)
    (hext : ∀ j, 4 ≤ j.val → p j =
      if Config.extIntCtrl then 15 else s.ccb.extIntPri.toNat / 16 ^ (j.val - 4) % 16) : s.pri = p := by
  funext j
  unfold State.pri
  split
  · rw [toNat_nibble, hcop j ‹_›]
  · rw [toNat_nibble, hext j (by omega)]

theorem mem_allSources (k : Fin 12) : k ∈ allSources := by
  revert k; decide

theorem State.waiting_iff : s.waiting k = true ↔ s.ccb.intPend.getLsbD k.val = true ∧ s.ccb.intMask.getLsbD k.val = true := by
  rw [State.waiting, Bool.and_eq_true]

/-- R632: two sources are in one order or the other. -/
theorem State.not_before_iff (h : j ≠ k) : s.before j k = false ↔ s.pri k < s.pri j ∨ s.pri k = s.pri j ∧ k.val < j.val := by
  have hne : j.val ≠ k.val := fun e => h (Fin.ext e)
  rw [← Bool.not_eq_true, State.before]
  simp only [Bool.or_eq_true, Bool.and_eq_true, decide_eq_true_eq]
  omega

/-- R635: the sources that keep `k` waiting, by the order of the sources. -/
theorem State.passes_iff : s.passes k = true ↔ s.psr.ie = true ∧ s.waiting k = true ∧
    (∀ j, j ≠ k → s.waiting j = true → s.pri k < s.pri j ∨ s.pri k = s.pri j ∧ k.val < j.val) ∧
    (∀ j, s.ccb.intServ.getLsbD j.val = true → s.pri k < s.pri j ∨ s.pri k = s.pri j ∧ k.val < j.val) := by
  have hwait : ∀ j, (!(decide (j ≠ k) && s.waiting j && s.before j k)) = true ↔
      (j ≠ k → s.waiting j = true → s.pri k < s.pri j ∨ s.pri k = s.pri j ∧ k.val < j.val) := fun j => by
    by_cases hj : j = k
    · simp [hj]
    · rw [← State.not_before_iff hj]
      cases s.waiting j <;> simp [hj]
  have hserv : ∀ j, (!(s.ccb.intServ.getLsbD j.val && (decide (j = k) || s.before j k))) = true ↔
      (s.ccb.intServ.getLsbD j.val = true → s.pri k < s.pri j ∨ s.pri k = s.pri j ∧ k.val < j.val) := fun j => by
    by_cases hj : j = k
    · simp [hj]
    · rw [← State.not_before_iff hj]
      cases s.ccb.intServ.getLsbD j.val <;> simp [hj]
  unfold State.passes
  simp only [Bool.and_eq_true, List.all_eq_true, mem_allSources, true_implies, hwait, hserv, and_assoc]

/-- R635: of two sources that wait the one that comes before the other passes. -/
theorem State.passes_unique (hj : s.passes j = true) (hk : s.passes k = true) : j = k := by
  obtain ⟨-, hwj, hfirst, -⟩ := State.passes_iff.1 hj
  obtain ⟨-, hwk, hfirst', -⟩ := State.passes_iff.1 hk
  by_contra hne
  have h := hfirst k (Ne.symm hne) hwk
  have h' := hfirst' j hne hwj
  omega

/-- R636: with no target pending the source that passes is accepted. -/
theorem State.accepted_of_passes (hp : s.ptarget = none) (hk : s.passes k = true) : s.accepted = some k := by
  rw [State.accepted, hp]
  obtain ⟨j, hj⟩ := Option.isSome_iff_exists.1 (List.find?_isSome.2 ⟨k, mem_allSources k, hk⟩)
  rw [← State.passes_unique (List.find?_some hj) hk]
  exact hj

end

/-! ### Outputs: only an interrupt entry acknowledges an interrupt (10_state.md R98, R641) -/

section
variable {s t u : State} {i : Instr}

theorem State.store_out {m : Option Word} {a v : Word} (h : s.store m a v = .ok u) : u.out = s.out := by
  obtain ⟨-, ⟨k, r, -, -, -, rfl⟩ | rfl | ⟨k, -, rfl⟩⟩ := State.store_ok h
  · unfold State.ccbPut
    repeat' split
    all_goals rfl
  · rfl
  · rfl

/-- R98: the events of an effect; `ld` and `st` put an address on the bus (`ld_out`, `st_out`). -/
theorem State.Effect.out_eq (h : s.Effect i u) (hld : ∀ o, i ≠ .ld o) (hst : ∀ o, i ≠ .st o) :
    u.out = [] ∨ ∃ k, u.out = [.copRgi k] := by
  cases h with
  | load o => exact absurd rfl (hld o)
  | store o => exact absurd rfl (hst o)
  | copWrite => rw [State.copWrite_eq]; exact .inl rfl
  | forward => rw [State.forward_eq]; exact .inr ⟨_, rfl⟩
  | _ => left; simp

theorem ld_out {o : OpsRRI} (h : exec (.ld o) s = .next t) : t.out = [] ∨ ∃ a, t.out = [.dataAddress a] := by
  obtain ⟨-, -, rfl⟩ | ⟨-, -, rfl⟩ | ⟨-, -, -, hf⟩ := run_next (show execLd o s = .next t from h)
  · exact .inl rfl
  · exact .inl (State.retire_out ..)
  · obtain ⟨c, -, e⟩ | ⟨-, e⟩ := s.begin.access_cases o.regB o.imm fun u a => u.loadTo s.ccbMoved a o.regA
    · rw [e] at hf
      obtain ⟨-, rfl⟩ := takeException_next hf
      exact .inl rfl
    · rw [e] at hf
      obtain ⟨v, -, e⟩ | ⟨r, -, e⟩ := State.loadTo_cases _ s.ccbMoved (BitVec.ofInt 32 (s.begin.dataAddr o.regB o.imm)) o.regA
      · rw [e] at hf
        cases hf
        right
        simp
      · rw [e] at hf
        cases hf

theorem st_out {o : OpsRRI} (h : exec (.st o) s = .next t) : t.out = [] ∨ ∃ a, t.out = [.dataAddress a] := by
  obtain ⟨c, rfl⟩ | rfl | ⟨-, u, rfl, hu⟩ := st_next h
  · exact .inl rfl
  · exact .inl (State.retire_out ..)
  · rw [State.retire_out, State.store_out hu]
    exact .inr ⟨_, rfl⟩

/-- No executed instruction pulses INT_ACK. -/
theorem exec_out_ne_intAck (h : exec i s = .next t) : t.out ≠ [.intAck] := by
  have hbus : t.out = [] ∨ (∃ a, t.out = [.dataAddress a]) → t.out ≠ [.intAck] := by
    rintro (e | ⟨a, e⟩) <;> simp [e]
  by_cases hld : ∃ o, i = .ld o
  · obtain ⟨o, rfl⟩ := hld
    exact hbus (ld_out h)
  · by_cases hst : ∃ o, i = .st o
    · obtain ⟨o, rfl⟩ := hst
      exact hbus (st_out h)
    · cases exec_ends h with
      | raised c => nofun
      | retired hu =>
        rw [State.retire_out]
        obtain e | ⟨k, e⟩ := hu.out_eq (not_exists.1 hld) (not_exists.1 hst) <;> simp [e]
      | left _ ht => cases ht <;> nofun

/-- R636, R641: a step that acknowledges an interrupt has entered the one of the accepted source. -/
theorem step_intAck (h : step s = .next t) (ho : t.out = [.intAck]) :
    ∃ k, s.sampleRequests.accepted = some k ∧ t = s.sampleRequests.enterInterrupt k := by
  obtain ⟨-, ⟨k, hk, hi⟩ | ⟨-, i, -, he⟩ | ⟨-, c, -, hf⟩⟩ := step_next h
  · obtain ⟨-, ht⟩ := takeInterrupt_next hi
    exact ⟨k, hk, ht⟩
  · exact absurd ho (exec_out_ne_intAck he)
  · obtain ⟨-, rfl⟩ := fetchException_next hf
    cases ho

/-- R641: a step at a boundary at which a source is accepted. -/
theorem step_of_accepted {k : Fin 12} (hf : s.sampleRequests.foreignSet = false)
    (ha : s.sampleRequests.accepted = some k) : step s = takeInterrupt k s.sampleRequests := by
  simp [step, hf, ha]

end

/-- Settles O54: what passes is `State.passes_iff` with the priority numbers of the two registers, and a step that enters
an interrupt does so for the accepted source (`step_intAck`). -/
theorem interruptEntryIsPermitted : Obligations.InterruptEntryIsPermitted := by
  refine ⟨fun s r rest hr => ?arrive, fun s hr => State.sampleRequests_nil hr, fun s p k hcop hext => ?passes,
    fun s j k hj hk => State.passes_unique hj hk, fun s t k hstep hout hsource => ?entered⟩
  case arrive =>
    rw [State.sampleRequests_cons hr]
    refine ⟨fun j hj => BitVec.getLsbD_or, rfl, fun hrest => ?_⟩
    rw [← State.sampleRequests_cons hr]
    refine (step_sampleRequests ?_).symm
    rw [State.sampleRequests_cons hr, hrest]
  case passes => simp only [State.passes_iff, State.pri_eq hcop hext, State.waiting_iff, and_imp, and_assoc]
  case entered =>
    obtain ⟨j, hj, rfl⟩ := step_intAck hstep hout
    obtain rfl : j = k := Option.some.inj hsource
    obtain ⟨hp, hpass⟩ := State.accepted_plain hj
    obtain ⟨hie, hwait, -, hserv⟩ := State.passes_iff.1 hpass
    obtain ⟨-, hmask⟩ := State.waiting_iff.1 hwait
    have hidle := mt (hserv j) (by omega)
    rw [State.sampleRequests_ccb] at hmask hidle
    rw [State.sampleRequests_psr] at hie
    rw [State.sampleRequests_ptarget] at hp
    exact ⟨hie, hp, hmask, Bool.eq_false_iff.2 hidle⟩

/-! ### Entry (R633, R634, R641) -/

/-- The page of an address: its twenty upper bits. -/
theorem and_page_eq (v : Word) : v &&& 0xFFFFF000#32 = v.extractLsb' 12 20 ++ 0#12 := by
  have hv : v = v.extractLsb' 12 20 ++ v.extractLsb' 0 12 := by
    rw [BitVec.extractLsb'_append_extractLsb'_eq_extractLsb' (by decide), BitVec.extractLsb'_eq_self]
  have hmask : 0xFFFFF000#32 = BitVec.allOnes 20 ++ 0#12 := rfl
  conv_lhs => rw [hv, hmask]
  rw [BitVec.and_append, BitVec.and_allOnes, BitVec.and_zero]

theorem toNat_and_page (v : Word) : (v &&& 0xFFFFF000#32).toNat = v.toNat / 4096 * 4096 := by
  have hv := v.isLt
  rw [and_page_eq, append_eq_ofNat, toNat_extractLsb'_div, BitVec.toNat_ofNat]
  simp only [BitVec.toNat_ofNat]
  omega

/-- R634: the offset of an external controller stays inside the page of the vector. -/
theorem toNat_page_add (v : Word) (b : BitVec 8) :
    ((v &&& 0xFFFFF000#32) + 16#32 * b.setWidth 32).toNat = v.toNat / 4096 * 4096 + 16 * b.toNat := by
  have hb := b.isLt
  have hv := v.isLt
  rw [BitVec.toNat_add, BitVec.toNat_mul, toNat_and_page, BitVec.toNat_setWidth_of_le (by decide)]
  simp only [BitVec.toNat_ofNat]
  omega

theorem State.entry_vector {s : State} {k : Fin 12} (h : Config.extIntCtrl = false ∨ k.val < 4) :
    s.entry k = s.ccb.intVec[k.val] := by
  refine if_neg fun ⟨hctrl, hk⟩ => ?_
  rw [hctrl] at h
  exact absurd (h.resolve_left (by decide)) (by omega)

theorem State.entry_page {s : State} {k : Fin 12} (hctrl : Config.extIntCtrl = true) (hk : 4 ≤ k.val) :
    ∃ offset < 256, (s.entry k).toNat = s.ccb.intVec[k.val].toNat / 4096 * 4096 + 16 * offset :=
  ⟨_, (Config.freeOffset s.freeCtr).isLt, (congrArg BitVec.toNat (if_pos ⟨hctrl, hk⟩)).trans (toNat_page_add ..)⟩

/-- Settles O53: the source that passes is accepted, and there is room for its entry. -/
theorem interruptEntrySavesContext : Obligations.InterruptEntrySavesContext := by
  intro s k hr hf hp hk hroom
  have hs := State.sampleRequests_nil hr
  have hstep := step_of_accepted (s := s) (k := k)
  rw [hs] at hstep
  rw [hstep hf (State.accepted_of_passes hp hk), takeInterrupt, if_pos hroom]
  exact ⟨_, rfl, rfl, fun j hj => getLsbD_or_twoPow _ hj, fun j hj => getLsbD_and_not_twoPow _ hj, rfl, rfl, rfl, rfl, hp,
    rfl, State.entry_vector, fun ⟨hctrl, hj⟩ => State.entry_page hctrl hj, ⟨rfl, rfl, rfl, rfl⟩, rfl, rfl, rfl, rfl,
    fun _ => rfl⟩

end Sys2Proof.Machine

/-! ## Coprocessors: moves and forwarded words (48_coprocessor.md R481 to R501) -/

namespace Sys2Proof.Machine

/-! ### Moves (R481, R482) -/

section
variable {s : State} {n : Fin 4} {k : Fin 32} {m : Milk} {v : Word}

theorem State.copRead_milk (hm : s.cops[n.val] = .milk m) (hk : k.val < 8) : s.copRead n k = m.f[k.val] := by
  simp [State.copRead, hm, hk]

theorem State.copWrite_milk (hm : s.cops[n.val] = .milk m) (hk : k.val < 8) :
    (s.copWrite n k v).cops[n.val] = .milk { m with f := m.f.set k.val v } := by
  simp [State.copWrite, hm, hk]

theorem State.copWrite_absent (hm : s.cops[n.val] = .absent) : s.copWrite n k v = s := by
  simp [State.copWrite, hm]

theorem State.copWrite_others {j : Nat} (hj : j < 4) (hne : j ≠ n.val) : (s.copWrite n k v).cops[j] = s.cops[j] := by
  unfold State.copWrite
  split
  · split
    · exact Vector.getElem_set_ne n.isLt hj hne.symm
    · exact Vector.getElem_set_ne n.isLt hj hne.symm
  · rfl
  · rfl

/-- What an instruction leaves of the core that reaches a coprocessor only: all but the pc and the pending target. -/
def State.SameCore (s t : State) : Prop :=
  s.SameRegs t ∧ t.cr = s.cr ∧ t.psr = s.psr ∧ t.m64 = none ∧ t.ccb = s.ccb ∧ t.hws = s.hws ∧ t.hwsIdle = s.hwsIdle ∧
    t.imem = s.imem ∧ t.requests = s.requests ∧ s.SameMem t ∧ s.Advanced t

theorem State.sameCore_retire (s : State) (c : Vector CopSlot 4) (e : List OutEvent) :
    s.SameCore (s.retire { s.begin with cops := c, out := e }) := by
  have ha : s.Advanced (s.retire { s.begin with cops := c, out := e }) := State.retire_advanced rfl
  rw [State.retire_eq] at ha ⊢
  exact ⟨⟨rfl, rfl, rfl, rfl⟩, rfl, rfl, rfl, rfl, rfl, rfl, rfl, rfl, fun _ => rfl, ha⟩

/-- R482: `movtc` leaves the core, and the coprocessors as its write leaves them. -/
theorem movtc_completes {o : OpsCp} (h : s.CanRun o.guard) : Completes (exec (.movtc o) s)
    (fun t => s.SameCore t ∧ t.cops = (s.begin.copWrite o.cop o.cpr (s.rd o.reg)).cops) := by
  have hexec : exec (.movtc o) s = .next (s.retire (s.begin.copWrite o.cop o.cpr (s.rd o.reg))) := by
    unfold exec
    exact run_plain h
  refine ⟨_, hexec, ?_, State.retire_cops ..⟩
  rw [State.copWrite_eq]
  exact s.sameCore_retire ..

end

/-- Settles O31: `movfc` writes what it reads, `movtc` changes one slot by `State.copWrite`. -/
theorem coprocessorMoves : Obligations.CoprocessorMoves := by
  intro s o hrun
  refine ⟨?movfc, (movtc_completes hrun).mono fun t ⟨hcore, hcops⟩ => ?movtc⟩
  case movfc =>
    have h : Completes (exec (.movfc o) s) (s.RegResult o.reg (s.begin.copRead o.cop o.cpr)) := by
      unfold exec
      exact run_plain_regResult hrun rfl
    exact h.regResult_and fun m hk hm => State.copRead_milk (s := s.begin) hm hk
  case movtc =>
    obtain ⟨hregs, hcr, hpsr, hm64, hccb, hhws, hidle, himem, hreq, hmem, hadv⟩ := hcore
    rw [hcops]
    refine ⟨hregs, hcr, hpsr, hm64, hccb, hhws, hidle, himem, hreq, hmem, hadv,
      fun k hk hne => State.copWrite_others hk hne, fun habs => ?_, fun m hk hm => State.copWrite_milk (s := s.begin) hm hk⟩
    rw [State.copWrite_absent (s := s.begin) habs]
    exact habs

/-! ### Forwarded words (R483, R486) -/

/-- R486: the flags just raised, and the accumulated ones. -/
theorem Milk.fsrAfter_flags (m : Milk) (b : BitVec 7) : (m.fsrAfter b).extractLsb' 0 7 = b :=
  BitVec.extractLsb'_append_eq_right

theorem Milk.fsrAfter_accumulated (m : Milk) (b : BitVec 7) :
    (m.fsrAfter b).extractLsb' 7 7 = m.fsr.extractLsb' 7 7 ||| b := by
  rw [Milk.fsrAfter, BitVec.extractLsb'_append_eq_of_le (by decide)]
  exact BitVec.extractLsb'_append_eq_right

theorem Milk.putInstr_fsr (m : Milk) (k : BitVec 5) (word : Word) : (m.putInstr k word).fsr = m.fsr := by
  unfold Milk.putInstr
  split <;> rfl

section
variable {s : State} {n : Fin 4} {word : Word} {act : Milk → Milk} {body : State → Res} (hil : s.psr.il = true)

/-- What a forwarded word leaves: cop_rgi is driven, a Milk in the slot has performed `act`. -/
def State.Forwarded (s : State) (n : Fin 4) (word : Word) (act : Milk → Milk) (t : State) : Prop :=
  (∀ m, s.cops[n.val] = .milk m → t.cops[n.val] = .milk (act (m.putInstr (s.copIr n) word))) ∧
  ((∀ m, s.cops[n.val] ≠ .milk m) → t.cops[n.val] = s.cops[n.val]) ∧
  (∀ (k : Nat) (h : k < 4), k ≠ n.val → t.cops[k] = s.cops[k]) ∧ t.out = [.copRgi (s.copIr n)] ∧ s.SameCore t

theorem State.forward_milk {m : Milk} (hm : s.cops[n.val] = .milk m) :
    (s.forward n word act).cops[n.val] = .milk (act (m.putInstr (s.copIr n) word)) := by
  simp [State.forward, hm]

theorem State.forward_noMilk (h : ∀ m, s.cops[n.val] ≠ .milk m) : (s.forward n word act).cops = s.cops := by
  unfold State.forward
  split
  · exact absurd ‹_› (h _)
  · rfl
  · rfl

theorem State.forward_others {k : Nat} (hk : k < 4) (hne : k ≠ n.val) :
    (s.forward n word act).cops[k] = s.cops[k] := by
  unfold State.forward
  split
  · exact Vector.getElem_set_ne n.isLt hk hne.symm
  · rfl
  · rfl

include hil

theorem run_forwarded (hb : body s.begin = .ok (s.begin.forward n word act)) :
    Completes (run { only32 := true } none s body) (s.Forwarded n word act) := by
  have hlegal : s.illegal { only32 := true } none = false := by simp [State.illegal, hil]
  rw [run_body (by simp) hlegal rfl, hb]
  refine ⟨_, rfl, ?_, fun hm => ?_, fun k hk hne => ?_, ?_, ?_⟩
  · rw [State.retire_cops]
    exact fun m hm => State.forward_milk (s := s.begin) hm
  · simp only [State.retire_cops, State.forward_noMilk (s := s.begin) hm, State.begin_cops]
  · simp only [State.retire_cops, State.forward_others hk hne, State.begin_cops]
  · rw [State.retire_out, State.forward_eq]
    rfl
  · rw [State.forward_eq]
    exact s.sameCore_retire ..

/-- R486: a Milk that completes with the result `out` of what it holds. -/
theorem run_milkResult {dr : Fin 32} {out : Milk → FpOut}
    (hb : body s.begin = .ok (s.begin.forward n word fun m => m.complete word dr (out m))) :
    Completes (run { only32 := true } none s body) (s.MilkResult n word dr out) := by
  refine (run_forwarded hil hb).mono fun t ⟨hmilk, hnone, hothers, hout, hcore⟩ => ?_
  obtain ⟨hregs, hcr, hpsr, hm64, hccb, hhws, hidle, himem, hreq, hmem, hadv⟩ := hcore
  refine ⟨fun m hm => ⟨_, hmilk m hm, rfl, fun k hk => ?value, ?flags, ?accumulated, Milk.fsrAfter_unused ..⟩, hnone, hothers,
    hout, hregs, hcr, hpsr, hm64, hccb, hhws, hidle, himem, hreq, hmem, hadv⟩
  case value => simp only [Milk.complete, Vector.getElem_set, milkReg, eq_comm]
  case flags => exact Milk.fsrAfter_flags ..
  case accumulated => exact (Milk.fsrAfter_accumulated ..).trans (by rw [Milk.putInstr_fsr])

theorem milkOp3_milkResult {i : Instr} {o : OpsF} {f : Nat → Word → Word → FpOut} :
    Completes (milkOp3 i o s f) (s.MilkResult o.n (wordOf i) o.dr fun m => f (s.freeCtr + 1) (m.reg o.sr1) (m.reg o.sr2)) :=
  run_milkResult hil rfl

theorem milkOp2_milkResult {i : Instr} {o : OpsF} {f : Nat → Word → FpOut} :
    Completes (milkOp2 i o s f) (s.MilkResult o.n (wordOf i) o.dr fun m => f (s.freeCtr + 1) (m.reg o.sr1)) :=
  run_milkResult hil rfl

end

/-- Settles O32: the five are `milkOp3` of their operation. -/
theorem milkTwoOperandResults : Obligations.MilkTwoOperandResults := by
  intro s o c hil
  unfold exec
  exact ⟨milkOp3_milkResult hil, milkOp3_milkResult hil, milkOp3_milkResult hil, milkOp3_milkResult hil,
    milkOp3_milkResult hil⟩

/-- R498: `fnop` is an operation that writes F0 back, without a flag. -/
theorem Milk.idle_eq_complete (m : Milk) (word : Word) :
    m.idle word = m.complete word 0 { value := m.f[0], flags := 0#7 } := by
  simp [Milk.idle, Milk.complete, milkReg]

theorem fnop_milkResult {s : State} (hil : s.psr.il = true) (o : OpsF) : Completes (execFnop o s)
    (s.MilkResult o.n (wordOf (.fnop o)) 0 fun m => { value := m.f[0], flags := 0#7 }) := by
  exact run_milkResult hil (by simp only [Milk.idle_eq_complete])

/-- R495, R497: `fabs` clears and `fneg` inverts the sign of what is no NaN. -/
theorem fpAbs_fpNeg_of_not_nan (n : Nat) {a : Word} (h : ∀ x, fpVal a ≠ .nan x) :
    fpAbs n a = { value := 0#1 ++ a.extractLsb' 0 31, flags := 0#7 } ∧
    fpNeg n a = { value := BitVec.ofBool (!a.getLsbD 31) ++ a.extractLsb' 0 31, flags := 0#7 } := by
  have hnan : (fpVal a).isNaN ≠ true := by
    cases hv : fpVal a with
    | nan x => exact absurd hv (h x)
    | inf | num => nofun
  exact ⟨if_neg hnan, if_neg hnan⟩

/-- A sign put before the 31 low bits of a word. -/
theorem getLsbD_signed (b : BitVec 1) (a : Word) : (b ++ a.extractLsb' 0 31).getLsbD 31 = b.getLsbD 0 ∧
    ∀ j < 31, (b ++ a.extractLsb' 0 31).getLsbD j = a.getLsbD j := by
  simp only [BitVec.getLsbD_append, lt_irrefl, if_false, Nat.sub_self, true_and]
  intro j hj
  simp only [hj, if_true, BitVec.getLsbD_extractLsb', decide_true, Bool.true_and, Nat.zero_add]

/-- Settles O33: all but `fnop` are `milkOp2` of their operation. -/
theorem milkOneOperandResults : Obligations.MilkOneOperandResults := by
  intro s o hil
  unfold exec
  refine ⟨milkOp2_milkResult hil, milkOp2_milkResult hil, milkOp2_milkResult hil, milkOp2_milkResult hil,
    milkOp2_milkResult hil, milkOp2_milkResult hil, fnop_milkResult hil o, fun n a h => ?_⟩
  obtain ⟨habs, hneg⟩ := fpAbs_fpNeg_of_not_nan n h
  obtain ⟨habs31, habslow⟩ := getLsbD_signed 0#1 a
  obtain ⟨hneg31, hneglow⟩ := getLsbD_signed (BitVec.ofBool (!a.getLsbD 31)) a
  rw [habs, hneg]
  exact ⟨rfl, rfl, habs31, hneg31.trans (by simp), fun j hj => ⟨habslow j hj, hneglow j hj⟩⟩

/-- R486: whatever the code of a word names, the word reaches the control register. -/
theorem Milk.perform_fcr (k : Nat) (word : Word) (m : Milk) : (m.perform k word).fcr = word := by
  unfold Milk.perform
  dsimp only
  split <;> rfl

/-- Settles O34: `cop` is a forwarded word. -/
theorem forwardedWordLeavesCoreUnchanged : Obligations.ForwardedWordLeavesCoreUnchanged := by
  intro s n p hil
  have h : Completes (exec (.cop n p) s)
      (s.Forwarded n (wordOf (.cop n p)) (Milk.perform (s.freeCtr + 1) (wordOf (.cop n p)))) := by
    unfold exec
    exact run_forwarded hil rfl
  refine h.mono fun t ⟨hmilk, hnone, hothers, hout, hcore⟩ => ?_
  obtain ⟨hregs, hcr, hpsr, hm64, hccb, hhws, hidle, himem, hreq, hmem, hadv⟩ := hcore
  exact ⟨hout, hregs, hcr, hpsr, hm64, hccb, hhws, hidle, himem, hreq, hmem, hadv, hothers,
    fun m hm => ⟨_, hmilk m hm, Milk.perform_fcr ..⟩, hnone⟩

end Sys2Proof.Machine

/-! ## Milk arithmetic: exact results and the flags of the operations (48_coprocessor.md R486, R490 to R501) -/

namespace Sys2Proof.Machine

section
variable {n : Nat} {a b : Word} {p q : Bool} {m k : Nat} {e f : Int}

/-! ### Numbers: what each operation rounds -/

theorem fpAdd_num (ha : fpVal a = .num p m e) (hb : fpVal b = .num q k f) :
    fpAdd n a b = fpOfInt n (fpScaled p m e (min e f) + fpScaled q k f (min e f)) (min e f) := by
  simp [fpAdd, ha, hb, FpVal.isSNaN]

theorem fpSub_num (ha : fpVal a = .num p m e) (hb : fpVal b = .num q k f) :
    fpSub n a b = fpOfInt n (fpScaled p m e (min e f) - fpScaled q k f (min e f)) (min e f) := by
  simp [fpSub, ha, hb, FpVal.isSNaN]

theorem fpMul_num (ha : fpVal a = .num p m e) (hb : fpVal b = .num q k f) :
    fpMul n a b = fpRound n (p != q) (m * k) (e + f) false := by
  simp [fpMul, ha, hb, FpVal.isSNaN]

theorem fpDiv_num (ha : fpVal a = .num p m e) (hb : fpVal b = .num q k f) (hk : k ≠ 0) :
    fpDiv n a b = fpRound n (p != q) (m * 2 ^ 60 / k) (e - f - 60) (decide (m * 2 ^ 60 % k ≠ 0)) := by
  simp [fpDiv, ha, hb, hk, FpVal.isSNaN]

theorem fpRel_num (ha : fpVal a = .num p m e) (hb : fpVal b = .num q k f) :
    fpRel a b = intRel (fpScaled p m e (min e f)) (fpScaled q k f (min e f)) := by
  simp [fpRel, ha, hb]

/-! ### Infinities, zeros and NaNs: which flags -/

/-- R490 to R493: a signalling NaN. -/
theorem arith_snan (h : fpVal a = .nan true ∨ fpVal b = .nan true) :
    fpAdd n a b = fpOpen n flagNV ∧ fpSub n a b = fpOpen n flagNV ∧ fpMul n a b = fpOpen n flagNV ∧
      fpDiv n a b = fpOpen n flagNV := by
  have hs : ((fpVal a).isSNaN || (fpVal b).isSNaN) = true := by
    obtain h | h := h <;> simp [h, FpVal.isSNaN]
  exact ⟨if_pos hs, if_pos hs, if_pos hs, if_pos hs⟩

/-- R490, R491: infinities of opposite signs. -/
theorem sums_oppositeInf (ha : fpVal a = .inf p) (hb : fpVal b = .inf (!p)) :
    fpAdd n a b = fpOpen n flagNV ∧ fpSub n a b = fpOpen n flagNV ∧ fpSub n b a = fpOpen n flagNV := by
  simp [fpAdd, fpSub, ha, hb, FpVal.isSNaN]

/-- R492: infinity times a finite number. -/
theorem fpMul_inf_num (ha : fpVal a = .inf p) (hb : fpVal b = .num q m e) :
    fpMul n a b = fpOpen n (if m = 0 then flagNV else flagOF ||| flagNX) ∧
      fpMul n b a = fpOpen n (if m = 0 then flagNV else flagOF ||| flagNX) := by
  simp [fpMul, ha, hb, FpVal.isSNaN]

/-- R493: the quotients with an infinite dividend, and those by zero. -/
theorem fpDiv_inf_inf (ha : fpVal a = .inf p) (hb : fpVal b = .inf q) : fpDiv n a b = fpOpen n flagNV := by
  simp [fpDiv, ha, hb, FpVal.isSNaN]

theorem fpDiv_inf_zero (ha : fpVal a = .inf p) (hb : fpVal b = .num q 0 e) :
    fpDiv n a b = fpOpen n (flagOF ||| flagNX) := by
  simp [fpDiv, ha, hb, FpVal.isSNaN]

theorem fpDiv_num_zero (ha : fpVal a = .num p m e) (hb : fpVal b = .num q 0 f) :
    fpDiv n a b = fpOpen n (if m = 0 then flagNV else flagDZ) := by
  simp [fpDiv, ha, hb, FpVal.isSNaN]

/-- R494: the roots of what is negative. -/
theorem fpSqrt_negInf (h : fpVal a = .inf true) : fpSqrt n a = fpOpen n flagNV := by
  simp [fpSqrt, h]

theorem fpSqrt_neg (hm : m ≠ 0) (h : fpVal a = .num true m e) : fpSqrt n a = fpOpen n flagNV := by
  simp [fpSqrt, h, hm]

theorem fpSqrt_nan {x : Bool} (h : fpVal a = .nan x) : fpSqrt n a = fpOpen n (if x then flagNV else 0#7) := by
  simp [fpSqrt, h]

/-- R495, R497, R501: any NaN. -/
theorem unary_nan {x : Bool} (h : fpVal a = .nan x) : fpAbs n a = fpOpen n flagNV ∧ fpNeg n a = fpOpen n flagNV := by
  simp [fpAbs, fpNeg, h, FpVal.isNaN]

theorem fpRel_nan {x : Bool} (h : fpVal a = .nan x) (b : Word) : fpRel a b = .unordered ∧ fpRel b a = .unordered := by
  unfold fpRel
  rw [h]
  cases fpVal b <;> exact ⟨rfl, rfl⟩

/-- A quiet NaN beside what is no signalling one (log 53). -/
theorem fpAdd_fpMul_quietNaN (ha : fpVal a = .nan false) (hb : fpVal b ≠ .nan true) :
    fpAdd n a b = fpOpen n 0#7 ∧ fpMul n a b = fpOpen n 0#7 := by
  cases hv : fpVal b with
  | nan x =>
    obtain rfl : x = false := by simpa [hv] using hb
    simp [fpAdd, fpMul, ha, hv, FpVal.isSNaN]
  | inf | num => simp [fpAdd, fpMul, ha, hv, FpVal.isSNaN]

end

/-! ### Which flags are possible (R486): every branch of an operation gives one of the shared results -/

section
variable (n : Nat) (a b : Word)

theorem fpAdd_described : (fpAdd n a b).Described := by
  unfold fpAdd
  dsimp only
  repeat' split
  all_goals simp [fpOpen_described, fpInfOpen_described, fpOfInt_described]

theorem fpSub_described : (fpSub n a b).Described := by
  unfold fpSub
  dsimp only
  repeat' split
  all_goals simp [fpOpen_described, openFlags_described, fpInfOpen_described, fpOfInt_described]

theorem fpFsub_described : (fpFsub n a b).Described := by
  unfold fpFsub
  split
  · exact fpSub_described ..
  · exact fpSub_described ..

theorem fpMul_described : (fpMul n a b).Described := by
  unfold fpMul
  dsimp only
  repeat' split
  all_goals simp [fpOpen_described, fpInfOpen_described, fpRound_described]

theorem fpDiv_described : (fpDiv n a b).Described := by
  unfold fpDiv
  dsimp only
  repeat' split
  all_goals simp [fpOpen_described, fpInfOpen_described, fpZero_described, fpRound_described]

theorem fpFdiv_described : (fpFdiv n a b).Described := by
  unfold fpFdiv
  split
  · exact fpDiv_described ..
  · exact fpDiv_described ..

theorem fpSqrt_described : (fpSqrt n a).Described := by
  unfold fpSqrt
  repeat' split
  all_goals simp [fpOpen_described, fpInfOpen_described, fpZero_described, fpRoot, fpRound_described]

theorem FpOut.described_of_flags {o : FpOut} (h : o.flags = 0#7 ∨ o.flags = flagNX) : o.Described := by
  unfold FpOut.Described
  obtain h | h := h <;> rw [h] <;> decide

theorem fpAbs_described : (fpAbs n a).Described := by
  unfold fpAbs
  split
  · exact fpOpen_described n (by decide)
  · exact FpOut.described_of_flags (.inl rfl)

theorem fpNeg_described : (fpNeg n a).Described := by
  unfold fpNeg
  split
  · exact fpOpen_described n (by decide)
  · exact FpOut.described_of_flags (.inl rfl)

theorem fpToIntOut_described : (fpToIntOut n).Described := by
  unfold fpToIntOut
  split
  · exact fpOpen_described n (by decide)
  · exact fpOpen_described n (by decide)

theorem fpToIntFrac_described (i : Int) : (fpToIntFrac n i).Described :=
  FpOut.described_of_flags (fpToIntFrac_result n i).2

theorem fpToInt_described : (fpToInt n a).Described := by
  unfold fpToInt
  dsimp only
  repeat' split
  all_goals simp [openFlags_described, fpToIntOut_described, fpToIntFrac_described, FpOut.described_of_flags]

/-! ### Comparisons (R501) -/

theorem fpCompare_result (c : BitVec 6) : if fpRel a b = .unordered ∧ c.getLsbD 5 = true then
      (fpCompare n c a b).flags = 0x10#7
    else fpCompare n c a b = { value := Config.compareResult (c.extractLsb' 0 5) (fpRel a b), flags := 0#7 } := by
  unfold fpCompare
  simp only [Bool.and_eq_true, decide_eq_true_eq]
  split
  · rfl
  · rfl

variable {a b}

/-- Finite numbers compare by their values. -/
theorem fpRel_eq_of_numbers {x y : ℚ} (hx : fpNumber a = some x) (hy : fpNumber b = some y) :
    fpRel a b = if x < y then .less else if x = y then .equal else .greater := by
  obtain ⟨p, m, e, ha, rfl, -⟩ := fpNumber_eq_some hx
  obtain ⟨q, k, f, hb, rfl, -⟩ := fpNumber_eq_some hy
  have hpos : (0 : ℚ) < 2 ^ min e f := by positivity
  rw [fpRel_num ha hb, intRel, ← fpScaled_cast p m (min_le_left e f), ← fpScaled_cast q k (min_le_right e f)]
  simp only [mul_lt_mul_iff_left₀ hpos, mul_left_inj' hpos.ne', Int.cast_lt, Int.cast_inj]

end

/-- Settles O35: each clause is the flags of the result that one of the lemmas above states. -/
theorem milkInvalidOperationFlags : Obligations.MilkInvalidOperationFlags := by
  intro n a b
  refine ⟨⟨fpAdd_described .., fpFsub_described .., fpMul_described .., fpFdiv_described .., fpSqrt_described ..,
      fpAbs_described .., fpNeg_described .., fpOfInt_described .., fpToInt_described ..⟩, fpCompare_result n a b,
    fun x y hx hy => fpRel_eq_of_numbers hx hy, fun h => ?snan, ?root, fun p q m e hm ha hb => ?infNum,
    fun p q e ha hb => by rw [fpDiv_inf_zero ha hb]; rfl, fun p ha hb => ?oppositeInf, fun p q e ha hb => ?infZero,
    fun p q ha hb => by rw [fpDiv_inf_inf ha hb]; rfl, fun p q e f ha hb => by rw [fpDiv_num_zero ha hb]; rfl,
    fun p m q e f hm ha hb => by rw [fpDiv_num_zero ha hb, if_neg hm]; rfl,
    fun m e hm h => by rw [fpSqrt_neg hm h]; rfl, fun x h => ?nan, fun ha hb => ?quiet⟩
  case snan =>
    obtain ⟨hadd, hsub, hmul, hdiv⟩ := arith_snan (n := n) h
    obtain ⟨-, hsub', -, hdiv'⟩ := arith_snan (n := n) h.symm
    refine ⟨by rw [hadd]; rfl, ?_, by rw [hmul]; rfl, ?_⟩
    · rw [fpFsub, hsub, hsub', ite_self]; rfl
    · rw [fpFdiv, hdiv, hdiv', ite_self]; rfl
  case root =>
    rintro (h | h)
    · rw [fpSqrt_nan h]; rfl
    · rw [fpSqrt_negInf h]; rfl
  case infNum =>
    obtain ⟨h, h'⟩ := fpMul_inf_num (n := n) ha hb
    rw [h, h', if_neg hm]
    exact ⟨rfl, rfl⟩
  case oppositeInf =>
    obtain ⟨hadd, hsub, hsub'⟩ := sums_oppositeInf (n := n) ha hb
    rw [hadd, fpFsub, hsub, hsub', ite_self]
    exact ⟨rfl, rfl⟩
  case infZero =>
    obtain ⟨h, h'⟩ := fpMul_inf_num (n := n) ha hb
    rw [h, h']
    exact ⟨rfl, rfl⟩
  case nan =>
    obtain ⟨habs, hneg⟩ := unary_nan (n := n) h
    rw [habs, hneg]
    exact ⟨rfl, rfl, fpRel_nan h b⟩
  case quiet =>
    obtain ⟨hadd, hmul⟩ := fpAdd_fpMul_quietNaN (n := n) ha hb
    rw [hadd, hmul]
    exact ⟨rfl, rfl⟩

end Sys2Proof.Machine

/-! ## Milk arithmetic: roundings of the exact results (48_coprocessor.md R486, R490 to R494, R499) -/

namespace Sys2Proof.Machine

/-- The sign of a word is its top bit. -/
theorem fpVal_num_sign {w : Word} {p : Bool} {m : Nat} {e : Int} (h : fpVal w = .num p m e) : p = w.getLsbD 31 := by
  simp only [fpVal] at h
  split at h
  · split at h <;> cases h
  · split at h <;> cases h <;> rfl

/-! ### The exact results as numbers -/

/-- The sign of a product. -/
theorem sign_mul (p q : Bool) :
    (if (p != q) then (-1 : ℚ) else 1) = (if p then -1 else 1) * (if q then -1 else 1) := by
  cases p <;> cases q <;> simp

theorem sign_div (p q : Bool) :
    (if (p != q) then (-1 : ℚ) else 1) = (if p then -1 else 1) / (if q then -1 else 1) := by
  cases p <;> cases q <;> simp

theorem sign_cast (p : Bool) : (((if p then -1 else 1 : ℚ)) : ℝ) = if p then -1 else 1 := by
  cases p <;> simp

/-- The laws of rounding speak of real numbers; a finite word stands for a rational one. -/
theorem fpOfInt_rounds_rat {n : Nat} {i x : Int} {r : ℚ} (h : r = (i : ℚ) * 2 ^ x) : (fpOfInt n i x).Rounds (r : ℝ) := by
  have hr : (r : ℝ) = (i : ℝ) * 2 ^ x := by rw [h]; push_cast; rfl
  rw [hr]
  exact fpOfInt_rounds n i x

section
variable {n : Nat} {a b : Word} {x y : ℚ}

section
variable (hx : fpNumber a = some x) (hy : fpNumber b = some y)
include hx hy

theorem fpAdd_rounds : (fpAdd n a b).Rounds ((x + y : ℚ) : ℝ) := by
  obtain ⟨p, m, e, ha, rfl, -⟩ := fpNumber_eq_some hx
  obtain ⟨q, k, f, hb, rfl, -⟩ := fpNumber_eq_some hy
  rw [fpAdd_num ha hb]
  refine fpOfInt_rounds_rat ?_
  rw [← fpScaled_cast p m (min_le_left e f), ← fpScaled_cast q k (min_le_right e f), Int.cast_add, add_mul]

theorem fpSub_rounds : (fpSub n a b).Rounds ((x - y : ℚ) : ℝ) := by
  obtain ⟨p, m, e, ha, rfl, -⟩ := fpNumber_eq_some hx
  obtain ⟨q, k, f, hb, rfl, -⟩ := fpNumber_eq_some hy
  rw [fpSub_num ha hb]
  refine fpOfInt_rounds_rat ?_
  rw [← fpScaled_cast p m (min_le_left e f), ← fpScaled_cast q k (min_le_right e f), Int.cast_sub, sub_mul]

theorem fpMul_rounds : (fpMul n a b).Rounds ((x * y : ℚ) : ℝ) := by
  obtain ⟨p, m, e, ha, rfl, -⟩ := fpNumber_eq_some hx
  obtain ⟨q, k, f, hb, rfl, -⟩ := fpNumber_eq_some hy
  have hprod : (if p then (-1 : ℚ) else 1) * m * 2 ^ e * ((if q then -1 else 1) * k * 2 ^ f) =
      (if (p != q) then -1 else 1) * (((m * k : Nat) : ℚ) * 2 ^ (e + f)) := by
    rw [sign_mul, zpow_add₀ (two_ne_zero' ℚ)]
    push_cast
    ring
  have h := fpRound_exact n (p != q) (m * k) (e + f)
  rw [fpMul_num ha hb, hprod]
  push_cast [sign_cast] at h ⊢
  exact h

theorem fpDiv_rounds (h0 : y ≠ 0) : (fpDiv n a b).Rounds ((x / y : ℚ) : ℝ) := by
  obtain ⟨p, m, e, ha, rfl, -⟩ := fpNumber_eq_some hx
  obtain ⟨q, k, f, hb, rfl, hk⟩ := fpNumber_eq_some hy
  have hk0 : k ≠ 0 := by rintro rfl; simp at h0
  have hquot : (if p then (-1 : ℚ) else 1) * m * 2 ^ e / ((if q then -1 else 1) * k * 2 ^ f) =
      (if (p != q) then -1 else 1) * ((m : ℚ) / k * 2 ^ (e - f)) := by
    rw [sign_div, zpow_sub₀ (two_ne_zero' ℚ), mul_div_mul_comm, mul_div_mul_comm, mul_assoc]
  have h := fpQuotient_rounds n (p != q) (m := m) (e - f) hk0 hk
  rw [fpDiv_num ha hb hk0, hquot]
  push_cast [sign_cast] at h ⊢
  exact h

end

/-- R494: a finite word without a sign. -/
theorem fpSqrt_rounds (hx : fpNumber a = some x) (hs : a.getLsbD 31 = false) :
    (fpSqrt n a).Rounds (Real.sqrt (x : ℝ)) := by
  obtain ⟨p, m, e, ha, rfl, hm⟩ := fpNumber_eq_some hx
  obtain rfl : p = false := (fpVal_num_sign ha).trans hs
  by_cases h0 : m = 0
  · have hz : fpSqrt n a = fpZero n := by simp [fpSqrt, ha, h0]
    rw [hz, h0]
    simpa using fpZero_rounds n
  · have hroot : fpSqrt n a = fpRoot n m e := by simp [fpSqrt, ha, h0]
    rw [hroot]
    simpa using fpRoot_rounds n e h0 hm

/-- R499. -/
theorem fpFromInt_rounds (n : Nat) (i : Word) : (fpFromInt n i).Rounds (i.toInt : ℝ) := by
  have h := fpOfInt_rounds n i.toInt 0
  rwa [zpow_zero, mul_one] at h

end

/-! ### The two neighbours, below the range of overflow (R486) -/

/-- The word of `M` units of `2^u`, by its sign and its magnitude. -/
theorem fpVal_place (neg : Bool) {u : Int} {M : Nat} (hu : -149 ≤ u) (hM : M ≤ 16777216)
    (hlow : -149 < u → 8388608 ≤ M) (hb : (u + 149).toNat * 8388608 + M < 255 * 8388608) :
    ∃ m e, fpVal (fpWord neg ((u + 149).toNat * 8388608 + M)) = .num neg m e ∧ (m : ℚ) * 2 ^ e = M * 2 ^ u := by
  obtain ⟨p, m, e, hv, hx, -⟩ := fpNumber_eq_some (fpNumber_place neg hu hM hlow hb)
  obtain rfl : p = neg := (fpVal_num_sign hv).trans (fpWord_neg neg _)
  refine ⟨m, e, hv, ?_⟩
  cases p <;> simpa using hx.symm

/-- Where nothing overflows, `fpPlace` gives the word of `M` units of `2^u`. -/
theorem fpPlace_num (n : Nat) (neg inexact : Bool) {u : Int} {M : Nat} (hu : -149 ≤ u) (hu' : u ≤ 103) (hM0 : M ≠ 0)
    (hM : M ≤ 16777216) (hlow : -149 < u → 8388608 ≤ M) :
    ∃ m e, fpVal (fpPlace n neg ((u + 149).toNat * 8388608 + M) inexact).value = .num neg m e ∧
      (m : ℚ) * 2 ^ e = M * 2 ^ u ∧
      (fpPlace n neg ((u + 149).toNat * 8388608 + M) inexact).flags = if inexact then flagNX else 0#7 := by
  obtain ⟨m, e, hv, hm⟩ := fpVal_place neg hu hM hlow (by omega)
  refine ⟨m, e, ?_, hm, ?_⟩
  · rw [fpPlace, if_neg (by omega), if_neg (by omega)]
    exact hv
  · rw [fpPlace, if_neg (by omega)]

/-- What rounding at `2^u` does with `q * 2^x`: the significand `M` it places, exact or one of the two neighbours. -/
def RoundsAt (q : Nat) (x u : Int) (M : Nat) (inexact : Bool) : Prop :=
  (inexact = false → (M : ℚ) * 2 ^ u = q * 2 ^ x) ∧
  (inexact = true → (M : ℚ) * 2 ^ u ≠ q * 2 ^ x ∧ |(M : ℚ) * 2 ^ u - q * 2 ^ x| < 2 ^ u)

theorem roundsAt_shiftLeft (q d : Nat) (u : Int) : RoundsAt q (u + d) u (q * 2 ^ d) false := by
  refine ⟨fun _ => ?_, nofun⟩
  rw [zpow_add₀ (two_ne_zero' ℚ), zpow_natCast]
  push_cast
  ring

theorem roundsAt_shiftRight (q d : Nat) (x : Int) (up : Bool) :
    RoundsAt q x (x + d) (if decide (q % 2 ^ d ≠ 0) && up then q / 2 ^ d + 1 else q / 2 ^ d) (decide (q % 2 ^ d ≠ 0)) := by
  have hx : (0 : ℚ) < 2 ^ x := by positivity
  have hu : (2 : ℚ) ^ (x + d : Int) = 2 ^ d * 2 ^ x := by rw [zpow_add₀ (two_ne_zero' ℚ), zpow_natCast, mul_comm]
  have hq : (2 : ℚ) ^ d * (q / 2 ^ d : Nat) + (q % 2 ^ d : Nat) = q := by exact_mod_cast Nat.div_add_mod q (2 ^ d)
  have hmod : ((q % 2 ^ d : Nat) : ℚ) < 2 ^ d := by exact_mod_cast Nat.mod_lt q (by positivity)
  have hdown : ((q / 2 ^ d : Nat) : ℚ) * (2 ^ d * 2 ^ x) - q * 2 ^ x = -((q % 2 ^ d : Nat) * 2 ^ x) := by
    rw [← hq]; ring
  have hup : ((q / 2 ^ d + 1 : Nat) : ℚ) * (2 ^ d * 2 ^ x) - q * 2 ^ x = (2 ^ d - (q % 2 ^ d : Nat)) * 2 ^ x := by
    rw [← hq]; push_cast; ring
  by_cases h0 : q % 2 ^ d = 0
  · simp only [RoundsAt, h0, hu, ne_eq, not_true, decide_false, Bool.false_and, Bool.false_eq_true, if_false, false_implies,
      and_true, true_implies]
    rw [h0] at hdown
    linarith
  · have hpos : (0 : ℚ) < (q % 2 ^ d : Nat) := by exact_mod_cast Nat.pos_of_ne_zero h0
    have hpart : ∀ t : ℚ, 0 < t → t < 2 ^ d → t * 2 ^ x ≠ 0 ∧ |t * 2 ^ x| < 2 ^ d * 2 ^ x := fun t ht0 ht => by
      have htx : 0 < t * 2 ^ x := mul_pos ht0 hx
      exact ⟨htx.ne', by rw [abs_of_pos htx]; gcongr⟩
    simp only [RoundsAt, h0, hu, ne_eq, not_false_eq_true, decide_true, Bool.true_and, Bool.true_eq_false, false_implies,
      true_and, true_implies, ← sub_eq_zero (a := (_ : ℚ) * (2 ^ d * 2 ^ x))]
    cases up with
    | false =>
      simp only [Bool.false_eq_true, if_false, hdown, abs_neg, neg_eq_zero]
      exact hpart _ hpos hmod
    | true =>
      simp only [if_true, hup]
      exact hpart _ (by linarith) (by linarith)

/-- The significand of `q * 2^x` at `2^u`, as long as the leading bit stays at bit `t` of it. -/
theorem significand_bounds {t M : Nat} {u : Int} (h1 : 2 ^ t ≤ M) (h2 : M < 2 ^ (t + 1)) (ht : t ≤ 23)
    (hu : -149 < u → t = 23) : M ≠ 0 ∧ M < 16777216 ∧ (-149 < u → 8388608 ≤ M) := by
  have hpos : 0 < 2 ^ t := by positivity
  have htop : 2 ^ (t + 1) ≤ 2 ^ 24 := Nat.pow_le_pow_right (by decide) (by omega)
  refine ⟨by omega, by omega, fun h => ?_⟩
  rw [hu h] at h1
  exact h1

/-- The bits of the upper neighbour are one more. -/
theorem add_ite_succ (c : Bool) (k M : Nat) :
    (if c = true then k + M + 1 else k + M) = k + if c = true then M + 1 else M := by
  split <;> rfl

/-- R486: below the range of overflow and above that of underflow `fpRound` places one of the neighbours of `q * 2^x` in
units of the last place. -/
theorem fpRound_eq_place (n : Nat) (neg : Bool) {q : Nat} {x u : Int} (hq : q ≠ 0)
    (hu : u = max ((Nat.log2 q : Int) + x - 23) (-149)) (hlow : -149 ≤ (Nat.log2 q : Int) + x)
    (htop : (Nat.log2 q : Int) + x ≤ 126) : ∃ M inexact,
      fpRound n neg q x false = fpPlace n neg ((u + 149).toNat * 8388608 + M) inexact ∧
      M ≠ 0 ∧ M ≤ 16777216 ∧ (-149 < u → 8388608 ≤ M) ∧ RoundsAt q x u M inexact := by
  have hL1 : 2 ^ Nat.log2 q ≤ q := Nat.log2_self_le hq
  have hL2 : q < 2 ^ (Nat.log2 q + 1) := Nat.lt_log2_self
  unfold fpRound
  rw [if_neg hq]
  simp only [← hu]
  rw [if_neg (by omega), if_neg (by omega)]
  generalize Nat.log2 q = L at *
  obtain ⟨hu1, hu2, hu3⟩ : (L : Int) + x - 23 ≤ u ∧ -149 ≤ u ∧ (u = L + x - 23 ∨ u = -149) := by omega
  clear hu
  by_cases hux : u ≤ x
  · obtain ⟨d, rfl⟩ : ∃ d : Nat, x = u + d := ⟨(x - u).toNat, by omega⟩
    have hd : (u + (d : Int) - u).toNat = d := by omega
    obtain ⟨h0, hM, hM'⟩ := significand_bounds (t := L + d) (M := q * 2 ^ d) (u := u)
      (by rw [pow_add]; gcongr) (by rw [Nat.add_right_comm, pow_add]; gcongr) (by omega) (by omega)
    refine ⟨q * 2 ^ d, false, ?_, h0, hM.le, hM', roundsAt_shiftLeft q d u⟩
    have hd0 : ¬ (d : Int) < 0 := by omega
    simp [hux, hd0]
  · obtain ⟨d, rfl⟩ : ∃ d : Nat, u = x + d := ⟨(u - x).toNat, by omega⟩
    have hd : (x + (d : Int) - x).toNat = d := by omega
    have hdL : d ≤ L := by omega
    obtain ⟨h0, hM, hM'⟩ := significand_bounds (t := L - d) (M := q / 2 ^ d) (u := x + d)
      (by rw [Nat.le_div_iff_mul_le (by positivity), ← pow_add, Nat.sub_add_cancel hdL]; exact hL1)
      (by rw [Nat.div_lt_iff_lt_mul (by positivity), ← pow_add, show L - d + 1 + d = L + 1 by omega]; exact hL2)
      (by omega) (by omega)
    have hround := roundsAt_shiftRight q d x (Config.freeRound n)
    have hxu : x < x + (d : Int) := by omega
    refine ⟨_, _, ?_, ?_, ?_, ?_, hround⟩
    · simp only [if_neg hux, hd, hxu, decide_true, Bool.false_or, Bool.true_and, add_ite_succ]
    all_goals generalize q / 2 ^ d = M at h0 hM hM' ⊢
    · split <;> omega
    · split <;> omega
    · exact fun h => (hM' h).trans (by split <;> omega)

/-- Settles O37: the operations round their exact results, and below the range of overflow the rounded result is the
word `fpRound_eq_place` says. -/
theorem milkRoundingIsExactOrNeighbour : Obligations.MilkRoundingIsExactOrNeighbour := by
  refine ⟨fun n a b x y hx hy => ⟨fpAdd_rounds hx hy, fpMul_rounds hx hy, ?fsub, fun horder h0 => ?swapped,
    fun horder h0 => ?straight, fpSqrt_rounds hx⟩, fpFromInt_rounds, fun n neg q x hq hlow htop => ?neighbour⟩
  case fsub =>
    unfold fpFsub
    split
    · exact fpSub_rounds hy hx
    · exact fpSub_rounds hx hy
  case swapped =>
    rw [fpFdiv, if_pos horder]
    exact fpDiv_rounds hy hx h0
  case straight =>
    rw [fpFdiv, if_neg (by simp [horder])]
    exact fpDiv_rounds hx hy h0
  case neighbour =>
    obtain ⟨M, inexact, hround, h0, hM, hM', hexact, hnear⟩ := fpRound_eq_place n neg hq rfl hlow htop
    rw [hround]
    obtain ⟨m, e, hv, hm, hflags⟩ := fpPlace_num n neg inexact (by omega) (by omega) h0 hM hM'
    refine ⟨m, e, hv, ?_⟩
    rw [hflags, hm]
    cases inexact with
    | false => exact .inl ⟨hexact rfl, rfl⟩
    | true =>
      obtain ⟨hne, hdist⟩ := hnear rfl
      exact .inr ⟨hne, hdist, rfl⟩

end Sys2Proof.Machine

/-! ## Milk conversions (48_coprocessor.md R499, R500) -/

namespace Sys2Proof.Machine

/-! ### Exact roundings -/

/-- R486: of a value that is a finite word's, and not above the largest one, a rounding is that value, with no flag. -/
theorem FpOut.Rounds.exact {o : FpOut} {w : Word} {x : ℚ} (h : o.Rounds (x : ℝ)) (hw : fpNumber w = some x)
    (hmax : |(x : ℝ)| ≤ (2 ^ 24 - 1) * (2 : ℝ) ^ 104) (hmin : x = 0 ∨ (2 : ℝ) ^ (-150 : ℤ) ≤ |(x : ℝ)|) :
    fpNumber o.value = some x ∧ o.flags = 0#7 := by
  obtain ⟨-, -, h⟩ := h
  obtain ⟨-, hover⟩ | ⟨v, hv, ⟨hvx, hflags⟩ | ⟨hvx, -, hgap⟩⟩ :=
    h (hmax.trans_lt (by norm_num)) (hmin.imp_left fun h => by rw [h, Rat.cast_zero])
  · exact absurd hover hmax.not_gt
  · rw [hv, Rat.cast_injective hvx]
    exact ⟨rfl, hflags⟩
  · obtain ⟨hbelow, habove⟩ := hgap w x hw fun e => hvx (by rw [e])
    obtain h | h := le_total (v : ℝ) x
    · exact absurd ⟨h, le_rfl⟩ hbelow
    · exact absurd ⟨le_rfl, h⟩ habove

/-- A small significand, shifted to full width. -/
theorem exists_full_significand {q : Nat} (h0 : q ≠ 0) (h : q ≤ 16777216) :
    ∃ d, 8388608 ≤ q * 2 ^ d ∧ q * 2 ^ d ≤ 16777216 := by
  have hL1 := Nat.log2_self_le h0
  have hL2 := Nat.lt_log2_self (n := q)
  generalize Nat.log2 q = L at hL1 hL2
  obtain hL | hL := Nat.lt_or_ge 23 L
  · have h24 : 2 ^ 24 ≤ 2 ^ L := Nat.pow_le_pow_right (by decide) hL
    exact ⟨0, by omega, by omega⟩
  · refine ⟨23 - L, ?_, ?_⟩
    · calc 8388608 = 2 ^ L * 2 ^ (23 - L) := by rw [pow_mul_pow_sub 2 hL]; rfl
        _ ≤ q * 2 ^ (23 - L) := by gcongr
    · calc q * 2 ^ (23 - L) ≤ 2 ^ (L + 1) * 2 ^ (23 - L) := by gcongr
        _ = 16777216 := by rw [pow_succ, mul_right_comm, pow_mul_pow_sub 2 hL]; rfl

theorem sign_mul_natAbs (i : Int) : (if decide (i < 0) then (-1 : ℚ) else 1) * i.natAbs = i := by
  rw [Nat.cast_natAbs]
  obtain h | h := lt_or_ge i 0
  · simp [h, abs_of_neg h]
  · simp [h.not_gt, abs_of_nonneg h]

/-- Every integer of magnitude at most 2^24 is the number of a word. -/
theorem exists_fpNumber_int {i : Int} (h : i.natAbs ≤ 16777216) : ∃ w, fpNumber w = some (i : ℚ) := by
  by_cases h0 : i = 0
  · have hz := fpNumber_place false (u := -149) (m := 0) (by decide) (by decide) (by decide) (by decide)
    exact ⟨_, hz.trans (by simp [h0])⟩
  · obtain ⟨d, hlow, hhigh⟩ := exists_full_significand (Int.natAbs_ne_zero.2 h0) h
    have hd : d ≤ 24 := by
      by_contra hd
      have h25 : 2 ^ 25 ≤ 2 ^ d := Nat.pow_le_pow_right (by decide) (by omega)
      have hq := Nat.mul_le_mul (Int.natAbs_pos.2 h0) h25
      omega
    have hw := fpNumber_place (decide (i < 0)) (u := -d) (by omega) hhigh (fun _ => hlow) (by omega)
    refine ⟨_, hw.trans (congrArg some ?_)⟩
    have hscale : ((i.natAbs * 2 ^ d : Nat) : ℚ) * 2 ^ (-d : Int) = i.natAbs := by
      rw [zpow_neg, zpow_natCast]
      push_cast
      field_simp
    rw [mul_assoc, hscale, sign_mul_natAbs]

/-- R499: a small integer is converted exactly. -/
theorem fpFromInt_small (n : Nat) {i : Word} (h : i.toInt.natAbs ≤ 16777216) :
    fpNumber (fpFromInt n i).value = some (i.toInt : ℚ) ∧ (fpFromInt n i).flags = 0#7 := by
  obtain ⟨w, hw⟩ := exists_fpNumber_int h
  have hr : (fpFromInt n i).Rounds (((i.toInt : ℚ)) : ℝ) := by
    rw [Rat.cast_intCast]
    exact fpFromInt_rounds n i
  have habs : |(((i.toInt : ℚ)) : ℝ)| = (i.toInt.natAbs : ℝ) := by
    rw [Rat.cast_intCast, Nat.cast_natAbs, Int.cast_abs]
  refine hr.exact hw ?_ ?_
  · rw [habs]
    have : (i.toInt.natAbs : ℝ) ≤ 16777216 := by exact_mod_cast h
    linarith
  · by_cases h0 : i.toInt = 0
    · exact .inl (by rw [h0]; rfl)
    · have : (1 : ℝ) ≤ i.toInt.natAbs := by exact_mod_cast Int.natAbs_pos.2 h0
      refine .inr ?_
      rw [habs]
      refine le_trans ?_ this
      norm_num

/-! ### What `fcvt.w` does with a number -/

/-- A significand without its leading bit belongs to the least exponent. -/
theorem fpVal_num_subnormal {w : Word} {p : Bool} {m : Nat} {e : Int} (h : fpVal w = .num p m e) (hm : m < 8388608) :
    e = -149 := by
  simp only [fpVal] at h
  split at h
  · split at h <;> cases h
  · split at h
    · cases h; rfl
    · cases h; omega

theorem abs_number (p : Bool) (m : Nat) (e : Int) : |(if p then (-1 : ℚ) else 1) * m * 2 ^ e| = m * 2 ^ e := by
  rw [abs_mul, abs_mul, Nat.abs_cast, abs_of_nonneg (by positivity : (0 : ℚ) ≤ 2 ^ e)]
  cases p <;> simp

section
variable {n : Nat} {a : Word} {p : Bool} {m : Nat} {e : Int}

/-- The subnormal numbers, by their values. -/
theorem subnormal_iff (h : fpVal a = .num p m e) : m ≠ 0 ∧ m < 8388608 ↔
    (if p then (-1 : ℚ) else 1) * m * 2 ^ e ≠ 0 ∧ |(if p then (-1 : ℚ) else 1) * m * 2 ^ e| < 2 ^ (-126 : ℤ) := by
  obtain ⟨-, he⟩ := fpVal_num_bounds h
  have hp : (0 : ℚ) < 2 ^ e := by positivity
  have hmin : (8388608 : ℚ) * 2 ^ (-149 : ℤ) = 2 ^ (-126 : ℤ) := by norm_num
  rw [← abs_ne_zero, abs_number, mul_ne_zero_iff_right hp.ne', Nat.cast_ne_zero, ← hmin]
  refine and_congr_right fun _ => ⟨fun hm => ?_, fun hm => ?_⟩
  · rw [fpVal_num_subnormal h hm]
    have hm' : (m : ℚ) < 8388608 := by exact_mod_cast hm
    gcongr
  · by_contra hge
    have hm' : (8388608 : ℚ) ≤ m := by exact_mod_cast not_lt.1 hge
    have he' : (2 : ℚ) ^ (-149 : ℤ) ≤ 2 ^ e := zpow_le_zpow_right₀ (by norm_num) he
    exact hm.not_ge (by gcongr)

theorem fpToInt_subnormal (h : fpVal a = .num p m e) (hs : m ≠ 0 ∧ m < 8388608) :
    fpToInt n a = { value := 0#32, flags := flagNX } := by
  rw [fpToInt, h]
  exact if_pos hs

theorem fpToInt_scaled (h : fpVal a = .num p m e) (hs : ¬ (m ≠ 0 ∧ m < 8388608)) (he : 0 ≤ e) :
    fpToInt n a = if fpScaled p m e 0 ≤ -2147483649 ∨ 2147483647 < fpScaled p m e 0 then fpToIntOut n
      else { value := BitVec.ofInt 32 (fpScaled p m e 0), flags := 0#7 } := by
  rw [fpToInt, h]
  exact (if_neg hs).trans (if_pos he)

theorem fpToInt_divided (h : fpVal a = .num p m e) (hs : ¬ (m ≠ 0 ∧ m < 8388608)) (he : ¬ 0 ≤ e) :
    fpToInt n a = if (if p then -(m : Int) else m) % 2 ^ (-e).toNat = 0 then
        { value := BitVec.ofInt 32 ((if p then -(m : Int) else m) / 2 ^ (-e).toNat), flags := 0#7 }
      else fpToIntFrac n ((if p then -(m : Int) else m) / 2 ^ (-e).toNat) := by
  rw [fpToInt, h]
  exact (if_neg hs).trans (if_neg he)

end

/-- What `fcvt.w` gives for the number `v`, past the subnormal ones: an integer, in range or not, or a fraction. -/
inductive ConvertsTo (n : Nat) (v : ℚ) : FpOut → Prop
  | integer (i : Int) (hv : v = i) (hlow : -2147483649 < i) (hhigh : i ≤ 2147483647) :
      ConvertsTo n v { value := BitVec.ofInt 32 i, flags := 0#7 }
  | tooLarge (i : Int) (hv : v = i) (h : i ≤ -2147483649 ∨ 2147483647 < i) : ConvertsTo n v (fpToIntOut n)
  | fraction (hv : ∀ i : Int, v ≠ i) (h : |v| < 16777216) : ConvertsTo n v (fpToIntFrac n ⌊v⌋)

/-- An integer divided by a power of two is an integer, or has the quotient as its floor. -/
theorem convertsTo_quotient (n : Nat) {V : Int} {k : Nat} (h : |(V : ℚ) / 2 ^ k| < 16777216) :
    ConvertsTo n ((V : ℚ) / 2 ^ k) (if V % 2 ^ k = 0 then { value := BitVec.ofInt 32 (V / 2 ^ k), flags := 0#7 }
      else fpToIntFrac n (V / 2 ^ k)) := by
  have hk : (2 : ℚ) ^ k ≠ 0 := by positivity
  split
  · rename_i h0
    have hint : (V : ℚ) / 2 ^ k = ((V / 2 ^ k : Int) : ℚ) := by
      rw [div_eq_iff hk]
      exact_mod_cast (Int.ediv_mul_cancel (Int.dvd_of_emod_eq_zero h0)).symm
    rw [hint] at h ⊢
    have hrange : |V / 2 ^ k| < 16777216 := by exact_mod_cast h
    rw [abs_lt] at hrange
    exact .integer _ rfl (by omega) (by omega)
  · rename_i h0
    have hfloor : ⌊(V : ℚ) / 2 ^ k⌋ = V / 2 ^ k := by exact_mod_cast Rat.floor_intCast_div_natCast V (2 ^ k)
    rw [← hfloor]
    refine .fraction (fun i hi => h0 ?_) h
    rw [div_eq_iff hk] at hi
    have hV : V = i * 2 ^ k := by exact_mod_cast hi
    rw [hV, Int.mul_emod_left]

/-- A number with a negative exponent as a quotient. -/
theorem number_eq_div (p : Bool) (m : Nat) {e : Int} (he : e < 0) :
    (if p then (-1 : ℚ) else 1) * m * 2 ^ e = ((if p then -(m : Int) else m : Int) : ℚ) / 2 ^ (-e).toNat := by
  obtain ⟨k, rfl⟩ : ∃ k : Nat, e = -k := ⟨(-e).toNat, by omega⟩
  rw [neg_neg, Int.toNat_natCast, zpow_neg, zpow_natCast, ← div_eq_mul_inv]
  cases p <;> simp

/-- R500: `fcvt.w` of a number, subnormal or not. -/
theorem fpToInt_converts (n : Nat) {a : Word} {v : ℚ} (h : fpNumber a = some v) :
    (v ≠ 0 ∧ |v| < 2 ^ (-126 : ℤ) ∧ fpToInt n a = { value := 0#32, flags := flagNX }) ∨
    (¬ (v ≠ 0 ∧ |v| < 2 ^ (-126 : ℤ)) ∧ ConvertsTo n v (fpToInt n a)) := by
  obtain ⟨p, m, e, ha, rfl, hm⟩ := fpNumber_eq_some h
  by_cases hs : m ≠ 0 ∧ m < 8388608
  · obtain ⟨h0, hlt⟩ := (subnormal_iff ha).1 hs
    exact .inl ⟨h0, hlt, fpToInt_subnormal ha hs⟩
  · refine .inr ⟨mt (subnormal_iff ha).2 hs, ?_⟩
    by_cases he : 0 ≤ e
    · rw [fpToInt_scaled ha hs he, ← fpScaled_cast p m he, zpow_zero, mul_one]
      split
      · exact .tooLarge _ rfl ‹_›
      · exact .integer _ rfl (by omega) (by omega)
    · have hsmall : |(if p then (-1 : ℚ) else 1) * m * 2 ^ e| < 16777216 := by
        have he1 : (2 : ℚ) ^ e ≤ 1 := zpow_le_one_of_nonpos₀ (by norm_num) (by omega)
        have hm' : (m : ℚ) < 16777216 := by exact_mod_cast hm
        rw [abs_number]
        exact (mul_le_of_le_one_right (by positivity) he1).trans_lt hm'
      rw [fpToInt_divided ha hs he]
      rw [number_eq_div p m (not_le.1 he)] at hsmall ⊢
      exact convertsTo_quotient n hsmall

section
variable {n : Nat} {v : ℚ} {o : FpOut} (h : ConvertsTo n v o)
include h

theorem ConvertsTo.of_int {i : Int} (hv : v = i) (hlow : -2147483648 ≤ i) (hhigh : i ≤ 2147483647) :
    o = { value := BitVec.ofInt 32 i, flags := 0#7 } := by
  subst hv
  cases h with
  | integer j hj =>
    obtain rfl : i = j := by exact_mod_cast hj
    rfl
  | tooLarge j hj hout =>
    obtain rfl : i = j := by exact_mod_cast hj
    omega
  | fraction hfrac => exact absurd rfl (hfrac i)

theorem ConvertsTo.of_fraction (hv : ∀ i : Int, v ≠ i) : o = fpToIntFrac n ⌊v⌋ := by
  cases h with
  | integer i hi | tooLarge i hi => exact absurd hi (hv i)
  | fraction => rfl

theorem ConvertsTo.of_tooLarge (hv : v ≤ -2147483649 ∨ 2147483647 < v) : o = fpToIntOut n := by
  cases h with
  | integer i hi hlow hhigh =>
    subst hi
    have hout : i ≤ -2147483649 ∨ 2147483647 < i := by exact_mod_cast hv
    omega
  | tooLarge => rfl
  | fraction hfrac hsmall =>
    rw [abs_lt] at hsmall
    obtain ⟨hlow, hhigh⟩ := hsmall
    obtain hv | hv := hv <;> linarith

end

/-- A subnormal number is neither an integer nor large. -/
theorem normal_of_one_le {v : ℚ} (h : v = 0 ∨ 1 ≤ |v|) : ¬ (v ≠ 0 ∧ |v| < 2 ^ (-126 : ℤ)) := by
  rintro ⟨h0, hlt⟩
  have h1 := h.resolve_left h0
  have hp : (2 : ℚ) ^ (-126 : ℤ) ≤ 1 := zpow_le_one_of_nonpos₀ (by norm_num) (by decide)
  linarith

theorem fpToInt_convertsTo (n : Nat) {a : Word} {v : ℚ} (h : fpNumber a = some v)
    (hn : ¬ (v ≠ 0 ∧ |v| < 2 ^ (-126 : ℤ))) : ConvertsTo n v (fpToInt n a) := by
  obtain ⟨h0, hlt, -⟩ | ⟨-, hc⟩ := fpToInt_converts n h
  · exact absurd ⟨h0, hlt⟩ hn
  · exact hc

/-- R500: `fcvt.w` of an integer of 32 bits. -/
theorem fpToInt_integer (n : Nat) {a : Word} {i : Int} (h : fpNumber a = some (i : ℚ)) (hlow : -2147483648 ≤ i)
    (hhigh : i ≤ 2147483647) : fpToInt n a = { value := BitVec.ofInt 32 i, flags := 0#7 } := by
  have hnormal : (i : ℚ) = 0 ∨ 1 ≤ |(i : ℚ)| := by
    by_cases h0 : i = 0
    · exact .inl (by rw [h0, Int.cast_zero])
    · exact .inr (by exact_mod_cast Int.one_le_abs h0)
  exact (fpToInt_convertsTo n h (normal_of_one_le hnormal)).of_int rfl hlow hhigh

/-- Settles O36: a small integer is converted exactly, and what comes back, as for every number, is `ConvertsTo`. -/
theorem milkSmallIntegersConvertExactly : Obligations.MilkSmallIntegersConvertExactly := by
  refine ⟨fun n k i hlow hhigh => ?small, fun n a v hv => ⟨fun i hi hlow hhigh => ?integer, fun hfrac hmin => ?fraction,
    fun h0 hlt => ?subnormal, fun hout => ?tooLarge⟩, fun n a p h => ?infinite⟩
  case small =>
    obtain ⟨hv, hflags⟩ := fpFromInt_small n (i := i) (by omega)
    refine ⟨hflags, ?_⟩
    rw [fpToInt_integer k hv (by omega) (by omega), BitVec.ofInt_toInt]
  case integer => exact fpToInt_integer n (hi ▸ hv) hlow hhigh
  case fraction =>
    have hnormal : ¬ (v ≠ 0 ∧ |v| < 2 ^ (-126 : ℤ)) := fun ⟨_, hlt⟩ => hmin.not_gt hlt
    rw [(fpToInt_convertsTo n hv hnormal).of_fraction hfrac]
    exact fpToIntFrac_result n ⌊v⌋
  case subnormal =>
    obtain ⟨-, -, h⟩ | ⟨hn, -⟩ := fpToInt_converts n hv
    · exact h
    · exact absurd ⟨h0, hlt⟩ hn
  case tooLarge =>
    have hlarge : v = 0 ∨ 1 ≤ |v| := .inr (le_abs'.2 (by obtain h | h := hout <;> [left; right] <;> linarith))
    rw [(fpToInt_convertsTo n hv (normal_of_one_le hlarge)).of_tooLarge hout]
    exact fpToIntOut_flags n
  case infinite =>
    have hout : fpToInt n a = fpToIntOut n := by rw [fpToInt, h]
    rw [hout]
    exact fpToIntOut_flags n

end Sys2Proof.Machine

end
